-- ==== Sys2Proof/Word.lean ====
section
/-! DEFINITION. Word.lean: the plain types the whole model uses: bytes, complex samples, and `Tab n α`, a table of
exactly `n` entries (00 section 2.2 to 2.4: 40 slots, 32 remotes, 12 break-in modulators and so on). -/

namespace Sys2Proof

abbrev Byte := BitVec 8

/-- A complex sample: signed 16-bit I and Q (00 section 2.1). -/
structure Sample where
  i : BitVec 16
  q : BitVec 16
deriving DecidableEq, Repr

/-- The sample (0, 0). -/
def Sample.zero : Sample := ⟨0, 0⟩

/-- A table of exactly `n` entries, numbered from 0. -/
structure Tab (n : Nat) (α : Type) where
  list : List α
  size_eq : list.length = n
deriving DecidableEq, Repr

namespace Tab

variable {n : Nat} {α β : Type}

def get (t : Tab n α) (i : Fin n) : α := t.list[i.val]'(by rw [t.size_eq]; exact i.isLt)

def set (t : Tab n α) (i : Fin n) (a : α) : Tab n α :=
  ⟨t.list.set i.val a, by rw [List.length_set]; exact t.size_eq⟩

def modify (t : Tab n α) (i : Fin n) (f : α → α) : Tab n α := t.set i (f (t.get i))

/-- The table whose entry `i` is `f i`. -/
def ofFn (f : Fin n → α) : Tab n α := ⟨(List.finRange n).map f, by simp⟩

/-- The table with every entry `a`. -/
def const (n : Nat) (a : α) : Tab n α := ⟨List.replicate n a, by simp⟩

def map (f : α → β) (t : Tab n α) : Tab n β := ⟨t.list.map f, by simp [t.size_eq]⟩

@[simp] theorem get_set_eq (t : Tab n α) (i : Fin n) (a : α) : (t.set i a).get i = a := by
  simp [get, set]

theorem get_set_ne (t : Tab n α) {i j : Fin n} (a : α) (h : i ≠ j) : (t.set i a).get j = t.get j := by
  have h' : i.val ≠ j.val := fun e => h (Fin.ext e)
  simp [get, set, List.getElem_set_ne h']

theorem get_set (t : Tab n α) (i j : Fin n) (a : α) :
    (t.set i a).get j = if i = j then a else t.get j := by
  by_cases h : i = j
  · subst h; simp
  · simp [h, get_set_ne t a h]

@[simp] theorem get_ofFn (f : Fin n → α) (i : Fin n) : (ofFn f).get i = f i := by
  simp [get, ofFn]

@[simp] theorem get_const (a : α) (i : Fin n) : (const n a).get i = a := by
  simp [get, const]

@[simp] theorem get_map (f : α → β) (t : Tab n α) (i : Fin n) : (t.map f).get i = f (t.get i) := by
  simp [get, map]

@[simp] theorem get_modify_eq (t : Tab n α) (i : Fin n) (f : α → α) :
    (t.modify i f).get i = f (t.get i) := by
  simp [modify]

theorem get_modify (t : Tab n α) (i j : Fin n) (f : α → α) :
    (t.modify i f).get j = if i = j then f (t.get i) else t.get j := by
  simp [modify, get_set]

theorem ext_get {t u : Tab n α} (h : ∀ i, t.get i = u.get i) : t = u := by
  cases t with | mk l hl => cases u with | mk l' hl' =>
  have : l = l' := by
    apply List.ext_getElem (by rw [hl, hl'])
    intro k hk hk'
    have := h ⟨k, by rw [← hl]; exact hk⟩
    simpa [get] using this
  subst this; rfl

end Tab

/-- The numbers 0 .. n-1 in order, as indices of a table of n entries. -/
abbrev allFin (n : Nat) : List (Fin n) := List.finRange n

end Sys2Proof
end

