-- ==== Sys2Proof/Config.lean ====
section
/-! DEFINITION. Config.lean: the fixed durations in reference-clock ticks (00 section 2.1), the fixed sizes, and the
free values: constants with no body for what the manual does not fix (R1, R20, R209). -/

namespace Sys2Proof.Config

/-- One millisecond in ticks of the 24.576 MHz clock. -/
abbrev ms : Nat := 24576
/-- Link frame (125 µs). -/
abbrev framePeriod : Nat := 3072
/-- One FIFO word: 48 words in a frame (02 section 2.3). -/
abbrev wordPeriod : Nat := 64
/-- Level window (R7). -/
abbrev windowPeriod : Nat := 245760
/-- Supervision window (R40). -/
abbrev supervisionPeriod : Nat := 24576000
/-- Voting frame (R156). -/
abbrev votingPeriod : Nat := 491520
/-- Play instant, 32 kHz (R126). -/
abbrev playPeriod : Nat := 768
/-- ACK timer, 20 ms (R27). -/
abbrev ackTime : Nat := 491520
/-- Marker record life and JOINING marker spacing, 10 ms (R30). -/
abbrev markerFast : Nat := 245760
/-- Marker spacing in service, 100 ms (R30). -/
abbrev markerSlow : Nat := 2457600
/-- Silence timer, 50 ms (R34). -/
abbrev silenceTime : Nat := 1228800
/-- Join timer, 2 s (R34). -/
abbrev joinTime : Nat := 49152000
/-- Staging timer of a route exchange, 100 ms (R60). -/
abbrev stagingTime : Nat := 2457600
/-- Reach settle timer, 100 ms (R120). -/
abbrev settleTime : Nat := 2457600
/-- Page program timeout, 10 ms (R209). -/
abbrev programTimeout : Nat := 245760
/-- Sector erase timeout, 2 s (R209). -/
abbrev eraseTimeout : Nat := 49152000

/-- Shared memory: 64 MiB (R168). -/
abbrev memSize : Nat := 67108864
/-- One page of the anchor's areas (R173). -/
abbrev pageSize : Nat := 4096
/-- Audio FIFO (06 section 6.1). -/
abbrev fifoSize : Nat := 2048

/-- What the free filter of a slot depends on: the output rate in kS/s, the centre offset in kHz, the bandwidth class. -/
structure Tuning where
  rate : Nat
  offset : Int
  bandwidth : Nat
deriving DecidableEq, Repr

/-! Free values. No body: nothing can be proved of them but what holds of every value (R1; logs 5, 6 and 37). -/

/-- State of a slot's mixer and filter at a restart (R1, R5). -/
opaque filterStart : Tuning → Nat
/-- Its state after one more donor sample (R1). -/
opaque filterNext : Tuning → Nat → Sample → Nat
/-- The filtered sample the state delivers, I component (R1). -/
opaque filterI : Tuning → Nat → BitVec 16
/-- The filtered sample the state delivers, Q component (R1). -/
opaque filterQ : Tuning → Nat → BitVec 16
/-- Donor samples before a restarted slot's first output: the decimation phase (R1). -/
opaque decimStart : Tuning → Nat
/-- State of a slot's uplink interpolator after the samples of one read instant (R1, R16). -/
opaque interpNext : Tuning → Nat → List Sample → Nat
/-- Contribution of a slot to sample `j` of its donor output in that instant, I component (R1, R16). -/
opaque interpI : Tuning → Nat → Nat → Int
/-- The same, Q component. -/
opaque interpQ : Tuning → Nat → Nat → Int
/-- The alignment word of a frame, a fixed pattern (R20). -/
opaque alignmentWord : Nat
/-- Byte left at a flash offset by a sector erase that timed out, and the bits that a page program that timed out has left at 1 where
they were 1; the first argument numbers the timeout (R209, R195). -/
opaque flashByte : Nat → Nat → BitVec 8

end Sys2Proof.Config
end

