-- ==== Sys2Proof/Syntax.lean ====
section
/-! DEFINITION. Syntax.lean: the commands. One constructor of `Instr` per row of spec/opcode_table.json, in the table's
order, with the row's operands. -/

namespace Sys2Proof

/-- Reload scope of a soft reset or boot (R170). -/
inductive Scope where
  | full | safety | carriers | none
deriving DecidableEq, Repr

/-- Kinds of downstream message, in the order that fixes the ages of one event's entries (R26). -/
inductive MsgKind where
  | mark | map | switch | gate | hold | level | subst | pattern
deriving DecidableEq, Repr

/-- Kind and key of a downstream message (02 section 2.4); the key is 0 for a kind that has none. -/
structure MsgId where
  kind : MsgKind
  key : Nat
deriving DecidableEq, Repr

/-- The commands and events of the 2780. -/
inductive Instr where
  | powerOnReset
  | pcieLinkLoss
  | pcieLinkReturn
  | hostMemoryWrite (addr : Nat) (data : List Byte)
  | ieWrite (ie : Bool)
  | start (ie : Bool)
  | softReset (ie : Bool) (scope : Scope)
  | registerWriteIgnored (offset : Nat) (value : BitVec 32)
  | revisionNoticeTake
  | cue
  | cancel
  | cueCellNoAction
  | clearOnes
  | snapshot
  | portReset
  | patternStart
  | patternStop
  | errorInsert
  | rereference
  | flashRead
  | flashWrite
  | flashErase
  | badCommand
  | maintNoticeNoAction
  | frameLaunch
  | alignmentWord (port : Fin 4) (good : Bool)
  | lightAndLock (port : Fin 4)
  | lossOfLightOrLock (port : Fin 4)
  | codeViolation (port : Fin 4)
  | uplinkWordArrival (port : Fin 4) (word : List Sample)
  | fifoRead
  | echo (remote : Fin 32) (seq : BitVec 8) (turnaround : BitVec 16)
  | ack (remote : Fin 32) (kind : Byte) (key : Byte) (seq : BitVec 6)
  | quality (remote : Fin 32) (slot : Fin 8) (q : Byte)
  | alarm (remote : Fin 32) (paFault : Bool) (overTemp : Bool)
  | pcount (remote : Fin 32) (value : BitVec 16)
  | controlCheckFailure (remote : Fin 32)
  | ackTimerExpiry (remote : Fin 32) (id : MsgId)
  | nextMarkOffer (remote : Fin 32)
  | markerRecordExpiry (remote : Fin 32)
  | silenceTimerExpiry (remote : Fin 32)
  | joinTimerExpiry (remote : Fin 32)
  | supervisionWindowClose
  | levelWindowClose
  | stagingTimerExpiry
  | votingFrameEnd (slot : Fin 8)
  | reachSettleExpiry (source : Fin 8)
  | playInstant (source : Fin 8)
  | audSampleArrival (input : Fin 2) (value : BitVec 16)
  | sharedClipBlockDone (source : Fin 8)
  | lineRisingEdge (line : Fin 3)
  | lineFallingEdge (line : Fin 3)
  | flashStatusReadDone (status : Byte)
  | flashIdentReadDone (b0 b1 b2 : Byte)
  | bootHeaderReadDone
  | bootRecord
  | bootDirectoryReadDone
  | clipReadDone
  | flashReadDataDone
  | pageProgramDone
  | sectorEraseDone
  | flashTimeout
  | directoryReloadDone
  | donorSample (di0 di1 : Sample)
deriving DecidableEq, Repr

end Sys2Proof
end

