-- ==== Sys2Proof/WellFormed.lean ====
section
/-! DEFINITION. WellFormed.lean: which commands an outside agent can send. Ranges that the types already give are not
repeated here. -/

namespace Sys2Proof

/-- The keys a downstream message kind has (02 section 2.5, 10 section 10.10). -/
def MsgId.wf (m : MsgId) : Bool :=
  match m.kind with
  | .map => m.key < 40
  | .subst => m.key < 8
  | .level => m.key < 2
  | .mark | .switch | .gate | .hold | .pattern => m.key == 0

/-- A command as its row allows it: a host write of at least one byte inside the 64 MiB window (R168); an ignored
register write inside the register window and not to CONTROL (R169); an uplink word of at most 320 lanes (R24); an ACK
timer of a message kind that is acknowledged (R27). -/
def Instr.wf (i : Instr) : Bool :=
  match i with
  | .hostMemoryWrite addr data => !data.isEmpty && decide (addr + data.length ≤ Config.memSize)
  | .registerWriteIgnored offset _ => decide (offset < 4096) && offset != 4
  | .uplinkWordArrival _ word => decide (word.length ≤ 320)
  | .ackTimerExpiry _ id => id.wf && decide (id.kind ≠ .mark)
  | .powerOnReset | .pcieLinkLoss | .pcieLinkReturn | .ieWrite _ | .start _ | .softReset _ _ | .revisionNoticeTake
  | .cue | .cancel | .cueCellNoAction | .clearOnes | .snapshot | .portReset | .patternStart | .patternStop
  | .errorInsert | .rereference | .flashRead | .flashWrite | .flashErase | .badCommand | .maintNoticeNoAction
  | .frameLaunch | .alignmentWord _ _ | .lightAndLock _ | .lossOfLightOrLock _ | .codeViolation _ | .fifoRead
  | .echo _ _ _ | .ack _ _ _ _ | .quality _ _ _ | .alarm _ _ _ | .pcount _ _ | .controlCheckFailure _
  | .nextMarkOffer _ | .markerRecordExpiry _ | .silenceTimerExpiry _ | .joinTimerExpiry _ | .supervisionWindowClose
  | .levelWindowClose | .stagingTimerExpiry | .votingFrameEnd _ | .reachSettleExpiry _ | .playInstant _
  | .audSampleArrival _ _ | .sharedClipBlockDone _ | .lineRisingEdge _ | .lineFallingEdge _ | .flashStatusReadDone _
  | .flashIdentReadDone _ _ _ | .bootHeaderReadDone | .bootRecord | .bootDirectoryReadDone | .clipReadDone
  | .flashReadDataDone | .pageProgramDone | .sectorEraseDone | .flashTimeout | .directoryReloadDone
  | .donorSample _ _ => true

end Sys2Proof
end

