-- ==== Sys2Proof/Decode.lean ====
section
/-! DEFINITION. Decode.lean: from bits to commands. The opcode table gives no row any bits, so no table word spells a
command. What the 2780 does decode stands here: a host write of a register (R169, R170), and an upstream message
position of a link frame (R21, R215). -/

namespace Sys2Proof

/-- No row of the opcode table has bits. -/
def decodeTableWord (_nbits _w : Nat) : Option Instr := none

/-! ### Registers -/

/-- The two-bit reload scope field (10 section 10.2). -/
def scopeOfCode (c : BitVec 2) : Scope :=
  if c = 0 then .full else if c = 1 then .safety else if c = 2 then .carriers else .none

/-- The command that a host write of a register is (R169, R170): CONTROL at 04h, every other offset ignored. -/
def registerWrite (offset : Nat) (value : BitVec 32) : Instr :=
  if offset = 4 then
    if value.getLsbD 2 then .softReset (value.getLsbD 0) (scopeOfCode (value.extractLsb' 4 2))
    else if value.getLsbD 1 then .start (value.getLsbD 0)
    else .ieWrite (value.getLsbD 0)
  else .registerWriteIgnored offset value

/-! ### Link messages -/

/-- One bit step of the CRC-8 with polynomial x^8 + x^2 + x + 1 (10 section 10.10). -/
def crcStep (c : Byte) : Byte := if c.getLsbD 7 then (c <<< 1) ^^^ 0x07 else c <<< 1

/-- One byte, most significant bit first. -/
def crcByte (c b : Byte) : Byte :=
  crcStep (crcStep (crcStep (crcStep (crcStep (crcStep (crcStep (crcStep (c ^^^ b))))))))

/-- The check over a message's bytes, initial value 00h. -/
def crc8 (bytes : List Byte) : Byte := bytes.foldl crcByte 0

/-- The event that an upstream message position is (R21, R215): none for the empty code, a control check failure for a
bad check, a kind code above 5, or a QUALITY key above 7. -/
def upstreamPosition (r : Fin 32) (b : List Byte) : Option Instr :=
  let at' := fun k => b.getD k 0
  let word := fun k => (at' k).setWidth 16 ||| ((at' (k + 1)).setWidth 16 <<< 8)
  if at' 0 = 0 then none
  else if crc8 (b.take 7) ≠ at' 7 then some (.controlCheckFailure r)
  else if at' 0 = 1 then some (.echo r (at' 3) (word 4))
  else if at' 0 = 2 then some (.ack r (at' 3) (at' 1) ((at' 2).setWidth 6))
  else if at' 0 = 3 then
    if h : (at' 1).toNat < 8 then some (.quality r ⟨(at' 1).toNat, h⟩ (at' 3)) else some (.controlCheckFailure r)
  else if at' 0 = 4 then some (.alarm r ((at' 3).getLsbD 0) ((at' 3).getLsbD 1))
  else if at' 0 = 5 then some (.pcount r (word 3))
  else some (.controlCheckFailure r)

end Sys2Proof
end

