-- ==== Sys2Proof/Machine/State.lean ====
section
/-! DEFINITION. Machine/State.lean: the state of the 2780, block by block (00 section 1.3), the queue of waiting
commands, the faults and refusals, and the state right after power-on reset. Plain data throughout. -/

namespace Sys2Proof.Machine

open Sys2Proof

/-! ### Names of states and codes -/

/-- Part state (R171). -/
inductive PartState where
  | booting | autonomous | linked
deriving DecidableEq, Repr

/-- Contents of CAUSE (R172). -/
inductive Cause where
  | startEarly | badSignature | badVersion | areaMisaligned | areaOutside | areaOverlap | scopeInvalid | noneSinceReset
deriving DecidableEq, Repr

/-- Boot outcome (R203); `none` until the first boot completes. -/
inductive BootOutcome where
  | none | loaded | noFlash | blank | badFormat | badLength
deriving DecidableEq, Repr

/-- The six host tables, in revision cell order (R184). -/
inductive TableId where
  | channel | remote | route | source | programme | rescue
deriving DecidableEq, Repr

/-- Take-up refusal causes (08 section 8.7). -/
inductive TakeUpCause where
  | slotKind | badFrequency | badZone | lanesExceeded | uplinkLanesExceeded
deriving DecidableEq, Repr

/-- A watched cell (R178): the revision cell, a cue cell, the maintenance cell or a status cell. -/
inductive WatchCell where
  | revision
  | cue (n : Fin 8)
  | maint
  | status (i : Fin 85)
deriving DecidableEq, Repr

/-- Slot kinds (R1). -/
inductive SlotKind where
  | off | programme | rescue | carrier
deriving DecidableEq, Repr

/-- Port states (R22). -/
inductive PortState where
  | dark | aligning | running
deriving DecidableEq, Repr

/-- What the reads of an elastic FIFO do (R24): the filling after RUNNING, normal delivery, the refill after an underflow. -/
inductive FifoMode where
  | starting | delivering | refilling
deriving DecidableEq, Repr

/-- Remote states (02 section 2.7). -/
inductive RemoteState where
  | absent | joining | inService | impaired | lost
deriving DecidableEq, Repr

/-- Phases of the route exchange (03 section 3.4). -/
inductive ExPhase where
  | idle | staging | switching
deriving DecidableEq, Repr

/-- Audio phases of a service (R126). -/
inductive AudioPhase where
  | priming | playing | gap | silent
deriving DecidableEq, Repr

/-- End reasons (R134). -/
inductive EndReason where
  | none | finished | cancelled | disabled | lineDropped | reset
deriving DecidableEq, Repr

/-! ### Link messages -/

/-- A hold, or OFF (R147). -/
inductive HoldVal where
  | ticks (n : Nat)
  | off
deriving DecidableEq, Repr

/-- Contents of a MAPPED MAP (R57). -/
structure MapBody where
  lane : Nat
  trim : Nat
  uplink : Bool
  upLane : Nat
deriving DecidableEq, Repr

/-- A downstream message with its contents (02 section 2.4). `none` stands for UNMAPPED, THROUGH and STOP. -/
inductive DownMsg where
  | mark
  | map (slot : Fin 40) (body : Option MapBody)
  | switch
  | gate (threshold : Nat)
  | hold (value : HoldVal)
  | level (carrier : Bool) (step : Nat)
  | subst (programme : Fin 8) (lane : Option Nat)
  | pattern (lane : Option Nat)
deriving DecidableEq, Repr

/-- An entry of an outbound control queue (02 section 2.5). `joined` is the event at which it joined the queue, and the
queue's order is its age; `sent` is AWAITING_ACK. -/
structure QEntry where
  msg : DownMsg
  joined : Nat
  sent : Bool
  count : Nat
  seq : Option (BitVec 6)
  ackDue : Option Nat
deriving DecidableEq, Repr

/-! ### Tables -/

/-- Entry of the working channel table (01 section 1.2). Fields that do not apply to the kind are 0. -/
structure ChanEntry where
  kind : SlotKind
  donor : Bool
  bandwidth : Nat
  step : Nat
  upStep : Nat
  keyThreshold : Nat
  offset : Int
deriving DecidableEq, Repr

/-- Entry of the working remote table (03 section 3.1). -/
structure RemoteEntry where
  enabled : Bool
  zone : Fin 16
  budget : Nat
  gate : Nat
  impairment : Nat
deriving DecidableEq, Repr

/-- Entry of the route table (03 section 3.2). -/
structure RouteEntry where
  routed : Bool
  uplink : Bool
  trim : Nat
deriving DecidableEq, Repr

/-- A route table: for each slot and each remote, one entry. -/
abbrev Routes := Tab 40 (Tab 32 RouteEntry)

/-- Entry of the working programme table (05 section 5.2). `drop` is DROP_CARRIER. -/
structure ProgEntry where
  limit : Nat
  kDev : Nat
  lossThreshold : Nat
  drop : Bool
deriving DecidableEq, Repr

/-- Origin as a cue or a default names it (06 sections 6.1 and 6.3). -/
inductive ReqOrigin where
  | none
  | shared (addr len : Nat)
  | flash (id : Nat)
  | line
deriving DecidableEq, Repr

/-- Origin as a service runs with it (R125): a FLASH id resolved to the clip's place. -/
inductive Origin where
  | none
  | shared (addr len : Nat)
  | flash (offset len : Nat)
  | line
deriving DecidableEq, Repr

/-- Entry of the working source table (06 section 6.1). `latched` is trigger LATCHED, `again` retrigger AGAIN. -/
structure SrcEntry where
  enabled : Bool
  latched : Bool
  again : Bool
  overlay : Bool
  duck : Nat
  announce : Nat
  zones : BitVec 16
  progs : BitVec 8
  origin : ReqOrigin
  repeats : Nat
  gap : Nat
  lineUse : Bool
deriving DecidableEq, Repr

/-- Slot entry of the working rescue table (07 section 7.2). -/
structure RescueEntry where
  hysteresis : Nat
  spliceLimit : Nat
deriving DecidableEq, Repr

/-! ### Shared memory and the SMC -/

/-- Bytes by address, rising addresses, no entry equal to the byte an unlisted address reads as (log 3). -/
abbrev Memory := List Host.Cell

/-- The layout an anchor gives: the twelve bases in anchor order (R173). -/
structure Layout where
  revision : Nat
  cues : Nat
  maint : Nat
  status : Nat
  news : Nat
  snapshot : Nat
  channel : Nat
  remote : Nat
  route : Nat
  source : Nat
  programme : Nat
  rescue : Nat
deriving DecidableEq, Repr

/-- The last refusal record of the part cell (R185). -/
structure TableRefusal where
  table : TableId
  word : BitVec 32
  index : Nat
  cause : TakeUpCause
deriving DecidableEq, Repr

/-- The boot result (R203). -/
structure BootResult where
  outcome : BootOutcome
  scope : Scope
  sizeCode : Nat
  ignored : Nat
  tail : Bool
  failedChannel : Bool
  failedRemote : Bool
  failedRoute : Bool
  firstFailure : Option (TableId × Nat × TakeUpCause)
  validClips : Nat
deriving DecidableEq, Repr

/-- Which flash command (R207 to R209). -/
inductive FlashKind where
  | read | write | erase
deriving DecidableEq, Repr

/-- Flash work in flight: the next flash offset and shared-memory address, bytes or sectors still to issue, whether a
directory sector was touched, whether the directory reload is due next, and whether it timed out (R207 to R210). -/
structure FlashJob where
  kind : FlashKind
  off : Nat
  addr : Nat
  left : Nat
  touched : Bool
  reload : Bool
  timedOut : Bool
deriving DecidableEq, Repr

/-- The work of a maintenance command that did not complete at its take (R188). -/
inductive MaintWork where
  | errorInsert
  | flash (job : FlashJob)
deriving DecidableEq, Repr

/-- The maintenance command in flight: the recorded cell address and tag (R188). -/
structure MaintJob where
  addr : Nat
  tag : BitVec 32
  work : MaintWork
deriving DecidableEq, Repr

/-- Host Port (08 section 8.1). `messages` counts the interrupt messages sent (R183). -/
structure Hp where
  ie : Bool
  linkUp : Bool
  messages : Nat
deriving DecidableEq, Repr

/-- Shared Memory Controller (08). -/
structure Smc where
  state : PartState
  cause : Cause
  scope : Scope
  mem : Memory
  layout : Option Layout
  notices : List WatchCell
  masks : Tab 85 (BitVec 32)
  latches : Tab 85 (BitVec 32)
  news : Tab 85 Bool
  lastReq : Tab 6 (BitVec 32)
  deferred : Tab 6 Bool
  taken : Tab 6 (BitVec 32)
  lastRefusal : Option TableRefusal
  job : Option MaintJob
  overrun : Bool
  bootMark : Bool
  bootResult : BootResult
deriving DecidableEq, Repr

/-! ### Channel Bank and Level Meter -/

/-- One channel slot (01). `on` is KEYED or PRESENT; `rise` the above or good count; `fall` the below or loss count;
`partialWin` marks a partial window (R8); `filter`, `decim`, `interp` hold the state of the free filters (log 6). -/
structure Slot where
  pOut : Nat
  pIn : Nat
  on : Bool
  rise : Nat
  fall : Nat
  partialWin : Bool
  sumOut : Nat
  sumIn : Nat
  clip : Nat
  lastClip : Nat
  filter : Nat
  decim : Nat
  out : List Sample
  upOut : List Sample
  interp : Nat
deriving DecidableEq, Repr

/-- CB and LM. -/
structure Lm where
  chan : Tab 40 ChanEntry
  slots : Tab 40 Slot
  windowSeq : BitVec 16
  windowDue : Nat
  donorOut : Tab 2 (List Sample)
deriving DecidableEq, Repr

/-! ### Link Ports -/

/-- What a block of lanes of a launched frame carries (R20, 03 section 3.6). -/
inductive Stream where
  | slot (s : Fin 40)
  | version (bim : Fin 12)
  | pattern
deriving DecidableEq, Repr

/-- A block of lanes of a launched frame with the samples it carries. Lanes in no block carry zeros. -/
structure LaneRun where
  first : Nat
  width : Nat
  stream : Stream
  samples : List Sample
deriving DecidableEq, Repr

/-- A launched downstream frame: launch tick, alignment word, eight message positions of 8 bytes, lanes (R20). -/
structure Frame where
  tick : Nat
  align : Nat
  positions : List (List Byte)
  lanes : List LaneRun
deriving DecidableEq, Repr

/-- One link port (02). -/
structure Port where
  state : PortState
  good : Nat
  bad : Nat
  fifo : List (List Sample)
  mode : FifoMode
  near : Bool
  codeViol : Nat
  alignLoss : Nat
  slips : Nat
  word : List Sample
  frame : Option Frame
deriving DecidableEq, Repr

/-- Link Ports. -/
structure Lp where
  ports : Tab 4 Port
  frameDue : Nat
  readDue : Nat
  readNo : Nat
deriving DecidableEq, Repr

/-! ### Remote Supervisor -/

/-- An open marker record (R30). -/
structure MarkRecord where
  seq : BitVec 8
  launch : Nat
deriving DecidableEq, Repr

/-- One remote as the RS keeps it (02). `moveUp` is the side of the movement run `moveRun` counts (R32). -/
structure Remote where
  state : RemoteState
  locked : Bool
  joinSwitch : Bool
  d : Nat
  paFault : Bool
  overTemp : Bool
  queue : List QEntry
  sendCtr : BitVec 6
  markSeq : BitVec 8
  record : Option MarkRecord
  markDue : Option Nat
  silenceDue : Option Nat
  joinDue : Option Nat
  lockRun : List Nat
  moveUp : Bool
  moveRun : Nat
  winFail : Nat
  goodWin : Nat
  checkFails : Nat
  misses : Nat
  patErrs : Nat
deriving DecidableEq, Repr

/-- The running test (02 section 2.10). `lfsr` is the 15-stage generator; `acked` that its PATTERN has been acknowledged. -/
structure Test where
  port : Fin 4
  pos : Fin 8
  lane : Fin 12
  last : Nat
  acked : Bool
  lfsr : BitVec 15
deriving DecidableEq, Repr

/-- Remote Supervisor. -/
structure Rs where
  remotes : Tab 32 Remote
  superDue : Nat
  test : Option Test
  snapSeq : BitVec 16
deriving DecidableEq, Repr

/-! ### Route Planner -/

/-- A version request: a BIM and its pair (03 section 3.6). -/
structure VersionReq where
  bim : Fin 12
  src : Fin 8
  prog : Fin 8
deriving DecidableEq, Repr

/-- State of a reserve lane (03 section 3.6). -/
inductive LaneState where
  | free
  | version (r : VersionReq)
  | pattern
deriving DecidableEq, Repr

/-- One port's reserve-lane pool: lanes 308 to 319 and the waiting set. -/
structure Pool where
  lanes : Tab 12 LaneState
  waiting : List VersionReq
deriving DecidableEq, Repr

/-- Route Planner (03). `newBoot` marks the exchange of a boot load; `bootRows` are the rows of a boot load that waits. -/
structure Rp where
  remoteTab : Tab 32 RemoteEntry
  routes : Routes
  phase : ExPhase
  newRoutes : Routes
  newWord : BitVec 32
  newBoot : Bool
  staged : List (Fin 32)
  switching : List (Fin 32)
  switchSent : List (Fin 32)
  stagingDue : Nat
  bootRows : Option (Tab 160 (Option (List Byte)))
  pools : Tab 4 Pool
deriving DecidableEq, Repr

/-! ### Level Budget Unit -/

/-- A remote budget record (04 section 4.3). -/
structure Budget where
  progStep : Nat
  carStep : Nat
  progTarget : Nat
  carTarget : Nat
  progConfirmed : Nat
  carConfirmed : Nat
  effective : Nat
  sumR : Nat
  sumP : Nat
  sumC : Nat
  rescueOver : Bool
  short : Bool
  evalSeq : BitVec 16
deriving DecidableEq, Repr

/-! ### Programme Modulators -/

/-- Demodulator and main modulator of one programme (05). `half` is the first filter sample of the pair in hand. -/
structure Modulator where
  ref : Sample
  half : Option Sample
  phase : BitVec 32
  clamp : Nat
  lastClamp : Nat
deriving DecidableEq, Repr

/-- A break-in modulator: FREE (`pair` none) or ASSIGNED (R96). -/
structure Bim where
  pair : Option (Fin 8 × Fin 8)
  phase : BitVec 32
  audio : BitVec 16
  out : List Sample
deriving DecidableEq, Repr

/-- Programme Modulators. -/
structure Pm where
  table : Tab 8 ProgEntry
  mods : Tab 8 Modulator
  bims : Tab 12 Bim
deriving DecidableEq, Repr

/-! ### Break-In Controller -/

/-- A resolved cue request (R116). -/
structure CueReq where
  zones : BitVec 16
  progs : BitVec 8
  origin : ReqOrigin
  repeats : Nat
  gap : Nat
deriving DecidableEq, Repr

/-- Pending record, service record and audio of one source (06). `origin` is none before the first service. `fetchPos`
counts samples fetched of the pass being fetched, `fetched` the passes fetched, `onWay` a SHARED block read in flight
(its samples), `played` the samples delivered of the pass playing, `gapLeft` the play instants left of a gap. -/
structure Source where
  lineReq : Bool
  cueReq : Option CueReq
  cancelHold : Bool
  inService : Bool
  zones : BitVec 16
  progs : BitVec 8
  origin : Option Origin
  repeats : Nat
  gap : Nat
  repeatsLeft : Nat
  seq : BitVec 16
  unreached : BitVec 32
  ending : Bool
  endReason : EndReason
  underruns : Nat
  settleDue : Option Nat
  settled : Bool
  audioPhase : AudioPhase
  playDue : Nat
  fifo : List (BitVec 16)
  fetchPos : Nat
  fetched : Nat
  onWay : Nat
  played : Nat
  gapLeft : Nat
deriving DecidableEq, Repr

/-- What a remote takes for a programme (05 section 5.7). -/
inductive DelivVal where
  | through
  | lane (n : Nat) (src : Fin 8)
deriving DecidableEq, Repr

/-- Delivery record; `acked` none is UNKNOWN (05 section 5.7). -/
structure Delivery where
  desired : DelivVal
  offered : Option DelivVal
  acked : Option DelivVal
deriving DecidableEq, Repr

/-- Break-In Controller. `alarmMasked`: no source table since power-on has given S0 line use, or enabled S0 under an enabled master
(the model's record for R136, log 50). -/
structure Bic where
  master : Bool
  table : Tab 8 SrcEntry
  lines : Tab 3 Bool
  sources : Tab 8 Source
  zoneSel : Tab 16 (Tab 8 (Option (Fin 8 × Fin 12)))
  delivery : Tab 32 (Tab 8 Delivery)
  alarmMasked : Bool
deriving DecidableEq, Repr

/-! ### Simulcast Reference Unit and Uplink Voter -/

/-- Hold record of a remote (07 section 7.4); `acked` none is UNKNOWN. -/
structure HoldRec where
  holding : Bool
  hold : Option HoldVal
  late : Bool
  offered : Option HoldVal
  acked : Option HoldVal
deriving DecidableEq, Repr

/-- Simulcast Reference Unit. -/
structure Sru where
  tRef : Nat
  refSeq : BitVec 16
  keyed : Tab 8 Bool
  guardTicks : Nat
  table : Tab 8 RescueEntry
  holds : Tab 32 HoldRec
deriving DecidableEq, Repr

/-- One voter (07 section 7.6). `hist` holds each remote's aligned samples, newest first; `outs` the output samples,
newest first. -/
structure Voter where
  sel : Option (Fin 32)
  offset : Int
  due : Nat
  seq : BitVec 16
  cur : Tab 32 (Option Nat)
  last : Tab 32 (Option Nat)
  best : Option (Fin 32)
  hist : Tab 32 (List Sample)
  outs : List Sample
deriving DecidableEq, Repr

/-! ### Flash Port and Boot Loader -/

/-- A valid clip directory entry (R204). -/
structure Clip where
  off : Nat
  len : Nat
deriving DecidableEq, Repr

/-- A clip read a source waits for: flash offset and byte count (R206). -/
structure ClipRead where
  off : Nat
  count : Nat
deriving DecidableEq, Repr

/-- A flash transaction (R195). -/
inductive Txn where
  | bootStatus
  | bootIdent
  | bootHeader
  | bootRecord (n : Nat)
  | bootDirectory
  | clip (src : Fin 8) (r : ClipRead)
  | maintRead (off addr count : Nat)
  | program (off : Nat) (data : List Byte) (due : Nat)
  | erase (off : Nat) (due : Nat)
  | reload
deriving DecidableEq, Repr

/-- The transaction on the port; `discard` when its bytes are discarded at its end (R196, R206). -/
structure Holder where
  txn : Txn
  discard : Bool
deriving DecidableEq, Repr

/-- Staging copies: the 12 data bytes of every entry as written (R199, R200). -/
structure Staging where
  chan : Tab 40 (List Byte)
  remote : Tab 32 (List Byte)
  route : Tab 160 (List Byte)
  source : Tab 9 (List Byte)
  programme : Tab 8 (List Byte)
  rescue : Tab 9 (List Byte)
deriving DecidableEq, Repr

/-- The staged tables after their group checks and forms (R201). -/
structure Checked where
  chan : Tab 40 ChanEntry
  remote : Tab 32 RemoteEntry
  routes : Routes
  master : Bool
  source : Tab 8 SrcEntry
  programme : Tab 8 ProgEntry
  guardTicks : Nat
  rescue : Tab 8 RescueEntry
deriving DecidableEq, Repr

/-- What the boot loader does next (R196 to R204). -/
inductive BootStage where
  | status | ident | header | records (n : Nat) | directory
deriving DecidableEq, Repr

/-- The boot record (09 section 9.2). -/
structure BootRec where
  scope : Scope
  stage : BootStage
  count : Nat
  dirOffset : Nat
  staging : Staging
  ignored : Nat
  tail : Bool
  failedChannel : Bool
  failedRemote : Bool
  failedRoute : Bool
  firstFailure : Option (TableId × Nat × TakeUpCause)
  checked : Option Checked
deriving DecidableEq, Repr

/-- Flash Port and Boot Loader (09). `chip` holds the flash's bytes that differ from FFh (log 4). -/
structure Fb where
  present : Bool
  sizeCode : Nat
  dir : Tab 16 (Option Clip)
  dirOffset : Option Nat
  holder : Option Holder
  waiting : Tab 8 (Option ClipRead)
  mark : Fin 8
  boot : Option BootRec
  chip : Memory
deriving DecidableEq, Repr

/-! ### The whole -/

/-- The 2780: its thirteen blocks, the clock, and the model's own counters (`eventNo`, `freeNo`). -/
structure Dev where
  now : Nat
  eventNo : Nat
  freeNo : Nat
  hp : Hp
  smc : Smc
  lm : Lm
  lp : Lp
  rs : Rs
  rp : Rp
  lbu : Tab 32 Budget
  pm : Pm
  bic : Bic
  sru : Sru
  uv : Tab 8 Voter
  fb : Fb
deriving DecidableEq, Repr

/-- The machine: the 2780 and the commands that wait, first in first out. -/
structure State where
  dev : Dev
  pending : List Instr
deriving DecidableEq, Repr

/-- Why a command stops the machine. -/
inductive Fault where
  /-- Raised by HOST_MEMORY_WRITE for a byte past the 64 MiB window of R168 (DESIGN CHOICE, log 33). Safe. -/
  | outsideWindow
deriving DecidableEq, Repr

/-- Why the model has no meaning for a command. -/
inductive Refusal where
  /-- Raised by `exec` for a command that has no meaning yet. No command raises it. Safe. -/
  | notModelled (mnemonic : String)
deriving DecidableEq, Repr

/-! ### Reset values -/

/-- An OFF slot's entry (R18). -/
def ChanEntry.empty : ChanEntry := ⟨.off, false, 0, 0, 0, 0, 0⟩

/-- R70. -/
def RemoteEntry.empty : RemoteEntry := ⟨false, 0, 0, 0, 0⟩

/-- R70. -/
def RouteEntry.empty : RouteEntry := ⟨false, false, 0⟩

/-- Every entry unrouted (R70). -/
def Routes.empty : Routes := Tab.const 40 (Tab.const 32 RouteEntry.empty)

/-- The empty entry of 05 section 5.2. -/
def ProgEntry.empty : ProgEntry := ⟨0, 0, 0, false⟩

/-- The empty entry of 06 section 6.1. -/
def SrcEntry.empty : SrcEntry := ⟨false, false, false, false, 0, 0, 0, 0, .none, 0, 0, false⟩

/-- The empty entry of 07 section 7.2. -/
def RescueEntry.empty : RescueEntry := ⟨0, 0⟩

/-- R18. -/
def Slot.reset : Slot := ⟨0, 0, false, 0, 0, false, 0, 0, 0, 0, 0, 0, [], [], 0⟩

/-- R50. -/
def Port.reset : Port := ⟨.dark, 0, 0, [], .starting, false, 0, 0, 0, [], none⟩

/-- R50. -/
def Remote.reset : Remote :=
  { state := .absent, locked := false, joinSwitch := false, d := 0, paFault := false, overTemp := false, queue := [],
    sendCtr := 0, markSeq := 0, record := none, markDue := none, silenceDue := none, joinDue := none, lockRun := [],
    moveUp := false, moveRun := 0, winFail := 0, goodWin := 0, checkFails := 0, misses := 0, patErrs := 0 }

/-- R70. -/
def Pool.reset : Pool := ⟨Tab.const 12 .free, []⟩

/-- R87. -/
def Budget.reset : Budget := ⟨0, 0, 0, 0, 0, 0, 0, 0, 0, 0, false, false, 0⟩

/-- R108. -/
def Modulator.reset : Modulator := ⟨Sample.zero, none, 0, 0, 0⟩

/-- R108. -/
def Bim.reset : Bim := ⟨none, 0, 0, []⟩

/-- R136. -/
def Source.reset : Source :=
  { lineReq := false, cueReq := none, cancelHold := false, inService := false, zones := 0, progs := 0, origin := none,
    repeats := 0, gap := 0, repeatsLeft := 0, seq := 0, unreached := 0, ending := false, endReason := .none,
    underruns := 0, settleDue := none, settled := false, audioPhase := .silent, playDue := 0, fifo := [],
    fetchPos := 0, fetched := 0, onWay := 0, played := 0, gapLeft := 0 }

/-- R108: the part cannot know what a remote kept from before the reset. -/
def Delivery.reset : Delivery := ⟨.through, none, none⟩

/-- R163. -/
def HoldRec.reset : HoldRec := ⟨false, none, false, none, none⟩

/-- R164. -/
def Voter.reset : Voter :=
  { sel := none, offset := 0, due := Config.votingPeriod, seq := 0, cur := Tab.const 32 none, last := Tab.const 32 none,
    best := none, hist := Tab.const 32 [], outs := [] }

/-- Twelve zero bytes: the empty entry of every table (R213). -/
def emptyRaw : List Byte := List.replicate 12 0

/-- Every staged entry empty (R199). -/
def Staging.empty : Staging :=
  ⟨Tab.const 40 emptyRaw, Tab.const 32 emptyRaw, Tab.const 160 emptyRaw, Tab.const 9 emptyRaw, Tab.const 8 emptyRaw,
    Tab.const 9 emptyRaw⟩

/-- The record of a boot that begins (R196). -/
def BootRec.begin (scope : Scope) : BootRec :=
  { scope := scope, stage := .status, count := 0, dirOffset := 0, staging := Staging.empty, ignored := 0, tail := false,
    failedChannel := false, failedRemote := false, failedRoute := false, firstFailure := none, checked := none }

/-- No boot has completed (R172, R193). -/
def BootResult.reset : BootResult := ⟨.none, .full, 0, 0, false, false, false, false, none, 0⟩

/-- The 2780 right after the release of power-on reset: every block at its power-on values (R18, R50, R70, R87, R108,
R136, R163, R164, R193, R211) and the first transaction of the boot, its status read, on the flash port (R197, R211). -/
def Dev.reset : Dev :=
  { now := 0, eventNo := 0, freeNo := 0,
    hp := ⟨false, true, 0⟩,
    smc :=
      { state := .booting, cause := .noneSinceReset, scope := .full, mem := [], layout := none, notices := [],
        masks := Tab.const 85 0, latches := Tab.const 85 0, news := Tab.const 85 false, lastReq := Tab.const 6 0,
        deferred := Tab.const 6 false, taken := Tab.const 6 0, lastRefusal := none, job := none, overrun := false,
        bootMark := false, bootResult := BootResult.reset },
    lm := ⟨Tab.const 40 ChanEntry.empty, Tab.const 40 Slot.reset, 0, Config.windowPeriod, Tab.const 2 []⟩,
    lp := ⟨Tab.const 4 Port.reset, Config.framePeriod, Config.wordPeriod, 0⟩,
    rs := ⟨Tab.const 32 Remote.reset, Config.supervisionPeriod, none, 0⟩,
    rp :=
      { remoteTab := Tab.const 32 RemoteEntry.empty, routes := Routes.empty, phase := .idle, newRoutes := Routes.empty,
        newWord := 0, newBoot := false, staged := [], switching := [], switchSent := [], stagingDue := 0,
        bootRows := none, pools := Tab.const 4 Pool.reset },
    lbu := Tab.const 32 Budget.reset,
    pm := ⟨Tab.const 8 ProgEntry.empty, Tab.const 8 Modulator.reset, Tab.const 12 Bim.reset⟩,
    bic :=
      { master := false, table := Tab.const 8 SrcEntry.empty, lines := Tab.const 3 false,
        sources := Tab.const 8 Source.reset, zoneSel := Tab.const 16 (Tab.const 8 none),
        delivery := Tab.const 32 (Tab.const 8 Delivery.reset), alarmMasked := true },
    sru :=
      { tRef := 0, refSeq := 0, keyed := Tab.const 8 false, guardTicks := 0, table := Tab.const 8 RescueEntry.empty,
        holds := Tab.const 32 HoldRec.reset },
    uv := Tab.const 8 Voter.reset,
    fb :=
      { present := false, sizeCode := 0, dir := Tab.const 16 none, dirOffset := none,
        holder := some ⟨.bootStatus, false⟩, waiting := Tab.const 8 none, mark := 7,
        boot := some (BootRec.begin .full), chip := [] } }

/-- The machine right after reset: no command waits. -/
def State.reset : State := ⟨Dev.reset, []⟩

end Sys2Proof.Machine
end

