-- ==== Sys2Proof/Machine/Ops.lean ====
section
/-! DEFINITION. Machine/Ops.lean: the named operations over memory, numbers and the tables of State. -/

namespace Sys2Proof.Machine

open Sys2Proof

/-! ### Memory -/

/-- The byte at an address; an unlisted address reads as `blank`. -/
def bytesRead (blank : Byte) (m : Memory) (a : Nat) : Byte :=
  match m.find? (fun c => c.1 == a) with
  | some c => c.2
  | none => blank

/-- The cells of bytes at consecutive addresses, those equal to `blank` left out. -/
def cellsFrom (blank : Byte) (a : Nat) : List Byte → List Host.Cell
  | [] => []
  | b :: bs => if b = blank then cellsFrom blank (a + 1) bs else (a, b) :: cellsFrom blank (a + 1) bs

/-- The bytes stored from `a` upward, in canonical form. -/
def bytesWrite (blank : Byte) (m : Memory) (a : Nat) (bs : List Byte) : Memory :=
  m.filter (fun c => c.1 < a) ++ cellsFrom blank a bs ++ m.filter (fun c => a + bs.length ≤ c.1)

/-- Canonical form: addresses strictly rising, no entry equal to `blank`. -/
abbrev bytesWf (blank : Byte) (m : Memory) : Prop :=
  m.Pairwise (fun c e => c.1 < e.1) ∧ ∀ c ∈ m, c.2 ≠ blank

/-- What an unlisted byte of shared memory reads as. The manual gives none (R193). DESIGN CHOICE, unsafe, log 3. -/
def sdramBlank : Byte := 0

/-- A byte of shared memory. -/
def Memory.read (m : Memory) (a : Nat) : Byte := bytesRead sdramBlank m a

/-- Bytes stored into shared memory. -/
def Memory.write (m : Memory) (a : Nat) (bs : List Byte) : Memory := bytesWrite sdramBlank m a bs

/-- Shared memory is in canonical form. -/
abbrev Memory.wf (m : Memory) : Prop := bytesWf sdramBlank m

/-- `n` bytes of shared memory from `a` upward. -/
def Memory.readN (m : Memory) (a n : Nat) : List Byte := (List.range n).map (fun k => m.read (a + k))

/-- What an unlisted byte of the flash chip reads as: erased (log 4). -/
def flashBlank : Byte := 0xFF

def chipRead (m : Memory) (a : Nat) : Byte := bytesRead flashBlank m a

def chipReadN (m : Memory) (a n : Nat) : List Byte := (List.range n).map (fun k => chipRead m (a + k))

def chipWrite (m : Memory) (a : Nat) (bs : List Byte) : Memory := bytesWrite flashBlank m a bs

/-- Programming holds the bitwise AND of the old and new bytes (R195). -/
def chipProgram (m : Memory) (a : Nat) (bs : List Byte) : Memory :=
  chipWrite m a ((chipReadN m a bs.length).zipWith (fun x y => x &&& y) bs)

/-! ### Numbers and bytes -/

/-- A number as `n` little-endian bytes (00 section 3.2). -/
def le : Nat → Nat → List Byte
  | 0, _ => []
  | n + 1, v => BitVec.ofNat 8 v :: le n (v / 256)

/-- The number little-endian bytes spell. -/
def ofLe : List Byte → Nat
  | [] => 0
  | b :: bs => b.toNat + 256 * ofLe bs

/-- The unsigned field of `n` bytes at offset `k` of a record. -/
def field (b : List Byte) (k n : Nat) : Nat := ofLe ((b.drop k).take n)

def clampTo (hi v : Nat) : Nat := min hi v

/-- Limited to the signed 16-bit range (R99). -/
def sat16 (x : Int) : Int := max (-32768) (min 32767 x)

def sampleOf (i q : Int) : Sample := ⟨BitVec.ofInt 16 i, BitVec.ofInt 16 q⟩

/-- I² + Q² (R9). -/
def samplePower (x : Sample) : Nat := (x.i.toInt * x.i.toInt + x.q.toInt * x.q.toInt).toNat

/-- The list's last `n` entries. -/
def lastN {α : Type} (n : Nat) (l : List α) : List α := l.drop (l.length - n)

/-- A count that saturates at 65535. -/
def sat65535 (n : Nat) : Nat := min 65535 n

/-! ### Ports, positions, remotes, slots (00 section 2) -/

def portOf (r : Fin 32) : Fin 4 := ⟨r.val / 8, by omega⟩

def posOf (r : Fin 32) : Fin 8 := ⟨r.val % 8, by omega⟩

def remoteAt (x : Fin 4) (p : Fin 8) : Fin 32 := ⟨8 * x.val + p.val, by omega⟩

/-- The remotes of a port in position order. -/
def remotesOf (x : Fin 4) : List (Fin 32) := (allFin 8).map (remoteAt x)

def progSlot (p : Fin 8) : Fin 40 := ⟨p.val, by omega⟩

def rescueSlot (e : Fin 8) : Fin 40 := ⟨8 + e.val, by omega⟩

/-- The kind that belongs to a slot's range (00 section 2.2). -/
def slotRange (s : Fin 40) : SlotKind :=
  if s.val < 8 then .programme else if s.val < 16 then .rescue else .carrier

/-- Programme number of a slot of the programme range. -/
def progOf (s : Fin 40) : Fin 8 := ⟨s.val % 8, by omega⟩

/-! ### Updating one entry of State -/

def Dev.slot (d : Dev) (s : Fin 40) : Slot := d.lm.slots.get s
def Dev.setSlot (d : Dev) (s : Fin 40) (f : Slot → Slot) : Dev :=
  { d with lm := { d.lm with slots := d.lm.slots.modify s f } }

def Dev.port (d : Dev) (x : Fin 4) : Port := d.lp.ports.get x
def Dev.setPort (d : Dev) (x : Fin 4) (f : Port → Port) : Dev :=
  { d with lp := { d.lp with ports := d.lp.ports.modify x f } }

def Dev.remote (d : Dev) (r : Fin 32) : Remote := d.rs.remotes.get r
def Dev.setRemote (d : Dev) (r : Fin 32) (f : Remote → Remote) : Dev :=
  { d with rs := { d.rs with remotes := d.rs.remotes.modify r f } }

def Dev.pool (d : Dev) (x : Fin 4) : Pool := d.rp.pools.get x
def Dev.setPool (d : Dev) (x : Fin 4) (f : Pool → Pool) : Dev :=
  { d with rp := { d.rp with pools := d.rp.pools.modify x f } }

def Dev.budget (d : Dev) (r : Fin 32) : Budget := d.lbu.get r
def Dev.setBudget (d : Dev) (r : Fin 32) (f : Budget → Budget) : Dev := { d with lbu := d.lbu.modify r f }

def Dev.mod (d : Dev) (p : Fin 8) : Modulator := d.pm.mods.get p
def Dev.setMod (d : Dev) (p : Fin 8) (f : Modulator → Modulator) : Dev :=
  { d with pm := { d.pm with mods := d.pm.mods.modify p f } }

def Dev.bim (d : Dev) (m : Fin 12) : Bim := d.pm.bims.get m
def Dev.setBim (d : Dev) (m : Fin 12) (f : Bim → Bim) : Dev :=
  { d with pm := { d.pm with bims := d.pm.bims.modify m f } }

def Dev.source (d : Dev) (n : Fin 8) : Source := d.bic.sources.get n
def Dev.setSource (d : Dev) (n : Fin 8) (f : Source → Source) : Dev :=
  { d with bic := { d.bic with sources := d.bic.sources.modify n f } }

def Dev.delivery (d : Dev) (r : Fin 32) (p : Fin 8) : Delivery := (d.bic.delivery.get r).get p
def Dev.setDelivery (d : Dev) (r : Fin 32) (p : Fin 8) (f : Delivery → Delivery) : Dev :=
  { d with bic := { d.bic with delivery := d.bic.delivery.modify r (fun t => t.modify p f) } }

def Dev.hold (d : Dev) (r : Fin 32) : HoldRec := d.sru.holds.get r
def Dev.setHold (d : Dev) (r : Fin 32) (f : HoldRec → HoldRec) : Dev :=
  { d with sru := { d.sru with holds := d.sru.holds.modify r f } }

def Dev.voter (d : Dev) (e : Fin 8) : Voter := d.uv.get e
def Dev.setVoter (d : Dev) (e : Fin 8) (f : Voter → Voter) : Dev := { d with uv := d.uv.modify e f }

def Dev.chan (d : Dev) (s : Fin 40) : ChanEntry := d.lm.chan.get s
def Dev.route (d : Dev) (s : Fin 40) (r : Fin 32) : RouteEntry := (d.rp.routes.get s).get r
def Dev.entry (d : Dev) (r : Fin 32) : RemoteEntry := d.rp.remoteTab.get r

/-- Shared memory after a part write. -/
def Dev.poke (d : Dev) (a : Nat) (bs : List Byte) : Dev :=
  { d with smc := { d.smc with mem := d.smc.mem.write a bs } }

/-- The part is LINKED (R171). -/
def Dev.linked (d : Dev) : Bool := d.smc.state = .linked

/-- A timer that runs and is due (log 1). -/
def dueNow (d : Dev) (t : Option Nat) : Bool :=
  match t with
  | some k => k ≤ d.now
  | none => false

/-- The remote is IN_SERVICE or IMPAIRED. -/
def Remote.serving (m : Remote) : Bool := m.state = .inService || m.state = .impaired

/-- The remote is IN_SERVICE, IMPAIRED, or JOINING with its lock flag set. -/
def Remote.holdable (m : Remote) : Bool := m.serving || (m.state = .joining && m.locked)

/-- Flash size in bytes (R197). -/
def Fb.size (f : Fb) : Nat := if f.sizeCode = 0 then 0 else 2 ^ f.sizeCode

/-- Fold a change over every index. -/
def overAll {n : Nat} (d : Dev) (f : Dev → Fin n → Dev) : Dev := (allFin n).foldl f d

end Sys2Proof.Machine
end

