-- ==== Sys2Proof/Machine/Plan.lean ====
section
/-! DEFINITION. Machine/Plan.lean: the lane plans, the MAP contents, the zone routing view and the capacity check: all
functions of the route table (and, for the view, of the remote table) alone (03 section 3.3). -/

namespace Sys2Proof.Machine

open Sys2Proof

def routeAt (rt : Routes) (s : Fin 40) (r : Fin 32) : RouteEntry := (rt.get s).get r

/-- Lanes of a slot: 16 for slots 16 to 39, 1 for slots 0 to 15 (03 section 3.3). -/
def slotWidth (s : Fin 40) : Nat := if s.val < 16 then 1 else 16

/-- A slot is routed on a port when an entry of its row has routed 1. -/
def routedOn (rt : Routes) (x : Fin 4) (s : Fin 40) : Bool := (remotesOf x).any (fun r => (routeAt rt s r).routed)

/-- A carrier slot has uplink on a port when an entry of its row has uplink 1. -/
def carrierUplink (rt : Routes) (x : Fin 4) (s : Fin 40) : Bool :=
  decide (16 ≤ s.val) && (remotesOf x).any (fun r => (routeAt rt s r).uplink)

/-- Routed slots of a port in slot order. -/
def routedSlots (rt : Routes) (x : Fin 4) : List (Fin 40) := (allFin 40).filter (routedOn rt x)

/-- First lane of a routed slot's downstream block: the widths of the routed slots before it (R55). -/
def downLane (rt : Routes) (x : Fin 4) (s : Fin 40) : Nat :=
  (((routedSlots rt x).filter (fun t => t.val < s.val)).map slotWidth).sum

/-- Lanes in blocks (R55). -/
def routedLanes (rt : Routes) (x : Fin 4) : Nat := ((routedSlots rt x).map slotWidth).sum

/-- Rescue pairs of a port, in order of position, then of rescue slot (R56). -/
def rescuePairs (rt : Routes) (x : Fin 4) : List (Fin 8 × Fin 8) :=
  (allFin 8).flatMap (fun p =>
    ((allFin 8).filter (fun e => (routeAt rt (rescueSlot e) (remoteAt x p)).uplink)).map (fun e => (p, e)))

/-- Upstream lanes of the carrier chain sums: numbered as the downstream blocks (R56). -/
def chainSumLanes (rt : Routes) (x : Fin 4) : List Nat :=
  ((allFin 40).filter (carrierUplink rt x)).flatMap (fun s => List.range' (downLane rt x s) 16)

/-- Upstream lane of a rescue pair: the pairs take the lowest lanes not yet given, in pair order (R56). -/
def rescueLane (rt : Routes) (x : Fin 4) (pair : Fin 8 × Fin 8) : Option Nat :=
  let taken := chainSumLanes rt x
  let lanes := (List.range 320).filter (fun l => !taken.contains l)
  let pairs := rescuePairs rt x
  if pairs.contains pair then lanes[pairs.idxOf pair]? else none

/-- 16 lanes for each carrier with uplink, 1 for each rescue pair (R56). -/
def uplinkLanes (rt : Routes) (x : Fin 4) : Nat :=
  16 * ((allFin 40).filter (carrierUplink rt x)).length + (rescuePairs rt x).length

/-- The MAP of a remote and a slot: `none` is UNMAPPED (R57). -/
def mapOf (rt : Routes) (r : Fin 32) (s : Fin 40) : Option MapBody :=
  let e := routeAt rt s r
  let x := portOf r
  if e.routed then
    some
      { lane := downLane rt x s, trim := e.trim, uplink := e.uplink,
        upLane :=
          if slotRange s = .rescue && e.uplink then (rescueLane rt x (posOf r, progOf s)).getD 0 else 0 }
  else none

/-- The slots whose MAP for a remote differs between two route tables, in slot order (R57). -/
def mapDiff (a b : Routes) (r : Fin 32) : List (Fin 40) :=
  (allFin 40).filter (fun s => mapOf a r s != mapOf b r s)

/-- The zone routing view: some remote of port `x` in zone `z` is routed for programme `p` (R58). -/
def zoneView (rt : Routes) (rem : Tab 32 RemoteEntry) (x : Fin 4) (p : Fin 8) (z : Fin 16) : Bool :=
  (remotesOf x).any (fun r => (routeAt rt (progSlot p) r).routed && (rem.get r).zone == z)

/-- The capacity check: the first failing port and its cause (R59). -/
def routeCheck (rt : Routes) : Option (Nat × TakeUpCause) :=
  (allFin 4).findSome? (fun x =>
    if routedLanes rt x > 308 then some (x.val, .lanesExceeded)
    else if uplinkLanes rt x > 320 then some (x.val, .uplinkLanesExceeded)
    else none)

/-- The remote has a route for some rescue slot (R143). -/
def hasRescueRoute (rt : Routes) (r : Fin 32) : Bool := (allFin 8).any (fun e => (routeAt rt (rescueSlot e) r).routed)

end Sys2Proof.Machine
end

