-- ==== Sys2Proof/Machine/Operands.lean ====
section
/-! DEFINITION. Machine/Operands.lean: every byte layout of chapter 10: the tables, the cells, the anchor, the link
messages and the flash records, and the forms and checks a table gets before it is taken up. -/

namespace Sys2Proof.Machine

open Sys2Proof

/-! ### Codes (10 sections 10.2 and 10.8) -/

def PartState.code : PartState → Nat
  | .booting => 0 | .autonomous => 1 | .linked => 2

def Cause.code : Cause → Nat
  | .startEarly => 1 | .badSignature => 2 | .badVersion => 3 | .areaMisaligned => 4 | .areaOutside => 5
  | .areaOverlap => 6 | .scopeInvalid => 7 | .noneSinceReset => 15

def scopeCode : Scope → Nat
  | .full => 0 | .safety => 1 | .carriers => 2 | .none => 3

def BootOutcome.code : BootOutcome → Nat
  | .none => 0 | .loaded => 1 | .noFlash => 2 | .blank => 3 | .badFormat => 4 | .badLength => 5

def TableId.code : TableId → Nat
  | .channel => 1 | .remote => 2 | .route => 3 | .source => 4 | .programme => 5 | .rescue => 6

/-- Place of a table in the revision cell. -/
def TableId.index : TableId → Fin 6
  | .channel => 0 | .remote => 1 | .route => 2 | .source => 3 | .programme => 4 | .rescue => 5

def TakeUpCause.code : TakeUpCause → Nat
  | .slotKind => 1 | .badFrequency => 2 | .badZone => 3 | .lanesExceeded => 4 | .uplinkLanesExceeded => 5

def SlotKind.code : SlotKind → Nat
  | .off => 0 | .programme => 1 | .rescue => 2 | .carrier => 3

def PortState.code : PortState → Nat
  | .dark => 0 | .aligning => 1 | .running => 2

def RemoteState.code : RemoteState → Nat
  | .absent => 0 | .joining => 1 | .inService => 2 | .impaired => 3 | .lost => 4

def ExPhase.code : ExPhase → Nat
  | .idle => 0 | .staging => 1 | .switching => 2

def AudioPhase.code : AudioPhase → Nat
  | .priming => 0 | .playing => 1 | .gap => 2 | .silent => 3

def EndReason.code : EndReason → Nat
  | .none => 0 | .finished => 1 | .cancelled => 2 | .disabled => 3 | .lineDropped => 4 | .reset => 5

/-- Origin byte of a source cell (10 section 10.8). -/
def originCode : Option Origin → Nat
  | none => 0
  | some .none => 1
  | some (.shared _ _) => 2
  | some (.flash _ _) => 3
  | some .line => 4

/-- Why a cue is refused (R115). -/
inductive CueRefusal where
  | busy | badOrigin | badClip | nothingToDo
deriving DecidableEq, Repr

def CueRefusal.code : CueRefusal → Nat
  | .busy => 1 | .badOrigin => 2 | .badClip => 3 | .nothingToDo => 4

/-- Result of a maintenance command; `none` completes DONE (10 section 10.8). -/
inductive MaintResult where
  | none | badCommand | badArgument | patternRunning | remoteNotReady | noLane | patternNotRunning | flashAbsent
  | flashInUse | flashTimeout
deriving DecidableEq, Repr

def MaintResult.code : MaintResult → Nat
  | .none => 0 | .badCommand => 1 | .badArgument => 2 | .patternRunning => 3 | .remoteNotReady => 4 | .noLane => 5
  | .patternNotRunning => 6 | .flashAbsent => 7 | .flashInUse => 8 | .flashTimeout => 9

/-! ### The channel table (10 section 10.4, R3, R4) -/

/-- A channel entry as written, before its check and form. -/
structure ChanRaw where
  kind : Nat
  donor : Nat
  bandwidth : Nat
  step : Nat
  upStep : Nat
  keyThreshold : Nat
  offset : Int
deriving DecidableEq, Repr

def parseChan (b : List Byte) : ChanRaw :=
  { kind := field b 0 1, donor := field b 1 1, bandwidth := field b 2 1, step := field b 3 1, upStep := field b 4 1,
    keyThreshold := field b 6 2, offset := (BitVec.ofNat 32 (field b 8 4)).toInt }

/-- A working entry as a table would give it, for the combination of R201. -/
def ChanEntry.toRaw (e : ChanEntry) : ChanRaw :=
  { kind := e.kind.code, donor := if e.donor then 1 else 0, bandwidth := e.bandwidth, step := e.step,
    upStep := e.upStep, keyThreshold := e.keyThreshold, offset := e.offset }

/-- The check of one entry: kind first, then, for a non-OFF entry, the centre offset (R3). -/
def chanFails (s : Fin 40) (e : ChanRaw) : Option TakeUpCause :=
  if e.kind = 0 then none
  else if e.kind ≠ (slotRange s).code then some .slotKind
  else if e.offset < -30000 ∨ 30000 < e.offset then some .badFrequency
  else none

/-- The first failing entry in slot order (R3). -/
def chanCheck (t : Tab 40 ChanRaw) : Option (Nat × TakeUpCause) :=
  (allFin 40).findSome? (fun s => (chanFails s (t.get s)).map (fun c => (s.val, c)))

/-- The clamps of R4. Fields that do not apply to the kind are 0 in the working entry (log 20). -/
def chanForm (s : Fin 40) (e : ChanRaw) : ChanEntry :=
  if e.kind = 0 then ChanEntry.empty
  else
    let k := slotRange s
    { kind := k, donor := decide (1 ≤ e.donor), bandwidth := if k = .carrier then clampTo 2 e.bandwidth else 0,
      step := clampTo 47 e.step, upStep := if k = .programme then 0 else clampTo 47 e.upStep,
      keyThreshold := if k = .rescue then e.keyThreshold else 0, offset := e.offset }

/-! ### The remote table (R52) -/

/-- A remote entry as written. -/
structure RemoteRaw where
  enabled : Nat
  zone : Nat
  impairment : Nat
  budget : Nat
  gate : Nat
deriving DecidableEq, Repr

def parseRemote (b : List Byte) : RemoteRaw :=
  { enabled := field b 0 1, zone := field b 1 1, impairment := field b 2 1, budget := field b 4 4, gate := field b 8 2 }

def remoteCheck (t : Tab 32 RemoteRaw) : Option (Nat × TakeUpCause) :=
  (allFin 32).findSome? (fun r => if (t.get r).zone > 15 then some (r.val, .badZone) else none)

/-- The budget clamp of R52; an enabled byte other than 0 is enabled (R213). -/
def remoteForm (e : RemoteRaw) : RemoteEntry :=
  { enabled := decide (e.enabled ≠ 0), zone := ⟨e.zone % 16, by omega⟩, budget := clampTo 4194303 e.budget,
    gate := e.gate, impairment := e.impairment }

/-! ### The route table (R54) -/

/-- The working form of a host entry byte (R54). -/
def routeForm (s : Fin 40) (b : Byte) : RouteEntry :=
  let routed := b.getLsbD 7
  { routed := routed, uplink := routed && b.getLsbD 6 && decide (8 ≤ s.val), trim := clampTo 47 (b.toNat % 64) }

/-- The row of a slot and a port (03 section 3.2). -/
def rowOf (s : Fin 40) (x : Fin 4) : Fin 160 := ⟨4 * s.val + x.val, by omega⟩

/-- A route table from its 160 rows of eight bytes. -/
def routesOfRows (rows : Tab 160 (List Byte)) : Routes :=
  Tab.ofFn (fun s => Tab.ofFn (fun r => routeForm s ((rows.get (rowOf s (portOf r))).getD (posOf r).val 0)))

/-! ### The source table (R110, R213) -/

def sourceOrigin (n : Fin 8) (code id : Nat) : ReqOrigin :=
  if code = 3 then .flash id else if code = 4 ∧ (n.val = 1 ∨ n.val = 2) then .line else .none

/-- A source entry formed from its bytes (R110). -/
def parseSource (n : Fin 8) (b : List Byte) : SrcEntry :=
  let modes := BitVec.ofNat 8 (field b 1 1)
  let zones := BitVec.ofNat 16 (field b 4 2)
  let progs := BitVec.ofNat 8 (field b 6 1)
  { enabled := decide (field b 0 1 ≠ 0), latched := modes.extractLsb' 0 2 == 1, again := modes.extractLsb' 2 2 == 1,
    overlay := modes.extractLsb' 4 2 == 1, duck := clampTo 47 (field b 2 1), announce := clampTo 47 (field b 3 1),
    zones := zones, progs := progs, origin := sourceOrigin n (field b 7 1) (field b 8 1), repeats := field b 9 1,
    gap := field b 10 2, lineUse := modes.getLsbD 6 && decide (n.val < 3) && zones != 0 && progs != 0 }

/-! ### The programme and rescue tables (R89, R140) -/

def parseProg (b : List Byte) : ProgEntry :=
  { limit := clampTo 32767 (field b 0 2), kDev := field b 2 2, lossThreshold := field b 4 2,
    drop := decide (field b 6 1 ≠ 0) }

def parseGuard (b : List Byte) : Nat := clampTo 4095 (field b 0 2)

def parseRescue (b : List Byte) : RescueEntry :=
  { hysteresis := field b 0 1, spliceLimit := clampTo 1020 (field b 2 2) }

/-! ### Reading the host's tables -/

/-- Data bytes 0 to 11 of the 16-byte entry `n` of a table (10 section 10.1). -/
def entryBytes (m : Memory) (base n : Nat) : List Byte := m.readN (base + 16 * n) 12

def hostChan (m : Memory) (l : Layout) : Tab 40 ChanRaw := Tab.ofFn (fun s => parseChan (entryBytes m l.channel s.val))

def hostRemote (m : Memory) (l : Layout) : Tab 32 RemoteRaw :=
  Tab.ofFn (fun r => parseRemote (entryBytes m l.remote r.val))

def hostRoutes (m : Memory) (l : Layout) : Routes :=
  routesOfRows (Tab.ofFn (fun row => m.readN (l.route + 8 * row.val) 8))

def hostMaster (m : Memory) (l : Layout) : Bool := m.read l.source != 0

def hostSources (m : Memory) (l : Layout) : Tab 8 SrcEntry :=
  Tab.ofFn (fun n => parseSource n (entryBytes m l.source (n.val + 1)))

def hostProgs (m : Memory) (l : Layout) : Tab 8 ProgEntry :=
  Tab.ofFn (fun p => parseProg (entryBytes m l.programme p.val))

def hostGuard (m : Memory) (l : Layout) : Nat := parseGuard (entryBytes m l.rescue 0)

def hostRescue (m : Memory) (l : Layout) : Tab 8 RescueEntry :=
  Tab.ofFn (fun e => parseRescue (entryBytes m l.rescue (e.val + 1)))

/-- The revision word of a table (10 section 10.3). -/
def revisionWord (m : Memory) (l : Layout) (t : TableId) : BitVec 32 :=
  BitVec.ofNat 32 (ofLe (m.readN (l.revision + 4 * t.index.val) 4))

/-! ### The anchor (R173) -/

def word32 (m : Memory) (a : Nat) : Nat := ofLe (m.readN a 4)

def anchorLayout (m : Memory) : Layout :=
  { revision := word32 m 8, cues := word32 m 12, maint := word32 m 16, status := word32 m 20, news := word32 m 24,
    snapshot := word32 m 28, channel := word32 m 32, remote := word32 m 36, route := word32 m 40,
    source := word32 m 44, programme := word32 m 48, rescue := word32 m 52 }

/-- The areas with their extents, in the order of the anchor; 2 pages for the status area, 1 for the others. -/
def Layout.areas (l : Layout) : List (Nat × Nat) :=
  [(l.revision, 4096), (l.cues, 4096), (l.maint, 4096), (l.status, 8192), (l.news, 4096), (l.snapshot, 4096),
    (l.channel, 4096), (l.remote, 4096), (l.route, 4096), (l.source, 4096), (l.programme, 4096), (l.rescue, 4096)]

/-- Two extents share a byte. -/
def extentsMeet (a b : Nat × Nat) : Bool := decide (a.1 < b.1 + b.2 ∧ b.1 < a.1 + a.2)

/-- Two extents of a list share a byte. -/
def anyMeet : List (Nat × Nat) → Bool
  | [] => false
  | a :: l => l.any (extentsMeet a) || anyMeet l

/-- The first failing area check: alignment, then range, area by area (R173). -/
def areaCheck (l : List (Nat × Nat)) : Option Cause :=
  l.findSome? (fun a =>
    if a.1 % 4096 ≠ 0 then some .areaMisaligned
    else if a.1 + a.2 > Config.memSize then some .areaOutside
    else none)

/-- The anchor check: a refusal, or none and the layout stands (R173). -/
def anchorCheck (m : Memory) : Option Cause :=
  if word32 m 0 ≠ 0x5A2780A5 then some .badSignature
  else if word32 m 4 ≠ 1 then some .badVersion
  else
    match areaCheck (anchorLayout m).areas with
    | some c => some c
    | none => if anyMeet ((0, 4096) :: (anchorLayout m).areas) then some .areaOverlap else none

/-! ### Cells -/

/-- Bytes of a range overlap the anchor page or an area of the layout (R115, 09 section 9.7). -/
def overlapsAreas (l : Layout) (a n : Nat) : Bool :=
  ((0, 4096) :: l.areas).any (fun e => extentsMeet (a, n) e)

def cueAddr (l : Layout) (n : Fin 8) : Nat := l.cues + 64 * n.val

def statusAddr (l : Layout) (i : Fin 85) : Nat := l.status + 64 * i.val

/-- State code of a cue or maintenance cell: bits 7:0 of the state word (10 section 10.5). -/
def cellState (m : Memory) (a : Nat) : Nat := (m.read a).toNat

/-- A cue as written (10 section 10.5). -/
structure CueCell where
  zones : BitVec 16
  progs : BitVec 8
  origin : Nat
  clipId : Nat
  repeats : Nat
  gap : Nat
  addr : Nat
  len : Nat
deriving DecidableEq, Repr

def readCue (m : Memory) (a : Nat) : CueCell :=
  let b := m.readN a 24
  { zones := BitVec.ofNat 16 (field b 8 2), progs := BitVec.ofNat 8 (field b 10 1), origin := field b 11 1,
    clipId := field b 12 1, repeats := field b 13 1, gap := field b 14 2, addr := field b 16 4, len := field b 20 4 }

/-- A maintenance command as written (10 section 10.5). -/
structure MaintCell where
  tag : BitVec 32
  code : Nat
  port : Nat
  pos : Nat
  clear : Nat
  flashOff : Nat
  addr : Nat
  len : Nat
deriving DecidableEq, Repr

def readMaint (m : Memory) (a : Nat) : MaintCell :=
  let b := m.readN a 36
  { tag := BitVec.ofNat 32 (field b 12 4), code := field b 16 1, port := field b 20 1, pos := field b 21 1,
    clear := field b 22 1, flashOff := field b 24 4, addr := field b 28 4, len := field b 32 4 }

/-! ### Link messages (10 section 10.10) -/

def msgKindCode : MsgKind → Nat
  | .mark => 1 | .map => 2 | .switch => 3 | .subst => 4 | .hold => 5 | .level => 6 | .gate => 7 | .pattern => 8

/-- The downstream kind of a code, none for a code that names no kind. -/
def msgKindOfCode (c : Nat) : Option MsgKind :=
  [.mark, .map, .switch, .subst, .hold, .level, .gate, .pattern].find? (fun k => msgKindCode k == c)

def DownMsg.kind : DownMsg → MsgKind
  | .mark => .mark | .map _ _ => .map | .switch => .switch | .gate _ => .gate | .hold _ => .hold
  | .level _ _ => .level | .subst _ _ => .subst | .pattern _ => .pattern

def DownMsg.key : DownMsg → Nat
  | .map s _ => s.val
  | .subst p _ => p.val
  | .level c _ => if c then 1 else 0
  | .mark | .switch | .gate _ | .hold _ | .pattern _ => 0

def DownMsg.id (m : DownMsg) : MsgId := ⟨m.kind, m.key⟩

/-- SUBST, HOLD and LEVEL are urgent (02 section 2.4). -/
def msgUrgent : MsgKind → Bool
  | .subst | .hold | .level => true
  | .mark | .map | .switch | .gate | .pattern => false

/-- Bytes 3 to 6 of a downstream message; `markSeq` is used by MARK alone. -/
def DownMsg.contents (m : DownMsg) (markSeq : BitVec 8) : List Byte :=
  match m with
  | .mark => [markSeq, 0, 0, 0]
  | .map _ none => [0, 0, 0, 0]
  | .map _ (some b) =>
    BitVec.ofNat 8 (128 + (if b.uplink then 64 else 0) + b.trim) :: le 3 (b.lane + 512 * b.upLane)
  | .switch => [0, 0, 0, 0]
  | .subst _ lane => le 2 (lane.getD 0x3FF) ++ [0, 0]
  | .hold (.ticks n) => le 2 n ++ [0, 0]
  | .hold .off => [0, 0, 1, 0]
  | .level _ step => [BitVec.ofNat 8 step, 0, 0, 0]
  | .gate t => le 2 t ++ [0, 0]
  | .pattern lane => le 2 (lane.getD 0x3FF) ++ [0, 0]

/-- The eight bytes of a downstream message position (10 section 10.10). -/
def DownMsg.bytes (m : DownMsg) (seq : BitVec 6) (markSeq : BitVec 8) : List Byte :=
  let b := [BitVec.ofNat 8 (msgKindCode m.kind), BitVec.ofNat 8 m.key, seq.setWidth 8] ++ m.contents markSeq
  b ++ [crc8 b]

/-- A message position holding the empty code. -/
def emptyPosition : List Byte := List.replicate 8 0

/-! ### Flash records (10 section 10.9) -/

/-- Entry `n` of a clip directory, when valid (R204). -/
def parseClip (n : Fin 16) (size : Nat) (b : List Byte) : Option Clip :=
  let off := field b 4 4
  let len := field b 8 4
  if (BitVec.ofNat 8 (field b 1 1)).getLsbD 0 ∧ field b 0 1 = n.val ∧ 1 ≤ len ∧ off + 2 * len ≤ size then
    some ⟨off, len⟩
  else none

/-- The directory at a flash offset; no entry is valid when the 256 bytes pass the flash size (R204). -/
def readDirectory (chip : Memory) (size off : Nat) : Tab 16 (Option Clip) :=
  if off + 256 > size then Tab.const 16 none
  else Tab.ofFn (fun n => parseClip n size (chipReadN chip (off + 16 * n.val) 12))

/-- Samples of a clip: signed 16-bit, little-endian (10 section 10.5). -/
def samplesOf : List Byte → List (BitVec 16)
  | lo :: hi :: rest => (lo.setWidth 16 ||| (hi.setWidth 16 <<< 8)) :: samplesOf rest
  | _ => []

/-! ### Status cells (10 section 10.6) -/

def partCell : Fin 85 := 0
def portCell (x : Fin 4) : Fin 85 := ⟨1 + x.val, by omega⟩
def remoteCell (r : Fin 32) : Fin 85 := ⟨5 + r.val, by omega⟩
def slotCell (s : Fin 40) : Fin 85 := ⟨37 + s.val, by omega⟩
def sourceCell (n : Fin 8) : Fin 85 := ⟨77 + n.val, by omega⟩

def bit (b : Bool) : Nat := if b then 1 else 0

/-- Bytes 4 to 63 of the part cell. While no failure or refusal is recorded, their other bytes are 0 beside the table id 0
(DESIGN CHOICE, log 53). -/
def partFields (d : Dev) : List Byte :=
  let r := d.smc.bootResult
  let f := match r.firstFailure with
    | some (t, i, c) => (t.code, c.code, i)
    | none => (0, 0, 0)
  let l := match d.smc.lastRefusal with
    | some x => (x.word.toNat, x.table.code, x.cause.code, x.index)
    | none => (0, 0, 0, 0)
  le 1 r.outcome.code ++ le 1 (scopeCode r.scope) ++ le 1 r.sizeCode ++ le 1 r.validClips ++ le 2 r.ignored ++
    le 1 (bit r.failedChannel + 2 * bit r.failedRemote + 4 * bit r.failedRoute) ++ le 1 (bit r.tail) ++
    le 1 f.1 ++ le 1 f.2.1 ++ le 2 f.2.2 ++ (d.smc.taken.list.flatMap (fun w => le 4 w.toNat)) ++
    le 4 l.1 ++ le 1 l.2.1 ++ le 1 l.2.2.1 ++ le 2 l.2.2.2 ++ le 1 d.rp.phase.code ++ le 1 0 ++
    le 2 d.sru.tRef ++ le 2 d.sru.refSeq.toNat ++ List.replicate 10 0

def versionLanes (p : Pool) : Nat :=
  (p.lanes.list.filter (fun l => match l with | .version _ => true | .free | .pattern => false)).length

/-- Bytes 4 to 63 of a port cell. -/
def portFields (d : Dev) (x : Fin 4) : List Byte :=
  let p := d.port x
  let t := match d.rs.test with
    | some t => if t.port = x then (128 + t.pos.val, 308 + t.lane.val) else (0, 0)
    | none => (0, 0)
  let pool := d.pool x
  le 1 p.state.code ++ le 1 (bit p.near) ++ le 1 p.fifo.length ++ le 1 t.1 ++ le 2 t.2 ++
    le 2 (routedLanes d.rp.routes x) ++ le 2 (uplinkLanes d.rp.routes x) ++
    le 1 (versionLanes pool + 128 * bit (pool.lanes.list.contains .pattern)) ++ le 1 pool.waiting.length ++
    List.replicate 48 0

/-- Kind and value of a hold field: 0 none, 1 a hold, 2 OFF. The value of a kind other than 1 is 0 (DESIGN CHOICE, log 53). -/
def holdField : Option HoldVal → Nat × Nat
  | none => (0, 0)
  | some (.ticks n) => (1, n)
  | some .off => (2, 0)

/-- Bytes 4 to 63 of a remote cell. -/
def remoteFields (d : Dev) (r : Fin 32) : List Byte :=
  let m := d.remote r
  let b := d.budget r
  let h := d.hold r
  let hold := holdField h.hold
  let conf := match h.acked with
    | none => (3, 0)
    | some v => holdField (some v)
  le 1 m.state.code ++ le 1 (bit m.paFault + 2 * bit m.overTemp) ++ le 1 m.queue.length ++
    le 1 (bit b.rescueOver + 2 * bit b.short + 4 * bit h.late) ++ le 2 m.d ++ le 2 hold.2 ++ le 1 hold.1 ++
    le 1 conf.1 ++ le 2 conf.2 ++ le 1 b.progStep ++ le 1 b.carStep ++ le 1 b.progTarget ++ le 1 b.carTarget ++
    le 1 b.progConfirmed ++ le 1 b.carConfirmed ++ le 2 b.evalSeq.toNat ++ le 4 b.effective ++ le 4 b.sumR ++
    le 4 b.sumP ++ le 4 b.sumC ++ List.replicate 24 0

/-- Modulator mode of a programme (05 section 5.8). -/
def modMode (d : Dev) (p : Fin 8) : Nat :=
  if (d.chan (progSlot p)).kind = .off then 0
  else if (d.slot (progSlot p)).on then 1
  else if (d.pm.table.get p).drop then 3 else 2

/-- The BIMs ASSIGNED to pairs with a programme, bit m for Mm. -/
def bimSet (d : Dev) (p : Fin 8) : Nat :=
  ((allFin 12).map (fun m =>
    match (d.bim m).pair with
    | some (_, q) => if q = p then 2 ^ m.val else 0
    | none => 0)).sum

/-- Bytes 4 to 63 of a slot cell. The fields that apply are those of the slot's range, also while its entry is OFF
(DESIGN CHOICE, log 25). -/
def slotFields (d : Dev) (s : Fin 40) : List Byte :=
  let c := d.slot s
  let p := progOf s
  let range := slotRange s
  let prog := decide (range = .programme)
  let v := d.voter p
  let u : List Byte :=
    if range = .rescue then
      le 1 ((v.sel.map Fin.val).getD 0xFF) ++ [BitVec.ofInt 8 v.offset] ++ le 2 v.seq.toNat ++
        le 2 ((v.sel.bind (fun r => v.last.get r)).getD 0xFFFF) ++ le 1 ((v.best.map Fin.val).getD 0xFF)
    else List.replicate 7 0
  le 1 (d.chan s).kind.code ++ le 1 (if range = .carrier then 0 else bit c.on) ++ le 2 d.lm.windowSeq.toNat ++
    le 2 c.pOut ++ le 2 c.pIn ++ le 2 (if range = .carrier then c.lastClip else 0) ++ le 1 (if prog then modMode d p else 0) ++ le 1 0 ++
    le 2 (if prog then (d.mod p).lastClamp else 0) ++ le 2 (if prog then bimSet d p else 0) ++ u ++
    List.replicate 37 0

/-- The pending record holds a request. -/
def Source.isPending (c : Source) : Bool := c.lineReq || c.cueReq.isSome

/-- The BIM that serves a pair. -/
def bimOf (d : Dev) (n p : Fin 8) : Option (Fin 12) := (allFin 12).find? (fun m => (d.bim m).pair == some (n, p))

/-- Grant byte of a programme: bit 7 GRANTED, bits 3:0 the BIM. -/
def grantByte (d : Dev) (n p : Fin 8) : Byte :=
  match bimOf d n p with
  | some m => BitVec.ofNat 8 (128 + m.val)
  | none => 0

/-- The level of a source's line; sources S3 to S7 have none. -/
def lineLevel (d : Dev) (n : Fin 8) : Bool := if h : n.val < 3 then d.bic.lines.get ⟨n.val, h⟩ else false

/-- Bytes 4 to 63 of a source cell. Audio phase and repeats left show their last values after an end (DESIGN CHOICE, log 51);
bytes 16 to 23 are 0 where the service has no clip (DESIGN CHOICE, log 53). The end reason is that of the service record: 0 from a
start until that service ends (DESIGN CHOICE, log 58). -/
def sourceFields (d : Dev) (n : Fin 8) : List Byte :=
  let c := d.source n
  let place := match c.origin with
    | some (.shared a l) => (a, l)
    | some (.flash o l) => (o, l)
    | some .none | some .line | none => (0, 0)
  le 1 (bit c.isPending + 2 * bit c.inService) ++ le 1 (bit (lineLevel d n)) ++
    le 1 (bit c.lineReq + 2 * bit c.cueReq.isSome + 4 * bit c.cancelHold) ++ le 1 c.endReason.code ++
    le 2 c.seq.toNat ++ le 2 c.zones.toNat ++ le 1 c.progs.toNat ++ le 1 (originCode c.origin) ++ le 1 c.repeatsLeft ++
    le 1 c.audioPhase.code ++ le 4 place.1 ++ le 4 place.2 ++ (allFin 8).map (grantByte d n) ++
    le 4 c.unreached.toNat ++ le 2 c.underruns ++ List.replicate 26 0

/-- Bytes 4 to 63 of a status cell with its current live fields. -/
def cellFields (d : Dev) (i : Fin 85) : List Byte :=
  if h1 : i.val = 0 then partFields d
  else if h2 : i.val < 5 then portFields d ⟨i.val - 1, by omega⟩
  else if h3 : i.val < 37 then remoteFields d ⟨i.val - 5, by omega⟩
  else if h4 : i.val < 77 then slotFields d ⟨i.val - 37, by omega⟩
  else sourceFields d ⟨i.val - 77, by omega⟩

/-- Write the live bytes `[a, a + n)` of a status cell, for each range given, while the part is LINKED (R214). -/
def publish (d : Dev) (i : Fin 85) (ranges : List (Nat × Nat)) : Dev :=
  if d.linked then
    match d.smc.layout with
    | some l =>
      let f := cellFields d i
      ranges.foldl (fun d r => d.poke (statusAddr l i + r.1) ((f.drop (r.1 - 4)).take r.2)) d
    | none => d
  else d

end Sys2Proof.Machine
end

