-- ==== Sys2Proof/Machine/Flags.lean ====
section
/-! DEFINITION. Machine/Flags.lean: latches, clear masks, news and the interrupt message (08 section 8.6), the saturating
counters (R43), and the completion of a maintenance command (R189). -/

namespace Sys2Proof.Machine

open Sys2Proof

/-! ### Latch bits (10 section 10.6) -/

abbrev latchTakeUpDone : Fin 32 := 0
abbrev latchTakeUpRefused : Fin 32 := 1
abbrev latchRereferenced : Fin 32 := 2
abbrev latchBootDone : Fin 32 := 3
abbrev latchDirReloaded : Fin 32 := 4
abbrev latchMaintDone : Fin 32 := 5

abbrev latchPortState : Fin 32 := 0
abbrev latchNearLimit : Fin 32 := 1
abbrev latchCounterSaturated : Fin 32 := 2
abbrev latchPatternPreempted : Fin 32 := 3

abbrev latchRemoteState : Fin 32 := 0
abbrev latchJoinSlow : Fin 32 := 1
abbrev latchDelayMoved : Fin 32 := 2
abbrev latchAlarmChange : Fin 32 := 3
abbrev latchRescueOver : Fin 32 := 4
abbrev latchLateChange : Fin 32 := 5

abbrev latchKeyChange : Fin 32 := 0
abbrev latchCarrierChange : Fin 32 := 1
abbrev latchUplinkClipping : Fin 32 := 2
abbrev latchOverDeviation : Fin 32 := 3
abbrev latchVoterChange : Fin 32 := 4
abbrev latchNoVoter : Fin 32 := 5
abbrev latchSpliceRefused : Fin 32 := 6

abbrev latchServiceStarted : Fin 32 := 0
abbrev latchServiceEnded : Fin 32 := 1
abbrev latchRequestWithdrawn : Fin 32 := 2
abbrev latchTriggerIgnored : Fin 32 := 3
abbrev latchPartial : Fin 32 := 4
abbrev latchAudioSlow : Fin 32 := 5
abbrev latchNoClip : Fin 32 := 6

/-! ### News (R182, R183) -/

/-- The number of news bits set, which NEWS shows (R169, R182). -/
def newsCount (d : Dev) : Nat := (d.smc.news.list.filter id).length

/-- Word `k` of the news bitmap: bit j is the news bit of cell 32 k + j (10 section 10.3). -/
def newsWord (news : Tab 85 Bool) (k : Nat) : Nat :=
  ((List.range 32).map (fun j => if news.list.getD (32 * k + j) false then 2 ^ j else 0)).sum

/-- Write the bitmap word that holds a cell's news bit (R182). -/
def writeNewsWord (d : Dev) (i : Fin 85) : Dev :=
  match d.smc.layout with
  | some l => d.poke (l.news + 4 * (i.val / 32)) (le 4 (newsWord d.smc.news (i.val / 32)))
  | none => d

/-- Write a cell's latch word into shared memory (R214). -/
def writeLatchWord (d : Dev) (i : Fin 85) : Dev :=
  match d.smc.layout with
  | some l => d.poke (statusAddr l i) (le 4 (d.smc.latches.get i).toNat)
  | none => d

/-- One interrupt message (R183). -/
def sendMessage (d : Dev) : Dev := { d with hp := { d.hp with messages := d.hp.messages + 1 } }

/-- A latch word became nonzero: the news bit is set, and a rise of NEWS from zero sends a message while IE is 1
(R182, R183). -/
def raiseNews (d : Dev) (i : Fin 85) : Dev :=
  let rise := newsCount d = 0 ∧ d.smc.news.get i = false
  let d' := writeNewsWord { d with smc := { d.smc with news := d.smc.news.set i true } } i
  if rise ∧ d.hp.ie then sendMessage d' else d'

/-- A latch word with one bit set. -/
def latchBit (b : Fin 32) : BitVec 32 := (1 : BitVec 32) <<< b.val

/-- A block sets a latch bit: recorded while LINKED only, removed from the clear mask, news raised (R17, R181, R182). -/
def setLatch (d : Dev) (i : Fin 85) (b : Fin 32) : Dev :=
  if d.linked then
    let old := d.smc.latches.get i
    let d := { d with smc := { d.smc with latches := d.smc.latches.set i (old ||| latchBit b),
                                          masks := d.smc.masks.modify i (fun m => m &&& ~~~(latchBit b)) } }
    let d := writeLatchWord d i
    if old = 0 then raiseNews d i else d
  else d

/-- The take of a status cell's notice: the mask's bits are cleared, the mask zeroed, the news bit updated (R181, R182). -/
def applyMask (d : Dev) (i : Fin 85) : Dev :=
  let new := d.smc.latches.get i &&& ~~~(d.smc.masks.get i)
  let d := { d with smc := { d.smc with latches := d.smc.latches.set i new, masks := d.smc.masks.set i 0 } }
  let d := writeLatchWord d i
  if new = 0 ∧ d.smc.news.get i then
    writeNewsWord { d with smc := { d.smc with news := d.smc.news.set i false } } i
  else d

/-! ### Counters (R43) -/

/-- Latch COUNTER_SATURATED when an increment brought a counter to 65535 (R43). -/
def noteSaturation (d : Dev) (x : Fin 4) (old new : Nat) : Dev :=
  if old < 65535 ∧ new = 65535 then setLatch d (portCell x) latchCounterSaturated else d

def countCodeViolation (d : Dev) (x : Fin 4) : Dev :=
  let n := sat65535 ((d.port x).codeViol + 1)
  noteSaturation (d.setPort x (fun p => { p with codeViol := n })) x (d.port x).codeViol n

def countAlignLoss (d : Dev) (x : Fin 4) : Dev :=
  let n := sat65535 ((d.port x).alignLoss + 1)
  noteSaturation (d.setPort x (fun p => { p with alignLoss := n })) x (d.port x).alignLoss n

def countSlip (d : Dev) (x : Fin 4) : Dev :=
  let n := sat65535 ((d.port x).slips + 1)
  noteSaturation (d.setPort x (fun p => { p with slips := n })) x (d.port x).slips n

def countCheckFail (d : Dev) (r : Fin 32) : Dev :=
  let n := sat65535 ((d.remote r).checkFails + 1)
  noteSaturation (d.setRemote r (fun m => { m with checkFails := n })) (portOf r) (d.remote r).checkFails n

def countMarkerMiss (d : Dev) (r : Fin 32) : Dev :=
  let n := sat65535 ((d.remote r).misses + 1)
  noteSaturation (d.setRemote r (fun m => { m with misses := n })) (portOf r) (d.remote r).misses n

/-- Pattern errors reported by a PCOUNT (R46). -/
def countPatternErrors (d : Dev) (r : Fin 32) (k : Nat) : Dev :=
  let n := sat65535 ((d.remote r).patErrs + k)
  noteSaturation (d.setRemote r (fun m => { m with patErrs := n })) (portOf r) (d.remote r).patErrs n

/-! ### Completion of a maintenance command (R189) -/

/-- Write the result at the recorded address, latch MAINT_DONE while LINKED, and become IDLE (R189). The state at the
completion decides on the latch, also for a command taken before the part left LINKED (DESIGN CHOICE, log 41). Bits 31:8 of
the state word are written as 0 (DESIGN CHOICE, log 55). The bytes reach memory also where a newer layout has its status area or
news bitmap (DESIGN CHOICE, log 59). -/
def completeMaint (d : Dev) (addr : Nat) (tag : BitVec 32) (res : MaintResult) : Dev :=
  let bytes := le 4 (if res = .none then 3 else 4) ++ le 4 res.code ++ le 4 (bit d.smc.overrun) ++ le 4 tag.toNat
  let d := d.poke addr bytes
  setLatch { d with smc := { d.smc with job := none } } partCell latchMaintDone

/-- Complete the command in flight, if there is one. -/
def completeJob (d : Dev) (res : MaintResult) : Dev :=
  match d.smc.job with
  | some j => completeMaint d j.addr j.tag res
  | none => d

end Sys2Proof.Machine
end

