-- ==== Sys2Proof/Machine/Queue.lean ====
section
/-! DEFINITION. Machine/Queue.lean: the outbound control queue of a remote: admission, replacement in place and the ages
of one event's entries (R26), send selection (R27). -/

namespace Sys2Proof.Machine

open Sys2Proof

/-- Admission by the remote's state (R26). -/
def admits (m : Remote) (k : MsgKind) : Bool :=
  match m.state with
  | .absent | .lost => false
  | .joining => m.locked || k == .mark
  | .inService | .impaired => true

/-- Place of a message among those appended at one event: by kind, then by key (R26). -/
def ageRank (m : DownMsg) : Nat :=
  64 * (match m.kind with
    | .mark => 0 | .map => 1 | .switch => 2 | .gate => 3 | .hold => 4 | .level => 5 | .subst => 6 | .pattern => 7) +
    m.key

/-- A fresh entry: UNSENT with send count 0. -/
def freshEntry (event : Nat) (m : DownMsg) : QEntry := ⟨m, event, false, 0, none, none⟩

/-- Append an entry as the youngest, but before the entries of the same event that follow it in kind and key (R26). -/
def insertAged (e : QEntry) : List QEntry → List QEntry
  | [] => [e]
  | x :: xs => if x.joined = e.joined ∧ ageRank e.msg < ageRank x.msg then e :: x :: xs else x :: insertAged e xs

/-- An entry replaced in its place: it keeps its age and loses its send state (R26). -/
def replaceEntry (m : DownMsg) (e : QEntry) : QEntry := if e.msg.id = m.id then freshEntry e.joined m else e

/-- An admitted message joins the queue or replaces the entry of its kind and key (R26). -/
def enqueue (event : Nat) (q : List QEntry) (m : DownMsg) : List QEntry :=
  if q.any (fun e => e.msg.id == m.id) then q.map (replaceEntry m) else insertAged (freshEntry event m) q

/-- A message offered to the RS for a remote (R26). -/
def offer (d : Dev) (r : Fin 32) (m : DownMsg) : Dev :=
  if admits (d.remote r) m.kind then
    d.setRemote r (fun x => { x with queue := enqueue d.eventNo x.queue m })
  else d

/-- The queue holds a message of a kind. -/
def holdsKind (m : Remote) (k : MsgKind) : Bool := m.queue.any (fun e => e.msg.kind == k)

/-- The entry of a kind and key. -/
def entryOf (q : List QEntry) (id : MsgId) : Option QEntry := q.find? (fun e => e.msg.id == id)

/-- The queue without the entry of a kind and key. -/
def dropEntry (q : List QEntry) (id : MsgId) : List QEntry := q.filter (fun e => e.msg.id != id)

/-- Send selection: the oldest UNSENT urgent entry, else the oldest UNSENT entry (R27). -/
def sendSelection (q : List QEntry) : Option QEntry :=
  match q.find? (fun e => !e.sent && msgUrgent e.msg.kind) with
  | some e => some e
  | none => q.find? (fun e => !e.sent)

end Sys2Proof.Machine
end

