-- ==== Sys2Proof/Machine/FlashPort.lean ====
section
/-! DEFINITION. Machine/FlashPort.lean: the flash port arbiter and the transactions it grants (09 sections 9.1 and 9.6). -/

namespace Sys2Proof.Machine

open Sys2Proof

def Dev.setFb (d : Dev) (f : Fb → Fb) : Dev := { d with fb := f d.fb }

/-- The flash work of the maintenance command in flight. -/
def flashJob (d : Dev) : Option FlashJob :=
  match d.smc.job with
  | some ⟨_, _, .flash j⟩ => some j
  | some ⟨_, _, .errorInsert⟩ | none => none

def setFlashJob (d : Dev) (j : FlashJob) : Dev :=
  { d with smc := { d.smc with job := d.smc.job.map (fun m => { m with work := .flash j }) } }

/-- The transaction is a page program or a sector erase. -/
def Txn.writes : Txn → Bool
  | .program _ _ _ | .erase _ _ => true
  | .bootStatus | .bootIdent | .bootHeader | .bootRecord _ | .bootDirectory | .clip _ _ | .maintRead _ _ _
  | .reload => false

/-- A page program or sector erase holds the port (R128, R205). -/
def programInFlight (d : Dev) : Bool := (d.fb.holder.map (fun h => h.txn.writes)).getD false

/-- The sector of a flash offset holds a byte of the directory as last placed (R210). -/
def touchesDirectory (d : Dev) (off : Nat) : Bool :=
  match d.fb.dirOffset with
  | some o => decide (o / 4096 ≤ off / 4096 ∧ off / 4096 ≤ (o + 255) / 4096)
  | none => false

/-- The boot loader's next transaction (R197 to R204). -/
def bootTxn (b : BootRec) : Txn :=
  match b.stage with
  | .status => .bootStatus
  | .ident => .bootIdent
  | .header => .bootHeader
  | .records n => .bootRecord n
  | .directory => .bootDirectory

/-- Bytes of a page program from an offset: to the end of its page or of the range (R208). -/
def pageBytes (off left : Nat) : Nat := min left (256 - off % 256)

/-- The next transaction of flash work; a page program takes its bytes from shared memory at the grant (R207 to R210).
Its time runs from the grant (DESIGN CHOICE, log 44). -/
def jobTxn (d : Dev) (j : FlashJob) : Txn :=
  if j.reload then .reload
  else
    match j.kind with
    | .read => .maintRead j.off j.addr (min 256 j.left)
    | .write => .program j.off (d.smc.mem.readN j.addr (pageBytes j.off j.left)) (d.now + Config.programTimeout)
    | .erase => .erase j.off (d.now + Config.eraseTimeout)

def setHolder (d : Dev) (t : Txn) : Dev := d.setFb (fun f => { f with holder := some ⟨t, false⟩ })

/-- The port goes to flash work; a program or erase issued to a sector of the directory is noted (R210). -/
def grantJob (d : Dev) (j : FlashJob) : Dev :=
  let t := jobTxn d j
  setHolder (setFlashJob d { j with touched := j.touched || (t.writes && touchesDirectory d j.off) }) t

/-- The sources after the round-robin mark, in cyclic order. -/
def clipOrder (mark : Fin 8) : List (Fin 8) := (allFin 8).map (fun k => ⟨(mark.val + 1 + k.val) % 8, by omega⟩)

/-- The first waiting clip read after the mark (R205). -/
def nextClip (f : Fb) : Option (Fin 8 × ClipRead) :=
  (clipOrder f.mark).findSome? (fun n => (f.waiting.get n).map (fun r => (n, r)))

/-- Grant the port when it is free (R205; R196 while BOOTING). -/
def grantPort (d : Dev) : Dev :=
  match d.fb.holder with
  | some _ => d
  | none =>
    if d.smc.state = .booting then
      match flashJob d, d.fb.boot with
      | some j, _ => grantJob d j
      | none, some b => setHolder d (bootTxn b)
      | none, none => d
    else
      match nextClip d.fb, flashJob d with
      | some (n, r), _ =>
        setHolder (d.setFb (fun f => { f with waiting := f.waiting.set n none, mark := n })) (.clip n r)
      | none, some j => grantJob d j
      | none, none => d

/-- The port becomes free and is granted anew (R205). -/
def freePort (d : Dev) : Dev := grantPort (d.setFb (fun f => { f with holder := none }))

/-- The source has a clip read on the port whose bytes it still wants. -/
def clipOnPort (d : Dev) (n : Fin 8) : Bool :=
  match d.fb.holder with
  | some ⟨.clip m _, disc⟩ => m == n && !disc
  | some _ | none => false

/-- A source's request for a clip read joins the waiting reads (R206). -/
def requestClip (d : Dev) (n : Fin 8) (r : ClipRead) : Dev :=
  grantPort (d.setFb (fun f => { f with waiting := f.waiting.set n (some r) }))

/-- At a service end the waiting read is withdrawn and a read on the port is discarded at its end (R206). -/
def withdrawClip (d : Dev) (n : Fin 8) : Dev :=
  let on := clipOnPort d n
  d.setFb (fun f =>
    { f with waiting := f.waiting.set n none,
             holder := if on then f.holder.map (fun h => { h with discard := true }) else f.holder })

end Sys2Proof.Machine
end

