-- ==== Sys2Proof/Machine/Reserve.lean ====
section
/-! DEFINITION. Machine/Reserve.lean: the reserve-lane pools (03 section 3.6) and the end of a test (R47). -/

namespace Sys2Proof.Machine

open Sys2Proof

def publishPool (d : Dev) (x : Fin 4) : Dev := publish d (portCell x) [(14, 2)]

/-- Lowest-numbered FREE lane. -/
def freeLane (p : Pool) : Option (Fin 12) := (allFin 12).find? (fun i => p.lanes.get i == .free)

def patternLane (p : Pool) : Option (Fin 12) := (allFin 12).find? (fun i => p.lanes.get i == .pattern)

/-- Rank of a version request: source first, then programme; a lower rank is served first. -/
def VersionReq.rank (q : VersionReq) : Nat := 8 * q.src.val + q.prog.val

/-- The VERSION lanes with their holders. -/
def versionHolders (p : Pool) : List (Fin 12 × VersionReq) :=
  (allFin 12).filterMap (fun i =>
    match p.lanes.get i with
    | .version q => some (i, q)
    | .free | .pattern => none)

/-- The lowest-priority VERSION holder: highest source number, then highest programme number (R66). -/
def lowestHolder (p : Pool) : Option (Fin 12 × VersionReq) :=
  (versionHolders p).foldl (fun b h =>
    match b with
    | none => some h
    | some c => if c.2.rank < h.2.rank then some h else some c) none

/-- The highest-priority waiting request (R67). -/
def firstWaiting (p : Pool) : Option VersionReq :=
  p.waiting.foldl (fun b q =>
    match b with
    | none => some q
    | some c => if q.rank < c.rank then some q else some c) none

def setLane (d : Dev) (x : Fin 4) (i : Fin 12) (l : LaneState) : Dev :=
  publishPool (d.setPool x (fun p => { p with lanes := p.lanes.set i l })) x

/-- A lane is released: it becomes FREE, or goes to the highest-priority waiting request (R67). -/
def releaseLane (d : Dev) (x : Fin 4) (i : Fin 12) : Dev :=
  match firstWaiting (d.pool x) with
  | none => setLane d x i .free
  | some q => setLane (d.setPool x (fun p => { p with waiting := p.waiting.filter (fun w => w != q) })) x i (.version q)

/-- The LP writes its fields of a port cell: state, near limit, fill and test (R49, R214), the fill as of this moment
(log 38). -/
def publishPort (d : Dev) (x : Fin 4) : Dev := publish d (portCell x) [(4, 6)]

/-- The RS writes its fields of a remote cell: state, alarm set, queue occupancy and d (R49, R214). The occupancy is that
of the moment of the write within its event (log 38). -/
def publishRemote (d : Dev) (r : Fin 32) : Dev := publish d (remoteCell r) [(4, 3), (8, 2)]

/-- The remote of a test. -/
def Test.remote (t : Test) : Fin 32 := remoteAt t.port t.pos

/-- An ERROR_INSERT that waits for a pattern word (R46). -/
def errorInsertWaits (d : Dev) : Bool :=
  match d.smc.job with
  | some ⟨_, _, .errorInsert⟩ => true
  | some ⟨_, _, .flash _⟩ | none => false

/-- The running test ends (R47): STOP is offered and the port cell shows no test; an ERROR_INSERT that waits is
refused (R46). Its lane is the caller's. -/
def testStop (d : Dev) : Dev :=
  match d.rs.test with
  | none => d
  | some t =>
    let d := { d with rs := { d.rs with test := none } }
    let d := offer d t.remote (.pattern none)
    let d := publishPort d t.port
    if errorInsertWaits d then completeJob d .patternNotRunning else d

/-- The test ends and its lane returns to the pool (R47). -/
def testEnd (d : Dev) : Dev :=
  match d.rs.test with
  | none => d
  | some t => releaseLane (testStop d) t.port t.lane

/-- The test ends by preemption; the RP takes the lane (R47, R66). -/
def testPreempt (d : Dev) : Dev :=
  match d.rs.test with
  | none => d
  | some t => setLatch (testStop d) (portCell t.port) latchPatternPreempted

/-- A version request on a port (R66). -/
def poolRequest (d : Dev) (x : Fin 4) (q : VersionReq) : Dev :=
  let p := d.pool x
  match freeLane p with
  | some i => setLane d x i (.version q)
  | none =>
    match patternLane p with
    | some i => setLane (testPreempt d) x i (.version q)
    | none =>
      match lowestHolder p with
      | some (i, h) =>
        if q.src.val < h.src.val then
          setLane (d.setPool x (fun p => { p with waiting := p.waiting ++ [h] })) x i (.version q)
        else publishPool (d.setPool x (fun p => { p with waiting := p.waiting ++ [q] })) x
      | none => publishPool (d.setPool x (fun p => { p with waiting := p.waiting ++ [q] })) x

/-- A waiting request is withdrawn (R67). -/
def poolWithdraw (d : Dev) (x : Fin 4) (q : VersionReq) : Dev :=
  publishPool (d.setPool x (fun p => { p with waiting := p.waiting.filter (fun w => w != q) })) x

/-- The lane a request holds on a port. -/
def laneOf (p : Pool) (q : VersionReq) : Option (Fin 12) := (allFin 12).find? (fun i => p.lanes.get i == .version q)

/-- A request waits on a port. -/
def isWaiting (p : Pool) (q : VersionReq) : Bool := p.waiting.contains q

end Sys2Proof.Machine
end

