-- ==== Sys2Proof/Machine/BreakIn.lean ====
section
/-! DEFINITION. Machine/BreakIn.lean: the Break-In Controller: BIM arbitration, the zone selection table, version lanes,
SUBST delivery, reach, the audio fetch, and the start and end of a service (05 sections 5.5 to 5.7, 06). -/

namespace Sys2Proof.Machine

open Sys2Proof

/-! ### What a source cell shows

A change of state at a service start or end writes the whole cell; a change of the pending record or line level, of the audio
phase, of a grant or of the unreached set writes the fields that changed alone, and leaves the underrun count of bytes 36 and 37
to the events that name it (R135, R214; DESIGN CHOICE, log 61). -/

/-- Bytes 4 to 37, underrun count included, at a service start and end (log 26). -/
def publishSource (d : Dev) (n : Fin 8) : Dev := publish d (sourceCell n) [(4, 34)]
/-- State, line and pending parts alone (DESIGN CHOICE, log 61). -/
def publishPending (d : Dev) (n : Fin 8) : Dev := publish d (sourceCell n) [(4, 3)]
/-- Repeats left and audio phase alone (R135; at a pass end without a gap: DESIGN CHOICE, log 62). -/
def publishPhase (d : Dev) (n : Fin 8) : Dev := publish d (sourceCell n) [(14, 2)]
/-- The grants alone (DESIGN CHOICE, log 61). -/
def publishGrants (d : Dev) (n : Fin 8) : Dev := publish d (sourceCell n) [(24, 8)]
/-- The BIM set of a programme slot's cell. -/
def publishBimSet (d : Dev) (p : Fin 8) : Dev := publish d (slotCell (progSlot p)) [(18, 2)]

/-! ### BIM arbitration (R96, R121, R122) -/

/-- All pairs in rank order. -/
def allPairs : List (Fin 8 × Fin 8) := (allFin 8).flatMap (fun s => (allFin 8).map (fun p => (s, p)))

/-- The service of the pair's source runs and covers the programme. -/
def pairWanted (d : Dev) (q : Fin 8 × Fin 8) : Bool :=
  (d.source q.1).inService && (d.source q.1).progs.getLsbD q.2.val

/-- The waiting set in rank order. -/
def waitingPairs (d : Dev) : List (Fin 8 × Fin 8) :=
  allPairs.filter (fun q => pairWanted d q && (bimOf d q.1 q.2).isNone)

def publishPair (d : Dev) (q : Option (Fin 8 × Fin 8)) : Dev :=
  match q with
  | some (s, p) => publishBimSet (publishGrants d s) p
  | none => d

/-- A BIM is given a pair: it takes the phase of the main modulator of the programme (R96). -/
def bimGive (d : Dev) (m : Fin 12) (q : Fin 8 × Fin 8) : Dev :=
  let old := (d.bim m).pair
  let d := d.setBim m (fun _ => ⟨some q, (d.mod q.2).phase, 0, []⟩)
  publishPair (publishPair d old) (some q)

/-- A BIM becomes FREE with phase 0 (R96). -/
def bimFree (d : Dev) (m : Fin 12) : Dev :=
  let old := (d.bim m).pair
  publishPair (d.setBim m (fun _ => Bim.reset)) old

def freeBim (d : Dev) : Option (Fin 12) := (allFin 12).find? (fun m => (d.bim m).pair.isNone)

/-- The lowest-priority grant: of the highest-numbered source that holds a BIM, its highest-numbered programme (R121). -/
def lowestGrant (d : Dev) : Option ((Fin 8 × Fin 8) × Fin 12) :=
  allPairs.reverse.findSome? (fun q => (bimOf d q.1 q.2).map (fun m => (q, m)))

/-- The BIM request of a pair (R121). A pair that is not granted is WAITING. -/
def requestBim (d : Dev) (q : Fin 8 × Fin 8) : Dev :=
  match freeBim d with
  | some m => bimGive d m q
  | none =>
    match lowestGrant d with
    | some (h, m) => if q.1.val < h.1.val then bimGive d m q else d
    | none => d

/-- A released BIM goes to the highest-ranked waiting pair, or becomes FREE (R122). -/
def releaseBim (d : Dev) (giveOn : Bool) (m : Fin 12) : Dev :=
  match (waitingPairs d).head? with
  | some q => if giveOn then bimGive d m q else bimFree d m
  | none => bimFree d m

/-- The BIMs of a source, lowest-numbered first. -/
def bimsOf (d : Dev) (n : Fin 8) : List (Fin 12) :=
  (allFin 12).filter (fun m => (d.bim m).pair.any (fun q => q.1 == n))

/-- All BIMs of a source that is no longer in service are released (R122); with `giveOn` false the waiting set counts as
empty (R137). -/
def releaseBims (d : Dev) (giveOn : Bool) (n : Fin 8) : Dev := (bimsOf d n).foldl (fun d m => releaseBim d giveOn m) d

/-! ### The zone selection table (R123) -/

def zoneOwner (d : Dev) (z : Fin 16) (p : Fin 8) : Option (Fin 8 × Fin 12) :=
  (allFin 8).findSome? (fun s =>
    if pairWanted d (s, p) && (d.source s).zones.getLsbD z.val then (bimOf d s p).map (fun m => (s, m)) else none)

def recomputeZones (d : Dev) : Dev :=
  { d with bic := { d.bic with zoneSel := Tab.ofFn (fun z => Tab.ofFn (fun p => zoneOwner d z p)) } }

/-! ### Version lanes (R101, R102) -/

/-- The BIMs as version requests, in pair order. -/
def grantedPairs (d : Dev) : List VersionReq :=
  allPairs.filterMap (fun q => (bimOf d q.1 q.2).map (fun m => ⟨m, q.1, q.2⟩))

/-- A lane need (R101). -/
def needsLane (d : Dev) (q : VersionReq) (x : Fin 4) : Bool :=
  (allFin 16).any (fun z =>
    (d.source q.src).zones.getLsbD z.val && zoneView d.rp.routes d.rp.remoteTab x q.prog z)

/-- The BIM of a request no longer serves its pair. -/
def staleReq (d : Dev) (q : VersionReq) : Bool := (d.bim q.bim).pair != some (q.src, q.prog)

/-- Withdraw the waiting requests of a port that a test names. -/
def withdrawWhere (d : Dev) (x : Fin 4) (f : VersionReq → Bool) : Dev :=
  ((d.pool x).waiting.filter f).foldl (fun d q => poolWithdraw d x q) d

/-- Release the lanes of a port that a test names. -/
def releaseWhere (d : Dev) (x : Fin 4) (f : VersionReq → Bool) : Dev :=
  ((versionHolders (d.pool x)).filter (fun h => f h.2)).foldl (fun d h => releaseLane d x h.1) d

/-- The requests and releases of one event (R102): released and reassigned BIMs first, withdrawals before releases, then
the requests in pair order and port order, then the lanes no longer needed (log 16). -/
def bicLanes (d : Dev) : Dev :=
  let d := overAll d (fun d (x : Fin 4) => withdrawWhere d x (staleReq d))
  let d := overAll d (fun d (x : Fin 4) => releaseWhere d x (staleReq d))
  let d := (grantedPairs d).foldl (fun d q =>
    overAll d (fun d (x : Fin 4) =>
      if needsLane d q x && (laneOf (d.pool x) q).isNone && !isWaiting (d.pool x) q then poolRequest d x q else d)) d
  let d := overAll d (fun d (x : Fin 4) => withdrawWhere d x (fun q => !needsLane d q x))
  overAll d (fun d (x : Fin 4) => releaseWhere d x (fun q => !needsLane d q x))

/-! ### SUBST delivery and reach (R103 to R106) -/

/-- The desired value of a remote for a programme (R103). -/
def desiredFor (d : Dev) (r : Fin 32) (p : Fin 8) : DelivVal :=
  if (d.route (progSlot p) r).routed then
    match (d.bic.zoneSel.get (d.entry r).zone).get p with
    | some (s, m) =>
      match laneOf (d.pool (portOf r)) ⟨m, s, p⟩ with
      | some i => .lane (308 + i.val) s
      | none => .through
    | none => .through
  else .through

/-- The SUBST that tells a desired value. -/
def substMsg (p : Fin 8) (v : DelivVal) : DownMsg :=
  match v with
  | .through => .subst p none
  | .lane n _ => .subst p (some n)

/-- The last value given: the offered value if there is one, else the acknowledged value; none is UNKNOWN (R104). -/
def Delivery.lastGiven (v : Delivery) : Option DelivVal := v.offered <|> v.acked

/-- Recompute one desired value and offer SUBST where it differs from the last value given (R103, R104). -/
def deliverOne (d : Dev) (r : Fin 32) (p : Fin 8) : Dev :=
  let want := desiredFor d r p
  let d := d.setDelivery r p (fun v => { v with desired := want })
  if (d.delivery r p).lastGiven ≠ some want ∧ (d.remote r).holdable then
    offer (d.setDelivery r p (fun v => { v with offered := some want })) r (substMsg p want)
  else d

def deliverUpdate (d : Dev) : Dev := overAll d (fun d r => overAll d (fun d p => deliverOne d r p))

/-- A service of a source covers a remote (R106). -/
def covered (d : Dev) (s : Fin 8) (r : Fin 32) : Bool :=
  (d.source s).zones.getLsbD (d.entry r).zone.val &&
    (allFin 8).any (fun p => (d.source s).progs.getLsbD p.val && (d.route (progSlot p) r).routed)

/-- The acknowledged value of a remote is a lane that carries the source's version of the programme (R106). -/
def ackedVersion (d : Dev) (s : Fin 8) (r : Fin 32) (p : Fin 8) : Bool :=
  match (d.delivery r p).acked, bimOf d s p with
  | some (.lane n t), some m =>
    t == s && ((laneOf (d.pool (portOf r)) ⟨m, s, p⟩).map (fun i => 308 + i.val)) == some n
  | _, _ => false

/-- A covered remote is reached (R106); one that is not in service is not (log 19). -/
def reached (d : Dev) (s : Fin 8) (r : Fin 32) : Bool :=
  (d.remote r).serving && !(d.remote r).paFault &&
    (allFin 8).all (fun p =>
      !((d.source s).progs.getLsbD p.val && (d.route (progSlot p) r).routed) || ackedVersion d s r p)

/-- A set of remotes as a word, bit r for remote r. -/
def remoteSet (f : Fin 32 → Bool) : BitVec 32 :=
  BitVec.ofNat 32 (((allFin 32).map (fun r => if f r then 2 ^ r.val else 0)).sum)

def unreachedSet (d : Dev) (s : Fin 8) : BitVec 32 := remoteSet (fun r => covered d s r && !reached d s r)

/-- Reach of one in-service source recomputed (R106, R124). A change writes the unreached set alone (DESIGN CHOICE, log 61). -/
def reachOne (d : Dev) (s : Fin 8) : Dev :=
  let c := d.source s
  let new := unreachedSet d s
  if c.inService ∧ new ≠ c.unreached then
    let d := publish (d.setSource s (fun c => { c with unreached := new })) (sourceCell s) [(32, 4)]
    if c.settled ∧ c.unreached = 0 then setLatch d (sourceCell s) latchPartial else d
  else d

def reachUpdate (d : Dev) : Dev := overAll d reachOne

/-- Zone table, lanes, desired values and reach, after any change of their inputs. -/
def bicUpdate (d : Dev) : Dev := reachUpdate (deliverUpdate (bicLanes (recomputeZones d)))

/-- The ACK of a SUBST (R104). -/
def substAcked (d : Dev) (r : Fin 32) (p : Fin 8) : Dev :=
  reachUpdate (d.setDelivery r p (fun v => { v with acked := v.offered, offered := none }))

/-- A remote's queue was cleared: values in doubt become UNKNOWN (R105). -/
def deliveryDoubt (d : Dev) (r : Fin 32) : Dev :=
  overAll d (fun d (p : Fin 8) =>
    d.setDelivery r p (fun v => if v.offered.isSome then { v with acked := none, offered := none } else v))

/-! ### Audio fetch (R125 to R131) -/

/-- Samples of a pass; 0 for an origin without passes. -/
def clipLen : Option Origin → Nat
  | some (.shared _ l) | some (.flash _ l) => l
  | some .none | some .line | none => 0

/-- The FIFO fill that ends PRIMING (R126). -/
def primingAmount : Option Origin → Nat
  | some (.shared _ l) | some (.flash _ l) => min 256 l
  | some .line => 64
  | some .none | none => 0

/-- Samples of the current fetch remain, or another pass is due (R127). -/
def fetchDue (c : Source) : Bool := c.repeats == 0 || decide (c.fetched < c.repeats)

/-- Start the next fetch of a clip when the FIFO has room and samples remain (R127, R128, R206). -/
def afPump (d : Dev) (n : Fin 8) : Dev :=
  let c := d.source n
  match c.origin with
  | some (.shared _ l) =>
    if c.inService ∧ c.onWay = 0 ∧ fetchDue c ∧ c.fifo.length + 32 ≤ Config.fifoSize then
      d.setSource n (fun c => { c with onWay := min 32 (l - c.fetchPos) })
    else d
  | some (.flash o l) =>
    if c.inService ∧ (d.fb.waiting.get n).isNone ∧ !clipOnPort d n ∧ fetchDue c ∧
        c.fifo.length + 128 ≤ Config.fifoSize then
      requestClip d n ⟨o + 2 * c.fetchPos, 2 * min 128 (l - c.fetchPos)⟩
    else d
  | some .none | some .line | none => d

/-- PRIMING ends when the FIFO holds the priming amount (R126). -/
def primed (d : Dev) (n : Fin 8) : Dev :=
  let c := d.source n
  if c.audioPhase = .priming ∧ primingAmount c.origin ≤ c.fifo.length then
    publishPhase (d.setSource n (fun c => { c with audioPhase := .playing })) n
  else d

/-- Fetched clip samples join the FIFO (R127, R206); the fetch goes on behind them. -/
def clipArrived (d : Dev) (n : Fin 8) (xs : List (BitVec 16)) : Dev :=
  let d := d.setSource n (fun c =>
    let pos := c.fetchPos + xs.length
    let whole := decide (clipLen c.origin ≤ pos)
    { c with fifo := c.fifo ++ xs, onWay := 0, fetchPos := if whole then 0 else pos,
             fetched := if whole then c.fetched + 1 else c.fetched })
  afPump (primed d n) n

/-- A line sample joins the FIFO of a LINE service, or is discarded (R129). -/
def lineSample (d : Dev) (n : Fin 8) (x : BitVec 16) : Dev :=
  let c := d.source n
  if c.inService ∧ c.origin = some .line ∧ c.fifo.length < Config.fifoSize then
    primed (d.setSource n (fun c => { c with fifo := c.fifo ++ [x] })) n
  else d

/-- One sample delivered to every BIM of a source (R97, R126). -/
def deliverAudio (d : Dev) (n : Fin 8) (x : BitVec 16) : Dev :=
  overAll d (fun d (m : Fin 12) =>
    if (d.bim m).pair.any (fun q => q.1 == n) then d.setBim m (fun b => { b with audio := x }) else d)

/-- The origin a service runs with, and whether a FLASH clip could not be found (R125). -/
def resolveOrigin (d : Dev) (o : ReqOrigin) : Origin × Bool :=
  match o with
  | .none => (.none, false)
  | .shared a l => (.shared a l, false)
  | .line => (.line, false)
  | .flash id =>
    if h : id < 16 then
      match d.fb.present, d.fb.dir.get ⟨id, h⟩ with
      | true, some c => (.flash c.off c.len, false)
      | _, _ => (.none, true)
    else (.none, true)

/-- The AF starts a service's audio (R120 step 5, R125 to R128). -/
def afStart (d : Dev) (n : Fin 8) (noClip : Bool) : Dev :=
  let silent := decide ((d.source n).origin = some .none)
  let flash : Bool := match (d.source n).origin with
    | some (.flash _ _) => true
    | some .none | some (.shared _ _) | some .line | none => false
  let d := d.setSource n (fun c =>
    { c with audioPhase := if silent then .silent else .priming, playDue := d.now + Config.playPeriod, fifo := [],
             fetchPos := 0, fetched := 0, onWay := 0, played := 0, gapLeft := 0 })
  let d := if noClip then setLatch d (sourceCell n) latchNoClip else d
  let d := if flash ∧ programInFlight d then setLatch d (sourceCell n) latchAudioSlow else d
  afPump d n

/-! ### Service start and end (R118 to R120, R134) -/

/-- The parameters a service starts with: the cue request's, else the defaults of the moment (R119). -/
def startParams (d : Dev) (n : Fin 8) : CueReq :=
  match (d.source n).cueReq with
  | some q => q
  | none =>
    let e := d.bic.table.get n
    ⟨e.zones, e.progs, e.origin, e.repeats, e.gap⟩

/-- The service record filled at a start (R119). Its end reason none is what the source cell shows until the service ends
(DESIGN CHOICE, log 58). -/
def fillRecord (d : Dev) (n : Fin 8) (q : CueReq) (o : Origin) : Dev :=
  let d := d.setSource n (fun c =>
    { c with inService := true, zones := q.zones, progs := q.progs, origin := some o, repeats := q.repeats,
             gap := q.gap, repeatsLeft := q.repeats, seq := c.seq + 1, ending := false, endReason := .none,
             underruns := 0, lineReq := false, cueReq := none, settled := false, settleDue := none })
  d.setSource n (fun c => { c with unreached := remoteSet (covered d n) })

/-- A service starts (R119, R120). -/
def serviceStart (d : Dev) (n : Fin 8) : Dev :=
  let q := startParams d n
  let o := resolveOrigin d q.origin
  let d := fillRecord d n q o.1
  let d := ((allFin 8).filter (fun p => q.progs.getLsbD p.val)).foldl (fun d p => requestBim d (n, p)) d
  let d := bicUpdate d
  let d := d.setSource n (fun c => { c with settleDue := some (d.now + Config.settleTime) })
  let d := afStart d n o.2
  setLatch (publishSource d n) (sourceCell n) latchServiceStarted

/-- A source is tested against the start condition (R118). -/
def tryStart (d : Dev) (n : Fin 8) : Dev :=
  let c := d.source n
  if c.isPending ∧ (d.bic.table.get n).enabled ∧ d.bic.master ∧ !c.inService then serviceStart d n else d

/-- The last boot ended without a loaded table (R136). -/
def bootFailed (d : Dev) : Bool :=
  match d.smc.bootResult.outcome with
  | .noFlash | .blank | .badFormat | .badLength => true
  | .none | .loaded => false

/-- The source's line makes requests: line use is on (R112, R113), or the line is ALARM after a failed boot, whose requests are
masked until a take-up enables the master and S0 or gives S0 line use (R136, R111; DEDUCED, log 50). -/
def lineHeard (d : Dev) (n : Fin 8) : Bool :=
  (d.bic.table.get n).lineUse || (decide (n.val = 0) && d.bic.alarmMasked && bootFailed d)

/-- A source table ends the masked state of the ALARM line: it gives S0 line use, or enables S0 under an enabled master
(R136; DEDUCED, log 50). -/
def unmasksAlarm (master : Bool) (t : Tab 8 SrcEntry) : Bool := (t.get 0).lineUse || ((t.get 0).enabled && master)

/-- The source's line drives it under the LEVEL trigger. -/
def levelLine (d : Dev) (n : Fin 8) : Bool := lineHeard d n && !(d.bic.table.get n).latched

/-- The line request takes the line's level unless the cancel hold is set (R112). A request that is cleared so latches no
REQUEST_WITHDRAWN (DESIGN CHOICE, log 42). At a DISABLED end the table read here is the new one (DEDUCED, log 52). -/
def takeLevel (d : Dev) (n : Fin 8) : Dev :=
  if levelLine d n ∧ !(d.source n).cancelHold then
    publishPending (d.setSource n (fun c => { c with lineReq := lineLevel d n })) n
  else d

/-- Steps 1 to 6 of a service end (R134). Audio phase and repeats left keep their last values (DESIGN CHOICE, log 51). -/
def endSteps (d : Dev) (n : Fin 8) (why : EndReason) (giveOn : Bool) : Dev :=
  let d := withdrawClip d n
  let d := d.setSource n (fun c =>
    { c with fifo := [], onWay := 0, endReason := why, settleDue := none, settled := false, inService := false })
  let d := releaseBims d giveOn n
  let d := bicUpdate d
  setLatch (publishSource d n) (sourceCell n) latchServiceEnded

/-- A service ends (R134). -/
def serviceEnd (d : Dev) (n : Fin 8) (why : EndReason) : Dev :=
  let d := endSteps d n why true
  if why = .finished ∨ why = .disabled ∨ why = .lineDropped then tryStart (takeLevel d n) n else d

/-! ### Play instants (R126, R130, R131) -/

/-- The last sample of a pass has been delivered (R131). Repeats left and phase are written to the cell at each pass end that goes on,
also at a gap of 0, where the phase stays PLAYING (DESIGN CHOICE, log 62). -/
def passEnd (d : Dev) (n : Fin 8) : Dev :=
  let c := d.source n
  if c.ending then serviceEnd d n .lineDropped
  else if c.repeatsLeft = 1 then serviceEnd d n .finished
  else
    publishPhase (d.setSource n (fun c =>
      { c with repeatsLeft := c.repeatsLeft - 1, played := 0, gapLeft := 32 * c.gap,
               audioPhase := if c.gap = 0 then .playing else .gap })) n

/-- A play instant in PLAYING (R126, R130, R131). -/
def playSample (d : Dev) (n : Fin 8) : Dev :=
  match (d.source n).fifo with
  | [] =>
    let d := d.setSource n (fun c => { c with underruns := sat65535 (c.underruns + 1) })
    setLatch (deliverAudio d n 0) (sourceCell n) latchAudioSlow
  | x :: xs =>
    let d := deliverAudio (d.setSource n (fun c => { c with fifo := xs, played := c.played + 1 })) n x
    let c := d.source n
    if clipLen c.origin ≠ 0 ∧ clipLen c.origin ≤ c.played then afPump (passEnd d n) n else afPump d n

/-- A play instant of a service in GAP (R126). -/
def gapInstant (d : Dev) (n : Fin 8) : Dev :=
  let d := deliverAudio d n 0
  if (d.source n).gapLeft ≤ 1 then
    publishPhase (d.setSource n (fun c => { c with gapLeft := 0, audioPhase := .playing })) n
  else d.setSource n (fun c => { c with gapLeft := c.gapLeft - 1 })

/-- The play instant of an in-service source (R126). -/
def playInstant (d : Dev) (n : Fin 8) : Dev :=
  let d := d.setSource n (fun c => { c with playDue := c.playDue + Config.playPeriod })
  match (d.source n).audioPhase with
  | .priming | .silent => deliverAudio d n 0
  | .playing => playSample d n
  | .gap => gapInstant d n

/-! ### Lines (R112 to R114, R132, R133) -/

/-- A trigger that found the source in service under ONCE (R114). -/
def triggerIgnored (d : Dev) (n : Fin 8) : Dev := setLatch d (sourceCell n) latchTriggerIgnored

/-- A rising edge of the source's line, its level already recorded (R112 to R114, R136). A line that is not heard makes no
request. -/
def lineRise (d : Dev) (n : Fin 8) : Dev :=
  let e := d.bic.table.get n
  let c := d.source n
  if !lineHeard d n then d
  else if c.inService then
    if e.again then publishPending (d.setSource n (fun c => { c with lineReq := true })) n
    else triggerIgnored d n
  else if !e.latched ∧ c.cancelHold then d
  else tryStart (publishPending (d.setSource n (fun c => { c with lineReq := true })) n) n

/-- The line request is cleared by its line (R112, R114). -/
def withdrawLine (d : Dev) (n : Fin 8) : Dev :=
  let had := (d.source n).lineReq
  let d := publishPending (d.setSource n (fun c => { c with lineReq := false, cancelHold := false })) n
  if had then setLatch d (sourceCell n) latchRequestWithdrawn else d

/-- The end or the ending mark that a falling edge brings to a running service (R132, R133). -/
def lineFallEnds (d : Dev) (n : Fin 8) : Dev :=
  let c := d.source n
  if !c.inService then d
  else if c.origin = some .line then serviceEnd d n .lineDropped
  else if levelLine d n then
    match c.audioPhase with
    | .playing => d.setSource n (fun c => { c with ending := true })
    | .priming | .gap | .silent => serviceEnd d n .lineDropped
  else d

/-- A falling edge of the source's line, its level already recorded. -/
def lineFall (d : Dev) (n : Fin 8) : Dev :=
  lineFallEnds (if levelLine d n then withdrawLine d n else d) n

end Sys2Proof.Machine
end

