-- ==== Sys2Proof/Machine/Voting.lean ====
section
/-! DEFINITION. Machine/Voting.lean: the Uplink Voter (07 sections 7.6 and 7.7). -/

namespace Sys2Proof.Machine

open Sys2Proof

/-- The state conditions of a rescue slot: the first four of R155. -/
def stateCond (d : Dev) (e : Fin 8) (r : Fin 32) : Bool :=
  let t := d.route (rescueSlot e) r
  let p := d.port (portOf r)
  decide ((d.remote r).state = .inService) && t.routed && t.uplink && !(d.hold r).late &&
    decide (p.state = .running) && !p.near

/-- The remote with the highest figure, the lowest number among equals. -/
def bestBy (q : Fin 32 → Nat) : List (Fin 32) → Option (Fin 32)
  | [] => none
  | r :: rs =>
    match bestBy q rs with
    | none => some r
    | some b => if q b > q r then some b else some r

def publishVoter (d : Dev) (e : Fin 8) : Dev := publish d (slotCell (rescueSlot e)) [(20, 7)]

/-- A hard switch away from `old` (R159). -/
def hardSwitch (d : Dev) (e : Fin 8) (old : Fin 32) : Dev :=
  let v := d.voter e
  let cands := (allFin 32).filter (fun r => (v.last.get r).isSome && stateCond d e r && r != old)
  let sel := bestBy (fun r => (v.last.get r).getD 0) cands
  let d := d.setVoter e (fun v => { v with sel := sel, offset := 0 })
  let d := publishVoter d e
  let d := setLatch d (slotCell (rescueSlot e)) latchVoterChange
  if sel.isNone then setLatch d (slotCell (rescueSlot e)) latchNoVoter else d

/-- Hard-switch every voter whose selected remote no longer meets the state conditions (R158). -/
def uvRecheck (d : Dev) : Dev :=
  overAll d (fun d (e : Fin 8) =>
    match (d.voter e).sel with
    | some r => if stateCond d e r then d else hardSwitch d e r
    | none => d)

/-! ### The splice search (R157) -/

/-- Envelope of a sample: min(255, floor((|I| + |Q|) / 256)). -/
def envelope (x : Sample) : Nat := min 255 ((x.i.toInt.natAbs + x.q.toInt.natAbs) / 256)

def absDiff (a b : Nat) : Nat := (a - b) + (b - a)

/-- SAD_j of four output envelopes and eleven envelopes of the new remote. -/
def sadAt (c k : List Nat) (j : Nat) : Nat :=
  ((List.range 4).map (fun i => absDiff (c.getD i 0) (k.getD (j + i) 0))).sum

/-- The smallest j of 0..7 with the least SAD. -/
def bestJ (c k : List Nat) : Nat :=
  (List.range 8).foldl (fun b j => if sadAt c k j < sadAt c k b then j else b) 0

/-- c0..c3: the last four output samples, oldest first. -/
def outEnvelopes (v : Voter) : List Nat :=
  (List.range 4).map (fun i => envelope (v.outs.getD (3 - i) Sample.zero))

/-- k0..k10: the new remote's aligned samples at positions n0 - 4 to n0 + 6. The newest sample in hand is at n0 + 7. -/
def candEnvelopes (v : Voter) (r : Fin 32) : List Nat :=
  (List.range 11).map (fun i => envelope ((v.hist.get r).getD (11 - i) Sample.zero))

/-- A spliced switch to a new remote at a frame end (R157). -/
def splicedSwitch (d : Dev) (e : Fin 8) (r : Fin 32) : Dev :=
  let v := d.voter e
  let c := outEnvelopes v
  let k := candEnvelopes v r
  let j := bestJ c k
  if sadAt c k j ≤ (d.sru.table.get e).spliceLimit then
    setLatch (d.setVoter e (fun v => { v with sel := some r, offset := (j : Int) - 4 }))
      (slotCell (rescueSlot e)) latchVoterChange
  else setLatch d (slotCell (rescueSlot e)) latchSpliceRefused

/-- Candidates of a slot at a frame end (R155). -/
def candidates (d : Dev) (e : Fin 8) : List (Fin 32) :=
  (allFin 32).filter (fun r => stateCond d e r && ((d.voter e).cur.get r).isSome)

/-- The best candidate (R156 step 1). -/
def bestCandidate (d : Dev) (e : Fin 8) : Option (Fin 32) :=
  bestBy (fun r => ((d.voter e).cur.get r).getD 0) (candidates d e)

/-- The judgement of the selection (R156 step 2). -/
def judgeSelection (d : Dev) (e : Fin 8) : Dev :=
  let v := d.voter e
  match v.sel, bestCandidate d e with
  | none, some b =>
    setLatch (d.setVoter e (fun v => { v with sel := some b, offset := 0 })) (slotCell (rescueSlot e)) latchVoterChange
  | none, none => d
  | some _, none => d
  | some r, some b =>
    let qCur := (v.cur.get r).getD 0
    let qBest := (v.cur.get b).getD 0
    if (candidates d e).contains r then
      if b ≠ r ∧ qBest ≥ qCur + (d.sru.table.get e).hysteresis then splicedSwitch d e b else d
    else splicedSwitch d e b

/-- A voting frame end (R156). -/
def frameEnd (d : Dev) (e : Fin 8) : Dev :=
  let best := bestCandidate d e
  let d := judgeSelection d e
  let d := d.setVoter e (fun v =>
    { v with best := best, last := v.cur, cur := Tab.const 32 none, seq := v.seq + 1, due := v.due + Config.votingPeriod })
  publishVoter d e

/-- One aligned sample of every stream arrives; the output sample four positions behind is delivered (R153). -/
def voterSample (v : Voter) (x : Fin 32 → Sample) : Voter × Sample :=
  let hist := Tab.ofFn (fun r => (x r :: v.hist.get r).take 12)
  let out := match v.sel with
    | some r => (hist.get r).getD (4 - v.offset).toNat Sample.zero
    | none => Sample.zero
  ({ v with hist := hist, outs := (out :: v.outs).take 4 }, out)

end Sys2Proof.Machine
end

