-- ==== Sys2Proof/Machine/Simulcast.lean ====
section
/-! DEFINITION. Machine/Simulcast.lean: the Simulcast Reference Unit (07 sections 7.3 and 7.4). -/

namespace Sys2Proof.Machine

open Sys2Proof

/-- Remotes that form the candidate: in service with a rescue route (R143). -/
def qualifying (d : Dev) : List (Fin 32) :=
  (allFin 32).filter (fun r => (d.remote r).serving && hasRescueRoute d.rp.routes r)

/-- The value T_ref would take at a re-reference made now (R143). -/
def refCandidate (d : Dev) : Nat :=
  match qualifying d with
  | [] => d.sru.tRef
  | r :: rs => ((r :: rs).map (fun r => min 65535 ((d.remote r).d + d.sru.guardTicks))).foldl max 0

/-- The hold and LATE mark from T_ref and d (R147). -/
def holdFor (tRef dly : Nat) : HoldVal × Bool := if dly ≤ tRef then (.ticks (tRef - dly), false) else (.off, true)

def publishHold (d : Dev) (r : Fin 32) : Dev := publish d (remoteCell r) [(7, 1), (10, 6)]

/-- The last value given to a remote: the offered value if there is one, else the acknowledged value (R150). -/
def HoldRec.lastGiven (h : HoldRec) : Option HoldVal := h.offered <|> h.acked

/-- Offer HOLD when a holding remote's hold differs from the last value given (R150). -/
def offerHold (d : Dev) (r : Fin 32) : Dev :=
  let h := d.hold r
  match h.hold with
  | some v =>
    if h.holding ∧ h.lastGiven ≠ some v then
      offer (d.setHold r (fun h => { h with offered := some v })) r (.hold v)
    else d
  | none => d

/-- The hold and LATE mark of a holding remote recomputed, nothing handed on yet (R147). -/
def setHoldFor (d : Dev) (r : Fin 32) : Dev :=
  if (d.hold r).holding then
    let v := holdFor d.sru.tRef (d.remote r).d
    publishHold (d.setHold r (fun h => { h with hold := some v.1, late := v.2 })) r
  else d

/-- A re-reference (R145). -/
def reReference (d : Dev) : Dev :=
  let before : Fin 32 → Bool := fun r => (d.hold r).late
  let d := { d with sru := { d.sru with tRef := refCandidate d, refSeq := d.sru.refSeq + 1 } }
  let d := overAll d setHoldFor
  let d := overAll d (fun d r =>
    if (d.hold r).late != before r then setLatch d (remoteCell r) latchLateChange else d)
  let d := uvRecheck d
  let d := overAll d offerHold
  let d := publish d partCell [(50, 4)]
  setLatch d partCell latchRereferenced

/-- Some slot is KEYED in the keyed record. -/
def anyKeyed (d : Dev) : Bool := d.sru.keyed.list.any id

/-- Evaluate re-reference (R144). -/
def sruEvaluate (d : Dev) : Dev :=
  if anyKeyed d ∨ refCandidate d = d.sru.tRef then d else reReference d

/-- The SRU at a delay lock (R148). The join set carries the HOLD. -/
def sruLock (d : Dev) (r : Fin 32) : Dev :=
  let v := holdFor d.sru.tRef (d.remote r).d
  let late := (d.hold r).late
  let d := d.setHold r (fun h => { h with holding := true, hold := some v.1, late := v.2, offered := some v.1 })
  let d := if v.2 ∧ !late then setLatch d (remoteCell r) latchLateChange else d
  uvRecheck (publishHold d r)

/-- The SRU at DELAY_MOVED: the hold is recomputed and offered, then re-reference is evaluated (R149). -/
def sruMoved (d : Dev) (r : Fin 32) : Dev :=
  let late := (d.hold r).late
  let d := setHoldFor d r
  let d := if (d.hold r).late != late then setLatch d (remoteCell r) latchLateChange else d
  sruEvaluate (offerHold (uvRecheck d) r)

/-- A remote stops holding (R151). -/
def stopHolding (d : Dev) (r : Fin 32) : Dev :=
  let late := (d.hold r).late
  let d := d.setHold r (fun _ => HoldRec.reset)
  let d := publishHold d r
  if late then setLatch d (remoteCell r) latchLateChange else d

/-- The ACK of a HOLD (R150). -/
def holdAcked (d : Dev) (r : Fin 32) : Dev :=
  publishHold (d.setHold r (fun h => { h with acked := h.offered, offered := none })) r

/-- A keying change handed to the SRU; an unkeying with no other slot KEYED is an evaluation event (R12, R142). -/
def keyingChange (d : Dev) (e : Fin 8) (keyed others : Bool) : Dev :=
  let d := { d with sru := { d.sru with keyed := d.sru.keyed.set e keyed } }
  if keyed ∨ others then d else sruEvaluate d

end Sys2Proof.Machine
end

