-- ==== Sys2Proof/Machine/Routes.lean ====
section
/-! DEFINITION. Machine/Routes.lean: the outcome of a take-up (R185) and the route exchange (03 section 3.4, R71, R184, R186). -/

namespace Sys2Proof.Machine

open Sys2Proof

/-! ### Outcomes (R185) -/

/-- A table is switched by a take-up (R185). The part state at the switch decides on the latch, also for an exchange begun
before the part left LINKED (DESIGN CHOICE, log 41). -/
def takenUp (d : Dev) (t : TableId) (w : BitVec 32) : Dev :=
  let d := { d with smc := { d.smc with taken := d.smc.taken.set t.index w } }
  setLatch (publish d partCell [(16 + 4 * t.index.val, 4)]) partCell latchTakeUpDone

/-- A take-up is refused (R185). -/
def takeUpRefused (d : Dev) (t : TableId) (w : BitVec 32) (i : Nat) (c : TakeUpCause) : Dev :=
  let d := { d with smc := { d.smc with lastRefusal := some ⟨t, w, i, c⟩ } }
  setLatch (publish d partCell [(40, 8)]) partCell latchTakeUpRefused

/-! ### The exchange -/

def Dev.setRp (d : Dev) (f : Rp → Rp) : Dev := { d with rp := f d.rp }

def publishPhaseRp (d : Dev) : Dev := publish d partCell [(48, 1)]

def offerMaps (d : Dev) (r : Fin 32) (old new : Routes) : Dev :=
  (mapDiff old new r).foldl (fun d s => offer d r (.map s (mapOf new r s))) d

/-- A remote's map differs between two tables (R57). -/
def mapsDiffer (a b : Routes) (r : Fin 32) : Bool := (allFin 40).any (fun s => mapOf a r s != mapOf b r s)

/-- A new table whose check has passed enters the exchange (R60). `boot` marks a boot load (R71). -/
def startExchange (d : Dev) (new : Routes) (w : BitVec 32) (boot : Bool) : Dev :=
  let old := d.rp.routes
  let staged := (allFin 32).filter (fun r => (d.remote r).serving && mapsDiffer old new r)
  let d := d.setRp (fun p =>
    { p with phase := .staging, newRoutes := new, newWord := w, newBoot := boot, staged := staged, switching := [],
             switchSent := [], stagingDue := d.now + Config.stagingTime })
  publishPhaseRp (staged.foldl (fun d r => offerMaps d r old new) d)

/-- JOINING with its lock flag set. -/
def Remote.lockedJoining (m : Remote) : Bool := m.state = .joining && m.locked

/-- What a remote of the switching set is offered at the switch event (R61). -/
def switchOffers (d : Dev) (old new : Routes) (r : Fin 32) : Dev :=
  if d.rp.staged.contains r then offer d r .switch
  else
    let d := offerMaps d r old new
    if (d.remote r).lockedJoining && !(d.remote r).joinSwitch then d else offer d r .switch

/-- The switch event (R61, R62). R62 names no order of its readers; here the UV rechecks its selections (R158) before the SRU
evaluates re-reference, so a remote whose LATE mark that re-reference clears is no choice of the same event's hard switch
(DESIGN CHOICE, log 60). -/
def switchEvent (d : Dev) : Dev :=
  let old := d.rp.routes
  let new := d.rp.newRoutes
  let set := (allFin 32).filter (fun r =>
    ((d.remote r).holdable && mapsDiffer old new r) || d.rp.staged.contains r)
  let d := d.setRp (fun p => { p with routes := new, phase := .switching, switching := set, switchSent := [] })
  let d := if d.rp.newBoot then publish { d with smc := { d.smc with taken := d.smc.taken.set 2 0 } } partCell [(24, 4)]
    else takenUp d .route d.rp.newWord
  let d := set.foldl (fun d r => switchOffers d old new r) d
  let d := d.setRp (fun p => { p with staged := [] })
  let d := overAll d (fun d x => publish d (portCell x) [(10, 4)])
  let d := publishPhaseRp d
  bicUpdate (sruEvaluate (uvRecheck d))

/-- The route table a boot load gives: its rows over the working table (R71). -/
def combineRows (d : Dev) (rows : Tab 160 (Option (List Byte))) : Routes :=
  Tab.ofFn (fun s => Tab.ofFn (fun r =>
    match rows.get (rowOf s (portOf r)) with
    | some b => routeForm s (b.getD (posOf r).val 0)
    | none => d.route s r))

/-- Loaded rows cleared to unrouted (R71). -/
def clearRows (rows : Tab 160 (Option (List Byte))) : Tab 160 (Option (List Byte)) :=
  rows.map (fun b => b.map (fun _ => emptyRaw))

/-- A boot load that has waited starts its exchange (R71). -/
def startBootLoad (d : Dev) (rows : Tab 160 (Option (List Byte))) : Dev :=
  let new := combineRows d rows
  let new := if (routeCheck new).isSome then combineRows d (clearRows rows) else new
  startExchange (d.setRp (fun p => { p with bootRows := none })) new 0 true

/-- A route take-up is in flight from its start to IDLE; a boot load counts from the boot switch (R71, 08 section 8.7). -/
def routeInFlight (d : Dev) : Bool := decide (d.rp.phase ≠ .idle) || d.rp.bootRows.isSome

/-- A route take-up starts: the host's table is read, formed and checked (R60, R185). -/
def takeUpRoute (d : Dev) (l : Layout) (w : BitVec 32) : Dev :=
  let new := hostRoutes d.smc.mem l
  match routeCheck new with
  | some (i, c) => takeUpRefused d .route w i c
  | none => startExchange d new w false

/-- Judge a ROUTE revision word (R184). -/
def judgeRoute (d : Dev) (l : Layout) (w : BitVec 32) : Dev :=
  if w = 0 ∨ w = d.smc.lastReq.get 2 then d
  else if routeInFlight d then { d with smc := { d.smc with deferred := d.smc.deferred.set 2 true } }
  else takeUpRoute { d with smc := { d.smc with lastReq := d.smc.lastReq.set 2 w } } l w

/-- The deferred mark of ROUTE judged at the outcome of its take-up: the word is read anew (R186). -/
def judgeDeferred (d : Dev) : Dev :=
  if d.smc.deferred.get 2 then
    let d := { d with smc := { d.smc with deferred := d.smc.deferred.set 2 false } }
    match d.smc.layout with
    | some l => judgeRoute d l (revisionWord d.smc.mem l .route)
    | none => d
  else d

/-- The exchange ends (R63): a waiting boot load follows, or the deferred mark is judged. -/
def endExchange (d : Dev) : Dev :=
  let d := publishPhaseRp (d.setRp (fun p => { p with phase := .idle, switchSent := [] }))
  match d.rp.bootRows with
  | some rows => startBootLoad d rows
  | none => judgeDeferred d

/-- A queue that holds a MAP or a SWITCH keeps its remote in the switching set (R63). -/
def switchBusy (m : Remote) : Bool := holdsKind m .map || holdsKind m .switch

/-- The exchange moves as far as this event lets it: staging ends when no staged remote holds a MAP (R60), a remote
leaves the switching set when its queue holds neither MAP nor SWITCH (R63), and an empty set ends the exchange. -/
def exchangeMoves : Nat → Dev → Dev
  | 0, d => d
  | k + 1, d =>
    match d.rp.phase with
    | .idle => d
    | .staging => if d.rp.staged.any (fun r => holdsKind (d.remote r) .map) then d else exchangeMoves k (switchEvent d)
    | .switching =>
      let left := d.rp.switching.filter (fun r => switchBusy (d.remote r))
      let d := d.setRp (fun p => { p with switching := left })
      if left.isEmpty then exchangeMoves k (endExchange d) else d

/-- At most a switch and an end, then a boot load's, then a deferred revision's: six moves. -/
def exchangeSettle (d : Dev) : Dev := exchangeMoves 8 d

/-- A remote leaves both sets of the exchange (R60, R63). -/
def leaveExchange (d : Dev) (r : Fin 32) : Dev :=
  d.setRp (fun p =>
    { p with staged := p.staged.filter (· != r), switching := p.switching.filter (· != r),
             switchSent := p.switchSent.filter (· != r) })

/-- The ACK of a MAP in SWITCHING from a remote whose SWITCH has been sent: SWITCH is offered again (R63). -/
def mapAcked (d : Dev) (r : Fin 32) : Dev :=
  if d.rp.phase = .switching ∧ d.rp.switching.contains r ∧ d.rp.switchSent.contains r then offer d r .switch else d

end Sys2Proof.Machine
end

