-- ==== Sys2Proof/Machine/Levels.lean ====
section
/-! DEFINITION. Machine/Levels.lean: gain steps and power factors (04 section 4.1), the Level Budget Unit (04), the level
window (01 sections 1.3 to 1.5) and the switch of the channel table (R5, R6). -/

namespace Sys2Proof.Machine

open Sys2Proof

/-! ### Steps (R73, R74) -/

/-- Amplitude of a fine step, Q15. -/
def gFine (k : Nat) : Nat := [32768, 29205, 26029, 23198, 20675, 18427].getD k 0

/-- Power of a fine step, Q16: floor(gfine² / 16384). -/
def pFine (k : Nat) : Nat := gFine k * gFine k / 16384

/-- The gain of a step (R73). -/
def gain (k : Nat) : Nat := gFine (k % 6) / 2 ^ (k / 6)

/-- The power factor of a step (R74). -/
def powerFactor (k : Nat) : Nat := pFine (k % 6) / 2 ^ (2 * (k / 6))

/-- A step applied to one component: floor(x g / 32768) (R2, R73). -/
def stepValue (k : Nat) (x : Int) : Int := x * gain k / 32768

/-- A step applied to a sample, each component separately (R2). -/
def stepSample (k : Nat) (x : Sample) : Sample := sampleOf (stepValue k x.i.toInt) (stepValue k x.q.toInt)

/-- A level figure scaled by a step (R74). -/
def scaleLevel (p k : Nat) : Nat := p * powerFactor k / 65536

/-! ### The evaluation of a remote (R75 to R83) -/

/-- Steps 0 to 47. -/
def steps : List Nat := List.range 48

/-- The least step that fits a sum into a room, and whether none fits (R80, R81). -/
def fitStep (sum room : Nat) : Nat × Bool :=
  match steps.find? (fun k => scaleLevel sum k ≤ room) with
  | some k => (k, false)
  | none => (47, true)

/-- The programme target, the room it leaves, and whether the class is short (R80). -/
def progTarget (sp rm : Nat) : Nat × Nat × Bool :=
  if sp ≤ rm then (0, rm - sp, false)
  else
    let t := fitStep sp rm
    (t.1, rm - scaleLevel sp t.1, t.2)

/-- The carrier target and whether the class is short (R81). -/
def carTarget (sc rm2 : Nat) : Nat × Bool := if sc = 0 then (0, false) else fitStep sc rm2

/-- Attack and release (R82). -/
def stepToward (target cur : Nat) : Nat := if cur < target then target else if target < cur then cur - 1 else cur

/-- The sum of the contributions of a remote's routes in one class (R78). -/
def classSum (d : Dev) (r : Fin 32) (k : SlotKind) : Nat :=
  ((allFin 40).map (fun s =>
    if slotRange s = k ∧ (d.route s r).routed then scaleLevel (d.slot s).pOut (d.route s r).trim else 0)).sum

/-- The effective budget B' (R77). -/
def effectiveBudget (d : Dev) (r : Fin 32) : Nat :=
  let b := (d.entry r).budget
  if (d.remote r).serving && (d.remote r).overTemp then b / 2 else b

/-- The evaluation of one remote without its LEVELs (R77 to R82). -/
def evaluateBudget (b : Budget) (eff sr sp sc : Nat) (seq : BitVec 16) : Budget :=
  let rm := eff - sr
  let tp := progTarget sp rm
  let tc := carTarget sc tp.2.1
  { b with progStep := stepToward tp.1 b.progStep, carStep := stepToward tc.1 b.carStep, progTarget := tp.1,
           carTarget := tc.1, effective := eff, sumR := sr, sumP := sp, sumC := sc,
           rescueOver := decide (eff < sr), short := tp.2.2 || tc.2, evalSeq := seq }

/-- A remote is evaluated at a close (R76). -/
def evaluated (m : Remote) : Bool := (m.serving && !m.paFault) || (m.state = .joining && m.locked)

/-- LEVEL is offered for a class whose step changed (R83). -/
def offerLevel (d : Dev) (r : Fin 32) (c : Bool) (old new : Nat) : Dev :=
  if old = new then d else offer d r (.level c new)

/-- The LBU's evaluation of one remote at a window close (R76 to R83, R86). -/
def evaluateOne (d : Dev) (r : Fin 32) : Dev :=
  if evaluated (d.remote r) then
    let b := d.budget r
    let n := evaluateBudget b (effectiveBudget d r) (classSum d r .rescue) (classSum d r .programme)
      (classSum d r .carrier) d.lm.windowSeq
    let d := d.setBudget r (fun _ => n)
    let d := publish d (remoteCell r) [(7, 1), (16, 24)]
    let d := if n.rescueOver ∧ !b.rescueOver then setLatch d (remoteCell r) latchRescueOver else d
    offerLevel (offerLevel d r false b.progStep n.progStep) r true b.carStep n.carStep
  else d

/-! ### Keying and presence (R11 to R14) -/

/-- Advance of a keying machine at a full window (R11). -/
def keyAdvance (at' : Bool) (c : Slot) : Slot :=
  match c.on, at' with
  | false, true => if c.rise = 0 then { c with rise := 1 } else { c with on := true, rise := 0, fall := 0 }
  | false, false => { c with rise := 0 }
  | true, false => if c.fall < 24 then { c with fall := c.fall + 1 } else { c with on := false, rise := 0, fall := 0 }
  | true, true => { c with fall := 0 }

/-- Advance of a presence machine at a full window (R13). -/
def presenceAdvance (good : Bool) (c : Slot) : Slot :=
  match c.on, good with
  | false, true => if c.rise < 49 then { c with rise := c.rise + 1 } else { c with on := true, rise := 0, fall := 0 }
  | false, false => { c with rise := 0 }
  | true, false => if c.fall < 9 then { c with fall := c.fall + 1 } else { c with on := false, rise := 0, fall := 0 }
  | true, true => { c with fall := 0 }

/-- Samples of a full window by kind (R9). -/
def windowSamples : SlotKind → Nat
  | .carrier => 61440
  | .programme => 3840
  | .rescue => 960
  | .off => 1

/-- The level figure of a window (R9). -/
def levelFigure (k : SlotKind) (sum : Nat) : Nat := min 65535 (sum / (windowSamples k * 32768))

/-- The window of one slot closes: new figures and the advance of its machine, or, partial, the kept ones (R8 to R13). -/
def closeSlot (e : ChanEntry) (lossThreshold : Nat) (c : Slot) : Slot :=
  let c' := { c with sumOut := 0, sumIn := 0, partialWin := false, lastClip := c.clip, clip := 0 }
  if e.kind = .off ∨ c.partialWin then c'
  else
    let c' := { c' with pOut := levelFigure e.kind c.sumOut,
                        pIn := if e.kind = .programme then levelFigure .programme c.sumIn else 0 }
    match e.kind with
    | .rescue => keyAdvance (decide (e.keyThreshold ≤ c'.pOut)) c'
    | .programme => presenceAdvance (decide (lossThreshold ≤ c'.pIn)) c'
    | .carrier | .off => c'

/-- The rescue slots. -/
def keyedNow (d : Dev) (e : Fin 8) : Bool := (d.slot (rescueSlot e)).on

/-- Keying changes of one event handed on in slot order, each judged against the keying after all of them (R12). -/
def handKeying (d : Dev) (before : Fin 8 → Bool) : Dev :=
  let after := keyedNow d
  overAll d (fun d (e : Fin 8) =>
    if before e = after e then d
    else
      keyingChange (setLatch d (slotCell (rescueSlot e)) latchKeyChange) e (after e)
        ((allFin 8).any (fun f => f != e && after f)))

/-- Presence changes of one event: the PM shows the modulator mode (R14, R107). -/
def handPresence (d : Dev) (before : Fin 8 → Bool) : Dev :=
  overAll d (fun d (p : Fin 8) =>
    if before p = (d.slot (progSlot p)).on then d
    else setLatch (publish d (slotCell (progSlot p)) [(14, 1)]) (slotCell (progSlot p)) latchCarrierChange)

/-- Clip and clamp counts of the closed window (R16, R92). -/
def closeClips (d : Dev) : Dev :=
  let d := overAll d (fun d (s : Fin 40) =>
    if slotRange s = .carrier ∧ 0 < (d.slot s).lastClip then setLatch d (slotCell s) latchUplinkClipping else d)
  overAll d (fun d (p : Fin 8) =>
    let n := (d.mod p).clamp
    let d := d.setMod p (fun m => { m with lastClamp := n, clamp := 0 })
    if 0 < n then setLatch d (slotCell (progSlot p)) latchOverDeviation else d)

/-- The figures of a close in a slot cell: the fields that apply to the cell's range (R10, R17, R107, R214). -/
def publishWindow (d : Dev) (s : Fin 40) : Dev :=
  publish d (slotCell s) (match slotRange s with
    | .programme => [(5, 7), (16, 2)]
    | .rescue => [(5, 7)]
    | .carrier | .off => [(6, 8)])

/-- The close of the level window (R7, R10). -/
def windowClose (d : Dev) : Dev :=
  let keyed := keyedNow d
  let present : Fin 8 → Bool := fun p => (d.slot (progSlot p)).on
  let slots := Tab.ofFn (fun s => closeSlot (d.chan s) (d.pm.table.get (progOf s)).lossThreshold (d.slot s))
  let d := { d with lm := { d.lm with slots := slots, windowSeq := d.lm.windowSeq + 1,
                                      windowDue := d.lm.windowDue + Config.windowPeriod } }
  let d := handPresence (handKeying d keyed) present
  let d := overAll d evaluateOne
  let d := closeClips d
  let d := overAll d publishWindow
  overAll d (fun d n => publish d (sourceCell n) [(36, 2)])

/-! ### The switch of the channel table (R5, R6) -/

/-- Output rate in kS/s and decimation from 61.44 MS/s (R1). -/
def slotRate (s : Fin 40) : Nat :=
  match slotRange s with
  | .programme => 384
  | .rescue => 96
  | .carrier | .off => 6144

def decimation (s : Fin 40) : Nat := 61440 / slotRate s

/-- What the free filter of a slot depends on. -/
def tuningOf (s : Fin 40) (e : ChanEntry) : Config.Tuning := ⟨slotRate s, e.offset, e.bandwidth⟩

/-- A slot's filter restarted (R1, R5, R6). -/
def restartFilter (s : Fin 40) (e : ChanEntry) (c : Slot) : Slot :=
  { c with filter := Config.filterStart (tuningOf s e), decim := Config.decimStart (tuningOf s e) % decimation s }

/-- Keying or presence restarted, with a partial window (R5, R8). -/
def restartMeter (c : Slot) : Slot :=
  { c with on := false, rise := 0, fall := 0, partialWin := true, sumOut := 0, sumIn := 0 }

/-- Same tuning: kind, donor input, centre offset and bandwidth class (R5). -/
def sameTuning (a b : ChanEntry) : Bool :=
  a.kind == b.kind && a.donor == b.donor && a.offset == b.offset && a.bandwidth == b.bandwidth

/-- One slot at the switch (R5, R6). Samples output before the switch stay for the next frame. The interpolator starts at
state 0 when the slot turns on and keeps its state at a retune: DESIGN CHOICE, log 6. -/
def switchSlot (s : Fin 40) (old new : ChanEntry) (c : Slot) : Slot :=
  if sameTuning old new then c
  else if new.kind = .off then
    { c with pOut := 0, pIn := 0, on := false, rise := 0, fall := 0, partialWin := false, sumOut := 0, sumIn := 0,
             clip := 0, lastClip := 0, upOut := [] }
  else if old.kind = .off then
    restartMeter (restartFilter s new { c with pOut := 0, pIn := 0, clip := 0, lastClip := 0, interp := 0 })
  else restartMeter (restartFilter s new { c with clip := 0 })

/-- The demodulator restarts at a retune or a kind change; the modulator's phase is 0 when the slot turns on or off
(R91, R95). The running clamp count of the current window stands (DESIGN CHOICE, log 49). -/
def switchMod (old new : ChanEntry) (m : Modulator) : Modulator :=
  if sameTuning old new then m
  else { m with ref := Sample.zero, half := none, phase := if old.kind = new.kind then m.phase else 0 }

/-- The switch of the working channel table (R5, R6, R12, R14, R17). -/
def channelSwitch (d : Dev) (new : Tab 40 ChanEntry) : Dev :=
  let old := d.lm.chan
  let keyed := keyedNow d
  let present : Fin 8 → Bool := fun p => (d.slot (progSlot p)).on
  let slots := Tab.ofFn (fun s => switchSlot s (old.get s) (new.get s) (d.slot s))
  let mods := Tab.ofFn (fun (p : Fin 8) => switchMod (old.get (progSlot p)) (new.get (progSlot p)) (d.mod p))
  let d := { d with lm := { d.lm with chan := new, slots := slots }, pm := { d.pm with mods := mods } }
  let d := overAll d (fun d s => publish d (slotCell s) [(4, 1)])
  let d := overAll d (fun d (p : Fin 8) =>
    if (old.get (progSlot p)).kind = (new.get (progSlot p)).kind then d
    else publish d (slotCell (progSlot p)) [(14, 1)])
  handPresence (handKeying d keyed) present

end Sys2Proof.Machine
end

