-- ==== Sys2Proof/Machine/Remotes.lean ====
section
/-! DEFINITION. Machine/Remotes.lean: the Remote Supervisor (02 sections 2.5 to 2.10) and the state of a port (02
section 2.2, 2.3). -/

namespace Sys2Proof.Machine

open Sys2Proof

/-! ### Remote states -/

/-- A change of remote state is shown and latched (R34, R49). -/
def stateShown (d : Dev) (r : Fin 32) (old : RemoteState) : Dev :=
  if (d.remote r).state = old then d
  else setLatch (publishRemote d r) (remoteCell r) latchRemoteState

/-- What every block does at a join start or an entry to LOST or ABSENT, after the RS has cleared the queue: the remote
stops holding (R151), its delivery records fall into doubt (R105), it leaves the exchange (R60, R63), and a test to it
ends (R47). -/
def departed (d : Dev) (r : Fin 32) : Dev :=
  let d := leaveExchange (deliveryDoubt (stopHolding d r) r) r
  match d.rs.test with
  | some t => if t.remote = r then testEnd d else d
  | none => d

/-- After one event's departures: hard switches (R158), the evaluation (R144) when a remote departed from service, the
exchange (R60, R63), and reach (R106). -/
def afterDepartures (d : Dev) (fromService : Bool) : Dev :=
  let d := uvRecheck d
  let d := if fromService then sruEvaluate d else d
  bicUpdate (exchangeSettle d)

/-- The RS part of a join start (R34). -/
def joinRecord (d : Dev) (m : Remote) : Remote :=
  { m with state := .joining, queue := [], record := none, markDue := none, lockRun := [], locked := false,
           joinSwitch := false, moveRun := 0, joinDue := some (d.now + Config.joinTime),
           silenceDue := some (d.now + Config.silenceTime) }

/-- A join starts (R34). -/
def joinStart (d : Dev) (r : Fin 32) : Dev :=
  let m := d.remote r
  let d := d.setRemote r (joinRecord d)
  let d := departed d r
  let d := stateShown (offer d r .mark) r m.state
  afterDepartures d m.serving

/-- The RS part of an entry to LOST or ABSENT (R39, R41). -/
def lossRecord (st : RemoteState) (m : Remote) : Remote :=
  { m with state := st, queue := [], record := none, markDue := none, lockRun := [], locked := false,
           joinSwitch := false, moveRun := 0, joinDue := none, silenceDue := none }

/-- One remote becomes LOST or ABSENT; the event's other departures and their readings follow. -/
def loseOne (st : RemoteState) (d : Dev) (r : Fin 32) : Dev :=
  let old := (d.remote r).state
  departed (stateShown (d.setRemote r (lossRecord st)) r old) r

/-- Remotes become LOST or ABSENT at one event (R39, R41): all of them first, then the readers judge once, so the event makes at
most one re-reference (R144; DESIGN CHOICE, log 15). -/
def loseRemotes (d : Dev) (st : RemoteState) (rs : List (Fin 32)) : Dev :=
  let serving := rs.any (fun r => (d.remote r).serving)
  let d := rs.foldl (loseOne st) d
  afterDepartures d serving

/-- JOINING, IN_SERVICE or IMPAIRED. -/
def Remote.present (m : Remote) : Bool := m.serving || m.state = .joining

/-! ### Upstream messages (R21, R33) -/

/-- A message from this position reaches the RS. -/
def heard (d : Dev) (r : Fin 32) : Bool := decide ((d.port (portOf r)).state = .running) && (d.entry r).enabled

/-- A valid message restarts the silence timer, and starts the join of an ABSENT or LOST remote (R21, R33). -/
def validMessage (d : Dev) (r : Fin 32) : Dev :=
  if (d.remote r).present then
    d.setRemote r (fun m => { m with silenceDue := some (d.now + Config.silenceTime) })
  else joinStart d r

/-! ### Markers and delay (R30 to R32, R35, R36) -/

/-- A marker miss is counted, and breaks the lock run of a remote that has not locked (R31, R35). -/
def markerMiss (d : Dev) (r : Fin 32) : Dev :=
  let d := countMarkerMiss d r
  let m := d.remote r
  if m.state = .joining ∧ !m.locked then d.setRemote r (fun m => { m with lockRun := [] }) else d

/-- The HOLD of the join set: the hold as it stands (R36, R148). -/
def joinHold (d : Dev) (r : Fin 32) : Dev :=
  match (d.hold r).hold with
  | some v => offer d r (.hold v)
  | none => d

/-- The SUBST of the join set for a programme that the BIC names in doubt or changed (R36, R105). -/
def joinSubst (d : Dev) (r : Fin 32) (p : Fin 8) : Dev :=
  let v := d.delivery r p
  if v.acked ≠ some v.desired then
    offer (d.setDelivery r p (fun v => { v with offered := some v.desired })) r (substMsg p v.desired)
  else d

/-- The join set (R36). -/
def joinSet (d : Dev) (r : Fin 32) : Dev :=
  let d := (allFin 40).foldl (fun d s => offer d r (.map s (mapOf d.rp.routes r s))) d
  let d := joinHold (offer d r (.gate (d.entry r).gate)) r
  let d := offer d r (.level false (d.budget r).progStep)
  let d := offer d r (.level true (d.budget r).carStep)
  overAll d (fun d p => joinSubst d r p)

/-- Delay lock (R35): the hold is computed (R148) and the join set offered (R36). The remote cell is written also when d takes
the value it had (DESIGN CHOICE, log 46). -/
def delayLock (d : Dev) (r : Fin 32) (m : Nat) : Dev :=
  let d := d.setRemote r (fun x => { x with d := m, locked := true })
  publishRemote (joinSet (sruLock d r) r) r

/-- The lock run after a measurement (R35). -/
def lockRunAfter (run : List Nat) (m : Nat) : List Nat :=
  match run.getLast? with
  | none => [m]
  | some p => if absDiff m p ≤ 2 then run ++ [m] else [m]

/-- A measurement before delay lock (R35). -/
def lockMeasure (d : Dev) (r : Fin 32) (m : Nat) : Dev :=
  let run := lockRunAfter (d.remote r).lockRun m
  let d := d.setRemote r (fun x => { x with lockRun := run })
  if 4 ≤ run.length then delayLock d r m else d

/-- A measurement in service (R32). -/
def trackMeasure (d : Dev) (r : Fin 32) (m : Nat) : Dev :=
  let x := d.remote r
  if absDiff m x.d ≤ 2 then d.setRemote r (fun x => { x with moveRun := 0 })
  else
    let up := decide (x.d < m)
    let run := if x.moveRun = 0 ∨ x.moveUp ≠ up then 1 else x.moveRun + 1
    if 3 ≤ run then
      let d := publishRemote (d.setRemote r (fun x => { x with d := m, moveRun := 0 })) r
      sruMoved (setLatch d (remoteCell r) latchDelayMoved) r
    else d.setRemote r (fun x => { x with moveRun := run, moveUp := up })

/-- The measurement an ECHO gives, none when the round trip is shorter than the turnaround (R31). -/
def measurement (rtt turn : Nat) : Option Nat := if rtt < turn then none else some (min 65535 ((rtt - turn) / 2))

/-- An ECHO dispatched (R31). -/
def echoTaken (d : Dev) (r : Fin 32) (seq : BitVec 8) (turn : BitVec 16) : Dev :=
  match (d.remote r).record with
  | none => d
  | some rec =>
    if rec.seq ≠ seq then d
    else
      let d := d.setRemote r (fun m => { m with record := none })
      match measurement (d.now - rec.launch) turn.toNat with
      | none => markerMiss d r
      | some m =>
        match (d.remote r).state with
        | .joining => if (d.remote r).locked then d else lockMeasure d r m
        | .inService | .impaired => trackMeasure d r m
        | .absent | .lost => d

/-! ### Acknowledgements (R28, R36, R37) -/

/-- The acknowledgement of a message handed to its owner (R28). -/
def ackOwner (d : Dev) (r : Fin 32) (m : DownMsg) : Dev :=
  match m with
  | .map _ _ => mapAcked d r
  | .mark | .switch | .gate _ => d
  | .subst p _ => substAcked d r p
  | .hold _ => holdAcked d r
  | .level c k =>
    let d := d.setBudget r (fun b => if c then { b with carConfirmed := k } else { b with progConfirmed := k })
    publish d (remoteCell r) [(20, 2)]
  | .pattern lane =>
    match d.rs.test with
    | some t =>
      if t.remote = r ∧ lane = some (308 + t.lane.val) then
        { d with rs := { d.rs with test := some { t with acked := true } } }
      else d
    | none => d

/-- The join offers its SWITCH once no MAP is left (R36). -/
def joinOffersSwitch (d : Dev) (r : Fin 32) : Dev :=
  let m := d.remote r
  if m.lockedJoining ∧ !m.joinSwitch ∧ !holdsKind m .map then
    offer (d.setRemote r (fun m => { m with joinSwitch := true })) r .switch
  else d

/-- The join completes (R37). -/
def joinComplete (d : Dev) (r : Fin 32) : Dev :=
  let d := stateShown (d.setRemote r (fun m => { m with state := .inService, joinDue := none })) r .joining
  reachUpdate (sruEvaluate d)

/-- The join's progress at an ACK (R36, R37). -/
def joinProgress (d : Dev) (r : Fin 32) : Dev :=
  let d := joinOffersSwitch d r
  let m := d.remote r
  if m.lockedJoining ∧ m.joinSwitch ∧ m.queue.all (fun e => e.msg.kind == .mark) then joinComplete d r else d

/-- An ACK dispatched (R28). It counts while the entry keeps the sequence of its latest send (R29, log 30). The sender's join goes
on (R36, R37) before the exchange does (R60, R63), so a remote whose join this ACK completes is IN_SERVICE when the same ACK ends an
exchange and the next one forms its staged set (DESIGN CHOICE, log 63). -/
def ackTaken (d : Dev) (r : Fin 32) (kind key : Byte) (seq : BitVec 6) : Dev :=
  match msgKindOfCode kind.toNat with
  | none => d
  | some k =>
    match entryOf (d.remote r).queue ⟨k, key.toNat⟩ with
    | none => d
    | some e =>
      if e.seq ≠ some seq then d
      else
        let d := d.setRemote r (fun m => { m with queue := dropEntry m.queue e.msg.id })
        exchangeSettle (joinProgress (ackOwner d r e.msg) r)

/-! ### Alarms, failures, PCOUNT -/

/-- An ALARM dispatched (R42). -/
def alarmTaken (d : Dev) (r : Fin 32) (pa ot : Bool) : Dev :=
  let m := d.remote r
  if m.paFault = pa ∧ m.overTemp = ot then d
  else
    let d := publishRemote (d.setRemote r (fun m => { m with paFault := pa, overTemp := ot })) r
    reachUpdate (setLatch d (remoteCell r) latchAlarmChange)

/-- A change between IN_SERVICE and IMPAIRED (R40). -/
def serviceGrade (d : Dev) (r : Fin 32) (st : RemoteState) : Dev :=
  let old := (d.remote r).state
  uvRecheck (stateShown (d.setRemote r (fun m => { m with state := st, goodWin := 0 })) r old)

/-- A control check failure at an enabled position (R21, R40). -/
def checkFailure (d : Dev) (r : Fin 32) : Dev :=
  let d := countCheckFail d r
  let d := d.setRemote r (fun m => { m with winFail := sat65535 (m.winFail + 1) })
  let t := (d.entry r).impairment
  if (d.remote r).state = .inService ∧ t ≠ 0 ∧ t ≤ (d.remote r).winFail then serviceGrade d r .impaired else d

/-- Errors a PCOUNT adds (R46). -/
def pcountErrors (last v : Nat) : Nat := if last ≤ v then v - last else v

/-- A PCOUNT dispatched (R46). -/
def pcountTaken (d : Dev) (r : Fin 32) (v : BitVec 16) : Dev :=
  match d.rs.test with
  | some t =>
    if t.remote = r ∧ t.acked then
      countPatternErrors { d with rs := { d.rs with test := some { t with last := v.toNat } } } r
        (pcountErrors t.last v.toNat)
    else d
  | none => d

/-! ### Timers of the RS -/

/-- The ACK timer of an entry expires (R29). -/
def ackExpiry (d : Dev) (r : Fin 32) (id : MsgId) : Dev :=
  match entryOf (d.remote r).queue id with
  | none => d
  | some e =>
    if !dueNow d e.ackDue then d
    else if 3 ≤ e.count then joinStart d r
    else
      d.setRemote r (fun m => { m with queue := m.queue.map (fun x =>
        if x.msg.id = id then { x with sent := false, ackDue := none } else x) })

/-- The judgement of one remote at the close of a supervision window (R40). -/
def superviseOne (d : Dev) (r : Fin 32) : Dev :=
  let m := d.remote r
  let t := (d.entry r).impairment
  let bad := decide (t ≠ 0 ∧ t ≤ m.winFail)
  match m.state with
  | .inService => if bad then serviceGrade d r .impaired else d
  | .impaired =>
    if bad then d.setRemote r (fun m => { m with goodWin := 0 })
    else if 2 ≤ m.goodWin then serviceGrade d r .inService
    else d.setRemote r (fun m => { m with goodWin := m.goodWin + 1 })
  | .absent | .joining | .lost => d

/-- The close of the supervision window (R40, R49). The remotes are judged in the order of their numbers, each change
handed to the UV before the next remote is judged: DESIGN CHOICE, log 39. -/
def superviseAll (d : Dev) : Dev :=
  let d := overAll d superviseOne
  let d := { d with rs := { d.rs with superDue := d.rs.superDue + Config.supervisionPeriod,
                                      remotes := d.rs.remotes.map (fun m => { m with winFail := 0 }) } }
  let d := overAll d (fun d x => publish d (portCell x) [(6, 1)])
  overAll d (fun d r => publish d (remoteCell r) [(6, 1)])

/-! ### Ports (R22 to R25) -/

/-- The state conditions of NEAR_LIMIT (R25). -/
def nearNow (p : Port) : Bool :=
  decide (p.state = .running) && decide (p.mode ≠ .starting) && (decide (p.fifo.length ≤ 3) || decide (61 ≤ p.fifo.length))

/-- NEAR_LIMIT follows its conditions; a change is latched and handed to the UV (R25). -/
def updateNear (d : Dev) (x : Fin 4) : Dev :=
  let n := nearNow (d.port x)
  if n = (d.port x).near then d
  else
    let d := publishPort (d.setPort x (fun p => { p with near := n })) x
    uvRecheck (setLatch d (portCell x) latchNearLimit)

/-- A port takes a new state with its counts at 0; leaving RUNNING empties the FIFO and loses the remotes (R22, R23). -/
def portMoves (d : Dev) (x : Fin 4) (st : PortState) : Dev :=
  let was := (d.port x).state
  let d := d.setPort x (fun p =>
    { p with state := st, good := 0, bad := 0, fifo := if was = .running ∨ st = .running then [] else p.fifo,
             mode := .starting, word := if was = .running ∧ st ≠ .running then [] else p.word })
  let d := publishPort d x
  let d := if was = .running ∨ st = .running then setLatch d (portCell x) latchPortState else d
  let d := updateNear d x
  if was = .running ∧ st ≠ .running then
    loseRemotes d .lost ((remotesOf x).filter (fun r => (d.remote r).present))
  else d

/-- An alignment word is judged (R22). -/
def alignmentWord (d : Dev) (x : Fin 4) (good : Bool) : Dev :=
  let p := d.port x
  match p.state with
  | .dark => d
  | .aligning =>
    if !good then d.setPort x (fun p => { p with good := 0 })
    else if 7 ≤ p.good then portMoves d x .running
    else d.setPort x (fun p => { p with good := p.good + 1 })
  | .running =>
    if good then d.setPort x (fun p => { p with bad := 0 })
    else if 3 ≤ p.bad then portMoves (countAlignLoss d x) x .aligning
    else d.setPort x (fun p => { p with bad := p.bad + 1 })

/-- Loss of light or of clock lock (R22). -/
def lightLost (d : Dev) (x : Fin 4) : Dev :=
  match (d.port x).state with
  | .dark => d
  | .aligning => portMoves d x .dark
  | .running => portMoves (countAlignLoss d x) x .dark

end Sys2Proof.Machine
end

