-- ==== Sys2Proof/Machine/TakeUp.lean ====
section
/-! DEFINITION. Machine/TakeUp.lean: the switches of the remote, programme, source and rescue tables, and the take-up
dispatcher (08 section 8.7). -/

namespace Sys2Proof.Machine

open Sys2Proof

/-! ### Switches -/

/-- Remotes that a new table disables (R41). -/
def disabledBy (old new : Tab 32 RemoteEntry) : List (Fin 32) :=
  (allFin 32).filter (fun r => (old.get r).enabled && !(new.get r).enabled)

/-- Disabling empties the alarm set without ALARM_CHANGE (R41). -/
def clearAlarms (d : Dev) (r : Fin 32) : Dev :=
  publishRemote (d.setRemote r (fun m => { m with paFault := false, overTemp := false })) r

/-- The switch of the working remote table (R41, R53, R58, R65, R144). The remotes it disables are all ABSENT before their readers
judge (DESIGN CHOICE, log 15). -/
def remoteSwitch (d : Dev) (new : Tab 32 RemoteEntry) : Dev :=
  let old := d.rp.remoteTab
  let off := disabledBy old new
  let d := d.setRp (fun p => { p with remoteTab := new })
  let d := off.foldl clearAlarms d
  let d := if off.isEmpty then d else loseRemotes d .absent off
  let d := overAll d (fun d r =>
    if (old.get r).gate = (new.get r).gate then d else offer d r (.gate (new.get r).gate))
  bicUpdate (sruEvaluate d)

/-- The switch of the working programme table (R90, R107). -/
def programmeSwitch (d : Dev) (new : Tab 8 ProgEntry) : Dev :=
  let old := d.pm.table
  let d := { d with pm := { d.pm with table := new } }
  overAll d (fun d p =>
    if (old.get p).drop = (new.get p).drop then d else publish d (slotCell (progSlot p)) [(14, 1)])

/-- The switch of the working rescue table (R141). -/
def rescueSwitch (d : Dev) (g : Nat) (new : Tab 8 RescueEntry) : Dev :=
  sruEvaluate { d with sru := { d.sru with guardTicks := g, table := new } }

/-- The pending record of a source at the switch of the source table (R111 step 2). `heard` says whether the line made requests
under the old table (R136, log 50). -/
def switchPending (old : SrcEntry) (heard : Bool) (d : Dev) (n : Fin 8) : Dev :=
  let new := d.bic.table.get n
  let d := if heard ∧ !lineHeard d n then withdrawLine d n else d
  let d := if old.latched = new.latched then d
    else publishPending (d.setSource n (fun c => { c with cancelHold := false })) n
  let on := (!old.lineUse && new.lineUse) || (old.latched && !new.latched)
  let d := if on ∧ !(d.source n).inService then takeLevel d n else d
  let c := d.source n
  if c.inService ∧ old.again ∧ !new.again then
    let d := publishPending (d.setSource n (fun c => { c with lineReq := false, cueReq := none })) n
    if c.isPending then setLatch d (sourceCell n) latchRequestWithdrawn else d
  else d

/-- Steps 1 and 2 of the switch of the working source table (R111): all ends, then the pending records (log 17). The ends read
the new table (DEDUCED, log 52). -/
def sourceRecords (d : Dev) (master : Bool) (new : Tab 8 SrcEntry) : Dev :=
  let before := d
  let d := { d with bic := { d.bic with
    master := master, table := new, alarmMasked := d.bic.alarmMasked && !unmasksAlarm master new } }
  let d := overAll d (fun d n =>
    if (d.source n).inService ∧ !((new.get n).enabled && master) then serviceEnd d n .disabled else d)
  overAll d (fun d n => switchPending (before.bic.table.get n) (lineHeard before n) d n)

/-- The switch of the working source table, by a take-up or at the boot switch (R111): its starts come last, S0 first
(R118). -/
def sourceSwitch (d : Dev) (master : Bool) (new : Tab 8 SrcEntry) : Dev := overAll (sourceRecords d master new) tryStart

/-! ### The dispatcher (R184, R185) -/

/-- A take-up of the channel table (R3 to R6). -/
def takeUpChannel (d : Dev) (l : Layout) (w : BitVec 32) : Dev :=
  let t := hostChan d.smc.mem l
  match chanCheck t with
  | some (i, c) => takeUpRefused d .channel w i c
  | none => takenUp (channelSwitch d (Tab.ofFn (fun s => chanForm s (t.get s)))) .channel w

/-- A take-up of the remote table (R52, R53). -/
def takeUpRemote (d : Dev) (l : Layout) (w : BitVec 32) : Dev :=
  let t := hostRemote d.smc.mem l
  match remoteCheck t with
  | some (i, c) => takeUpRefused d .remote w i c
  | none => takenUp (remoteSwitch d (t.map remoteForm)) .remote w

/-- A take-up of a table other than ROUTE (R185). -/
def takeUpTable (d : Dev) (l : Layout) (t : TableId) (w : BitVec 32) : Dev :=
  match t with
  | .channel => takeUpChannel d l w
  | .remote => takeUpRemote d l w
  | .route => takeUpRoute d l w
  | .source => takenUp (sourceSwitch d (hostMaster d.smc.mem l) (hostSources d.smc.mem l)) .source w
  | .programme => takenUp (programmeSwitch d (hostProgs d.smc.mem l)) .programme w
  | .rescue => takenUp (rescueSwitch d (hostGuard d.smc.mem l) (hostRescue d.smc.mem l)) .rescue w

/-- One table judged by its revision word (R184); its start and outcome are one event. -/
def judgeTable (d : Dev) (l : Layout) (t : TableId) (w : BitVec 32) : Dev :=
  if w = 0 ∨ w = d.smc.lastReq.get t.index then d
  else takeUpTable { d with smc := { d.smc with lastReq := d.smc.lastReq.set t.index w } } l t w

/-- The six revision words, all read first, judged in order (R184). -/
def judgeAll (d : Dev) (l : Layout) : Dev :=
  let w := revisionWord d.smc.mem l
  let d := judgeTable (judgeTable d l .channel (w .channel)) l .remote (w .remote)
  let d := exchangeSettle (judgeRoute d l (w .route))
  let d := judgeTable d l .source (w .source)
  judgeTable (judgeTable d l .programme (w .programme)) l .rescue (w .rescue)

end Sys2Proof.Machine
end

