-- ==== Sys2Proof/Machine/Boot.lean ====
section
/-! DEFINITION. Machine/Boot.lean: the boot: header, records, group check, directory and the boot switch (09 sections 9.2 to
9.5). -/

namespace Sys2Proof.Machine

open Sys2Proof

/-! ### What a scope reaches (R199) -/

def scopeSlot (sc : Scope) (s : Nat) : Bool :=
  match sc with
  | .full => true
  | .safety => decide (s < 16)
  | .carriers => decide (16 ≤ s)
  | .none => false

/-- Route row 4 s + x belongs to slot s. -/
def scopeRow (sc : Scope) (row : Nat) : Bool := scopeSlot sc (row / 4)

/-- REMOTE, SOURCE, PROGRAMME and RESCUE are reached whole by FULL and SAFETY. -/
def scopeWhole (sc : Scope) : Bool :=
  match sc with
  | .full | .safety => true
  | .carriers | .none => false

/-! ### Header (R197, R198) -/

/-- Size code of a capacity code, none when the flash counts as absent (R197). -/
def sizeOfCode (n : Nat) : Option Nat := if n < 16 then none else some (min 24 n)

/-- Outcome of the header check (R198). -/
def headerOutcome (size : Nat) (h : List Byte) : BootOutcome :=
  if h.take 2 ≠ [0xA3, 0x5C] then .blank
  else if field h 2 1 ≠ 1 then .badFormat
  else if size - 16 < field h 4 3 then .badLength
  else .loaded

/-! ### Records (R200) -/

/-- How a record is taken (R200). -/
inductive RecordTake where
  | ignored
  | skipped
  | taken (st : Staging)
deriving DecidableEq, Repr

/-- A record of a table of `n` entries: out of range, outside the scope, or taken. -/
def takeEntry {n : Nat} (idx : Nat) (inScope : Bool) (f : Fin n → Staging) : RecordTake :=
  if h : idx < n then (if inScope then .taken (f ⟨idx, h⟩) else .skipped) else .ignored

/-- One boot record (R200). -/
def takeRecord (sc : Scope) (st : Staging) (rec : List Byte) : RecordTake :=
  let idx := field rec 2 2
  let data := if (rec.getD 1 0).getLsbD 0 then emptyRaw else (rec.drop 4).take 12
  let code := field rec 0 1
  if code = 1 then takeEntry idx (scopeSlot sc idx) (fun i => { st with chan := st.chan.set i data })
  else if code = 2 then takeEntry idx (scopeWhole sc) (fun i => { st with remote := st.remote.set i data })
  else if code = 3 then takeEntry idx (scopeRow sc idx) (fun i => { st with route := st.route.set i data })
  else if code = 4 then takeEntry idx (scopeWhole sc) (fun i => { st with source := st.source.set i data })
  else if code = 5 then takeEntry idx (scopeWhole sc) (fun i => { st with programme := st.programme.set i data })
  else if code = 6 then takeEntry idx (scopeWhole sc) (fun i => { st with rescue := st.rescue.set i data })
  else .ignored

/-- The boot record after one body record (R200). -/
def applyRecord (b : BootRec) (rec : List Byte) : BootRec :=
  match takeRecord b.scope b.staging rec with
  | .ignored => { b with ignored := sat65535 (b.ignored + 1) }
  | .skipped => b
  | .taken st => { b with staging := st }

/-! ### Group check (R201) -/

/-- The channel table of the staged entries and the working entries outside the scope. -/
def stagedChan (d : Dev) (sc : Scope) (st : Staging) : Tab 40 ChanRaw :=
  Tab.ofFn (fun s => if scopeSlot sc s.val then parseChan (st.chan.get s) else (d.chan s).toRaw)

/-- Loaded route rows of a scope. -/
def stagedRows (sc : Scope) (st : Staging) : Tab 160 (Option (List Byte)) :=
  Tab.ofFn (fun row => if scopeRow sc row.val then some (st.route.get row) else none)

/-- A failed group is noted; the first failure of the boot keeps its index and cause (R201). -/
def noteFailure (b : BootRec) (t : TableId) (i : Nat) (c : TakeUpCause) : BootRec :=
  match b.firstFailure with
  | some _ => b
  | none => { b with firstFailure := some (t, i, c) }

/-- The CHANNEL group (R201). -/
def checkChanGroup (d : Dev) (b : BootRec) : BootRec :=
  match chanCheck (stagedChan d b.scope b.staging) with
  | some (i, c) =>
    noteFailure { b with failedChannel := true, staging := { b.staging with chan := Tab.const 40 emptyRaw } } .channel i c
  | none => b

/-- The REMOTE group (R201). -/
def checkRemoteGroup (b : BootRec) : BootRec :=
  match (if scopeWhole b.scope then remoteCheck (b.staging.remote.map parseRemote) else none) with
  | some (i, c) =>
    noteFailure { b with failedRemote := true, staging := { b.staging with remote := Tab.const 32 emptyRaw } } .remote i c
  | none => b

/-- The ROUTE group (R201). -/
def checkRouteGroup (d : Dev) (b : BootRec) : BootRec :=
  match routeCheck (combineRows d (stagedRows b.scope b.staging)) with
  | some (i, c) =>
    noteFailure { b with failedRoute := true, staging := { b.staging with route := Tab.const 160 emptyRaw } } .route i c
  | none => b

/-- The formed tables of the staging copies (R201). -/
def formTables (d : Dev) (b : BootRec) : Checked :=
  let st := b.staging
  { chan := Tab.ofFn (fun s => chanForm s ((stagedChan d b.scope st).get s)), remote := st.remote.map (fun e => remoteForm (parseRemote e)),
    routes := combineRows d (stagedRows b.scope st), master := decide (field (st.source.get 8) 0 1 ≠ 0),
    source := Tab.ofFn (fun n => parseSource n (st.source.get ⟨n.val, by omega⟩)), programme := st.programme.map parseProg,
    guardTicks := parseGuard (st.rescue.get 8), rescue := Tab.ofFn (fun e => parseRescue (st.rescue.get ⟨e.val, by omega⟩)) }

/-- The group check after the last complete record (R201). -/
def groupCheck (d : Dev) (b : BootRec) : BootRec :=
  let b := checkRouteGroup d (checkRemoteGroup (checkChanGroup d b))
  { b with checked := some (formTables d b) }

/-! ### The boot switch (R202, R203) -/

/-- The later of two loads of a route row stands (log 23). -/
def mergeRows (old new : Tab 160 (Option (List Byte))) : Tab 160 (Option (List Byte)) :=
  Tab.ofFn (fun i => match new.get i with
    | some b => some b
    | none => old.get i)

/-- The staged route table goes to the exchange, or waits behind it (R71, R202). Behind an exchange that step 1 of the boot
switch has itself ended it goes as the group check left it (DESIGN CHOICE, log 48). -/
def handRoutes (d : Dev) (b : BootRec) (routes : Routes) : Dev :=
  if routeInFlight d then
    let rows := stagedRows b.scope b.staging
    d.setRp (fun p => { p with bootRows := some (match p.bootRows with
      | some old => mergeRows old rows
      | none => rows) })
  else exchangeSettle (startExchange d routes 0 true)

/-- Taken and last requested revisions of a table the boot loaded become 0 (R191). -/
def zeroRevision (d : Dev) (t : TableId) : Dev :=
  { d with smc := { d.smc with taken := d.smc.taken.set t.index 0, lastReq := d.smc.lastReq.set t.index 0 } }

/-- Step 1 of the boot switch (R202): each owner acts as at any switch of its table, SOURCE with its starts (R111), which find
the clip directory of before the boot (log 17). -/
def bootTables (d : Dev) (b : BootRec) (c : Checked) : Dev :=
  let whole := scopeWhole b.scope
  let some' := decide (b.scope ≠ .none)
  let d := if some' then channelSwitch d c.chan else d
  let d := if whole then remoteSwitch d c.remote else d
  let d := if whole then sourceSwitch d c.master c.source else d
  let d := if whole then programmeSwitch d c.programme else d
  let d := if whole then rescueSwitch d c.guardTicks c.rescue else d
  if some' then handRoutes d b c.routes else d

/-- The tables a scope switches or hands on. -/
def scopeTables (sc : Scope) : List TableId :=
  match sc with
  | .full | .safety => [.channel, .remote, .route, .source, .programme, .rescue]
  | .carriers => [.channel, .route]
  | .none => []

/-- The boot result (R203). -/
def bootResultOf (d : Dev) (b : BootRec) (o : BootOutcome) (dir : Tab 16 (Option Clip)) : BootResult :=
  { outcome := o, scope := b.scope, sizeCode := d.fb.sizeCode, ignored := b.ignored, tail := b.tail,
    failedChannel := b.failedChannel, failedRemote := b.failedRemote, failedRoute := b.failedRoute,
    firstFailure := b.firstFailure, validClips := (dir.list.filter Option.isSome).length }

/-- The lines are read at the boot switch (R138), ALARM also with line use off after a failed boot (R136; DEDUCED, log 50). A
source that step 1 has just started takes a request for its next service under AGAIN and none under ONCE (R118; log 17). -/
def readLines (d : Dev) : Dev :=
  let d := overAll d (fun d (n : Fin 8) =>
    if lineHeard d n ∧ lineLevel d n ∧ (!(d.source n).inService ∨ (d.bic.table.get n).again) then
      d.setSource n (fun c => { c with lineReq := true })
    else d)
  overAll d tryStart

/-- The boot switch (R202). The outcome stands for the whole event: of step 1 it decides alone whether the ALARM line is heard by
R136, which a LOADED boot ends (DEDUCED, log 50). -/
def bootSwitch (d : Dev) (b : BootRec) (o : BootOutcome) (dir : Tab 16 (Option Clip)) : Dev :=
  let d := d.setFb (fun f => { f with boot := none, holder := none })
  let d := { d with smc := { d.smc with bootResult := bootResultOf d b o dir } }
  let d := match o, b.checked with
    | .loaded, some c => (scopeTables b.scope).foldl zeroRevision (bootTables d b c)
    | _, _ => d
  let d := d.setFb (fun f => { f with dir := dir, dirOffset := if o = .loaded then some b.dirOffset else f.dirOffset })
  let d := { d with smc := { d.smc with scope := b.scope, bootMark := true, state := .autonomous } }
  grantPort (readLines d)

/-- No valid clip. -/
def noClips : Tab 16 (Option Clip) := Tab.const 16 none

/-! ### The steps of a boot -/

def setBoot (d : Dev) (b : BootRec) : Dev := d.setFb (fun f => { f with boot := some b })

/-- The boot goes on with its next transaction. -/
def bootGoes (d : Dev) (b : BootRec) : Dev := freePort (setBoot d b)

/-- After the body: the group check, then the directory read, or the boot switch when there is none to read (R201, R204). -/
def bootBodyDone (d : Dev) (b : BootRec) : Dev :=
  let b := groupCheck d b
  if b.dirOffset + 256 > d.fb.size then bootSwitch d b .loaded noClips else bootGoes d { b with stage := .directory }

/-- The status read of a boot ends (R197). -/
def bootStatusDone (d : Dev) (b : BootRec) (status : Byte) : Dev :=
  if status = 0xFF then bootSwitch (d.setFb (fun f => { f with present := false, sizeCode := 0 })) b .noFlash noClips
  else bootGoes (d.setFb (fun f => { f with present := true })) { b with stage := .ident }

/-- The identification read of a boot ends (R197). -/
def bootIdentDone (d : Dev) (b : BootRec) (cap : Byte) : Dev :=
  match sizeOfCode cap.toNat with
  | none => bootSwitch (d.setFb (fun f => { f with present := false, sizeCode := 0 })) b .noFlash noClips
  | some n => bootGoes (d.setFb (fun f => { f with sizeCode := n })) { b with stage := .header }

/-- The header read of a boot ends (R198, R199). -/
def bootHeaderDone (d : Dev) (b : BootRec) : Dev :=
  let h := chipReadN d.fb.chip 0 16
  match headerOutcome d.fb.size h with
  | .loaded =>
    let len := field h 4 3
    let b := { b with count := len / 16, tail := decide (len % 16 ≠ 0), dirOffset := field h 8 4,
                      staging := Staging.empty }
    if len / 16 = 0 then bootBodyDone d b else bootGoes d { b with stage := .records 0 }
  | o => bootSwitch d b o noClips

/-- The read of record `n` ends (R200). -/
def bootRecordDone (d : Dev) (b : BootRec) (n : Nat) : Dev :=
  let b := applyRecord b (chipReadN d.fb.chip (16 + 16 * n) 16)
  if n + 1 < b.count then bootGoes d { b with stage := .records (n + 1) } else bootBodyDone d b

/-- The directory read of a boot ends (R204). -/
def bootDirectoryDone (d : Dev) (b : BootRec) : Dev :=
  bootSwitch d b .loaded (readDirectory d.fb.chip d.fb.size b.dirOffset)

/-- A boot starts, or restarts and discards the boot in progress (R196). -/
def bootStart (d : Dev) (sc : Scope) : Dev :=
  let boot := match d.fb.holder with
    | some h => (match h.txn with
      | .bootStatus | .bootIdent | .bootHeader | .bootRecord _ | .bootDirectory => true
      | .clip _ _ | .maintRead _ _ _ | .program _ _ _ | .erase _ _ | .reload => false)
    | none => false
  let d := d.setFb (fun f =>
    { f with boot := some (BootRec.begin sc),
             holder := if boot then f.holder.map (fun h => { h with discard := true }) else f.holder })
  grantPort d

/-! ### Flash work ends (R207 to R210) -/

/-- The command's flash transactions are over: the reload follows when a directory sector was touched, else the
completion (R210). -/
def flashWorkOver (d : Dev) (j : FlashJob) : Dev :=
  if j.touched ∧ d.fb.dirOffset.isSome then freePort (setFlashJob d { j with reload := true, left := 0 })
  else freePort (completeJob (d.setFb (fun f => { f with holder := none })) (if j.timedOut then .flashTimeout else .none))

/-- The work goes on with its next transaction, or is over. -/
def flashWorkGoes (d : Dev) (j : FlashJob) : Dev :=
  if j.left = 0 then flashWorkOver d j else freePort (setFlashJob d j)

/-- A data read of FLASH_READ ends (R207). Its bytes reach memory also where a newer layout has its status area or news bitmap
(DESIGN CHOICE, log 59). -/
def maintReadDone (d : Dev) (j : FlashJob) (off addr count : Nat) : Dev :=
  flashWorkGoes (d.poke addr (chipReadN d.fb.chip off count))
    { j with off := off + count, addr := addr + count, left := j.left - count }

/-- A page program ends with its busy bit clear (R208). -/
def programDone (d : Dev) (j : FlashJob) (off : Nat) (data : List Byte) : Dev :=
  flashWorkGoes (d.setFb (fun f => { f with chip := chipProgram f.chip off data }))
    { j with off := off + data.length, addr := j.addr + data.length, left := j.left - data.length }

/-- A sector erase ends with its busy bit clear (R209). -/
def eraseDone (d : Dev) (j : FlashJob) (off : Nat) : Dev :=
  flashWorkGoes (d.setFb (fun f => { f with chip := chipWrite f.chip off (List.replicate 4096 flashBlank) }))
    { j with off := off + 4096, left := j.left - 1 }

/-- Free bytes for a page or sector, numbered by the timeout (log 5). -/
def freeBytes (d : Dev) (off n : Nat) : List Byte := (List.range n).map (fun k => Config.flashByte d.freeNo (off + k))

/-- The flash contents once a page program or sector erase has timed out (R209, log 5): the sector holds free bytes; in the page
free bits have turned from 1 to 0, as a program can turn no other (R195). -/
def timedOutChip (d : Dev) (t : Txn) : Memory :=
  match t with
  | .program off data _ => chipProgram d.fb.chip off (freeBytes d off data.length)
  | .erase off _ => chipWrite d.fb.chip off (freeBytes d off 4096)
  | .bootStatus | .bootIdent | .bootHeader | .bootRecord _ | .bootDirectory | .clip _ _ | .maintRead _ _ _
  | .reload => d.fb.chip

/-- A page program or sector erase leaves its page or sector at a timeout (R209, log 5). -/
def scramble (d : Dev) (t : Txn) : Dev :=
  { (d.setFb (fun f => { f with chip := timedOutChip d t })) with freeNo := d.freeNo + 1 }

/-- A page program or sector erase ends in timeout (R209). -/
def flashTimedOut (d : Dev) (j : FlashJob) (t : Txn) : Dev :=
  flashWorkOver (scramble d t) { j with left := 0, timedOut := true }

/-- The directory reload ends (R210). -/
def reloadDone (d : Dev) (j : FlashJob) : Dev :=
  let dir := match d.fb.dirOffset with
    | some o => readDirectory d.fb.chip d.fb.size o
    | none => noClips
  let d := d.setFb (fun f => { f with dir := dir, holder := none })
  let d := setLatch d partCell latchDirReloaded
  freePort (completeJob d (if j.timedOut then .flashTimeout else .none))

/-- A clip read ends: its samples join the FIFO unless they are discarded (R206). -/
def clipDone (d : Dev) (n : Fin 8) (r : ClipRead) (discard : Bool) : Dev :=
  let d := d.setFb (fun f => { f with holder := none })
  grantPort (if discard then d else clipArrived d n (samplesOf (chipReadN d.fb.chip r.off r.count)))

end Sys2Proof.Machine
end

