-- ==== Sys2Proof/Machine/Programme.lean ====
section
/-! DEFINITION. Machine/Programme.lean: the sample arithmetic of the downlink: demodulators, main modulators, break-in
modulators (05 sections 5.3 to 5.5) and the slot outputs made from one donor sample (R1). -/

namespace Sys2Proof.Machine

open Sys2Proof

/-! ### Demodulation (R91) -/

/-- The angle of x + i y, a turn being 1, is at least half a turn. -/
def upperHalf (x y : Int) : Bool := decide (y < 0) || (decide (y = 0) && decide (x < 0))

/-- The first `n` binary digits of the angle of x + i y in [0, 1) of a turn: squaring doubles the angle. Exact. -/
def angleDigits : Nat → Int → Int → Nat → Nat
  | 0, _, _, acc => acc
  | n + 1, x, y, acc =>
    angleDigits n (x * x - y * y) (2 * x * y) (2 * acc + (if upperHalf x y then 1 else 0))

/-- floor(angle × 2^16) of a sample against its reference, the angle in [-1/2, 1/2) of a turn; 0 when either is (0, 0). -/
def demodulate (ref x : Sample) : Int :=
  if ref = Sample.zero ∨ x = Sample.zero then 0
  else
    let a := x.i.toInt
    let b := x.q.toInt
    let c := ref.i.toInt
    let e := ref.q.toInt
    (BitVec.ofNat 16 (angleDigits 16 (a * c + b * e) (b * c - a * e) 0)).toInt

/-! ### The sine table (R93) -/

/-- floor(2π 2^96 / 4096): the table's angle unit. -/
def sineUnit : Nat := 121534479156362834585215793

/-- Alternating Taylor sum at scale 2^96: the term `t` of order `n` and the ones after it. -/
def taylor (x2 : Nat) : Nat → Nat → Int → Nat → Int
  | 0, _, _, _ => 0
  | k + 1, n, sign, t => sign * t + taylor x2 k (n + 2) (-sign) (t * x2 / 2 ^ 96 / ((n + 1) * (n + 2)))

/-- sin and cos of `k` angle units at scale 2^96, for k up to an eighth of a turn. -/
def sinFixed (k : Nat) : Int := taylor (k * sineUnit * (k * sineUnit) / 2 ^ 96) 16 1 1 (k * sineUnit)
def cosFixed (k : Nat) : Int := taylor (k * sineUnit * (k * sineUnit) / 2 ^ 96) 16 0 1 (2 ^ 96)

/-- floor(29205 sin(2π k / 4096)) for k from 0 to 1024. -/
def quarterWave (k : Nat) : Int := 29205 * (if k ≤ 512 then sinFixed k else cosFixed (1024 - k)) / 2 ^ 96

/-- Entry `j` of the sine table: 29205 (cos, sin)(2π j / 4096), each truncated toward zero (R93). -/
def sineEntry (j : Nat) : Sample :=
  let k := j % 1024
  let s := quarterWave k
  let c := quarterWave (1024 - k)
  match j / 1024 with
  | 0 => sampleOf c s
  | 1 => sampleOf (-s) c
  | 2 => sampleOf (-c) (-s)
  | _ => sampleOf s (-c)

/-- The output sample of a phase (R93). -/
def phaseOut (phase : BitVec 32) : Sample := sineEntry (phase.toNat / 2 ^ 20)

/-- The phase step of a clamped composite sample (R93). -/
def phaseStep (c : Int) (kDev : Nat) : BitVec 32 := BitVec.ofInt 32 (c * kDev)

/-- A composite clamped to the deviation limit (R92). -/
def limitComposite (l : Nat) (c : Int) : Int := max (-(l : Int)) (min l c)

/-- The composite's magnitude exceeds the limit (R92). -/
def overLimit (l : Nat) (c : Int) : Bool := decide (l < c.natAbs)

/-- Two output samples of one clamped composite sample, and the phase after them (R93). -/
def modulate (phase : BitVec 32) (c : Int) (kDev : Nat) : BitVec 32 × List Sample :=
  let p1 := phase + phaseStep c kDev
  let p2 := p1 + phaseStep c kDev
  (p2, [phaseOut p1, phaseOut p2])

/-! ### Main modulators (R92 to R94) -/

/-- One composite sample through a main modulator: its new state and two output samples. -/
def mainModulate (e : ProgEntry) (present : Bool) (m : Modulator) (c : Int) : Modulator × List Sample :=
  if present then
    let r := modulate m.phase (limitComposite e.limit c) e.kDev
    ({ m with phase := r.1, clamp := if overLimit e.limit c then m.clamp + 1 else m.clamp }, r.2)
  else if e.drop then (m, [Sample.zero, Sample.zero])
  else (m, [phaseOut m.phase, phaseOut m.phase])

/-! ### Break-in modulators (R97 to R100) -/

/-- The composite a BIM builds (R98, R99). `prog` is the programme term. -/
def bimComposite (e : SrcEntry) (a prog : Int) : Int :=
  if e.overlay then sat16 (stepValue e.duck prog + stepValue e.announce a) else stepValue e.announce a

/-- One composite sample through a BIM that serves the programme; `prog` is its demodulator's output (R98 to R100). -/
def bimSample (d : Dev) (p : Fin 8) (prog : Int) (m : Fin 12) : Dev :=
  let b := d.bim m
  match b.pair with
  | none => d
  | some (s, q) =>
    if q ≠ p then d
    else
      let e := d.pm.table.get p
      let present := (d.slot (progSlot p)).on
      let c := bimComposite (d.bic.table.get s) b.audio.toInt (if present then prog else 0)
      let r := modulate b.phase (limitComposite e.limit c) e.kDev
      let out := r.2.map (stepSample (d.chan (progSlot p)).step)
      let d := d.setBim m (fun b => { b with phase := r.1, out := lastN 48 (b.out ++ out) })
      if overLimit e.limit c then d.setMod p (fun x => { x with clamp := x.clamp + 1 }) else d

/-! ### Slot outputs (R1, R2) -/

/-- Output samples of a slot in one frame. -/
def frameSamples (s : Fin 40) : Nat := slotRate s / 8

/-- Output samples measured and kept for the lanes. -/
def emit (d : Dev) (s : Fin 40) (xs : List Sample) : Dev :=
  d.setSlot s (fun c =>
    { c with sumOut := c.sumOut + (xs.map samplePower).sum, out := lastN (frameSamples s) (c.out ++ xs) })

/-- One composite sample of a programme (R91 to R100). -/
def compositeSample (d : Dev) (p : Fin 8) (x : Sample) : Dev :=
  let s := progSlot p
  let c := demodulate (d.mod p).ref x
  let r := mainModulate (d.pm.table.get p) (d.slot s).on (d.mod p) c
  let d := d.setMod p (fun _ => { r.1 with ref := x, half := none })
  let d := emit d s (r.2.map (stepSample (d.chan s).step))
  overAll d (fun d m => bimSample d p c m)

/-- One filter sample of a programme slot: measured as P_in, then demodulated in pairs (R1, R91). -/
def programmeSample (d : Dev) (p : Fin 8) (x : Sample) : Dev :=
  let d := d.setSlot (progSlot p) (fun c => { c with sumIn := c.sumIn + samplePower x })
  match (d.mod p).half with
  | none => d.setMod p (fun m => { m with half := some x })
  | some _ => compositeSample d p x

/-- One filtered sample of a slot (R1). -/
def filteredSample (d : Dev) (s : Fin 40) (x : Sample) : Dev :=
  match slotRange s with
  | .programme => programmeSample d (progOf s) x
  | .rescue | .carrier | .off => emit d s [stepSample (d.chan s).step x]

/-- A zero of an OFF slot, and of each BIM that serves the programme of an OFF slot (R1, R6, R100). -/
def offSample (d : Dev) (s : Fin 40) : Dev :=
  let d := d.setSlot s (fun c =>
    { c with decim := decimation s - 1, out := lastN (frameSamples s) (c.out ++ [Sample.zero]) })
  if slotRange s = .programme then
    overAll d (fun d (m : Fin 12) =>
      if (d.bim m).pair.any (fun q => q.2 == progOf s) then
        d.setBim m (fun b => { b with out := lastN 48 (b.out ++ [Sample.zero]) })
      else d)
  else d

/-- One donor sample through a slot's mixer, filter and decimator (R1, log 6). An OFF slot outputs zeros at its rate. -/
def slotDonor (d : Dev) (di0 di1 : Sample) (s : Fin 40) : Dev :=
  let e := d.chan s
  if e.kind = .off then
    if (d.slot s).decim = 0 then offSample d s else d.setSlot s (fun c => { c with decim := c.decim - 1 })
  else
    let t := tuningOf s e
    let f := Config.filterNext t (d.slot s).filter (if e.donor then di1 else di0)
    if (d.slot s).decim = 0 then
      filteredSample (d.setSlot s (fun c => { c with filter := f, decim := decimation s - 1 })) s
        ⟨Config.filterI t f, Config.filterQ t f⟩
    else d.setSlot s (fun c => { c with filter := f, decim := c.decim - 1 })

/-- A sample of each donor input (R1). -/
def donorSample (d : Dev) (di0 di1 : Sample) : Dev := overAll d (fun d s => slotDonor d di0 di1 s)

end Sys2Proof.Machine
end

