-- ==== Sys2Proof/Machine/Links.lean ====
section
/-! DEFINITION. Machine/Links.lean: the elastic FIFO (R24), the uplinks read from it (R15, R16, R152, R153), and the launch
of the downstream frames (R20, R27, R30, R46). -/

namespace Sys2Proof.Machine

open Sys2Proof

/-! ### The elastic FIFO (R24) -/

/-- A word stored; a full FIFO first discards its 33 oldest words (R24). -/
def fifoStore (p : Port) (w : List Sample) : Port :=
  let q := if 64 ≤ p.fifo.length then p.fifo.drop 33 ++ [w] else p.fifo ++ [w]
  { p with fifo := q, mode := if 32 ≤ q.length then .delivering else p.mode }

/-- An upstream word arrives (R24, R25). -/
def wordArrives (d : Dev) (x : Fin 4) (w : List Sample) : Dev :=
  if (d.port x).state = .running then
    let slip := decide (64 ≤ (d.port x).fifo.length)
    let d := d.setPort x (fun p => fifoStore p w)
    updateNear (if slip then countSlip d x else d) x
  else d

/-- A read of a port's FIFO (R24); the empty list stands for a word of zeros. A read during the refill finds no further
underflow, whatever the fill (DESIGN CHOICE, log 45). -/
def fifoTake (p : Port) : Port :=
  match p.mode, p.fifo with
  | .delivering, w :: q => { p with fifo := q, word := w }
  | .delivering, [] => { p with mode := .refilling, word := [] }
  | .starting, _ | .refilling, _ => { p with word := [] }

/-- One port's read; a read of an empty FIFO is an underflow slip (R24, R43), in normal delivery alone and not again during
the refill that follows (DESIGN CHOICE, log 45). -/
def readPort (d : Dev) (x : Fin 4) : Dev :=
  let p := d.port x
  if p.state = .running then
    let slip := decide (p.mode = .delivering) && p.fifo.isEmpty
    let d := d.setPort x fifoTake
    updateNear (if slip then countSlip d x else d) x
  else d

/-! ### Uplinks -/

def laneSample (w : List Sample) (l : Nat) : Sample := w.getD l Sample.zero

/-- A port contributes to a carrier's uplink (R15). -/
def contributes (d : Dev) (s : Fin 40) (x : Fin 4) : Bool :=
  decide ((d.port x).state = .running) && carrierUplink d.rp.routes x s

/-- The sum of one component over the contributing ports, in full precision (R15). -/
def chainSum (d : Dev) (s : Fin 40) (i : Nat) (f : Sample → BitVec 16) : Int :=
  (((allFin 4).filter (contributes d s)).map (fun x =>
    (f (laneSample (d.port x).word (downLane d.rp.routes x s + i))).toInt)).sum

/-- One uplink sample of a carrier, clamped, and whether it was clamped (R15). -/
def carrierUp (d : Dev) (s : Fin 40) (i : Nat) : Sample × Bool :=
  let a := chainSum d s i Sample.i
  let b := chainSum d s i Sample.q
  (sampleOf (sat16 a) (sat16 b), decide (sat16 a ≠ a ∨ sat16 b ≠ b))

/-- The 16 uplink samples of a carrier slot in one word: clip count and uplink step (R15, R16). -/
def carrierWord (d : Dev) (s : Fin 40) : Dev :=
  let e := d.chan s
  if e.kind = .carrier then
    let us := (List.range 16).map (carrierUp d s)
    d.setSlot s (fun c =>
      { c with clip := c.clip + (us.filter Prod.snd).length, upOut := us.map (fun u => stepSample e.upStep u.1) })
  else d

/-- The aligned stream of a remote and a rescue slot, one sample (R152). Where the lane plan gives the remote no pair for the
slot, or its port is not RUNNING, a zero stands at the position (DESIGN CHOICE, log 54). -/
def alignedSample (d : Dev) (e : Fin 8) (r : Fin 32) : Sample :=
  let x := portOf r
  match rescueLane d.rp.routes x (posOf r, e) with
  | some l => if (d.port x).state = .running then laneSample (d.port x).word l else Sample.zero
  | none => Sample.zero

/-- One sample of a rescue slot's voter, after the uplink step (R16, R153). -/
def rescueWord (d : Dev) (e : Fin 8) : Dev :=
  let r := voterSample (d.voter e) (alignedSample d e)
  let d := d.setVoter e (fun _ => r.1)
  let c := d.chan (rescueSlot e)
  d.setSlot (rescueSlot e) (fun x =>
    { x with upOut := if c.kind = .rescue then [stepSample c.upStep r.2] else [] })

/-- A donor output sample: the sum of the slots' contributions, saturated (R16, log 6). -/
def donorOutSample (d : Dev) (dn : Bool) (j : Nat) : Sample :=
  let on := (allFin 40).filter (fun s => decide (8 ≤ s.val) && decide ((d.chan s).kind ≠ .off) && (d.chan s).donor == dn)
  sampleOf (sat16 (on.map (fun s => Config.interpI (tuningOf s (d.chan s)) (d.slot s).interp j)).sum)
    (sat16 (on.map (fun s => Config.interpQ (tuningOf s (d.chan s)) (d.slot s).interp j)).sum)

/-- The interpolators take this instant's samples, and the donor outputs are formed (R16). -/
def donorOutputs (d : Dev) : Dev :=
  let d := overAll d (fun d (s : Fin 40) =>
    if 8 ≤ s.val ∧ (d.chan s).kind ≠ .off then
      d.setSlot s (fun c => { c with interp := Config.interpNext (tuningOf s (d.chan s)) c.interp c.upOut })
    else d)
  let out := Tab.ofFn (fun (k : Fin 2) => (List.range 160).map (donorOutSample d (k.val == 1)))
  { d with lm := { d.lm with donorOut := out } }

/-- Rescue uplinks of a read: one word in four carries a rescue sample (R152, log 11). -/
def rescueUplinks (d : Dev) : Dev :=
  if d.lp.readNo % 4 = 0 then overAll d rescueWord
  else overAll d (fun d (e : Fin 8) => d.setSlot (rescueSlot e) (fun c => { c with upOut := [] }))

/-- A read instant of all four FIFOs (R24, R15, R16, R152, log 10). The ports are read from L0 to L3, each change of
NEAR_LIMIT handed to the UV before the next port is read: DESIGN CHOICE, log 40. -/
def readInstant (d : Dev) : Dev :=
  let d := overAll d readPort
  let d := overAll d carrierWord
  let d := donorOutputs (rescueUplinks d)
  { d with lp := { d.lp with readNo := d.lp.readNo + 1, readDue := d.lp.readDue + Config.wordPeriod } }

/-! ### Frame launch (R20) -/

/-- A MARK leaves: its record opens and the next MARK is timed (R27, R30). -/
def launchMark (d : Dev) (r : Fin 32) : Dev :=
  let m := d.remote r
  let d := if m.record.isSome then markerMiss d r else d
  d.setRemote r (fun x =>
    { x with queue := dropEntry x.queue ⟨.mark, 0⟩, markSeq := x.markSeq + 1, record := some ⟨m.markSeq, d.now⟩,
             markDue := some (d.now + (if m.state = .joining then Config.markerFast else Config.markerSlow)) })

/-- Any other message is sent: AWAITING_ACK with its sequence and timer (R27). -/
def launchOther (d : Dev) (r : Fin 32) (id : MsgId) : Dev :=
  let seq := (d.remote r).sendCtr
  let due := d.now + Config.ackTime
  let d := d.setRemote r (fun x =>
    { x with sendCtr := seq + 1, queue := x.queue.map (fun e =>
        if e.msg.id = id then { e with sent := true, count := e.count + 1, seq := some seq, ackDue := some due }
        else e) })
  if id.kind = .switch ∧ d.rp.phase = .switching ∧ d.rp.switching.contains r then
    d.setRp (fun p => { p with switchSent := if p.switchSent.contains r then p.switchSent else r :: p.switchSent })
  else d

/-- The eight bytes of a remote's position in the frame that is launched now (R20). -/
def positionBytes (d : Dev) (r : Fin 32) : List Byte :=
  if (d.port (portOf r)).state = .running then
    match sendSelection (d.remote r).queue with
    | some e =>
      e.msg.bytes (match e.msg.kind with
        | .mark => 0
        | .map | .switch | .gate | .hold | .level | .subst | .pattern => (d.remote r).sendCtr) (d.remote r).markSeq
    | none => emptyPosition
  else emptyPosition

/-- The effect of a launch on a remote's queue (R27). -/
def launchRemote (d : Dev) (r : Fin 32) : Dev :=
  if (d.port (portOf r)).state = .running then
    match sendSelection (d.remote r).queue with
    | some e => match e.msg.kind with
      | .mark => launchMark d r
      | .map | .switch | .gate | .hold | .level | .subst | .pattern => launchOther d r e.msg.id
    | none => d
  else d

/-! ### The test pattern (02 section 2.10) -/

/-- The output bit of the 15-stage generator: that of its last stage before the shift (DESIGN CHOICE, log 13). -/
def prbsBit (s : BitVec 15) : Bool := s.getLsbD 14
/-- The generator shifted once, with feedback x^15 + x^14 + 1. -/
def prbsNext (s : BitVec 15) : BitVec 15 := (s <<< 1) ||| (BitVec.ofBool (s.getLsbD 14 ^^ s.getLsbD 13)).setWidth 15

/-- The next `n` bits, the first the most significant, and the generator after them. -/
def prbsBits : Nat → BitVec 15 → Nat → Nat × BitVec 15
  | 0, s, acc => (acc, s)
  | n + 1, s, acc => prbsBits n (prbsNext s) (2 * acc + (if prbsBit s then 1 else 0))

/-- One 32-bit pattern word: the I half is its high half (log 13). -/
def patternWord (s : BitVec 15) : Sample × BitVec 15 :=
  let r := prbsBits 32 s 0
  (⟨BitVec.ofNat 16 (r.1 / 65536), BitVec.ofNat 16 r.1⟩, r.2)

/-- The next `n` pattern words. -/
def patternWords : Nat → BitVec 15 → List Sample × BitVec 15
  | 0, s => ([], s)
  | n + 1, s =>
    let w := patternWord s
    let rest := patternWords n w.2
    (w.1 :: rest.1, rest.2)

/-- Bit 0 of the I half inverted (R46). -/
def invertBit (x : Sample) : Sample := ⟨x.i ^^^ 1, x.q⟩

/-- The pattern words of this frame (R45, R46). -/
def framePattern (d : Dev) : List Sample :=
  match d.rs.test with
  | some t =>
    match (patternWords 48 t.lfsr).1 with
    | [] => []
    | w :: ws => (if errorInsertWaits d then invertBit w else w) :: ws
  | none => []

/-- The lanes of a port in the frame launched now, those that carry a stream (R20, R55, 03 section 3.6). Reserve lanes carry
theirs in every port state (DESIGN CHOICE, log 47). -/
def frameLanes (d : Dev) (x : Fin 4) : List LaneRun :=
  ((routedSlots d.rp.routes x).map (fun s =>
    ⟨downLane d.rp.routes x s, slotWidth s, .slot s, (d.slot s).out⟩)) ++
  ((allFin 12).filterMap (fun i =>
    match (d.pool x).lanes.get i with
    | .free => none
    | .version q => some ⟨308 + i.val, 1, .version q.bim, (d.bim q.bim).out⟩
    | .pattern => some ⟨308 + i.val, 1, .pattern, framePattern d⟩))

/-- The frame of a port (R20). Its alignment word is the fixed pattern, a free value (log 37). -/
def frameOf (d : Dev) (x : Fin 4) : Frame :=
  ⟨d.now, Config.alignmentWord, (remotesOf x).map (positionBytes d), frameLanes d x⟩

/-- The generator moves on by a frame, and an ERROR_INSERT that waits completes (R46). -/
def launchPattern (d : Dev) : Dev :=
  match d.rs.test with
  | some t =>
    let d := { d with rs := { d.rs with test := some { t with lfsr := (patternWords 48 t.lfsr).2 } } }
    if errorInsertWaits d then completeJob d .none else d
  | none => d

/-- The launch of a frame on every port (R20). -/
def launchFrames (d : Dev) : Dev :=
  let frames := Tab.ofFn (frameOf d)
  let d := overAll d (fun d x => d.setPort x (fun p => { p with frame := some (frames.get x) }))
  let d := overAll d launchRemote
  let d := launchPattern d
  { d with lm := { d.lm with slots := d.lm.slots.map (fun c => { c with out := [] }) },
           pm := { d.pm with bims := d.pm.bims.map (fun b => { b with out := [] }) },
           lp := { d.lp with frameDue := d.lp.frameDue + Config.framePeriod } }

end Sys2Proof.Machine
end

