-- ==== Sys2Proof/Machine/Maintenance.lean ====
section
/-! DEFINITION. Machine/Maintenance.lean: the cue cells (06 section 6.3) and the maintenance commands (02 sections 2.9 to
2.11, 08 section 8.9, 09 section 9.7). -/

namespace Sys2Proof.Machine

open Sys2Proof

/-! ### Cues (R115 to R117) -/

/-- The origin a cue names, resolved against the default; none when the code names no origin (R115, 10 section 10.8). -/
def cueOrigin (e : SrcEntry) (c : CueCell) : Option ReqOrigin :=
  match c.origin with
  | 0 => some e.origin
  | 1 => some .none
  | 2 => some (.shared c.addr c.len)
  | 3 => some (.flash c.clipId)
  | 4 => some .line
  | _ => none

/-- A clip directory entry is valid. -/
def clipValid (d : Dev) (id : Nat) : Bool := if h : id < 16 then (d.fb.dir.get ⟨id, h⟩).isSome else false

/-- BAD_CLIP (R115). -/
def badClip (d : Dev) (l : Layout) (o : ReqOrigin) : Bool :=
  match o with
  | .shared a n =>
    decide (a % 64 ≠ 0) || decide (n = 0) || decide (a + 2 * n > Config.memSize) || overlapsAreas l a (2 * n)
  | .flash id => !clipValid d id
  | .none | .line => false

/-- A cue checked in the order of R115: refused with a code, or resolved. -/
def cueCheck (d : Dev) (l : Layout) (n : Fin 8) (c : CueCell) : CueRefusal ⊕ CueReq :=
  let e := d.bic.table.get n
  let zones := if c.zones = 0 then e.zones else c.zones
  let progs := if c.progs = 0 then e.progs else c.progs
  if (d.source n).inService && !e.again then .inl .busy
  else
    match cueOrigin e c with
    | none => .inl .badOrigin
    | some o =>
      if o = .line ∧ ¬(n = 1 ∨ n = 2) then .inl .badOrigin
      else if badClip d l o then .inl .badClip
      else if zones = 0 ∨ progs = 0 then .inl .nothingToDo
      else .inr ⟨zones, progs, o, c.repeats, c.gap⟩

/-- The part's answer in a cue cell: state word and refusal code word (R187). Bits 31:8 of the state word are written as 0
(DESIGN CHOICE, log 55). -/
def cueAnswer (d : Dev) (a state code : Nat) : Dev := d.poke a (le 4 state ++ le 4 code)

/-- A POSTED cue is taken (R115, R116). -/
def takeCue (d : Dev) (l : Layout) (n : Fin 8) : Dev :=
  let a := cueAddr l n
  match cueCheck d l n (readCue d.smc.mem a) with
  | .inl r => cueAnswer d a 3 r.code
  | .inr q =>
    tryStart (publishPending ((cueAnswer d a 2 0).setSource n (fun c => { c with cueReq := some q })) n) n

/-- A CANCEL is taken (R117). -/
def takeCancel (d : Dev) (l : Layout) (n : Fin 8) : Dev :=
  let d := if (d.source n).inService then serviceEnd d n .cancelled else d
  let hold := levelLine d n && lineLevel d n
  let d := d.setSource n (fun c => { c with lineReq := false, cueReq := none, cancelHold := c.cancelHold || hold })
  cueAnswer (publishPending d n) (cueAddr l n) 5 0

/-! ### Taking a maintenance command (R188) -/

/-- The overrun mark is cleared at a take (R188). -/
def maintBegin (d : Dev) : Dev := { d with smc := { d.smc with overrun := false } }

/-- A command that does not complete at its take: the unit is BUSY, and the state word says so (R188), its bits 31:8 as 0
(DESIGN CHOICE, log 55). -/
def maintBusy (d : Dev) (a : Nat) (tag : BitVec 32) (w : MaintWork) : Dev :=
  let d := d.poke a (le 4 2)
  { d with smc := { d.smc with job := some ⟨a, tag, w⟩ } }

/-! ### SNAPSHOT (R44) -/

def satFlag (n : Nat) : Nat := if n = 65535 then 1 else 0

/-- A port record (10 section 10.7). -/
def portRecord (d : Dev) (x : Fin 4) : List Byte :=
  let p := d.port x
  le 2 d.rs.snapSeq.toNat ++ le 2 p.codeViol ++ le 2 p.alignLoss ++ le 2 p.slips ++
    le 1 (satFlag p.codeViol + 2 * satFlag p.alignLoss + 4 * satFlag p.slips)

/-- A remote record (10 section 10.7). -/
def remoteRecord (d : Dev) (r : Fin 32) : List Byte :=
  let m := d.remote r
  le 2 m.checkFails ++ le 2 m.misses ++ le 2 m.patErrs ++
    le 1 (satFlag m.checkFails + 2 * satFlag m.misses + 4 * satFlag m.patErrs)

def clearPortCounters (d : Dev) (x : Fin 4) : Dev :=
  let d := d.setPort x (fun p => { p with codeViol := 0, alignLoss := 0, slips := 0 })
  (remotesOf x).foldl (fun d r => d.setRemote r (fun m => { m with checkFails := 0, misses := 0, patErrs := 0 })) d

/-- One port copied, and cleared with the clear option (R44). -/
def snapshotPort (base : Nat) (clear : Bool) (d : Dev) (x : Fin 4) : Dev :=
  let a := base + 64 + 128 * x.val
  let d := d.poke a (portRecord d x)
  let d := (allFin 8).foldl (fun d p => d.poke (a + 16 + 8 * p.val) (remoteRecord d (remoteAt x p))) d
  if clear then clearPortCounters d x else d

/-- The counters of a scope copied into the snapshot area (R44). -/
def snapshotCopy (d : Dev) (l : Layout) (port : Nat) (all clear : Bool) : Dev :=
  let d := { d with rs := { d.rs with snapSeq := d.rs.snapSeq + 1 } }
  let d := d.poke l.snapshot (le 2 d.rs.snapSeq.toNat ++ le 1 (if all then 0xFF else port) ++ le 1 (bit clear))
  ((allFin 4).filter (fun x => all || x.val == port)).foldl (snapshotPort l.snapshot clear) d

def takeSnapshot (d : Dev) (l : Layout) (c : MaintCell) : Dev :=
  let all := decide (c.pos ≠ 0)
  if !all && decide (3 < c.port) then completeMaint d l.maint c.tag .badArgument
  else completeMaint (snapshotCopy d l c.port all (decide (c.clear ≠ 0))) l.maint c.tag .none

/-! ### PORT_RESET (R48) -/

def portReset (d : Dev) (x : Fin 4) : Dev :=
  let d := portMoves d x .dark
  let d := match d.rs.test with
    | some t => if t.port = x then testEnd d else d
    | none => d
  clearPortCounters d x

def takePortReset (d : Dev) (l : Layout) (c : MaintCell) : Dev :=
  if h : c.port < 4 then completeMaint (portReset d ⟨c.port, h⟩) l.maint c.tag .none
  else completeMaint d l.maint c.tag .badArgument

/-! ### The test (R45 to R47) -/

/-- The checks of PATTERN_START in order, and the lane granted (R45, R68). -/
def patternCheck (d : Dev) (c : MaintCell) : MaintResult ⊕ (Fin 4 × Fin 8 × Fin 12) :=
  if h : c.port < 4 ∧ c.pos < 8 then
    let x : Fin 4 := ⟨c.port, h.1⟩
    let p : Fin 8 := ⟨c.pos, h.2⟩
    if d.rs.test.isSome then .inl .patternRunning
    else if !(d.remote (remoteAt x p)).serving then .inl .remoteNotReady
    else
      match freeLane (d.pool x) with
      | some i => .inr (x, p, i)
      | none => .inl .noLane
  else .inl .badArgument

/-- A test starts (R45). -/
def startTest (d : Dev) (x : Fin 4) (p : Fin 8) (i : Fin 12) : Dev :=
  let d := { d with rs := { d.rs with test := some ⟨x, p, i, 0, false, BitVec.allOnes 15⟩ } }
  let d := setLane d x i .pattern
  publishPort (offer d (remoteAt x p) (.pattern (some (308 + i.val)))) x

def takePatternStart (d : Dev) (l : Layout) (c : MaintCell) : Dev :=
  match patternCheck d c with
  | .inl r => completeMaint d l.maint c.tag r
  | .inr (x, p, i) => completeMaint (startTest d x p i) l.maint c.tag .none

def takePatternStop (d : Dev) (l : Layout) (c : MaintCell) : Dev :=
  match d.rs.test with
  | none => completeMaint d l.maint c.tag .patternNotRunning
  | some _ => completeMaint (testEnd d) l.maint c.tag .none

def takeErrorInsert (d : Dev) (l : Layout) (c : MaintCell) : Dev :=
  match d.rs.test with
  | none => completeMaint d l.maint c.tag .patternNotRunning
  | some _ => maintBusy d l.maint c.tag .errorInsert

def takeRereference (d : Dev) (l : Layout) (c : MaintCell) : Dev := completeMaint (reReference d) l.maint c.tag .none

/-! ### Flash commands (09 section 9.7) -/

/-- An in-service source has a resolved FLASH origin. -/
def flashInUse (d : Dev) : Bool :=
  (allFin 8).any (fun n => (d.source n).inService && match (d.source n).origin with
    | some (.flash _ _) => true
    | some .none | some (.shared _ _) | some .line | none => false)

/-- Length, flash range and shared-memory address of a read or write (09 section 9.7). -/
def badTransfer (d : Dev) (c : MaintCell) : Bool :=
  decide (c.len = 0) || decide (4096 < c.len) || decide (c.flashOff + c.len > d.fb.size) || decide (c.addr % 64 ≠ 0) ||
    decide (c.addr + c.len > Config.memSize)

/-- Offset, count and range of an erase (09 section 9.7). -/
def badErase (d : Dev) (c : MaintCell) : Bool :=
  decide (c.flashOff % 4096 ≠ 0) || decide (c.len = 0) || decide (16 < c.len) ||
    decide (c.flashOff + 4096 * c.len > d.fb.size)

/-- The first failing check of a flash command (09 section 9.7). -/
def flashCheck (d : Dev) (l : Layout) (k : FlashKind) (c : MaintCell) : Option MaintResult :=
  if !d.fb.present then some .flashAbsent
  else
    match k with
    | .read => if badTransfer d c || overlapsAreas l c.addr c.len then some .badArgument else none
    | .write => if badTransfer d c then some .badArgument else if flashInUse d then some .flashInUse else none
    | .erase => if badErase d c then some .badArgument else if flashInUse d then some .flashInUse else none

/-- A flash command is taken (09 section 9.7, R188). BUSY is written before the first page's bytes are read (DESIGN CHOICE,
log 43). -/
def takeFlash (d : Dev) (l : Layout) (k : FlashKind) (c : MaintCell) : Dev :=
  match flashCheck d l k c with
  | some r => completeMaint d l.maint c.tag r
  | none => grantPort (maintBusy d l.maint c.tag (.flash ⟨k, c.flashOff, c.addr, c.len, false, false, false⟩))

/-- A POSTED command handed to its owner by its code (R188, 10 section 10.5). -/
def takeCommand (d : Dev) (l : Layout) : Dev :=
  let c := readMaint d.smc.mem l.maint
  let d := maintBegin d
  match c.code with
  | 1 => takeSnapshot d l c
  | 2 => takePortReset d l c
  | 3 => takePatternStart d l c
  | 4 => takePatternStop d l c
  | 5 => takeErrorInsert d l c
  | 6 => takeRereference d l c
  | 7 => takeFlash d l .read c
  | 8 => takeFlash d l .write c
  | 9 => takeFlash d l .erase c
  | _ => completeMaint d l.maint c.tag .badCommand

end Sys2Proof.Machine
end

