-- ==== Sys2Proof/Machine/HostPort.lean ====
section
/-! DEFINITION. Machine/HostPort.lean: host memory writes and the watch unit (08 section 8.5), the registers (R169), START,
link loss and the soft reset (08 section 8.4). -/

namespace Sys2Proof.Machine

open Sys2Proof

/-! ### Host memory writes (R178, R180, R190) -/

/-- The 95 watched cells with their addresses (R178). -/
def watchedCells (l : Layout) : List (WatchCell × Nat) :=
  (.revision, l.revision) :: (allFin 8).map (fun n => (.cue n, cueAddr l n)) ++ [(.maint, l.maint)] ++
    (allFin 85).map (fun i => (.status i, statusAddr l i))

/-- A write of `n` bytes at `a` touches the 64-byte cell at `b`. -/
def touchesCell (a n b : Nat) : Bool := extentsMeet (a, n) (b, 64)

/-- A cell put in its place by address. -/
def insertByAddr (c : WatchCell × Nat) : List (WatchCell × Nat) → List (WatchCell × Nat)
  | [] => [c]
  | e :: l => if c.2 < e.2 then c :: e :: l else e :: insertByAddr c l

/-- The watched cells that a write touches, by rising address (log 24). -/
def touchedCells (l : Layout) (a n : Nat) : List WatchCell :=
  (((watchedCells l).filter (fun c => touchesCell a n c.2)).foldr insertByAddr []).map Prod.fst

/-- A notice is appended unless one for its cell is queued (R178). -/
def addNotice (q : List WatchCell) (c : WatchCell) : List WatchCell := if q.contains c then q else q ++ [c]

/-- An address whose bytes the part keeps from the host while LINKED: the status area and the news bitmap (R178, R180). -/
def guarded (l : Layout) (a : Nat) : Bool :=
  decide (l.status ≤ a ∧ a < l.status + 8192) || decide (l.news ≤ a ∧ a < l.news + 4096)

/-- The bytes that reach memory: those at guarded addresses stay as they are (R178, R180), also where the recorded cell of a
command in flight lies at them under a newer layout (DESIGN CHOICE against R190, log 56). -/
def storedBytes (m : Memory) (l : Layout) (a : Nat) (bs : List Byte) : List Byte :=
  bs.mapIdx (fun k b => if guarded l (a + k) then m.read (a + k) else b)

/-- The ones a write carries for the latch word of a status cell (R180). -/
def latchOnes (l : Layout) (a : Nat) (bs : List Byte) (i : Fin 85) : BitVec 32 :=
  let base := statusAddr l i
  BitVec.ofNat 32 (ofLe ((List.range 4).map (fun k => if a ≤ base + k then bs.getD (base + k - a) 0 else 0)))

/-- A host write into the maintenance cell while the unit is BUSY sets the overrun mark (R190), also where its bytes are not
stored (DESIGN CHOICE, log 56). -/
def markOverrun (d : Dev) (a n : Nat) : Dev :=
  match d.smc.job with
  | some j =>
    if touchesCell a n j.addr || (d.smc.layout.map (fun l => touchesCell a n l.maint)).getD false then
      { d with smc := { d.smc with overrun := true } }
    else d
  | none => d

/-- A host write to the memory window (R178, R180, R190; log 56). -/
def hostWrite (d : Dev) (a : Nat) (bs : List Byte) : Dev :=
  let d := markOverrun d a bs.length
  match d.linked, d.smc.layout with
  | true, some l =>
    { d with smc := { d.smc with
        mem := d.smc.mem.write a (storedBytes d.smc.mem l a bs),
        masks := Tab.ofFn (fun i => d.smc.masks.get i ||| latchOnes l a bs i),
        notices := (touchedCells l a bs.length).foldl addNotice d.smc.notices } }
  | _, _ => d.poke a bs

/-! ### Registers (R169, 10 section 10.2) -/

/-- A read of the register window. It has no effect (R169). -/
def readRegister (d : Dev) (offset : Nat) : BitVec 32 :=
  if offset = 0 then 0x00012780
  else if offset = 4 then BitVec.ofNat 32 (bit d.hp.ie)
  else if offset = 8 then
    BitVec.ofNat 32 (d.smc.state.code + 16 * d.smc.bootResult.outcome.code + 256 * scopeCode d.smc.scope)
  else if offset = 12 then BitVec.ofNat 32 d.smc.cause.code
  else if offset = 16 then BitVec.ofNat 32 (newsCount d)
  else 0

/-- IE takes the value written; a rise while NEWS is nonzero sends a message (R170, R183). -/
def takeIe (d : Dev) (ie : Bool) : Dev :=
  let d' := { d with hp := { d.hp with ie := ie } }
  if ie ∧ !d.hp.ie ∧ newsCount d ≠ 0 then sendMessage d' else d'

/-- The notice queue, the deferred marks and the clear masks are cleared (R174, R176, R177). -/
def clearWork (d : Dev) : Dev :=
  { d with smc := { d.smc with notices := [], deferred := Tab.const 6 false, masks := Tab.const 85 0 } }

def setCause (d : Dev) (c : Cause) : Dev := { d with smc := { d.smc with cause := c } }
def setPart (d : Dev) (s : PartState) : Dev := { d with smc := { d.smc with state := s } }

/-! ### START (R174, R175) -/

/-- Step 2: every status cell with its live fields and a zero latch word, no news (R175, R216). -/
def writeCells (d : Dev) (l : Layout) : Dev :=
  let d := overAll d (fun d (i : Fin 85) => d.poke (statusAddr l i) (le 4 0 ++ cellFields d i))
  let d := { d with smc := { d.smc with latches := Tab.const 85 0, news := Tab.const 85 false } }
  d.poke l.news (List.replicate 12 0)

/-- Step 4: BOOT_DONE (R192). -/
def bootDone (d : Dev) : Dev :=
  if d.smc.bootMark then
    let d := setLatch d partCell latchBootDone
    { d with smc := { d.smc with bootMark := false } }
  else d

/-- Steps 6 and 7: cells in POSTED are taken (R175). -/
def takePosted (d : Dev) (l : Layout) : Dev :=
  let d := overAll d (fun d (n : Fin 8) => if cellState d.smc.mem (cueAddr l n) = 1 then takeCue d l n else d)
  if d.smc.job.isNone ∧ cellState d.smc.mem l.maint = 1 then takeCommand d l else d

/-- A START whose anchor passes (R175). -/
def startGood (d : Dev) (l : Layout) : Dev :=
  let d := { d with smc := { d.smc with layout := some l } }
  let d := bootDone (setPart (writeCells d l) .linked)
  let d := { d with smc := { d.smc with lastReq := Tab.const 6 0 } }
  takePosted (judgeAll d l) l

/-- A START request (R171, R174, R175). -/
def startRequest (d : Dev) : Dev :=
  if d.smc.state = .booting then setCause d .startEarly
  else
    let d := clearWork d
    match anchorCheck d.smc.mem with
    | some c => setPart (setCause d c) .autonomous
    | none => startGood d (anchorLayout d.smc.mem)

/-! ### Link loss and soft reset (R176, R177) -/

/-- The PCIe link is lost (R168, R176). -/
def linkLost (d : Dev) : Dev :=
  let d := { d with hp := { d.hp with ie := false, linkUp := false } }
  if d.linked then clearWork (setPart d .autonomous) else d

/-- The BIC at a soft reset: services end with RESET, pending records and cancel holds are cleared (R137). -/
def resetSources (d : Dev) : Dev :=
  let d := overAll d (fun d (n : Fin 8) => if (d.source n).inService then endSteps d n .reset false else d)
  overAll d (fun d (n : Fin 8) =>
    d.setSource n (fun c => { c with lineReq := false, cueReq := none, cancelHold := false }))

/-- The UV at a soft reset (R166). -/
def clearVoters (d : Dev) : Dev :=
  { d with uv := d.uv.map (fun v =>
      { v with sel := none, offset := 0, cur := Tab.const 32 none, last := Tab.const 32 none, best := none }) }

/-- A soft reset request (R177). -/
def softResetRequest (d : Dev) (sc : Scope) : Dev :=
  if sc ≠ .none ∧ !d.fb.present then setCause d .scopeInvalid
  else
    let d := clearWork (setCause (setPart d .booting) .noneSinceReset)
    let d := { d with smc := { d.smc with scope := sc } }
    bootStart (clearVoters (resetSources d)) sc

end Sys2Proof.Machine
end

