-- ==== Sys2Proof/Machine/ExecHost.lean ====
section
/-! DEFINITION. Machine/ExecHost.lean: the commands of the host and of the notice queue. `State.fire` is the shape of every
command: it acts when its guard holds and changes nothing otherwise (log 2). -/

namespace Sys2Proof.Machine

open Sys2Proof

/-- A command acts on the device under a guard; the queue stays as it is, and the event is counted (log 2). -/
def State.fire (s : State) (g : Dev → Bool) (f : Dev → Dev) : Host.Outcome State Fault Refusal :=
  .next (if g s.dev then { s with dev := f { s.dev with eventNo := s.dev.eventNo + 1 } } else s)

/-! ### Power and host -/

/-- Power-on values (R18, R50, R70, R87, R108, R136, R163, R164, R193, R211). Shared memory, the flash, the lines, the
PCIe link and the model's own counters are outside the reset (R193, logs 3, 4, 5, 8, 36). A page program or sector erase on the
port is dropped, and its bytes stay as they were (DESIGN CHOICE, log 57). -/
def powerOn (d : Dev) : Dev :=
  { Dev.reset with
    eventNo := d.eventNo, freeNo := d.freeNo, hp := { Dev.reset.hp with linkUp := d.hp.linkUp, messages := d.hp.messages },
    smc := { Dev.reset.smc with mem := d.smc.mem }, bic := { Dev.reset.bic with lines := d.bic.lines },
    fb := { Dev.reset.fb with chip := d.fb.chip } }

def execPowerOnReset (s : State) : Host.Outcome State Fault Refusal := s.fire (fun _ => true) powerOn

/-- R168, R176. -/
def execPcieLinkLoss (s : State) : Host.Outcome State Fault Refusal := s.fire (fun _ => true) linkLost

/-- R168. -/
def execPcieLinkReturn (s : State) : Host.Outcome State Fault Refusal :=
  s.fire (fun _ => true) (fun d => { d with hp := { d.hp with linkUp := true } })

/-- R168, R178. A byte past the window faults (DESIGN CHOICE, log 33). An access while the link is down is dropped
(log 33). -/
def execHostMemoryWrite (addr : Nat) (data : List Byte) (s : State) : Host.Outcome State Fault Refusal :=
  if Config.memSize < addr + data.length then .fault .outsideWindow
  else s.fire (fun d => d.hp.linkUp) (fun d => hostWrite d addr data)

/-- R170. -/
def execIeWrite (ie : Bool) (s : State) : Host.Outcome State Fault Refusal :=
  s.fire (fun d => d.hp.linkUp) (fun d => takeIe d ie)

/-- R170, R174, R175. -/
def execStart (ie : Bool) (s : State) : Host.Outcome State Fault Refusal :=
  s.fire (fun d => d.hp.linkUp) (fun d => startRequest (takeIe d ie))

/-- R170, R177. -/
def execSoftReset (ie : Bool) (scope : Scope) (s : State) : Host.Outcome State Fault Refusal :=
  s.fire (fun d => d.hp.linkUp) (fun d => softResetRequest (takeIe d ie) scope)

/-- R169: a write to any register but CONTROL changes nothing. -/
def execRegisterWriteIgnored (_offset : Nat) (_value : BitVec 32) (s : State) : Host.Outcome State Fault Refusal :=
  .next s

/-! ### Notices (R179) -/

/-- The oldest notice of a LINKED part. -/
def headNotice (d : Dev) : Option WatchCell := if d.linked then d.smc.notices.head? else none

def popNotice (d : Dev) : Dev := { d with smc := { d.smc with notices := d.smc.notices.tail } }

/-- R184. -/
def execRevisionNoticeTake (s : State) : Host.Outcome State Fault Refusal :=
  s.fire (fun d => headNotice d == some .revision)
    (fun d => match d.smc.layout with
      | some l => judgeAll (popNotice d) l
      | none => popNotice d)

/-- The cue cell at the head of the queue with its state. -/
def headCue (d : Dev) : Option (Layout × Fin 8 × Nat) :=
  match headNotice d, d.smc.layout with
  | some (.cue n), some l => some (l, n, cellState d.smc.mem (cueAddr l n))
  | _, _ => none

/-- The action of a cue notice's take. -/
def cueTake (d : Dev) (f : Dev → Layout → Fin 8 → Dev) : Dev :=
  match headCue d with
  | some (l, n, _) => f (popNotice d) l n
  | none => d

/-- R115, R116, R187. -/
def execCue (s : State) : Host.Outcome State Fault Refusal :=
  s.fire (fun d => (headCue d).any (fun c => c.2.2 == 1)) (fun d => cueTake d takeCue)

/-- R117, R187. -/
def execCancel (s : State) : Host.Outcome State Fault Refusal :=
  s.fire (fun d => (headCue d).any (fun c => c.2.2 == 4)) (fun d => cueTake d takeCancel)

/-- R187. -/
def execCueCellNoAction (s : State) : Host.Outcome State Fault Refusal :=
  s.fire (fun d => (headCue d).any (fun c => c.2.2 != 1 && c.2.2 != 4)) (fun d => cueTake d (fun d _ _ => d))

/-- R181. -/
def execClearOnes (s : State) : Host.Outcome State Fault Refusal :=
  s.fire
    (fun d => (headNotice d).any (fun c => match c with
      | .status _ => true
      | .revision | .cue _ | .maint => false))
    (fun d => match headNotice d with
      | some (.status i) => applyMask (popNotice d) i
      | some .revision | some (.cue _) | some .maint | none => d)

/-! ### Maintenance commands (R188) -/

/-- The maintenance cell at the head of the queue, in POSTED, with the unit IDLE: the layout and the command. -/
def headCommand (d : Dev) : Option (Layout × MaintCell) :=
  match headNotice d, d.smc.layout with
  | some .maint, some l =>
    if d.smc.job.isNone ∧ cellState d.smc.mem l.maint = 1 then some (l, readMaint d.smc.mem l.maint) else none
  | _, _ => none

/-- A command with one of the codes a test names stands to be taken. -/
def commandIs (f : Nat → Bool) (d : Dev) : Bool := (headCommand d).any (fun c => f c.2.code)

/-- The take of the command at the head (R188). -/
def commandTake (f : Dev → Layout → MaintCell → Dev) (d : Dev) : Dev :=
  match headCommand d with
  | some (l, c) => f (maintBegin (popNotice d)) l c
  | none => d

/-- R44. -/
def execSnapshot (s : State) : Host.Outcome State Fault Refusal := s.fire (commandIs (· == 1)) (commandTake takeSnapshot)

/-- R48. -/
def execPortReset (s : State) : Host.Outcome State Fault Refusal := s.fire (commandIs (· == 2)) (commandTake takePortReset)

/-- R45. -/
def execPatternStart (s : State) : Host.Outcome State Fault Refusal :=
  s.fire (commandIs (· == 3)) (commandTake takePatternStart)

/-- R47. -/
def execPatternStop (s : State) : Host.Outcome State Fault Refusal :=
  s.fire (commandIs (· == 4)) (commandTake takePatternStop)

/-- R46. -/
def execErrorInsert (s : State) : Host.Outcome State Fault Refusal :=
  s.fire (commandIs (· == 5)) (commandTake takeErrorInsert)

/-- R146. -/
def execRereference (s : State) : Host.Outcome State Fault Refusal :=
  s.fire (commandIs (· == 6)) (commandTake takeRereference)

/-- R207. -/
def execFlashRead (s : State) : Host.Outcome State Fault Refusal :=
  s.fire (commandIs (· == 7)) (commandTake (fun d l c => takeFlash d l .read c))

/-- R208. -/
def execFlashWrite (s : State) : Host.Outcome State Fault Refusal :=
  s.fire (commandIs (· == 8)) (commandTake (fun d l c => takeFlash d l .write c))

/-- R209. -/
def execFlashErase (s : State) : Host.Outcome State Fault Refusal :=
  s.fire (commandIs (· == 9)) (commandTake (fun d l c => takeFlash d l .erase c))

/-- R188. -/
def execBadCommand (s : State) : Host.Outcome State Fault Refusal :=
  s.fire (commandIs (fun k => k == 0 || decide (9 < k)))
    (commandTake (fun d l c => completeMaint d l.maint c.tag .badCommand))

/-- R188: the unit is BUSY or the state is not POSTED. -/
def execMaintNoticeNoAction (s : State) : Host.Outcome State Fault Refusal :=
  s.fire (fun d => headNotice d == some .maint && (headCommand d).isNone) popNotice

end Sys2Proof.Machine
end

