-- ==== Sys2Proof/Machine/ExecAudio.lean ====
section
/-! DEFINITION. Machine/ExecAudio.lean: the commands of the audio fetch, the lines and the donor inputs. -/

namespace Sys2Proof.Machine

open Sys2Proof

/-- R126, R130, R131. -/
def execPlayInstant (source : Fin 8) (s : State) : Host.Outcome State Fault Refusal :=
  s.fire (fun d => (d.source source).inService && decide ((d.source source).playDue ≤ d.now))
    (fun d => playInstant d source)

/-- R129. AUD0 belongs to S1, AUD1 to S2. -/
def execAudSampleArrival (input : Fin 2) (value : BitVec 16) (s : State) : Host.Outcome State Fault Refusal :=
  s.fire (fun _ => true) (fun d => lineSample d ⟨input.val + 1, by omega⟩ value)

/-- The block read in flight of a SHARED service ends (R127). -/
def sharedBlock (d : Dev) (n : Fin 8) : Dev :=
  let c := d.source n
  match c.origin with
  | some (.shared a _) => clipArrived d n (samplesOf (d.smc.mem.readN (a + 2 * c.fetchPos) (2 * c.onWay)))
  | some .none | some (.flash _ _) | some .line | none => d

/-- R127. -/
def execSharedClipBlockDone (source : Fin 8) (s : State) : Host.Outcome State Fault Refusal :=
  s.fire (fun d => (d.source source).inService && decide (0 < (d.source source).onWay)) (fun d => sharedBlock d source)

/-- The source of a line: ALARM S0, TALK0 S1, TALK1 S2. -/
def lineSource (i : Fin 3) : Fin 8 := ⟨i.val, by omega⟩

/-- A line takes a new level, which its source's cell shows (R135). -/
def setLine (d : Dev) (i : Fin 3) (v : Bool) : Dev :=
  publishPending { d with bic := { d.bic with lines := d.bic.lines.set i v } } (lineSource i)

/-- R112 to R114; through BOOTING an edge makes no request (R137). -/
def execLineRisingEdge (line : Fin 3) (s : State) : Host.Outcome State Fault Refusal :=
  s.fire (fun d => !d.bic.lines.get line)
    (fun d =>
      let d := setLine d line true
      if d.smc.state = .booting then d else lineRise d (lineSource line))

/-- R112, R114, R132, R133; through BOOTING an edge only moves the level (R137). -/
def execLineFallingEdge (line : Fin 3) (s : State) : Host.Outcome State Fault Refusal :=
  s.fire (fun d => d.bic.lines.get line)
    (fun d =>
      let d := setLine d line false
      if d.smc.state = .booting then d else lineFall d (lineSource line))

/-- R1, R91 to R100. -/
def execDonorSample (di0 di1 : Sample) (s : State) : Host.Outcome State Fault Refusal :=
  s.fire (fun _ => true) (fun d => donorSample d di0 di1)

end Sys2Proof.Machine
end

