-- ==== Sys2Proof/Machine/ExecFlash.lean ====
section
/-! DEFINITION. Machine/ExecFlash.lean: the ends of the flash transactions (09). Each acts on the transaction that holds the
port. A transaction of a discarded boot frees the port and records nothing (R196). -/

namespace Sys2Proof.Machine

open Sys2Proof

/-- A boot transaction on the port ends: discarded, or handed to the boot in progress (R196). -/
def bootEnds (d : Dev) (h : Holder) (f : BootRec → Dev) : Dev :=
  if h.discard then freePort d
  else
    match d.fb.boot with
    | some b => f b
    | none => freePort d

/-- A program or erase on the port ends with its busy bit clear (R195, R208, R209). -/
def busyClear (d : Dev) (t : Txn) : Dev :=
  match t, flashJob d with
  | .program off data _, some j => programDone d j off data
  | .erase off _, some j => eraseDone d j off
  | _, _ => d

/-- A status read ends: that of a boot, or one of a program or erase, which ends when the busy bit is clear (R195, R197). -/
def statusDone (d : Dev) (status : Byte) : Dev :=
  match d.fb.holder with
  | none => d
  | some h =>
    match h.txn with
    | .bootStatus => bootEnds d h (fun b => bootStatusDone d b status)
    | .program _ _ _ | .erase _ _ => if status.getLsbD 0 then d else busyClear d h.txn
    | .bootIdent | .bootHeader | .bootRecord _ | .bootDirectory | .clip _ _ | .maintRead _ _ _ | .reload => d

/-- The transaction on the port. -/
def onPort (d : Dev) : Option Txn := d.fb.holder.map Holder.txn

def isStatusPort (d : Dev) : Bool :=
  (onPort d).any (fun t => t == .bootStatus || t.writes)

/-- R195, R197. -/
def execFlashStatusReadDone (status : Byte) (s : State) : Host.Outcome State Fault Refusal :=
  s.fire isStatusPort (fun d => statusDone d status)

/-- R197. The capacity code is the third byte (R195). -/
def execFlashIdentReadDone (_b0 _b1 b2 : Byte) (s : State) : Host.Outcome State Fault Refusal :=
  s.fire (fun d => onPort d == some .bootIdent)
    (fun d => match d.fb.holder with
      | some h => bootEnds d h (fun b => bootIdentDone d b b2)
      | none => d)

/-- R198, R199. -/
def execBootHeaderReadDone (s : State) : Host.Outcome State Fault Refusal :=
  s.fire (fun d => onPort d == some .bootHeader)
    (fun d => match d.fb.holder with
      | some h => bootEnds d h (fun b => bootHeaderDone d b)
      | none => d)

/-- The boot record read on the port. -/
def recordOnPort (d : Dev) : Option Nat :=
  match onPort d with
  | some (.bootRecord n) => some n
  | _ => none

/-- R200, R201. -/
def execBootRecord (s : State) : Host.Outcome State Fault Refusal :=
  s.fire (fun d => (recordOnPort d).isSome)
    (fun d => match d.fb.holder, recordOnPort d with
      | some h, some n => bootEnds d h (fun b => bootRecordDone d b n)
      | _, _ => d)

/-- R202, R204. -/
def execBootDirectoryReadDone (s : State) : Host.Outcome State Fault Refusal :=
  s.fire (fun d => onPort d == some .bootDirectory)
    (fun d => match d.fb.holder with
      | some h => bootEnds d h (fun b => bootDirectoryDone d b)
      | none => d)

/-- The clip read on the port. -/
def clipOnHold (d : Dev) : Option (Fin 8 × ClipRead × Bool) :=
  match d.fb.holder with
  | some ⟨.clip n r, disc⟩ => some (n, r, disc)
  | _ => none

/-- R206. -/
def execClipReadDone (s : State) : Host.Outcome State Fault Refusal :=
  s.fire (fun d => (clipOnHold d).isSome)
    (fun d => match clipOnHold d with
      | some (n, r, disc) => clipDone d n r disc
      | none => d)

/-- R207. -/
def execFlashReadDataDone (s : State) : Host.Outcome State Fault Refusal :=
  s.fire (fun d => (onPort d).any (fun t => match t with
      | .maintRead _ _ _ => true
      | _ => false))
    (fun d => match onPort d, flashJob d with
      | some (.maintRead off addr n), some j => maintReadDone d j off addr n
      | _, _ => d)

/-- R208. -/
def execPageProgramDone (s : State) : Host.Outcome State Fault Refusal :=
  s.fire (fun d => (onPort d).any (fun t => match t with
      | .program _ _ _ => true
      | _ => false))
    (fun d => match onPort d, flashJob d with
      | some (.program off data _), some j => programDone d j off data
      | _, _ => d)

/-- R209. -/
def execSectorEraseDone (s : State) : Host.Outcome State Fault Refusal :=
  s.fire (fun d => (onPort d).any (fun t => match t with
      | .erase _ _ => true
      | _ => false))
    (fun d => match onPort d, flashJob d with
      | some (.erase off _), some j => eraseDone d j off
      | _, _ => d)

/-- The program or erase on the port that is past its time (R209). -/
def timedOutOnPort (d : Dev) : Option Txn :=
  (onPort d).filter (fun t => match t with
    | .program _ _ due | .erase _ due => decide (due ≤ d.now)
    | _ => false)

/-- R209. -/
def execFlashTimeout (s : State) : Host.Outcome State Fault Refusal :=
  s.fire (fun d => (timedOutOnPort d).isSome)
    (fun d => match timedOutOnPort d, flashJob d with
      | some t, some j => flashTimedOut d j t
      | _, _ => d)

/-- R210. -/
def execDirectoryReloadDone (s : State) : Host.Outcome State Fault Refusal :=
  s.fire (fun d => onPort d == some .reload)
    (fun d => match flashJob d with
      | some j => reloadDone d j
      | none => d)

end Sys2Proof.Machine
end

