-- ==== Sys2Proof/Machine/ExecLink.lean ====
section
/-! DEFINITION. Machine/ExecLink.lean: the commands of the link ports, the upstream messages and the timers. -/

namespace Sys2Proof.Machine

open Sys2Proof

/-! ### Ports -/

/-- R20, R27, R30, R46. -/
def execFrameLaunch (s : State) : Host.Outcome State Fault Refusal :=
  s.fire (fun d => decide (d.lp.frameDue ≤ d.now)) launchFrames

/-- R22, R23. -/
def execAlignmentWord (port : Fin 4) (good : Bool) (s : State) : Host.Outcome State Fault Refusal :=
  s.fire (fun _ => true) (fun d => alignmentWord d port good)

/-- R22. -/
def execLightAndLock (port : Fin 4) (s : State) : Host.Outcome State Fault Refusal :=
  s.fire (fun d => decide ((d.port port).state = .dark)) (fun d => portMoves d port .aligning)

/-- R22, R23. -/
def execLossOfLightOrLock (port : Fin 4) (s : State) : Host.Outcome State Fault Refusal :=
  s.fire (fun d => decide ((d.port port).state ≠ .dark)) (fun d => lightLost d port)

/-- R22, R43. -/
def execCodeViolation (port : Fin 4) (s : State) : Host.Outcome State Fault Refusal :=
  s.fire (fun d => decide ((d.port port).state ≠ .dark)) (fun d => countCodeViolation d port)

/-- R24, R25. -/
def execUplinkWordArrival (port : Fin 4) (word : List Sample) (s : State) : Host.Outcome State Fault Refusal :=
  s.fire (fun d => decide ((d.port port).state = .running)) (fun d => wordArrives d port word)

/-- R24, R15, R16, R152, R153. -/
def execFifoRead (s : State) : Host.Outcome State Fault Refusal :=
  s.fire (fun d => decide (d.lp.readDue ≤ d.now)) readInstant

/-! ### Upstream messages (R21) -/

/-- R31. -/
def execEcho (remote : Fin 32) (seq : BitVec 8) (turnaround : BitVec 16) (s : State) : Host.Outcome State Fault Refusal :=
  s.fire (fun d => heard d remote) (fun d => echoTaken (validMessage d remote) remote seq turnaround)

/-- R28. -/
def execAck (remote : Fin 32) (kind key : Byte) (seq : BitVec 6) (s : State) : Host.Outcome State Fault Refusal :=
  s.fire (fun d => heard d remote) (fun d => ackTaken (validMessage d remote) remote kind key seq)

/-- R154. -/
def execQuality (remote : Fin 32) (slot : Fin 8) (q : Byte) (s : State) : Host.Outcome State Fault Refusal :=
  s.fire (fun d => heard d remote)
    (fun d => (validMessage d remote).setVoter slot (fun v => { v with cur := v.cur.set remote (some q.toNat) }))

/-- R42. -/
def execAlarm (remote : Fin 32) (paFault overTemp : Bool) (s : State) : Host.Outcome State Fault Refusal :=
  s.fire (fun d => heard d remote) (fun d => alarmTaken (validMessage d remote) remote paFault overTemp)

/-- R46. -/
def execPcount (remote : Fin 32) (value : BitVec 16) (s : State) : Host.Outcome State Fault Refusal :=
  s.fire (fun d => heard d remote) (fun d => pcountTaken (validMessage d remote) remote value)

/-- R21, R40. -/
def execControlCheckFailure (remote : Fin 32) (s : State) : Host.Outcome State Fault Refusal :=
  s.fire (fun d => heard d remote) (fun d => checkFailure d remote)

/-! ### Timers -/

/-- R29. -/
def execAckTimerExpiry (remote : Fin 32) (id : MsgId) (s : State) : Host.Outcome State Fault Refusal :=
  s.fire (fun d => (entryOf (d.remote remote).queue id).any (fun e => dueNow d e.ackDue)) (fun d => ackExpiry d remote id)

/-- R30. -/
def execNextMarkOffer (remote : Fin 32) (s : State) : Host.Outcome State Fault Refusal :=
  s.fire (fun d => dueNow d (d.remote remote).markDue)
    (fun d => offer (d.setRemote remote (fun m => { m with markDue := none })) remote .mark)

/-- R30, R31. -/
def execMarkerRecordExpiry (remote : Fin 32) (s : State) : Host.Outcome State Fault Refusal :=
  s.fire (fun d => dueNow d ((d.remote remote).record.map (fun r => r.launch + Config.markerFast)))
    (fun d => markerMiss (d.setRemote remote (fun m => { m with record := none })) remote)

/-- R39. -/
def execSilenceTimerExpiry (remote : Fin 32) (s : State) : Host.Outcome State Fault Refusal :=
  s.fire (fun d => dueNow d (d.remote remote).silenceDue && (d.remote remote).present)
    (fun d => loseRemotes d .lost [remote])

/-- R38. -/
def execJoinTimerExpiry (remote : Fin 32) (s : State) : Host.Outcome State Fault Refusal :=
  s.fire (fun d => dueNow d (d.remote remote).joinDue && decide ((d.remote remote).state = .joining))
    (fun d => setLatch (joinStart d remote) (remoteCell remote) latchJoinSlow)

/-- R40. -/
def execSupervisionWindowClose (s : State) : Host.Outcome State Fault Refusal :=
  s.fire (fun d => decide (d.rs.superDue ≤ d.now)) superviseAll

/-- R7, R10. -/
def execLevelWindowClose (s : State) : Host.Outcome State Fault Refusal :=
  s.fire (fun d => decide (d.lm.windowDue ≤ d.now)) windowClose

/-- R60, R61. -/
def execStagingTimerExpiry (s : State) : Host.Outcome State Fault Refusal :=
  s.fire (fun d => decide (d.rp.phase = .staging) && decide (d.rp.stagingDue ≤ d.now))
    (fun d => exchangeSettle (switchEvent d))

/-- R156. -/
def execVotingFrameEnd (slot : Fin 8) (s : State) : Host.Outcome State Fault Refusal :=
  s.fire (fun d => decide ((d.voter slot).due ≤ d.now)) (fun d => frameEnd d slot)

/-- R124. -/
def execReachSettleExpiry (source : Fin 8) (s : State) : Host.Outcome State Fault Refusal :=
  s.fire (fun d => dueNow d (d.source source).settleDue)
    (fun d =>
      let d := d.setSource source (fun c => { c with settleDue := none, settled := true })
      if (d.source source).unreached = 0 then d else setLatch d (sourceCell source) latchPartial)

end Sys2Proof.Machine
end

