-- ==== Sys2Proof/Machine/Dispatch.lean ====
section
/-! DEFINITION. Machine/Dispatch.lean: one arm per command, each a call of its meaning. -/

namespace Sys2Proof.Machine

open Sys2Proof

/-- The effect of a command on everything but the queue. -/
def exec (i : Instr) (s : State) : Host.Outcome State Fault Refusal :=
  match i with
  | .powerOnReset => Sys2Proof.Machine.execPowerOnReset s
  | .pcieLinkLoss => Sys2Proof.Machine.execPcieLinkLoss s
  | .pcieLinkReturn => Sys2Proof.Machine.execPcieLinkReturn s
  | .hostMemoryWrite addr data => Sys2Proof.Machine.execHostMemoryWrite addr data s
  | .ieWrite ie => Sys2Proof.Machine.execIeWrite ie s
  | .start ie => Sys2Proof.Machine.execStart ie s
  | .softReset ie scope => Sys2Proof.Machine.execSoftReset ie scope s
  | .registerWriteIgnored offset value => Sys2Proof.Machine.execRegisterWriteIgnored offset value s
  | .revisionNoticeTake => Sys2Proof.Machine.execRevisionNoticeTake s
  | .cue => Sys2Proof.Machine.execCue s
  | .cancel => Sys2Proof.Machine.execCancel s
  | .cueCellNoAction => Sys2Proof.Machine.execCueCellNoAction s
  | .clearOnes => Sys2Proof.Machine.execClearOnes s
  | .snapshot => Sys2Proof.Machine.execSnapshot s
  | .portReset => Sys2Proof.Machine.execPortReset s
  | .patternStart => Sys2Proof.Machine.execPatternStart s
  | .patternStop => Sys2Proof.Machine.execPatternStop s
  | .errorInsert => Sys2Proof.Machine.execErrorInsert s
  | .rereference => Sys2Proof.Machine.execRereference s
  | .flashRead => Sys2Proof.Machine.execFlashRead s
  | .flashWrite => Sys2Proof.Machine.execFlashWrite s
  | .flashErase => Sys2Proof.Machine.execFlashErase s
  | .badCommand => Sys2Proof.Machine.execBadCommand s
  | .maintNoticeNoAction => Sys2Proof.Machine.execMaintNoticeNoAction s
  | .frameLaunch => Sys2Proof.Machine.execFrameLaunch s
  | .alignmentWord port good => Sys2Proof.Machine.execAlignmentWord port good s
  | .lightAndLock port => Sys2Proof.Machine.execLightAndLock port s
  | .lossOfLightOrLock port => Sys2Proof.Machine.execLossOfLightOrLock port s
  | .codeViolation port => Sys2Proof.Machine.execCodeViolation port s
  | .uplinkWordArrival port word => Sys2Proof.Machine.execUplinkWordArrival port word s
  | .fifoRead => Sys2Proof.Machine.execFifoRead s
  | .echo remote seq turnaround => Sys2Proof.Machine.execEcho remote seq turnaround s
  | .ack remote kind key seq => Sys2Proof.Machine.execAck remote kind key seq s
  | .quality remote slot q => Sys2Proof.Machine.execQuality remote slot q s
  | .alarm remote paFault overTemp => Sys2Proof.Machine.execAlarm remote paFault overTemp s
  | .pcount remote value => Sys2Proof.Machine.execPcount remote value s
  | .controlCheckFailure remote => Sys2Proof.Machine.execControlCheckFailure remote s
  | .ackTimerExpiry remote id => Sys2Proof.Machine.execAckTimerExpiry remote id s
  | .nextMarkOffer remote => Sys2Proof.Machine.execNextMarkOffer remote s
  | .markerRecordExpiry remote => Sys2Proof.Machine.execMarkerRecordExpiry remote s
  | .silenceTimerExpiry remote => Sys2Proof.Machine.execSilenceTimerExpiry remote s
  | .joinTimerExpiry remote => Sys2Proof.Machine.execJoinTimerExpiry remote s
  | .supervisionWindowClose => Sys2Proof.Machine.execSupervisionWindowClose s
  | .levelWindowClose => Sys2Proof.Machine.execLevelWindowClose s
  | .stagingTimerExpiry => Sys2Proof.Machine.execStagingTimerExpiry s
  | .votingFrameEnd slot => Sys2Proof.Machine.execVotingFrameEnd slot s
  | .reachSettleExpiry source => Sys2Proof.Machine.execReachSettleExpiry source s
  | .playInstant source => Sys2Proof.Machine.execPlayInstant source s
  | .audSampleArrival input value => Sys2Proof.Machine.execAudSampleArrival input value s
  | .sharedClipBlockDone source => Sys2Proof.Machine.execSharedClipBlockDone source s
  | .lineRisingEdge line => Sys2Proof.Machine.execLineRisingEdge line s
  | .lineFallingEdge line => Sys2Proof.Machine.execLineFallingEdge line s
  | .flashStatusReadDone status => Sys2Proof.Machine.execFlashStatusReadDone status s
  | .flashIdentReadDone b0 b1 b2 => Sys2Proof.Machine.execFlashIdentReadDone b0 b1 b2 s
  | .bootHeaderReadDone => Sys2Proof.Machine.execBootHeaderReadDone s
  | .bootRecord => Sys2Proof.Machine.execBootRecord s
  | .bootDirectoryReadDone => Sys2Proof.Machine.execBootDirectoryReadDone s
  | .clipReadDone => Sys2Proof.Machine.execClipReadDone s
  | .flashReadDataDone => Sys2Proof.Machine.execFlashReadDataDone s
  | .pageProgramDone => Sys2Proof.Machine.execPageProgramDone s
  | .sectorEraseDone => Sys2Proof.Machine.execSectorEraseDone s
  | .flashTimeout => Sys2Proof.Machine.execFlashTimeout s
  | .directoryReloadDone => Sys2Proof.Machine.execDirectoryReloadDone s
  | .donorSample di0 di1 => Sys2Proof.Machine.execDonorSample di0 di1 s

end Sys2Proof.Machine
end

