-- ==== Sys2Proof/Machine/Step.lean ====
section
/-! DEFINITION. Machine/Step.lean: one step takes the command at the front of the queue; on an empty queue the clock ticks
and the timers that fall due give their commands (log 1). -/

namespace Sys2Proof.Machine

open Sys2Proof

/-! ### What falls due at a tick (log 1) -/

def whenDue (b : Bool) (c : Instr) : List Instr := if b then [c] else []

/-- Timers of one remote that are due, its next MARK apart: ACK timers, then the marker record, silence and join (02). -/
def remoteDue (d : Dev) (r : Fin 32) : List Instr :=
  let m := d.remote r
  (m.queue.filter (fun e => dueNow d e.ackDue)).map (fun e => .ackTimerExpiry r e.msg.id) ++
    whenDue (dueNow d (m.record.map (fun k => k.launch + Config.markerFast))) (.markerRecordExpiry r) ++
    whenDue (dueNow d m.silenceDue) (.silenceTimerExpiry r) ++ whenDue (dueNow d m.joinDue) (.joinTimerExpiry r)

/-- Timers of one source that are due (06). -/
def sourceDue (d : Dev) (n : Fin 8) : List Instr :=
  let c := d.source n
  whenDue (dueNow d c.settleDue) (.reachSettleExpiry n) ++
    whenDue (c.inService && decide (c.playDue ≤ d.now)) (.playInstant n)

/-- The page program or sector erase on the port is past its time (R209). -/
def flashDue (d : Dev) : Bool :=
  match d.fb.holder with
  | some ⟨.program _ _ due, _⟩ | some ⟨.erase _ due, _⟩ => decide (due ≤ d.now)
  | _ => false

/-- The commands of the timers that are due, in a fixed order (log 1). The MARKs due at a tick are offered before its frame
launches, so that markers leave every 10 ms or 100 ms: whole numbers of frames (R30, R35). -/
def dueCommands (d : Dev) : List Instr :=
  whenDue (decide (d.lp.readDue ≤ d.now)) .fifoRead ++
    (allFin 32).flatMap (fun r => whenDue (dueNow d (d.remote r).markDue) (.nextMarkOffer r)) ++
    whenDue (decide (d.lp.frameDue ≤ d.now)) .frameLaunch ++
    whenDue (decide (d.lm.windowDue ≤ d.now)) .levelWindowClose ++
    whenDue (decide (d.rs.superDue ≤ d.now)) .supervisionWindowClose ++
    whenDue (decide (d.rp.phase = .staging) && decide (d.rp.stagingDue ≤ d.now)) .stagingTimerExpiry ++
    (allFin 8).flatMap (fun e => whenDue (decide ((d.voter e).due ≤ d.now)) (.votingFrameEnd e)) ++
    (allFin 32).flatMap (remoteDue d) ++ (allFin 8).flatMap (sourceDue d) ++ whenDue (flashDue d) .flashTimeout

/-- One tick of the reference clock. -/
def tick (s : State) : State :=
  let d := { s.dev with now := s.dev.now + 1 }
  ⟨d, dueCommands d⟩

/-- One step of the machine. -/
def step (s : State) : Host.Outcome State Fault Refusal :=
  match s.pending with
  | [] => .next (tick s)
  | c :: rest => exec c { s with pending := rest }

/-- The command that a table word spells put in front; the table gives no row any bits, so nothing changes (log 7). -/
def State.withFetchWord (s : State) (nbits w : Nat) : State :=
  match decodeTableWord nbits w with
  | some c => { s with pending := c :: s.pending }
  | none => s

end Sys2Proof.Machine
end

