-- ==== Sys2Proof/Safety.lean ====
section
/-! DEFINITION. Safety.lean: what every state of a run keeps, and the frames, in the terms the statements use. -/

namespace Sys2Proof.Machine

open Sys2Proof

/-! ### Invariants -/

/-- Shared memory and flash contents are in canonical form (logs 3, 4). -/
def MemoryInv (d : Dev) : Prop := d.smc.mem.wf ∧ bytesWf flashBlank d.fb.chip

/-- A status cell's news bit is set exactly when the SMC's record of its latch word is nonzero (R182). -/
def NewsInv (d : Dev) : Prop := ∀ i, d.smc.news.get i = true ↔ d.smc.latches.get i ≠ 0

/-- The notice queue holds at most one notice per cell (R179). -/
def NoticeInv (d : Dev) : Prop := d.smc.notices.Nodup

/-- No BIM serves a pair whose source is out of service or whose service does not cover the programme, and no two serve
one pair (R96, R121, R122). -/
def BimInv (d : Dev) : Prop :=
  (∀ m n p, (d.bim m).pair = some (n, p) → (d.source n).inService = true ∧ (d.source n).progs.getLsbD p.val = true) ∧
    ∀ m k q, (d.bim m).pair = some q → (d.bim k).pair = some q → m = k

/-- While a pair of a running service and a programme it covers holds no BIM, no BIM is FREE and none is held by a source of lower
priority, the higher number (R121, R122). -/
def BimsAllotted (d : Dev) : Prop :=
  ∀ n p, (d.source n).inService = true → (d.source n).progs.getLsbD p.val = true → (∀ m, (d.bim m).pair ≠ some (n, p)) →
    ∀ m, ∃ k q, (d.bim m).pair = some (k, q) ∧ k ≤ n

/-- Every link counter is at most 65535 (R43). -/
def CounterInv (d : Dev) : Prop :=
  (∀ x, (d.port x).codeViol ≤ 65535 ∧ (d.port x).alignLoss ≤ 65535 ∧ (d.port x).slips ≤ 65535) ∧
    ∀ r, (d.remote r).checkFails ≤ 65535 ∧ (d.remote r).misses ≤ 65535 ∧ (d.remote r).patErrs ≤ 65535

/-- No elastic FIFO holds more than 64 words (R24). -/
def FifoInv (d : Dev) : Prop := ∀ x, (d.port x).fifo.length ≤ 64

/-- A channel table whose slots are each OFF or of the kind of their range (R3). -/
def LegalKinds (t : Tab 40 ChanEntry) : Prop := ∀ s, (t.get s).kind = .off ∨ (t.get s).kind = slotRange s

/-- The working channel table has legal kinds, and so has one that a boot has checked and not switched to yet (R3, R201). -/
def ChannelInv (d : Dev) : Prop :=
  LegalKinds d.lm.chan ∧ ∀ b c, d.fb.boot = some b → b.checked = some c → LegalKinds c.chan

/-- Every class step is one of the steps 0 to 47 (R73). -/
def StepInv (d : Dev) : Prop := ∀ r, (d.budget r).progStep ≤ 47 ∧ (d.budget r).carStep ≤ 47

/-- A layout in use has passed the area checks of the anchor (R173). -/
def LayoutInv (d : Dev) : Prop :=
  ∀ l, d.smc.layout = some l → areaCheck l.areas = none ∧ anyMeet ((0, 4096) :: l.areas) = false

/-- A control queue holds at most one entry of a kind and key (R26). -/
def QueueInv (d : Dev) : Prop := ∀ r, ((d.remote r).queue.map (fun y => y.msg.id)).Nodup

/-- No version request waits while a lane of its port's pool is FREE or holds the pattern (R66, R67). -/
def PoolInv (d : Dev) : Prop :=
  ∀ x, (d.pool x).waiting ≠ [] → ∀ i, (d.pool x).lanes.get i ≠ .free ∧ (d.pool x).lanes.get i ≠ .pattern

/-- The state conditions of R155 for a remote in the voter of rescue slot `8 + k`. -/
def selectable (d : Dev) (k : Fin 8) (r : Fin 32) : Prop :=
  (d.remote r).state = .inService ∧ (d.route (rescueSlot k) r).routed = true ∧ (d.route (rescueSlot k) r).uplink = true ∧
    (d.hold r).late = false ∧ (d.port (portOf r)).state = .running ∧ (d.port (portOf r)).near = false

/-- The selected remote of a voter, when there is one, meets the state conditions (R160). -/
def VoterInv (d : Dev) : Prop := ∀ k r, (d.voter k).sel = some r → selectable d k r

/-- A remote in service or joining behind its delay lock holds; the hold of a holding remote is T_ref - d, or OFF with the LATE
mark where d exceeds T_ref, both at most 65535; no other remote is LATE (R147, R148, R151). -/
def HoldInv (d : Dev) : Prop :=
  d.sru.tRef ≤ 65535 ∧ ∀ r,
    let m := d.remote r
    let h := d.hold r
    m.d ≤ 65535 ∧ (m.serving = true ∨ m.state = .joining ∧ m.locked = true → h.holding = true) ∧
      (h.holding = true → (m.d ≤ d.sru.tRef → h.hold = some (.ticks (d.sru.tRef - m.d)) ∧ h.late = false) ∧
        (d.sru.tRef < m.d → h.hold = some .off ∧ h.late = true)) ∧
      (h.holding = false → h.late = false)

/-- A remote that forms the candidate: in service with a rescue route (R143). -/
def formsCandidate (d : Dev) (r : Fin 32) : Prop :=
  (d.remote r).serving = true ∧ ∃ x : Fin 40, 8 ≤ x.val ∧ x.val < 16 ∧ (d.route x r).routed = true

/-- `n` is the value T_ref would take at a re-reference made now: the largest of min(65535, d + guard) over the remotes that
form the candidate, T_ref itself when there is none (R143). -/
def IsCandidate (d : Dev) (n : Nat) : Prop :=
  let value := fun r => min 65535 ((d.remote r).d + d.sru.guardTicks)
  ((∀ r, ¬ formsCandidate d r) → n = d.sru.tRef) ∧ (∀ r, formsCandidate d r → value r ≤ n) ∧
    ((∃ r, formsCandidate d r) → ∃ r, formsCandidate d r ∧ n = value r)

/-- The keyed record follows the keying of the rescue slots, and T_ref is the candidate while no slot is KEYED (R142, R144). -/
def ReferenceInv (d : Dev) : Prop :=
  (∀ k, d.sru.keyed.get k = (d.slot (rescueSlot k)).on) ∧
    ((∀ k, d.sru.keyed.get k = false) → IsCandidate d d.sru.tRef)

/-- Through BOOTING no source is in service or holds a request or a cancel hold (R136, R137). -/
def BootingInv (d : Dev) : Prop :=
  d.smc.state = .booting → ∀ n, (d.source n).inService = false ∧ (d.source n).isPending = false ∧
    (d.source n).cancelHold = false

/-! ### Frames -/

/-- The blocks of the 2780 as State holds them (00 section 1.3), and the model's clock and counters. -/
inductive Block where
  | clock | hp | smc | lm | lp | rs | rp | lbu | pm | bic | sru | uv | fb
deriving DecidableEq, Repr

/-- Two devices agree in a block. -/
def Dev.agree (d e : Dev) (b : Block) : Prop :=
  match b with
  | .clock => d.now = e.now ∧ d.eventNo = e.eventNo ∧ d.freeNo = e.freeNo
  | .hp => d.hp = e.hp
  | .smc => d.smc = e.smc
  | .lm => d.lm = e.lm
  | .lp => d.lp = e.lp
  | .rs => d.rs = e.rs
  | .rp => d.rp = e.rp
  | .lbu => d.lbu = e.lbu
  | .pm => d.pm = e.pm
  | .bic => d.bic = e.bic
  | .sru => d.sru = e.sru
  | .uv => d.uv = e.uv
  | .fb => d.fb = e.fb

/-- Nothing differs but in the blocks listed. -/
def Only (bs : List Block) (d e : Dev) : Prop := ∀ b, b ∉ bs → d.agree e b

/-- The device at its next event (log 2). -/
def Dev.event (d : Dev) : Dev := { d with eventNo := d.eventNo + 1 }

/-- A command answers a next state whose queue is as it was and whose device is as `P` says. -/
def Completes (c : Instr) (s : State) (P : Dev → Prop) : Prop :=
  ∃ t, exec c s = .next t ∧ t.pending = s.pending ∧ P t.dev

/-- The working tables but the channel and route tables, and the record that ALARM's requests are masked (log 50). -/
def Dev.tables (d : Dev) :
    Tab 32 RemoteEntry × Tab 8 ProgEntry × Bool × Tab 8 SrcEntry × Nat × Tab 8 RescueEntry × Bool :=
  (d.rp.remoteTab, d.pm.table, d.bic.master, d.bic.table, d.sru.guardTicks, d.sru.table, d.bic.alarmMasked)

/-- The record that ALARM's requests are masked, after a source table has switched: a table with line use for S0, or with S0
enabled under an enabled master, ends it (R136; log 50). -/
def alarmAfter (d : Dev) (master : Bool) (t : Tab 8 SrcEntry) : Bool :=
  decide (d.bic.alarmMasked = true ∧ (t.get 0).lineUse = false ∧ ((t.get 0).enabled = false ∨ master = false))

/-- Bytes that blocks write while the layout stands: the status cells, the news bitmap, and the result of the maintenance
command in flight (R182, R189, R214). -/
def partArea (d : Dev) (a : Nat) : Prop :=
  (∃ l, d.smc.layout = some l ∧
    ((l.status ≤ a ∧ a < l.status + 5440) ∨ (l.news ≤ a ∧ a < l.news + 12))) ∨
  ∃ j, d.smc.job = some j ∧ j.addr ≤ a ∧ a < j.addr + 16

/-- No byte of shared memory differs outside the part's own bytes. -/
def KeepsHostBytes (d e : Dev) : Prop := ∀ a, ¬ partArea d a → e.smc.mem.read a = d.smc.mem.read a

/-- The bytes of a status cell and of its word of the news bitmap. -/
def cellBytes (l : Layout) (i : Fin 85) (a : Nat) : Prop :=
  (statusAddr l i ≤ a ∧ a < statusAddr l i + 64) ∨
    (l.news + 4 * (i.val / 32) ≤ a ∧ a < l.news + 4 * (i.val / 32) + 4)

/-- `e` is `d` but for what status cells listed show: their bytes, latch words, clear masks and news, and the count of
interrupt messages; and it is `d` when the part is not LINKED (R17, R182, R183, R214). -/
structure ShownOnly (cells : List (Fin 85)) (d e : Dev) : Prop where
  rest : e = { d with
    hp := { d.hp with messages := e.hp.messages },
    smc := { d.smc with mem := e.smc.mem, latches := e.smc.latches, masks := e.smc.masks, news := e.smc.news } }
  others : ∀ i, i ∉ cells → e.smc.latches.get i = d.smc.latches.get i ∧ e.smc.masks.get i = d.smc.masks.get i ∧
    e.smc.news.get i = d.smc.news.get i
  bytes : ∀ a, (∀ l, d.smc.layout = some l → ∀ i ∈ cells, ¬ cellBytes l i a) → e.smc.mem.read a = d.smc.mem.read a
  idle : d.linked = false → e = d

/-- The latch words after the latch bit `b` of cell `i` is set: nothing while the part is not LINKED (R17, R181). -/
def latchesAfter (d : Dev) (i : Fin 85) (b : Fin 32) : Tab 85 (BitVec 32) :=
  if d.linked then d.smc.latches.set i (d.smc.latches.get i ||| latchBit b) else d.smc.latches

/-- What the start of a join leaves (R34): the remote's record as the rule lists it, with a MARK alone in its queue and every
other field kept, no test to the remote, no voter that selects it (R158), and STATE_CHANGE for a remote that was not JOINING;
other remotes keep their states. That the time set for the next MARK is cleared is the model's reading (log 14). -/
structure JoinStarts (d : Dev) (r : Fin 32) (e : Dev) : Prop where
  record : e.remote r = { d.remote r with
    state := .joining, queue := [⟨.mark, d.eventNo + 1, false, 0, none, none⟩], record := none, markDue := none
    lockRun := [], locked := false, joinSwitch := false, moveRun := 0
    joinDue := some (d.now + 49152000), silenceDue := some (d.now + 1228800) }
  test : ∀ t, d.rs.test = some t → t.remote = r → e.rs.test = none
  latched : d.linked = true → (d.remote r).state ≠ .joining → (e.smc.latches.get (remoteCell r)).getLsbD 0 = true
  voters : ∀ k, (e.voter k).sel ≠ some r
  others : ∀ y, y ≠ r → (e.remote y).state = (d.remote y).state

/-! ### Switches of the channel and remote tables -/

/-- Two channel entries have one tuning: the fields whose difference is a retune or a kind change (R5). -/
def oneTuning (a b : ChanEntry) : Prop :=
  a.kind = b.kind ∧ a.donor = b.donor ∧ a.offset = b.offset ∧ a.bandwidth = b.bandwidth

/-- Slots and modulators from the channel table of `d` to that of `e` (R5, R6, R8, R12, R14, R91, R95): nothing at one tuning,
else restarts. An unkeying is told to the SRU and latches KEY_CHANGE, a loss of presence latches CARRIER_CHANGE. The last clip
count (log 25) and the samples kept for the next frame (log 29) are the model's choices. -/
structure SlotsSwitched (d e : Dev) : Prop where
  kept : ∀ x, oneTuning (d.chan x) (e.chan x) → e.slot x = d.slot x
  retuned : ∀ x, (d.chan x).kind = (e.chan x).kind → (e.chan x).kind ≠ .off → ¬ oneTuning (d.chan x) (e.chan x) →
    (e.slot x).pOut = (d.slot x).pOut ∧ (e.slot x).pIn = (d.slot x).pIn ∧ (e.slot x).lastClip = (d.slot x).lastClip
  restarted : ∀ x, ¬ oneTuning (d.chan x) (e.chan x) → (e.slot x).on = false ∧ (e.slot x).rise = 0 ∧
    (e.slot x).fall = 0 ∧ (e.slot x).sumOut = 0 ∧ (e.slot x).sumIn = 0 ∧ (e.slot x).clip = 0 ∧
    (e.slot x).out = (d.slot x).out ∧ ((e.slot x).partialWin = true ↔ (e.chan x).kind ≠ .off)
  turned : ∀ x, (d.chan x).kind ≠ (e.chan x).kind → (d.chan x).kind = .off ∨ (e.chan x).kind = .off →
    (e.slot x).pOut = 0 ∧ (e.slot x).pIn = 0 ∧ (e.slot x).lastClip = 0
  modulators : ∀ p, (oneTuning (d.chan (progSlot p)) (e.chan (progSlot p)) → e.mod p = d.mod p) ∧
    (¬ oneTuning (d.chan (progSlot p)) (e.chan (progSlot p)) →
      (e.mod p).ref = Sample.zero ∧ (e.mod p).half = none ∧
      (e.mod p).phase = if (d.chan (progSlot p)).kind = (e.chan (progSlot p)).kind then (d.mod p).phase else 0)
  keying : ∀ k, ((e.slot (rescueSlot k)).on = (d.slot (rescueSlot k)).on → e.sru.keyed.get k = d.sru.keyed.get k) ∧
    ((e.slot (rescueSlot k)).on ≠ (d.slot (rescueSlot k)).on → e.sru.keyed.get k = false ∧
      (d.linked = true → (e.smc.latches.get (slotCell (rescueSlot k))).getLsbD 0 = true))
  presence : ∀ p, (e.slot (progSlot p)).on ≠ (d.slot (progSlot p)).on → d.linked = true →
    (e.smc.latches.get (slotCell (progSlot p))).getLsbD 1 = true

/-- Remotes from the remote table of `d` to that of `e` (R41): a disabled one is ABSENT, its queue, record, timers, runs and
alarm set are cleared and the rest of its record is kept; every other remote keeps its state. That the time set for the next
MARK is cleared is the model's reading (log 14). -/
structure RemotesDisabled (d e : Dev) : Prop where
  absent : ∀ r, (d.entry r).enabled = true → (e.entry r).enabled = false →
    e.remote r = { d.remote r with
      state := .absent, queue := [], record := none, markDue := none, lockRun := [], locked := false, joinSwitch := false
      moveRun := 0, joinDue := none, silenceDue := none, paFault := false, overTemp := false } ∧
    (d.linked = true → (d.remote r).state ≠ .absent → (e.smc.latches.get (remoteCell r)).getLsbD 0 = true) ∧
    ∀ k, (e.voter k).sel ≠ some r
  others : ∀ r, (d.entry r).enabled = false ∨ (e.entry r).enabled = true → (e.remote r).state = (d.remote r).state

/-! ### The outbound control queue -/

/-- The kinds in the order of the ages of one event's messages (R26). -/
def kindOrder : List MsgKind := [.mark, .map, .switch, .gate, .hold, .level, .subst, .pattern]

/-- `m` takes an older place than `k` among the messages appended at one event: kind first, then key (R26). -/
def agesBefore (m k : DownMsg) : Prop :=
  kindOrder.idxOf m.kind < kindOrder.idxOf k.kind ∨ m.kind = k.kind ∧ m.key < k.key

/-- What the send selection of a queue gives (R27): nothing when no entry is UNSENT, else the oldest UNSENT SUBST, HOLD or
LEVEL, else the oldest UNSENT entry. A queue's order is its age. -/
def SelectsOldest (q : List QEntry) : Prop :=
  let urgent := fun y : QEntry => y.msg.kind = .subst ∨ y.msg.kind = .hold ∨ y.msg.kind = .level
  (sendSelection q = none ↔ ∀ y ∈ q, y.sent = true) ∧
    ∀ older x younger, q = older ++ x :: younger → x.sent = false →
      (urgent x → (∀ y ∈ older, urgent y → y.sent = true) → sendSelection q = some x) ∧
      ((∀ y ∈ q, urgent y → y.sent = true) → (∀ y ∈ older, y.sent = true) → sendSelection q = some x)

/-- What a message admitted at event `n` does to a queue (R26): it replaces the entry of its kind and key in place, which keeps
its age and loses its send state; without one it is appended, behind every entry but those of its own event that follow it in
kind and key. -/
def AdmitsInPlace (n : Nat) (q : List QEntry) (m : DownMsg) : Prop :=
  (∀ older x younger, q = older ++ x :: younger → x.msg.id = m.id → (∀ y ∈ older ++ younger, y.msg.id ≠ m.id) →
    enqueue n q m = older ++ ⟨m, x.joined, false, 0, none, none⟩ :: younger) ∧
  ((∀ y ∈ q, y.msg.id ≠ m.id) → ∃ older younger, q = older ++ younger ∧
    enqueue n q m = older ++ ⟨m, n, false, 0, none, none⟩ :: younger ∧
    (∀ y ∈ older, y.joined = n → ¬ agesBefore m y.msg) ∧
    ∀ y, younger.head? = some y → y.joined = n ∧ agesBefore m y.msg)

/-! ### The lanes of a route table -/

/-- Lanes of a slot's block: 1 for slots 0 to 15, 16 for slots 16 to 39 (03 section 3.3). -/
def blockLanes (c : Fin 40) : Nat := if c.val < 16 then 1 else 16

/-- Downstream lanes of the slots routed on a port (R59). -/
def downstreamLanes (rt : Routes) (x : Fin 4) : Nat :=
  ((allFin 40).map (fun c => if ∃ r, portOf r = x ∧ ((rt.get c).get r).routed = true then blockLanes c else 0)).sum

/-- Upstream lanes of a port: 16 for each carrier slot with uplink, one for each remote and rescue slot with uplink (R59). -/
def upstreamLanes (rt : Routes) (x : Fin 4) : Nat :=
  ((allFin 40).map (fun c => if 16 ≤ c.val ∧ ∃ r, portOf r = x ∧ ((rt.get c).get r).uplink = true then 16 else 0)).sum +
    ((allFin 32).map (fun r => ((allFin 8).map (fun k =>
      if portOf r = x ∧ ((rt.get (rescueSlot k)).get r).uplink = true then 1 else 0)).sum)).sum

/-! ### What the status cells show (10 section 10.6) -/

/-- A table and a cause by their codes (10 section 10.8). -/
def tableCode (t : TableId) : Nat := 1 + [TableId.channel, .remote, .route, .source, .programme, .rescue].idxOf t
def causeCode (c : TakeUpCause) : Nat :=
  1 + [TakeUpCause.slotKind, .badFrequency, .badZone, .lanesExceeded, .uplinkLanesExceeded].idxOf c

/-- Offset, size and value of each live field of the part cell. -/
def partLive (d : Dev) : List (Nat × Nat × Nat) :=
  let b := d.smc.bootResult
  let first := b.firstFailure
  let last := d.smc.lastRefusal
  [(4, 1, [BootOutcome.none, .loaded, .noFlash, .blank, .badFormat, .badLength].idxOf b.outcome),
    (5, 1, [Scope.full, .safety, .carriers, .none].idxOf b.scope), (6, 1, b.sizeCode), (7, 1, b.validClips), (8, 2, b.ignored),
    (10, 1, (if b.failedChannel then 1 else 0) + (if b.failedRemote then 2 else 0) + if b.failedRoute then 4 else 0),
    (11, 1, if b.tail then 1 else 0), (12, 1, (first.map (fun f => tableCode f.1)).getD 0),
    (13, 1, (first.map (fun f => causeCode f.2.2)).getD 0), (14, 2, (first.map (fun f => f.2.1)).getD 0),
    (40, 4, (last.map (fun x => x.word.toNat)).getD 0), (44, 1, (last.map (fun x => tableCode x.table)).getD 0),
    (45, 1, (last.map (fun x => causeCode x.cause)).getD 0), (46, 2, (last.map (fun x => x.index)).getD 0),
    (48, 1, [ExPhase.idle, .staging, .switching].idxOf d.rp.phase), (50, 2, d.sru.tRef), (52, 2, d.sru.refSeq.toNat)] ++
  (allFin 6).map (fun t => (16 + 4 * t.val, 4, (d.smc.taken.get t).toNat))

/-- The same of a port cell. -/
def portLive (d : Dev) (x : Fin 4) : List (Nat × Nat × Nat) :=
  let p := d.port x
  let test := d.rs.test.filter (fun t => decide (t.port = x))
  let lanes := (d.pool x).lanes
  [(4, 1, [PortState.dark, .aligning, .running].idxOf p.state), (5, 1, if p.near then 1 else 0), (6, 1, p.fifo.length),
    (7, 1, (test.map (fun t => 128 + t.pos.val)).getD 0), (8, 2, (test.map (fun t => 308 + t.lane.val)).getD 0),
    (10, 2, downstreamLanes d.rp.routes x), (12, 2, upstreamLanes d.rp.routes x),
    (14, 1, ((allFin 12).filter (fun i => match lanes.get i with
      | .version _ => true
      | .free | .pattern => false)).length + if ∃ i, lanes.get i = .pattern then 128 else 0),
    (15, 1, (d.pool x).waiting.length)]

/-- The same of a remote cell. The value of a hold kind other than a hold is 0 (log 53). -/
def remoteLive (d : Dev) (r : Fin 32) : List (Nat × Nat × Nat) :=
  let m := d.remote r
  let b := d.budget r
  let h := d.hold r
  let ticks := fun (v : Option HoldVal) => match v with
    | some (.ticks n) => n
    | some .off | none => 0
  [(4, 1, [RemoteState.absent, .joining, .inService, .impaired, .lost].idxOf m.state),
    (5, 1, (if m.paFault then 1 else 0) + if m.overTemp then 2 else 0), (6, 1, m.queue.length),
    (7, 1, (if b.rescueOver then 1 else 0) + (if b.short then 2 else 0) + if h.late then 4 else 0), (8, 2, m.d),
    (10, 2, ticks h.hold), (12, 1, if h.hold = none then 0 else if h.hold = some .off then 2 else 1),
    (13, 1, if h.acked = none then 3 else if h.acked = some .off then 2 else 1), (14, 2, ticks h.acked),
    (16, 1, b.progStep), (17, 1, b.carStep), (18, 1, b.progTarget), (19, 1, b.carTarget), (20, 1, b.progConfirmed),
    (21, 1, b.carConfirmed), (22, 2, b.evalSeq.toNat), (24, 4, b.effective), (28, 4, b.sumR), (32, 4, b.sumP), (36, 4, b.sumC)]

/-- The same of a slot cell; the fields that apply are those of the slot's range (log 25). -/
def slotLive (d : Dev) (s : Fin 40) : List (Nat × Nat × Nat) :=
  let c := d.slot s
  let p := progOf s
  let v := d.voter p
  let prog := fun n : Nat => if s.val < 8 then n else 0
  let rescue := fun n : Nat => if 8 ≤ s.val ∧ s.val < 16 then n else 0
  [(4, 1, [SlotKind.off, .programme, .rescue, .carrier].idxOf (d.chan s).kind), (5, 1, if s.val < 16 ∧ c.on then 1 else 0),
    (6, 2, d.lm.windowSeq.toNat), (8, 2, c.pOut), (10, 2, c.pIn), (12, 2, if 16 ≤ s.val then c.lastClip else 0),
    (14, 1, prog (if (d.chan s).kind = .off then 0 else if c.on then 1 else if (d.pm.table.get p).drop then 3 else 2)),
    (16, 2, prog (d.mod p).lastClamp),
    (18, 2, prog ((allFin 12).map (fun m => if ∃ n, (d.bim m).pair = some (n, p) then 2 ^ m.val else 0)).sum),
    (20, 1, rescue ((v.sel.map Fin.val).getD 0xFF)), (21, 1, rescue (BitVec.ofInt 8 v.offset).toNat),
    (22, 2, rescue v.seq.toNat), (24, 2, rescue ((v.sel.bind (fun r => v.last.get r)).getD 0xFFFF)),
    (26, 1, rescue ((v.best.map Fin.val).getD 0xFF))]

/-- The same of a source cell. Audio phase and repeats left show their last values after an end (log 51); bytes 16 to 23 are 0
where the service has no clip (log 53); the end reason is 0 while a service runs (log 58). -/
def sourceLive (d : Dev) (n : Fin 8) : List (Nat × Nat × Nat) :=
  let c := d.source n
  let clip := match c.origin with
    | some (.shared a k) | some (.flash a k) => (a, k)
    | some .none | some .line | none => (0, 0)
  [(4, 1, (if c.lineReq = true ∨ c.cueReq ≠ none then 1 else 0) + if c.inService then 2 else 0),
    (5, 1, if lineLevel d n then 1 else 0),
    (6, 1, (if c.lineReq then 1 else 0) + (if c.cueReq ≠ none then 2 else 0) + if c.cancelHold then 4 else 0),
    (7, 1, [EndReason.none, .finished, .cancelled, .disabled, .lineDropped, .reset].idxOf c.endReason), (8, 2, c.seq.toNat),
    (10, 2, c.zones.toNat), (12, 1, c.progs.toNat),
    (13, 1, match c.origin with
      | none => 0
      | some .none => 1
      | some (.shared _ _) => 2
      | some (.flash _ _) => 3
      | some .line => 4),
    (14, 1, c.repeatsLeft), (15, 1, [AudioPhase.priming, .playing, .gap, .silent].idxOf c.audioPhase), (16, 4, clip.1),
    (20, 4, clip.2), (32, 4, c.unreached.toNat), (36, 2, c.underruns)] ++
  (allFin 8).map (fun p => (24 + p.val, 1,
    ((((allFin 12).find? (fun m => (d.bim m).pair == some (n, p))).map (fun m => 128 + m.val)).getD 0)))

/-- A status cell at `a` shows a latch word and live fields, and 0 in every other byte (R214). -/
structure CellShows (m : Memory) (a latch : Nat) (fields : List (Nat × Nat × Nat)) : Prop where
  word : m.readN a 4 = le 4 latch
  live : ∀ f ∈ fields, m.readN (a + f.1) f.2.1 = le f.2.1 f.2.2
  rest : ∀ k, 4 ≤ k → k < 64 → (∀ f ∈ fields, ¬(f.1 ≤ k ∧ k < f.1 + f.2.1)) → m.read (a + k) = 0

/-! ### The clip directory -/

/-- `dir` is the directory in the flash contents at `off`: entry `n` is there when its valid flag is set, its id is `n`, its
length is 1 or more and its samples end inside the flash, and no entry is when the 256 bytes pass the flash (R204). -/
def DirectoryOf (chip : Memory) (size off : Nat) (dir : Tab 16 (Option Clip)) : Prop :=
  ∀ n : Fin 16,
    let b := chipReadN chip (off + 16 * n.val) 12
    let valid := (b.getD 1 0).getLsbD 0 = true ∧ (b.getD 0 0).toNat = n.val ∧ 1 ≤ field b 8 4 ∧
      field b 4 4 + 2 * field b 8 4 ≤ size
    (off + 256 ≤ size → valid → dir.get n = some ⟨field b 4 4, field b 8 4⟩) ∧
      (size < off + 256 ∨ ¬ valid → dir.get n = none)

/-! ### The flash port -/

/-- The flash port of `e`, granted anew after the boot switch while the clip reads of `waits` wait (R205): it goes to the first
waiting source after the mark of `d` in the cyclic order, which becomes the mark; with none waiting, to the next transaction of
the maintenance work of `e`; else it stays free. -/
def PortGoes (d : Dev) (waits : Fin 8 → Option ClipRead) (e : Dev) : Prop :=
  let place := fun m : Fin 8 => (m.val + 7 - d.fb.mark.val) % 8
  (∀ m q, waits m = some q → (∀ k, waits k ≠ none → place m ≤ place k) →
    e.fb.holder = some ⟨.clip m q, false⟩ ∧ e.fb.mark = m ∧ ∀ k, e.fb.waiting.get k = if k = m then none else waits k) ∧
  ((∀ m, waits m = none) → e.fb.mark = d.fb.mark ∧ (∀ k, e.fb.waiting.get k = none) ∧
    (flashJob e = none → e.fb.holder = none) ∧
    ∀ j, flashJob e = some j → e.fb.holder.map Holder.discard = some false ∧
      (j.reload = true → e.fb.holder.map Holder.txn = some .reload) ∧
      (j.reload = false → e.fb.holder.map Holder.txn = some (match j.kind with
        | .read => .maintRead j.off j.addr (min 256 j.left)
        | .write => .program j.off (e.smc.mem.readN j.addr (min j.left (256 - j.off % 256))) (e.now + 245760)
        | .erase => .erase j.off (e.now + 49152000))))

/-! ### Voting and the reference -/

/-- A re-reference from `d` to `e` (R143, R145, R147): T_ref is the candidate and the reference sequence advances; each holding
remote has the hold of the new T_ref, is offered HOLD when that is not the last value given (R150), and is selected by no voter
when it is LATE (R158); LATE_CHANGE and REREFERENCED are latched. -/
structure Rereferenced (d e : Dev) : Prop where
  reference : IsCandidate d e.sru.tRef ∧ e.sru.refSeq = d.sru.refSeq + 1 ∧ e.sru.keyed = d.sru.keyed
  holds : ∀ r, (d.hold r).holding = true → (e.hold r).holding = true ∧
    ((d.remote r).d ≤ e.sru.tRef →
      (e.hold r).hold = some (.ticks (e.sru.tRef - (d.remote r).d)) ∧ (e.hold r).late = false) ∧
    (e.sru.tRef < (d.remote r).d → (e.hold r).hold = some .off ∧ (e.hold r).late = true)
  others : ∀ r, (d.hold r).holding = false → e.hold r = d.hold r
  voters : ∀ r k, (e.hold r).late = true → (e.voter k).sel ≠ some r
  offers : ∀ r v, (d.hold r).holding = true → (e.hold r).hold = some v →
    let old := d.hold r
    (e.hold r).acked = old.acked ∧
    (old.offered = some v ∨ old.offered = none ∧ old.acked = some v →
      (e.hold r).offered = old.offered ∧ e.remote r = d.remote r) ∧
    (¬(old.offered = some v ∨ old.offered = none ∧ old.acked = some v) → (e.hold r).offered = some v ∧
      ((d.remote r).serving = true ∨ (d.remote r).state = .joining ∧ (d.remote r).locked = true →
        e.remote r = { d.remote r with queue := enqueue d.eventNo (d.remote r).queue (.hold v) }))
  latches : d.linked = true → (e.smc.latches.get partCell).getLsbD 2 = true ∧
    ∀ r, (e.hold r).late ≠ (d.hold r).late → (e.smc.latches.get (remoteCell r)).getLsbD 5 = true

/-- `b` has the highest figure of the remotes with `can`, the lowest number among equals (R156, R159). -/
def highest (can : Fin 32 → Prop) (q : Fin 32 → Nat) (b : Fin 32) : Prop :=
  can b ∧ ∀ r, can r → q r < q b ∨ q r = q b ∧ b ≤ r

/-- The commands of the link ports, the upstream messages, the timers, the audio, the lines and the donor inputs. -/
def radioCommand (i : Instr) : Bool :=
  match i with
  | .frameLaunch | .alignmentWord _ _ | .lightAndLock _ | .lossOfLightOrLock _ | .codeViolation _
  | .uplinkWordArrival _ _ | .fifoRead | .echo _ _ _ | .ack _ _ _ _ | .quality _ _ _ | .alarm _ _ _ | .pcount _ _
  | .controlCheckFailure _ | .ackTimerExpiry _ _ | .nextMarkOffer _ | .markerRecordExpiry _ | .silenceTimerExpiry _
  | .joinTimerExpiry _ | .supervisionWindowClose | .levelWindowClose | .stagingTimerExpiry | .votingFrameEnd _
  | .reachSettleExpiry _ | .playInstant _ | .audSampleArrival _ _ | .sharedClipBlockDone _ | .lineRisingEdge _
  | .lineFallingEdge _ | .donorSample _ _ => true
  | .powerOnReset | .pcieLinkLoss | .pcieLinkReturn | .hostMemoryWrite _ _ | .ieWrite _ | .start _ | .softReset _ _
  | .registerWriteIgnored _ _ | .revisionNoticeTake | .cue | .cancel | .cueCellNoAction | .clearOnes | .snapshot
  | .portReset | .patternStart | .patternStop | .errorInsert | .rereference | .flashRead | .flashWrite | .flashErase
  | .badCommand | .maintNoticeNoAction | .flashStatusReadDone _ | .flashIdentReadDone _ _ _ | .bootHeaderReadDone
  | .bootRecord | .bootDirectoryReadDone | .clipReadDone | .flashReadDataDone | .pageProgramDone | .sectorEraseDone
  | .flashTimeout | .directoryReloadDone => false

/-! ### Maintenance commands and table take-ups -/

/-- The maintenance cell's notice is the oldest of a LINKED part, the unit is IDLE, and the cell is POSTED with the content
`c` (R188). -/
structure CommandWaits (d : Dev) (l : Layout) (q : List WatchCell) (c : MaintCell) : Prop where
  linked : d.linked = true
  layout : d.smc.layout = some l
  head : d.smc.notices = .maint :: q
  idle : d.smc.job = none
  posted : cellState d.smc.mem l.maint = 1
  cell : readMaint d.smc.mem l.maint = c

/-- The sixteen bytes of a completion without OVERRUN: state, result code, overrun flag, tag (R189, 10 section 10.5). -/
def answerBytes (state code : Nat) (tag : BitVec 32) : List Byte := le 4 state ++ le 4 code ++ le 4 0 ++ le 4 tag.toNat

/-- The device once a maintenance command has left the notice queue with its answer in the cell. -/
def answered (d : Dev) (l : Layout) (q : List WatchCell) (bytes : List Byte) : Dev :=
  { d with smc := { d.smc with notices := q, overrun := false, mem := d.smc.mem.write l.maint bytes } }

/-- The maintenance cell shows an answer, the unit is IDLE, and MAINT_DONE is latched (R188, R189). -/
structure CellAnswers (l : Layout) (q : List WatchCell) (bytes : List Byte) (e : Dev) : Prop where
  bytes : e.smc.mem.readN l.maint 16 = bytes
  idle : e.smc.job = none
  mark : e.smc.overrun = false
  rest : e.smc.notices = q
  done : (e.smc.latches.get partCell).getLsbD 5 = true

/-- The working tables but ROUTE after the revision words of memory `m` are judged, those that `asked` names being taken up
(R184, R185). -/
structure TablesTaken (m : Memory) (l : Layout) (asked : TableId → Prop) (d e : Dev) : Prop where
  channel : (asked .channel → chanCheck (hostChan m l) = none →
      e.lm.chan = Tab.ofFn (fun s => chanForm s ((hostChan m l).get s))) ∧
    (¬ asked .channel ∨ chanCheck (hostChan m l) ≠ none → e.lm.chan = d.lm.chan)
  remote : (asked .remote → remoteCheck (hostRemote m l) = none → e.rp.remoteTab = (hostRemote m l).map remoteForm) ∧
    (¬ asked .remote ∨ remoteCheck (hostRemote m l) ≠ none → e.rp.remoteTab = d.rp.remoteTab)
  source : (asked .source → e.bic.master = hostMaster m l ∧ e.bic.table = hostSources m l ∧
      e.bic.alarmMasked = alarmAfter d (hostMaster m l) (hostSources m l)) ∧
    (¬ asked .source → e.bic.master = d.bic.master ∧ e.bic.table = d.bic.table ∧ e.bic.alarmMasked = d.bic.alarmMasked)
  programme : (asked .programme → e.pm.table = hostProgs m l) ∧ (¬ asked .programme → e.pm.table = d.pm.table)
  rescue : (asked .rescue → e.sru.guardTicks = hostGuard m l ∧ e.sru.table = hostRescue m l) ∧
    (¬ asked .rescue → e.sru.guardTicks = d.sru.guardTicks ∧ e.sru.table = d.sru.table)
  words : ∀ t, t ≠ .route → (asked t → e.smc.lastReq.get t.index = revisionWord m l t) ∧
    (¬ asked t → e.smc.lastReq.get t.index = d.smc.lastReq.get t.index)
  taken : ∀ t, t ≠ .route →
    (asked t → (t = .channel → chanCheck (hostChan m l) = none) → (t = .remote → remoteCheck (hostRemote m l) = none) →
      e.smc.taken.get t.index = revisionWord m l t ∧ (e.smc.latches.get partCell).getLsbD 0 = true) ∧
    (¬ asked t ∨ (t = .channel ∧ chanCheck (hostChan m l) ≠ none) ∨ (t = .remote ∧ remoteCheck (hostRemote m l) ≠ none) →
      e.smc.taken.get t.index = d.smc.taken.get t.index)
  refused : (asked .channel ∧ chanCheck (hostChan m l) ≠ none ∨ asked .remote ∧ remoteCheck (hostRemote m l) ≠ none) →
    (e.smc.latches.get partCell).getLsbD 1 = true
  refusal : ¬ asked .route → d.smc.deferred.get 2 = false →
    (∀ i c, asked .remote → remoteCheck (hostRemote m l) = some (i, c) →
      e.smc.lastRefusal = some ⟨.remote, revisionWord m l .remote, i, c⟩) ∧
    (¬ asked .remote ∨ remoteCheck (hostRemote m l) = none →
      (∀ i c, asked .channel → chanCheck (hostChan m l) = some (i, c) →
        e.smc.lastRefusal = some ⟨.channel, revisionWord m l .channel, i, c⟩) ∧
      (¬ asked .channel ∨ chanCheck (hostChan m l) = none → e.smc.lastRefusal = d.smc.lastRefusal))

/-- The parameters of a start of source `n`: the cue request's if one is held, else the defaults of the table entry `t` (R119). -/
def startCue (d : Dev) (n : Fin 8) (t : SrcEntry) : CueReq :=
  (d.source n).cueReq.getD ⟨t.zones, t.progs, t.origin, t.repeats, t.gap⟩

/-- What the start of a service of source `n` in `d` leaves in `e`: the service record filled from the parameters `q` with the
resolved origin `o`, the reach settle timer, the audio, and SERVICE_STARTED (R119, R120, R126). That the first play instant comes
768 ticks after the start is the model's choice (log 9), as is that the end reason is none at once (log 58). -/
structure ServiceStarts (d : Dev) (n : Fin 8) (q : CueReq) (o : Origin) (e : Dev) : Prop where
  runs : (e.source n).inService = true ∧ (e.source n).seq = (d.source n).seq + 1
  asked : (e.source n).zones = q.zones ∧ (e.source n).progs = q.progs ∧ (e.source n).repeats = q.repeats ∧
    (e.source n).repeatsLeft = q.repeats ∧ (e.source n).gap = q.gap ∧ (e.source n).origin = some o
  fresh : (e.source n).ending = false ∧ (e.source n).endReason = .none ∧ (e.source n).underruns = 0
  settle : (e.source n).settleDue = some (d.now + 2457600) ∧ (e.source n).settled = false
  audio : (e.source n).playDue = d.now + 768 ∧ (e.source n).fifo = [] ∧
    (e.source n).audioPhase = if o = .none then .silent else .priming
  shown : d.linked = true → (e.smc.latches.get (sourceCell n)).getLsbD 0 = true

/-- The line of source `n` makes requests: line use is on (R112, R113), or it is ALARM after a failed boot, before a source table
has unmasked it (R136, log 50). -/
def hears (d : Dev) (n : Fin 8) : Prop :=
  (d.bic.table.get n).lineUse = true ∨ n = 0 ∧ d.smc.bootResult.outcome ≠ .none ∧ d.smc.bootResult.outcome ≠ .loaded ∧
    d.bic.alarmMasked = true

/-- The requests and the service of source `n` after the switch from the source table of `d` to that of `e` (R111, R118, R119): ends
with DISABLED, the pending record, starts. -/
structure RequestsSwitched (d e : Dev) (n : Fin 8) : Prop where
  idle : let c := d.source n
    let o := d.bic.table.get n
    let t := e.bic.table.get n
    let off := hears d n ∧ ¬ hears e n
    let hold := c.cancelHold = true ∧ ¬ off ∧ o.latched = t.latched
    let follows := (o.lineUse = false ∧ t.lineUse = true ∨ o.latched = true ∧ t.latched = false) ∧ hears e n ∧
      t.latched = false ∧ ¬ hold
    let asks := (follows → lineLevel d n = true) ∧ (¬ follows → c.lineReq = true ∧ ¬ off)
    let runs := t.enabled = true ∧ e.bic.master = true
    c.inService = false →
      (¬ runs → (e.source n).inService = false ∧ (e.source n).cueReq = c.cueReq ∧
        ((e.source n).cancelHold = true ↔ hold) ∧ ((e.source n).lineReq = true ↔ asks)) ∧
      (runs → ((e.source n).inService = true ↔ c.cueReq ≠ none ∨ asks) ∧ (c.cueReq ≠ none ∨ asks →
        (e.source n).isPending = false ∧ ServiceStarts d n (startCue d n t) (resolveOrigin d (startCue d n t).origin).1 e))
  running : let c := d.source n
    let o := d.bic.table.get n
    let t := e.bic.table.get n
    let off := hears d n ∧ ¬ hears e n
    let runs := t.enabled = true ∧ e.bic.master = true
    c.inService = true →
      (¬ runs → (e.source n).inService = false ∧ (e.source n).endReason = .disabled ∧ (e.source n).cueReq = c.cueReq ∧
        (off → (e.source n).lineReq = false ∧ (e.source n).cancelHold = false) ∧
        (d.linked = true → (e.smc.latches.get (sourceCell n)).getLsbD 1 = true)) ∧
      (runs → (e.source n).inService = true ∧ (e.source n).seq = c.seq ∧
        ((e.source n).cancelHold = true ↔ c.cancelHold = true ∧ ¬ off ∧ o.latched = t.latched) ∧
        (o.again = true → t.again = false → (e.source n).isPending = false) ∧
        (o.again = false ∨ t.again = true → (e.source n).cueReq = c.cueReq ∧
          ((e.source n).lineReq = true ↔ c.lineReq = true ∧ ¬ off)))
  withdrawn : let c := d.source n
    let o := d.bic.table.get n
    let t := e.bic.table.get n
    let runs := t.enabled = true ∧ e.bic.master = true
    d.linked = true →
      (c.inService = false ∨ runs) ∧ (hears d n ∧ ¬ hears e n) ∧ c.lineReq = true ∨
        c.inService = true ∧ runs ∧ o.again = true ∧ t.again = false ∧ c.isPending = true →
    (e.smc.latches.get (sourceCell n)).getLsbD 2 = true

/-- Source `n`, which has neither a service nor a request through BOOTING, after a boot switch from `d` to `e` with outcome LOADED
(R111, R119, R138): its line, when up and in line use by the table of `e`, makes a request, which waits while the source is
masked and starts its service else. The switch of the source table starts a LEVEL source whose line use or LEVEL trigger that
table, loaded whole, turns on; it finds the clip directory of before the boot, and the line reading gives it a request for its
next service under AGAIN (log 17). -/
structure BootStarts (whole : Prop) (d e : Dev) (n : Fin 8) : Prop where
  masked : let t := e.bic.table.get n
    let asks := t.lineUse = true ∧ lineLevel d n = true
    t.enabled = false ∨ e.bic.master = false → (e.source n).inService = false ∧ (e.source n).cueReq = none ∧
      (e.source n).cancelHold = false ∧ ((e.source n).lineReq = true ↔ asks)
  unmasked : let o := d.bic.table.get n
    let t := e.bic.table.get n
    let asks := t.lineUse = true ∧ lineLevel d n = true
    let early := whole ∧ t.latched = false ∧ (o.lineUse = false ∨ o.latched = true)
    t.enabled = true → e.bic.master = true →
      (¬ asks → (e.source n).inService = false ∧ (e.source n).isPending = false) ∧
      (asks → (e.source n).cueReq = none ∧ ((e.source n).lineReq = true ↔ early ∧ t.again = true) ∧
        (early → ServiceStarts d n (startCue d n t) (resolveOrigin d t.origin).1 e) ∧
        (¬ early → ServiceStarts d n (startCue d n t) (resolveOrigin e t.origin).1 e))

/-! ### The boot's records and group check -/

/-- The slots whose channel entries and route rows a scope reaches (R199). -/
def inScope (sc : Scope) (slot : Nat) : Prop :=
  match sc with
  | .full => True
  | .safety => slot < 16
  | .carriers => 16 ≤ slot
  | .none => False

/-- The scope reaches the REMOTE, SOURCE, PROGRAMME and RESCUE tables (R199). -/
def wholeScope (sc : Scope) : Prop := sc = .full ∨ sc = .safety

/-- `c` is the boot `b` after record `n` of the flash (R200): staged when its table and entry exist and the scope reaches it,
passed over outside the scope, else counted as ignored. -/
structure RecordTaken (chip : Memory) (n : Nat) (b c : BootRec) : Prop where
  rest : c = { b with staging := c.staging, ignored := c.ignored }
  ignored : ¬(1 ≤ field (chipReadN chip (16 + 16 * n) 16) 0 1 ∧ field (chipReadN chip (16 + 16 * n) 16) 0 1 ≤ 6 ∧
      field (chipReadN chip (16 + 16 * n) 16) 2 2 <
        [40, 32, 160, 9, 8, 9].getD (field (chipReadN chip (16 + 16 * n) 16) 0 1 - 1) 0) →
    c.staging = b.staging ∧ c.ignored = min 65535 (b.ignored + 1)
  known : let k := chipReadN chip (16 + 16 * n) 16
    let table := field k 0 1
    let entry := field k 2 2
    let data := if (k.getD 1 0).getLsbD 0 then List.replicate 12 0 else (k.drop 4).take 12
    let reached := (table = 1 → inScope b.scope entry) ∧ (table = 3 → inScope b.scope (entry / 4)) ∧
      (table ≠ 1 → table ≠ 3 → wholeScope b.scope)
    1 ≤ table → table ≤ 6 → entry < [40, 32, 160, 9, 8, 9].getD (table - 1) 0 → c.ignored = b.ignored ∧
      (¬ reached → c.staging = b.staging) ∧
      (reached →
        (∀ h : entry < 40, table = 1 → c.staging = { b.staging with chan := b.staging.chan.set ⟨entry, h⟩ data }) ∧
        (∀ h : entry < 32, table = 2 → c.staging = { b.staging with remote := b.staging.remote.set ⟨entry, h⟩ data }) ∧
        (∀ h : entry < 160, table = 3 → c.staging = { b.staging with route := b.staging.route.set ⟨entry, h⟩ data }) ∧
        (∀ h : entry < 9, table = 4 → c.staging = { b.staging with source := b.staging.source.set ⟨entry, h⟩ data }) ∧
        (∀ h : entry < 8, table = 5 →
          c.staging = { b.staging with programme := b.staging.programme.set ⟨entry, h⟩ data }) ∧
        (∀ h : entry < 9, table = 6 → c.staging = { b.staging with rescue := b.staging.rescue.set ⟨entry, h⟩ data }))

/-- `k` holds the checked and formed tables of the boot `b`, and `c` is `b` with the failures noted (R201). `t` is the
staged channel table combined with the working entries outside the scope, `u` the route table. -/
structure GroupsChecked (d : Dev) (b c : BootRec) (k : Checked) (t : Tab 40 ChanRaw) (u : Routes) : Prop where
  rest : c.scope = b.scope ∧ c.ignored = b.ignored ∧ c.tail = b.tail ∧ c.count = b.count ∧ c.dirOffset = b.dirOffset ∧
    c.checked = some k
  combined : ∀ s : Fin 40,
    (inScope b.scope s.val → t.get s = parseChan (b.staging.chan.get s) ∧
      ∀ r, (u.get s).get r = routeForm s ((b.staging.route.get (rowOf s (portOf r))).getD (posOf r).val 0)) ∧
    (¬ inScope b.scope s.val → t.get s = (d.chan s).toRaw ∧ ∀ r, (u.get s).get r = d.route s r)
  channel : (chanCheck t = none → k.chan = Tab.ofFn (fun s => chanForm s (t.get s)) ∧ c.failedChannel = b.failedChannel) ∧
    (chanCheck t ≠ none → c.failedChannel = true ∧ ∀ s : Fin 40,
      (inScope b.scope s.val → (k.chan.get s).kind = .off) ∧
      (¬ inScope b.scope s.val → k.chan.get s = chanForm s (d.chan s).toRaw))
  remote : (¬ wholeScope b.scope → c.failedRemote = b.failedRemote) ∧ (wholeScope b.scope →
    (remoteCheck (b.staging.remote.map parseRemote) = none →
      k.remote = b.staging.remote.map (fun e => remoteForm (parseRemote e)) ∧ c.failedRemote = b.failedRemote) ∧
    (remoteCheck (b.staging.remote.map parseRemote) ≠ none →
      c.failedRemote = true ∧ ∀ r, (k.remote.get r).enabled = false ∧ (k.remote.get r).zone = 0))
  route : (routeCheck u = none → k.routes = u ∧ c.failedRoute = b.failedRoute) ∧
    (routeCheck u ≠ none → c.failedRoute = true ∧ ∀ (s : Fin 40) (r : Fin 32),
      (inScope b.scope s.val → ((k.routes.get s).get r).routed = false) ∧
      (¬ inScope b.scope s.val → (k.routes.get s).get r = d.route s r))
  others : k.source = Tab.ofFn (fun n => parseSource n (b.staging.source.get ⟨n.val, by omega⟩)) ∧
    (k.master = true ↔ (b.staging.source.get 8).getD 0 0 ≠ 0) ∧ k.programme = b.staging.programme.map parseProg ∧
    k.guardTicks = parseGuard (b.staging.rescue.get 8) ∧
    k.rescue = Tab.ofFn (fun e => parseRescue (b.staging.rescue.get ⟨e.val, by omega⟩))
  first : (b.firstFailure ≠ none → c.firstFailure = b.firstFailure) ∧ (b.firstFailure = none →
    (∀ i x, chanCheck t = some (i, x) → c.firstFailure = some (.channel, i, x)) ∧
    (chanCheck t = none →
      (∀ i x, wholeScope b.scope → remoteCheck (b.staging.remote.map parseRemote) = some (i, x) →
        c.firstFailure = some (.remote, i, x)) ∧
      (¬ wholeScope b.scope ∨ remoteCheck (b.staging.remote.map parseRemote) = none →
        c.firstFailure = (routeCheck u).map (fun f => (.route, f.1, f.2)))))

end Sys2Proof.Machine
end

