-- ==== Sys2Proof/Certificates/Slice0/Obligations.lean ====
section
/-! DEFINITION. Certificates/Slice0/Obligations.lean: the statements for the provers. Each docstring names the rules of spec/
that its statement formalises; where a statement rests on a choice of the model, it names the log entry. -/

open Sys2Proof Sys2Proof.Machine

/-! ### The machine -/

/-- A step takes the command at the front of the queue and runs it on the device with the rest of the queue. -/
def Obligations.StepRunsTheFrontCommand : Prop :=
  ∀ (c : Instr) (s : State), step { s with pending := c :: s.pending } = exec c s

/-- A step on an empty queue is one tick of the clock; a timer's command joins the queue exactly when that timer is due
(the model's choice, log 1), and a MARK due at the tick of a frame launch is offered before that launch (R30, R35: markers leave
every 10 ms or 100 ms). -/
def Obligations.EmptyQueueStepTicksTheClock : Prop :=
  ∀ d : Dev, ∃ q, step ⟨d, []⟩ = .next ⟨{ d with now := d.now + 1 }, q⟩ ∧
    (.fifoRead ∈ q ↔ d.lp.readDue ≤ d.now + 1) ∧ (.frameLaunch ∈ q ↔ d.lp.frameDue ≤ d.now + 1) ∧
    (∀ a b, q = a ++ .frameLaunch :: b → ∀ r, .nextMarkOffer r ∉ b) ∧
    (.levelWindowClose ∈ q ↔ d.lm.windowDue ≤ d.now + 1) ∧ (.supervisionWindowClose ∈ q ↔ d.rs.superDue ≤ d.now + 1) ∧
    (.stagingTimerExpiry ∈ q ↔ d.rp.phase = .staging ∧ d.rp.stagingDue ≤ d.now + 1) ∧
    (∀ e, .votingFrameEnd e ∈ q ↔ (d.voter e).due ≤ d.now + 1) ∧
    (∀ n, .playInstant n ∈ q ↔ (d.source n).inService = true ∧ (d.source n).playDue ≤ d.now + 1) ∧
    (∀ n, .reachSettleExpiry n ∈ q ↔ ∃ k, (d.source n).settleDue = some k ∧ k ≤ d.now + 1) ∧
    (∀ r, .silenceTimerExpiry r ∈ q ↔ ∃ k, (d.remote r).silenceDue = some k ∧ k ≤ d.now + 1) ∧
    (∀ r, .joinTimerExpiry r ∈ q ↔ ∃ k, (d.remote r).joinDue = some k ∧ k ≤ d.now + 1) ∧
    (∀ r, .nextMarkOffer r ∈ q ↔ ∃ k, (d.remote r).markDue = some k ∧ k ≤ d.now + 1) ∧
    (∀ r, .markerRecordExpiry r ∈ q ↔ ∃ k, (d.remote r).record = some k ∧ k.launch + 245760 ≤ d.now + 1) ∧
    (∀ r id, .ackTimerExpiry r id ∈ q ↔
      ∃ e ∈ (d.remote r).queue, e.msg.id = id ∧ ∃ k, e.ackDue = some k ∧ k ≤ d.now + 1) ∧
    (.flashTimeout ∈ q ↔ ∃ h k, d.fb.holder = some h ∧ k ≤ d.now + 1 ∧
      ((∃ off data, h.txn = .program off data k) ∨ ∃ off, h.txn = .erase off k))

/-- Every command answers a next state that keeps the queue, but a host write past the 64 MiB of the window (R168). The fault
of that write is the model's choice (log 33). -/
def Obligations.EveryCommandAnswersOrFaults : Prop :=
  (∀ i s, (∀ a b, i = .hostMemoryWrite a b → a + b.length ≤ 67108864) → Completes i s (fun _ => True)) ∧
    ∀ a b s, 67108864 < a + b.length → exec (.hostMemoryWrite a b) s = .fault .outsideWindow

/-- Each invariant of Safety.lean holds right after reset. -/
def Obligations.ResetMeetsEveryInvariant : Prop :=
  MemoryInv State.reset.dev ∧ NewsInv State.reset.dev ∧ NoticeInv State.reset.dev ∧ BimInv State.reset.dev ∧
    CounterInv State.reset.dev ∧ FifoInv State.reset.dev ∧ ChannelInv State.reset.dev ∧ StepInv State.reset.dev ∧
    LayoutInv State.reset.dev ∧ BimsAllotted State.reset.dev ∧ QueueInv State.reset.dev ∧ PoolInv State.reset.dev ∧
    VoterInv State.reset.dev ∧ HoldInv State.reset.dev ∧ ReferenceInv State.reset.dev ∧ BootingInv State.reset.dev ∧
    State.reset.pending = []

/-! ### Invariants that every step keeps -/

/-- A news bit is set exactly when its cell's latch word is nonzero (R182), the queue holds at most one notice per cell
(R179), and a recorded layout is aligned, inside the 64 MiB and free of overlap (R173). Shared memory and the flash contents
stay in canonical form (the model's representation, logs 3 and 4). -/
def Obligations.StepKeepsMemoryControllerRecords : Prop :=
  ∀ s t, step s = .next t → (NewsInv s.dev → NewsInv t.dev) ∧ (NoticeInv s.dev → NoticeInv t.dev) ∧
    (LayoutInv s.dev → LayoutInv t.dev) ∧ (MemoryInv s.dev → MemoryInv t.dev)

/-- A BIM serves a pair of a service that runs and covers the programme, and no two serve one pair (R96, R121, R122). While a
covered pair of a running service waits, no BIM is FREE and none is held by a source of lower priority: so a start requests a BIM
for each programme of its set (R120), a request takes a BIM of a lower source (R121), and a released BIM goes to the highest-ranked
pair that waits (R122). -/
def Obligations.StepKeepsBimAssignments : Prop :=
  ∀ s t, BimInv s.dev → step s = .next t → BimInv t.dev ∧ (BimsAllotted s.dev → BimsAllotted t.dev)

/-- Link counters stay at most 65535 (R43), elastic FIFOs at most 64 words (R24), class steps at most 47 (R73), and every
slot of the working channel table is OFF or of the kind of its range (R3, R201). A control queue holds one entry of a kind and key
(R26); no version request waits while a lane of its port is FREE or holds the pattern (R66, R67); a voter's selection meets the
state conditions (R160); a remote in service that is not LATE has the hold T_ref - d, and a LATE one has d above T_ref (R147);
through BOOTING no source is in service or holds a request (R136, R137). -/
def Obligations.StepKeepsRangesAndSlotKinds : Prop :=
  ∀ s t, step s = .next t → (CounterInv s.dev → CounterInv t.dev) ∧ (FifoInv s.dev → FifoInv t.dev) ∧
    (StepInv s.dev → StepInv t.dev) ∧ (ChannelInv s.dev → ChannelInv t.dev) ∧ (QueueInv s.dev → QueueInv t.dev) ∧
    (PoolInv s.dev → PoolInv t.dev) ∧ (VoterInv s.dev → VoterInv t.dev) ∧ (HoldInv s.dev → HoldInv t.dev) ∧
    (BootingInv s.dev → BootingInv t.dev)

/-! ### Whole-machine frames -/

/-- No radio command changes a byte of shared memory outside the status cells, the news bitmap and the cell of the maintenance
command in flight; none changes the part state, the layout, the notice queue, CAUSE or the boot result, and none but a route
exchange's changes a working table (R182, R189, R214). The flash contents change at page programs, sector erases and their
timeouts alone (R195, R208, R209); that power-on reset keeps them (log 4), those of a page or sector whose program or erase it
interrupts among them (log 57), is the model's choice. -/
def Obligations.RadioCommandsKeepHostBytes : Prop :=
  (∀ i s t, exec i s = .next t → i ≠ .pageProgramDone → i ≠ .sectorEraseDone → i ≠ .flashTimeout →
    (∀ b, i ≠ .flashStatusReadDone b) → t.dev.fb.chip = s.dev.fb.chip) ∧
  ∀ i s t, radioCommand i = true → exec i s = .next t →
    KeepsHostBytes s.dev t.dev ∧ t.dev.smc.state = s.dev.smc.state ∧ t.dev.smc.layout = s.dev.smc.layout ∧
      t.dev.smc.notices = s.dev.smc.notices ∧ t.dev.smc.cause = s.dev.smc.cause ∧
      t.dev.smc.bootResult = s.dev.smc.bootResult ∧ t.dev.lm.chan = s.dev.lm.chan ∧ t.dev.tables = s.dev.tables

/-! ### Power and host -/

/-- What power-on reset leaves of the host port and memory controller (R193), of the radio blocks, the break-in controller and the
flash port with the boot it begins (R18, R50, R70, R87, R108, R136, R163, R211), and, whole, of the voters (R164). That shared
memory, the flash contents and the lines are kept, that the boot's status read holds the port, and that no table has unmasked ALARM
(R136), are the model's choices (logs 3, 4, 8, 31 and 50). -/
def Obligations.PowerOnResetsEveryBlock : Prop :=
  (∀ s, Completes .powerOnReset s (fun e =>
     e.smc.state = .booting ∧ e.smc.cause = .noneSinceReset ∧ e.smc.bootResult.outcome = .none ∧ e.smc.scope = .full ∧
       e.hp.ie = false ∧ newsCount e = 0 ∧ (∀ i, e.smc.news.get i = false) ∧ e.smc.layout = none ∧
       e.smc.notices = [] ∧ (∀ i, e.smc.masks.get i = 0) ∧ (∀ t, e.smc.deferred.get t = false) ∧
       (∀ t, e.smc.lastReq.get t = 0 ∧ e.smc.taken.get t = 0) ∧ e.smc.lastRefusal = none ∧ e.smc.job = none ∧
       e.smc.overrun = false ∧ e.smc.bootMark = false ∧ e.smc.mem = s.dev.smc.mem ∧
       ∃ b, e.fb.boot = some b ∧ b.scope = .full)) ∧
    (∀ s, Completes .powerOnReset s (fun e =>
       (∀ x, (e.chan x).kind = .off ∧ (e.slot x).on = false ∧ (e.slot x).pOut = 0 ∧ (e.slot x).pIn = 0) ∧
         e.lm.windowSeq = 0 ∧
         (∀ x, (e.port x).state = .dark ∧ (e.port x).fifo = [] ∧ (e.port x).codeViol = 0 ∧ (e.port x).alignLoss = 0 ∧
           (e.port x).slips = 0 ∧ (e.port x).near = false) ∧
         (∀ r, (e.remote r).state = .absent ∧ (e.remote r).queue = [] ∧ (e.remote r).d = 0 ∧
           (e.remote r).paFault = false ∧ (e.remote r).overTemp = false ∧ (e.entry r).enabled = false) ∧
         e.rs.test = none ∧ (∀ x r, (e.route x r).routed = false) ∧ e.rp.phase = .idle ∧
         (∀ x i, (e.pool x).lanes.get i = .free) ∧ (∀ r, (e.budget r).progStep = 0 ∧ (e.budget r).carStep = 0) ∧
         (∀ m, (e.bim m).pair = none) ∧ (∀ p, (e.mod p).phase = 0) ∧ e.bic.master = false ∧ e.bic.alarmMasked = true ∧
         (∀ n, (e.source n).inService = false ∧ (e.source n).isPending = false ∧ (e.source n).cancelHold = false ∧
           (e.source n).seq = 0) ∧
         e.sru.tRef = 0 ∧ e.sru.refSeq = 0 ∧ (∀ k, e.sru.keyed.get k = false) ∧ (∀ r, (e.hold r).holding = false) ∧
         (∀ k, (e.voter k).sel = none ∧ (e.voter k).offset = 0 ∧ (e.voter k).seq = 0 ∧ (e.voter k).best = none ∧
           (∀ r, (e.voter k).cur.get r = none ∧ (e.voter k).last.get r = none) ∧
           (∀ i, (e.voter k).outs.getD i Sample.zero = Sample.zero) ∧ (e.voter k).due = e.now + 491520) ∧ e.fb.holder = some ⟨.bootStatus, false⟩ ∧
         e.fb.chip = s.dev.fb.chip ∧ e.bic.lines = s.dev.bic.lines))

/-- What a host write stores (R168, R178, R180): while LINKED the bytes of the status area and of the news bitmap stay; every
other byte is as written; that this holds also of bytes of the cell of a command in flight that a newer layout has in those areas
is the model's choice (log 56). Beside memory, clear masks, notices and the overrun mark nothing changes. -/
def Obligations.HostWriteStoresItsBytes : Prop :=
  ∀ s addr data, s.dev.hp.linkUp = true → data ≠ [] → addr + data.length ≤ 67108864 →
    Completes (.hostMemoryWrite addr data) s (fun e =>
      (∀ a, (¬(addr ≤ a ∧ a < addr + data.length) → e.smc.mem.read a = s.dev.smc.mem.read a) ∧
        (addr ≤ a → a < addr + data.length →
          (s.dev.smc.state = .linked → ∀ l, s.dev.smc.layout = some l →
            ((l.status ≤ a ∧ a < l.status + 8192) ∨ (l.news ≤ a ∧ a < l.news + 4096) →
              e.smc.mem.read a = s.dev.smc.mem.read a) ∧
            (¬((l.status ≤ a ∧ a < l.status + 8192) ∨ (l.news ≤ a ∧ a < l.news + 4096)) →
              e.smc.mem.read a = data.getD (a - addr) 0)) ∧
          (s.dev.smc.state ≠ .linked → e.smc.mem.read a = data.getD (a - addr) 0))) ∧
      e = { s.dev.event with smc := { s.dev.smc with
        mem := e.smc.mem, masks := e.smc.masks, notices := e.smc.notices, overrun := e.smc.overrun } })

/-- The notices, clear masks and overrun mark of a host write (R178, R180, R190): a notice for each watched cell the write
touches unless one is queued, and the ones written to a latch word join the cell's mask. A part that is not LINKED watches
nothing. -/
def Obligations.HostWriteRaisesNotices : Prop :=
  ∀ s addr data, s.dev.hp.linkUp = true → data ≠ [] → addr + data.length ≤ 67108864 →
    Completes (.hostMemoryWrite addr data) s (fun e =>
      (s.dev.smc.state ≠ .linked → e.smc.notices = s.dev.smc.notices ∧ e.smc.masks = s.dev.smc.masks) ∧
      (s.dev.smc.state = .linked → ∀ l, s.dev.smc.layout = some l →
        (∃ q, e.smc.notices = s.dev.smc.notices ++ q ∧ q.Nodup ∧ (∀ c ∈ q, c ∉ s.dev.smc.notices) ∧
          ∀ c, c ∈ q ↔ c ∉ s.dev.smc.notices ∧ ∃ b, (c, b) ∈ watchedCells l ∧
            ∃ a, addr ≤ a ∧ a < addr + data.length ∧ b ≤ a ∧ a < b + 64) ∧
        ∀ (i : Fin 85) (k : Nat), k < 32 → (e.smc.masks.get i).getLsbD k =
          ((s.dev.smc.masks.get i).getLsbD k ||
            (decide (addr ≤ l.status + 64 * i.val + k / 8) &&
              (data.getD (l.status + 64 * i.val + k / 8 - addr) 0).getLsbD (k % 8)))) ∧
      (e.smc.overrun = true ↔ s.dev.smc.overrun = true ∨ ∃ j, s.dev.smc.job = some j ∧
        ∃ a, addr ≤ a ∧ a < addr + data.length ∧
          ((j.addr ≤ a ∧ a < j.addr + 64) ∨ ∃ l, s.dev.smc.layout = some l ∧ l.maint ≤ a ∧ a < l.maint + 64)))

/-- What the five registers read (R169; 10 section 10.2), and the request that a write of CONTROL is (R170). A write of CONTROL that
asks for nothing sets IE, and a rise of IE
while NEWS is nonzero sends one message (R170, R183). A link loss is given whole (R176), and the link's return changes the
link alone (R168). A write to another register changes nothing (R169), nor does a host access while the link is down (R168;
log 33). -/
def Obligations.RegistersAndLink : Prop :=
  (∀ v : BitVec 32,
    registerWrite 4 v = (if v.getLsbD 2 = true then .softReset (v.getLsbD 0) (match (v.extractLsb' 4 2).toNat with
        | 0 => .full | 1 => .safety | 2 => .carriers | _ => .none)
      else if v.getLsbD 1 = true then .start (v.getLsbD 0) else .ieWrite (v.getLsbD 0)) ∧
    ∀ o, o ≠ 4 → registerWrite o v = .registerWriteIgnored o v) ∧
  (∀ d : Dev,
    readRegister d 0 = 0x00012780 ∧ readRegister d 4 = (if d.hp.ie = true then 1 else 0) ∧
      (readRegister d 8).extractLsb' 0 2 = (match d.smc.state with
        | .booting => 0 | .autonomous => 1 | .linked => 2) ∧
      (readRegister d 8).extractLsb' 4 3 = (match d.smc.bootResult.outcome with
        | .none => 0 | .loaded => 1 | .noFlash => 2 | .blank => 3 | .badFormat => 4 | .badLength => 5) ∧
      (readRegister d 8).extractLsb' 8 2 = (match d.smc.scope with
        | .full => 0 | .safety => 1 | .carriers => 2 | .none => 3) ∧
      readRegister d 8 &&& 0xFFFFFC8C = 0 ∧
      readRegister d 12 = (match d.smc.cause with
        | .startEarly => 1 | .badSignature => 2 | .badVersion => 3 | .areaMisaligned => 4 | .areaOutside => 5
        | .areaOverlap => 6 | .scopeInvalid => 7 | .noneSinceReset => 15) ∧
      readRegister d 16 = BitVec.ofNat 32 ((allFin 85).filter (fun i => d.smc.news.get i)).length ∧
      ∀ k, k ∉ [0, 4, 8, 12, 16] → readRegister d k = 0) ∧
    (∀ s, Completes .pcieLinkLoss s (fun e =>
      e = { s.dev.event with
        hp := { s.dev.hp with ie := false, linkUp := false },
        smc := if s.dev.smc.state = .linked then
            { s.dev.smc with state := .autonomous, notices := [], deferred := Tab.const 6 false, masks := Tab.const 85 0 }
          else s.dev.smc })) ∧
    (∀ s ie, s.dev.hp.linkUp = true → Completes (.ieWrite ie) s (fun e =>
      e = { s.dev.event with hp := { s.dev.hp with
        ie := ie,
        messages := if ie = true ∧ s.dev.hp.ie = false ∧ newsCount s.dev ≠ 0 then s.dev.hp.messages + 1
          else s.dev.hp.messages } })) ∧
    (∀ s, Completes .pcieLinkReturn s (fun e => e = { s.dev.event with hp := { s.dev.hp with linkUp := true } })) ∧
    (∀ o v s, exec (.registerWriteIgnored o v) s = .next s) ∧
    ∀ s, s.dev.hp.linkUp = false → (∀ b, exec (.ieWrite b) s = .next s) ∧ (∀ b, exec (.start b) s = .next s) ∧
      (∀ b c, exec (.softReset b c) s = .next s) ∧
      ∀ a b, a + b.length ≤ 67108864 → exec (.hostMemoryWrite a b) s = .next s

/-- A block's setting of a latch bit (R17, R181, R182, R183): the bit set and taken from the clear mask, the news bit set,
a message at a rise of NEWS from 0 with IE 1, the latch word shown in shared memory, and the cell's word of the news bitmap
at a rise of its news bit; nothing else, and nothing at all while the part is not LINKED. -/
def Obligations.SettingALatchRaisesNews : Prop :=
  ∀ (d : Dev) (i : Fin 85) (b : Fin 32), (d.smc.state ≠ .linked → setLatch d i b = d) ∧
    (d.smc.state = .linked → NewsInv d → ShownOnly [i] d (setLatch d i b) ∧
      (∀ k, k < 32 → ((setLatch d i b).smc.latches.get i).getLsbD k = ((d.smc.latches.get i).getLsbD k || k == b.val) ∧
        ((setLatch d i b).smc.masks.get i).getLsbD k = ((d.smc.masks.get i).getLsbD k && k != b.val)) ∧
      (setLatch d i b).smc.news.get i = true ∧
      (setLatch d i b).hp.messages = d.hp.messages + (if d.hp.ie = true ∧ newsCount d = 0 then 1 else 0) ∧
      ∀ l, d.smc.layout = some l → LayoutInv d →
        (setLatch d i b).smc.mem.readN (statusAddr l i) 4 = le 4 ((setLatch d i b).smc.latches.get i).toNat ∧
        (d.smc.latches.get i = 0 → ∀ k, k < 32 →
          ((setLatch d i b).smc.mem.read (l.news + 4 * (i.val / 32) + k / 8)).getLsbD (k % 8) =
            if h : 32 * (i.val / 32) + k < 85 then (setLatch d i b).smc.news.get ⟨32 * (i.val / 32) + k, h⟩ else false))

/-- START while BOOTING, or with an anchor that fails its check (R174); in a part that does not BOOT it clears the notice
queue, the clear masks and, unless a revision word makes a mark anew, the deferred take-up marks. -/
def Obligations.StartIsRefused : Prop :=
  ∀ s ie, s.dev.hp.linkUp = true →
    (s.dev.smc.state = .booting → Completes (.start ie) s (fun e =>
      e = { takeIe s.dev.event ie with smc := { s.dev.smc with cause := .startEarly } })) ∧
    (∀ c, s.dev.smc.state ≠ .booting → anchorCheck s.dev.smc.mem = some c → Completes (.start ie) s (fun e =>
      e = { takeIe s.dev.event ie with smc := { s.dev.smc with
        cause := c, state := .autonomous, notices := [], deferred := Tab.const 6 false, masks := Tab.const 85 0 } })) ∧
    (s.dev.smc.state ≠ .booting → Completes (.start ie) s (fun e => e.smc.notices = [] ∧ (∀ i, e.smc.masks.get i = 0) ∧
      ((∀ t, revisionWord s.dev.smc.mem (anchorLayout s.dev.smc.mem) t = 0) → ∀ t, e.smc.deferred.get t = false)))

/-- The anchor check (R173), in its own reading of the anchor page (10 section 10.3): signature, version, each of the twelve
areas in the order of the anchor first aligned and then inside the memory, and last no byte in two of the thirteen extents. The
first check that fails gives its code; the START is refused with it and the layout in use stands. An anchor that passes all of
them gives the layout, its twelve addresses. The layout changes at no other command but power-on reset, and a host write to the
anchor page is stored as written. -/
def Obligations.AnchorPassesExactlyWhenSound : Prop :=
  (∀ i s t, exec i s = .next t → t.dev.smc.layout ≠ s.dev.smc.layout → i = .powerOnReset ∨ ∃ ie, i = .start ie) ∧
  (∀ s addr data, s.dev.hp.linkUp = true → LayoutInv s.dev → data ≠ [] → addr + data.length ≤ 4096 →
    Completes (.hostMemoryWrite addr data) s (fun e => e.smc.mem.readN addr data.length = data)) ∧
  ∀ m : Memory,
    let word := fun a : Nat => (m.read a).toNat + 256 * (m.read (a + 1)).toNat + 65536 * (m.read (a + 2)).toNat +
      16777216 * (m.read (a + 3)).toNat
    let areas : List (Nat × Nat) := (List.range 12).map (fun k => (word (8 + 4 * k), if k = 3 then 8192 else 4096))
    let sound := fun a : Nat × Nat => a.1 % 4096 = 0 ∧ a.1 + a.2 ≤ 67108864
    let apart := ((0, 4096) :: areas).Pairwise (fun a b => ∀ x, ¬(a.1 ≤ x ∧ x < a.1 + a.2 ∧ b.1 ≤ x ∧ x < b.1 + b.2))
    let headed := word 0 = 0x5A2780A5 ∧ word 4 = 1
    (word 0 ≠ 0x5A2780A5 → anchorCheck m = some .badSignature) ∧
    (word 0 = 0x5A2780A5 → word 4 ≠ 1 → anchorCheck m = some .badVersion) ∧
    (headed → ∀ before a after, areas = before ++ a :: after → (∀ x ∈ before, sound x) →
      (a.1 % 4096 ≠ 0 → anchorCheck m = some .areaMisaligned) ∧
      (a.1 % 4096 = 0 → 67108864 < a.1 + a.2 → anchorCheck m = some .areaOutside)) ∧
    (headed → (∀ a ∈ areas, sound a) → (¬ apart → anchorCheck m = some .areaOverlap) ∧ (apart → anchorCheck m = none)) ∧
    ∀ (s : State) (ie : Bool), s.dev.smc.mem = m → s.dev.hp.linkUp = true → s.dev.smc.state ≠ .booting →
      (∀ c, anchorCheck m = some c → Completes (.start ie) s (fun e =>
        e.smc.cause = c ∧ e.smc.state = .autonomous ∧ e.smc.layout = s.dev.smc.layout)) ∧
      (anchorCheck m = none → Completes (.start ie) s (fun e => e.smc.state = .linked ∧
        ∃ l, e.smc.layout = some l ∧ [l.revision, l.cues, l.maint, l.status, l.news, l.snapshot, l.channel, l.remote, l.route,
          l.source, l.programme, l.rescue] = areas.map Prod.fst))

/-- START with an anchor that passes (R175): the part is LINKED with the layout and no notice; the boot mark becomes the latch
BOOT_DONE (R192). With no revision word, cue or command to take, and no exchange under way, every status cell shows its latch
word and its live fields, 0 elsewhere, and the news bitmap its words (R214; slot fields by range: log 25; fields of an ended
service: log 51; fields that do not apply: log 53; end reason: log 58; first play instant: log 9). With no maintenance command in flight, each table but
ROUTE whose revision word is nonzero is taken up (a SOURCE table moves the record that ALARM's requests are masked by log 50);
each POSTED cue is answered and starts its service or is held as at a notice (R115, R116, R118, R119, R187), other cue cells are left;
and a POSTED command is taken, here each that its take completes with an answer known from the state before (R44, R46, R47, R48,
R146, R188, R189, R207, R208, R209), so not an accepted PATTERN_START or flash command, nor one on a running test. That bits
31:8 of the state words read 0 is the model's choice (log 55). -/
def Obligations.StartLinksThePart : Prop :=
  ∀ s ie, s.dev.hp.linkUp = true → s.dev.smc.state ≠ .booting → anchorCheck s.dev.smc.mem = none →
    Completes (.start ie) s (fun e =>
      e.smc.state = .linked ∧ e.smc.layout = some (anchorLayout s.dev.smc.mem) ∧ e.smc.cause = s.dev.smc.cause ∧
        e.smc.scope = s.dev.smc.scope ∧ e.smc.bootResult = s.dev.smc.bootResult ∧ e.smc.notices = [] ∧
        (∀ i, e.smc.masks.get i = 0) ∧ e.smc.bootMark = false ∧ e.hp.ie = ie ∧ e.fb.chip = s.dev.fb.chip ∧
        (e.smc.latches.get partCell).getLsbD 3 = s.dev.smc.bootMark ∧
        (s.dev.smc.job = none →
          TablesTaken s.dev.smc.mem (anchorLayout s.dev.smc.mem)
            (fun t => revisionWord s.dev.smc.mem (anchorLayout s.dev.smc.mem) t ≠ 0)
            { s.dev with smc := { s.dev.smc with lastReq := Tab.const 6 0 } } e) ∧
        let m := s.dev.smc.mem
        let l := anchorLayout m
        ((∀ t, revisionWord m l t = 0) → s.dev.rp.phase = .idle → (∀ n, cellState m (cueAddr l n) ≠ 1) →
          s.dev.smc.job ≠ none ∨ cellState m l.maint ≠ 1 →
          CellShows e.smc.mem (statusAddr l partCell) (if s.dev.smc.bootMark then 8 else 0) (partLive e) ∧
            (∀ x, CellShows e.smc.mem (statusAddr l (portCell x)) 0 (portLive e x)) ∧
            (∀ r, CellShows e.smc.mem (statusAddr l (remoteCell r)) 0 (remoteLive e r)) ∧
            (∀ x, CellShows e.smc.mem (statusAddr l (slotCell x)) 0 (slotLive e x)) ∧
            (∀ n, CellShows e.smc.mem (statusAddr l (sourceCell n)) 0 (sourceLive e n)) ∧
            (∀ k, k < 12 → e.smc.mem.read (l.news + k) = if k = 0 ∧ s.dev.smc.bootMark = true then 1 else 0) ∧
            Only [.clock, .hp, .smc] s.dev e) ∧
        (s.dev.smc.job = none → revisionWord m l .source = 0 → ∀ n,
          let c := s.dev.source n
          let t := s.dev.bic.table.get n
          let a := cueAddr l n
          let stands := (e.source n).inService = c.inService ∧ (e.source n).lineReq = c.lineReq
          (cellState m a ≠ 1 → e.smc.mem.readN a 64 = m.readN a 64 ∧ stands ∧ (e.source n).cueReq = c.cueReq) ∧
          (cellState m a = 1 →
            (∀ r, cueCheck s.dev l n (readCue m a) = .inl r →
              e.smc.mem.readN a 8 = le 4 3 ++ le 4 r.code ∧ stands ∧ (e.source n).cueReq = c.cueReq) ∧
            ∀ q, cueCheck s.dev l n (readCue m a) = .inr q → e.smc.mem.readN a 8 = le 4 2 ++ le 4 0 ∧
              (c.inService = true ∨ t.enabled = false ∨ s.dev.bic.master = false →
                stands ∧ (e.source n).cueReq = some q) ∧
              (c.inService = false → t.enabled = true → s.dev.bic.master = true →
                (e.source n).isPending = false ∧ ServiceStarts s.dev n q (resolveOrigin s.dev q.origin).1 e))) ∧
        (s.dev.smc.job = none → (cellState m l.maint ≠ 1 → e.smc.mem.readN l.maint 64 = m.readN l.maint 64 ∧ e.smc.job = none) ∧
          (cellState m l.maint = 1 →
            let c := readMaint m l.maint
            let answers := fun state code => e.smc.mem.readN l.maint 16 = answerBytes state code c.tag ∧ e.smc.job = none ∧
              (e.smc.latches.get partCell).getLsbD 5 = true
            (c.code = 0 ∨ 9 < c.code → answers 4 1) ∧
            (c.code = 1 → c.pos ≠ 0 ∨ c.port < 4 → answers 3 0 ∧ e.rs.snapSeq = s.dev.rs.snapSeq + 1) ∧
            (c.code = 2 → ∀ x : Fin 4, c.port = x.val → answers 3 0 ∧ (e.port x).state = .dark) ∧
            (s.dev.rs.test = none → c.code = 4 ∨ c.code = 5 → answers 4 6) ∧
            (c.code = 6 → answers 3 0 ∧ (e.smc.latches.get partCell).getLsbD 2 = true) ∧
            (s.dev.fb.present = false → c.code = 7 ∨ c.code = 8 ∨ c.code = 9 → answers 4 7))))

/-- A soft reset request (R177): refused without a flash, else taken, with the answers of the BIC (R137), the UV (R166) and
the FB (R196), and the channel bank, ports, budgets, reference unit and working tables kept. A voter without a selection gives
zeros, and its frame timer and sequence run on (R166). -/
def Obligations.SoftResetEndsServicesAndBoots : Prop :=
  ∀ s ie sc, s.dev.hp.linkUp = true →
    (sc ≠ .none → s.dev.fb.present = false → Completes (.softReset ie sc) s (fun e =>
      e = { takeIe s.dev.event ie with smc := { s.dev.smc with cause := .scopeInvalid } })) ∧
    (sc = .none ∨ s.dev.fb.present = true → Completes (.softReset ie sc) s (fun e =>
      e.smc.state = .booting ∧ e.smc.cause = .noneSinceReset ∧ e.smc.scope = sc ∧ e.smc.notices = [] ∧
        (∀ t, e.smc.deferred.get t = false) ∧ (∀ i, e.smc.masks.get i = 0) ∧ e.hp.ie = ie ∧
        e.smc.layout = s.dev.smc.layout ∧ e.smc.latches = s.dev.smc.latches ∧ e.smc.news = s.dev.smc.news ∧
        KeepsHostBytes s.dev e ∧
        (∀ n, (e.source n).inService = false ∧ (e.source n).isPending = false ∧ (e.source n).cancelHold = false ∧
          (e.source n).endReason = if (s.dev.source n).inService then .reset else (s.dev.source n).endReason) ∧
        (BimInv s.dev → ∀ m, (e.bim m).pair = none) ∧
        (∀ k, (e.voter k).sel = none ∧ (e.voter k).offset = 0 ∧ (e.voter k).best = none ∧
          (∀ r, (e.voter k).cur.get r = none ∧ (e.voter k).last.get r = none) ∧
          (∀ x : Fin 32 → Sample, (voterSample (e.voter k) x).2 = Sample.zero) ∧
          (e.voter k).due = (s.dev.voter k).due ∧ (e.voter k).seq = (s.dev.voter k).seq) ∧
        e.fb.boot = some (BootRec.begin sc) ∧ e.fb.chip = s.dev.fb.chip ∧ e.lm = s.dev.lm ∧ e.lp = s.dev.lp ∧
        e.lbu = s.dev.lbu ∧ e.sru = s.dev.sru ∧ e.rp.routes = s.dev.rp.routes ∧ e.rp.phase = s.dev.rp.phase ∧
        e.tables = s.dev.tables))

/-! ### Notices -/

/-- The bytes of the host's tables but ROUTE, and the forms of SOURCE, PROGRAMME and RESCUE (R89, R110, R140, R213; 10 section
10.4). The checks and forms of the channel and remote tables (R3, R4, R52; the fields that do not apply to a kind are 0 by log
20). The take of the revision cell's notice (R184, R185): each table but ROUTE whose word is neither 0 nor its last
requested revision is taken up, with its taken revision and TAKE_UP_DONE, or refused, with the refusal record and
TAKE_UP_REFUSED; the others stand. The slots follow a new channel table by step change, retune, turn-on and turn-off (R5, R6,
R12, R14; the last clip count by log 25, the samples kept for the next frame by log 29), and a remote that a new remote table
disables is ABSENT (R41; the time set for its next MARK is cleared by log 14). A source table ends, withdraws and starts by its
new entries, a start with the parameters of a held cue or the new defaults (R111, R119, logs 9, 58; ALARM after a failed boot: log
50; that line use turned on under LATCHED with the line up asks for nothing: log 18). -/
def Obligations.RevisionNoticeTakesTablesUp : Prop :=
  (∀ (b : List Byte) (n : Fin 8),
    let byte := fun k => (b.getD k 0).toNat
    let word := fun k => byte k + 256 * byte (k + 1)
    parseChan b = {
      kind := byte 0, donor := byte 1, bandwidth := byte 2, step := byte 3, upStep := byte 4,
      keyThreshold := word 6, offset := if word 10 < 32768 then ((word 8 + 65536 * word 10 : Nat) : Int)
        else ((word 8 + 65536 * word 10 : Nat) : Int) - 4294967296 } ∧
    parseRemote b = {
      enabled := byte 0, zone := byte 1, impairment := byte 2, budget := word 4 + 65536 * word 6, gate := word 8 } ∧
    parseSource n b = {
      enabled := decide (byte 0 ≠ 0), latched := decide (byte 1 % 4 = 1), again := decide (byte 1 / 4 % 4 = 1)
      overlay := decide (byte 1 / 16 % 4 = 1), duck := min 47 (byte 2), announce := min 47 (byte 3)
      zones := BitVec.ofNat 16 (word 4), progs := BitVec.ofNat 8 (byte 6)
      origin := if byte 7 = 3 then .flash (byte 8) else if byte 7 = 4 ∧ (n = 1 ∨ n = 2) then .line else .none
      repeats := byte 9, gap := word 10
      lineUse := decide (byte 1 / 64 % 2 = 1 ∧ n.val < 3 ∧ word 4 ≠ 0 ∧ byte 6 ≠ 0) } ∧
    parseProg b = { limit := min 32767 (word 0), kDev := word 2, lossThreshold := word 4, drop := decide (byte 6 ≠ 0) } ∧
    parseGuard b = min 4095 (word 0) ∧ parseRescue b = { hysteresis := byte 0, spliceLimit := min 1020 (word 2) }) ∧
  (∀ (m : Memory) (l : Layout),
    (∀ x : Fin 40, (hostChan m l).get x = parseChan (m.readN (l.channel + 16 * x.val) 12)) ∧
    (∀ r : Fin 32, (hostRemote m l).get r = parseRemote (m.readN (l.remote + 16 * r.val) 12)) ∧
    (hostMaster m l = true ↔ m.read l.source ≠ 0) ∧
    (∀ n : Fin 8, (hostSources m l).get n = parseSource n (m.readN (l.source + 16 + 16 * n.val) 12)) ∧
    (∀ p : Fin 8, (hostProgs m l).get p = parseProg (m.readN (l.programme + 16 * p.val) 12)) ∧
    hostGuard m l = parseGuard (m.readN l.rescue 2) ∧
    ∀ k : Fin 8, (hostRescue m l).get k = parseRescue (m.readN (l.rescue + 16 + 16 * k.val) 12)) ∧
  (∀ t : Tab 40 ChanRaw,
    let range := fun s : Fin 40 => if s.val < 8 then 1 else if s.val < 16 then 2 else 3
    let sound := fun s => (t.get s).kind = 0 ∨
      (t.get s).kind = range s ∧ -30000 ≤ (t.get s).offset ∧ (t.get s).offset ≤ 30000
    (chanCheck t = none ↔ ∀ s, sound s) ∧
    (∀ s, ¬ sound s → (∀ k, k < s → sound k) → chanCheck t =
      some (s.val, if (t.get s).kind = range s then .badFrequency else .slotKind)) ∧
    ∀ s, ((t.get s).kind = 0 → (chanForm s (t.get s)).kind = .off) ∧
      ((t.get s).kind ≠ 0 → chanForm s (t.get s) = {
        kind := if s.val < 8 then .programme else if s.val < 16 then .rescue else .carrier
        donor := decide ((t.get s).donor ≠ 0), offset := (t.get s).offset
        bandwidth := if s.val < 16 then 0 else min 2 (t.get s).bandwidth, step := min 47 (t.get s).step
        upStep := if s.val < 8 then 0 else min 47 (t.get s).upStep
        keyThreshold := if 8 ≤ s.val ∧ s.val < 16 then (t.get s).keyThreshold else 0 })) ∧
  (∀ t : Tab 32 RemoteRaw,
    (remoteCheck t = none ↔ ∀ r, (t.get r).zone ≤ 15) ∧
    (∀ r, 15 < (t.get r).zone → (∀ k, k < r → (t.get k).zone ≤ 15) → remoteCheck t = some (r.val, .badZone)) ∧
    ∀ r, (t.get r).zone ≤ 15 →
      (remoteForm (t.get r)).enabled = decide ((t.get r).enabled ≠ 0) ∧ (remoteForm (t.get r)).zone.val = (t.get r).zone ∧
        (remoteForm (t.get r)).budget = min 4194303 (t.get r).budget ∧ (remoteForm (t.get r)).gate = (t.get r).gate ∧
        (remoteForm (t.get r)).impairment = (t.get r).impairment) ∧
  ∀ s l q, s.dev.smc.state = .linked → s.dev.smc.layout = some l → LayoutInv s.dev →
    s.dev.smc.notices = .revision :: q → s.dev.smc.job = none →
    Completes .revisionNoticeTake s (fun e =>
      e.smc.notices = q ∧ e.smc.state = .linked ∧ e.smc.layout = some l ∧
        TablesTaken s.dev.smc.mem l
          (fun t => revisionWord s.dev.smc.mem l t ≠ 0 ∧ revisionWord s.dev.smc.mem l t ≠ s.dev.smc.lastReq.get t.index)
          s.dev e ∧
        SlotsSwitched s.dev e ∧ RemotesDisabled s.dev e ∧
        (revisionWord s.dev.smc.mem l .source ≠ 0 → revisionWord s.dev.smc.mem l .source ≠ s.dev.smc.lastReq.get 3 →
          ∀ n, RequestsSwitched s.dev e n))

/-- The capacity check of a route table in its own count of lanes (R59), the lane of each rescue pair (R56), the MAP of a remote
and a slot (R55, R57), and the form of the host's entries (R54). The ROUTE word at the take of the revision cell's notice (R60,
R184, R185): a word of 0 or the last requested one does nothing; with no route take-up in flight, a table that fails the
capacity check is refused and recorded, and one that passes stages exactly the remotes in service whose MAP differs for some
slot, and offers each the differing MAPs alone, or with none to stage switches at once (R60, R61); during an exchange, or while
a boot load waits behind it, the deferred mark is set and the word is not recorded (R64, R71, R184). -/
def Obligations.RouteRevisionStartsTheExchange : Prop :=
  (∀ rt : Routes,
    (routeCheck rt = none ↔ ∀ x, downstreamLanes rt x ≤ 308 ∧ upstreamLanes rt x ≤ 320) ∧
    ∀ x : Fin 4, (∀ y, y < x → downstreamLanes rt y ≤ 308 ∧ upstreamLanes rt y ≤ 320) →
      (308 < downstreamLanes rt x → routeCheck rt = some (x.val, .lanesExceeded)) ∧
      (downstreamLanes rt x ≤ 308 → 320 < upstreamLanes rt x → routeCheck rt = some (x.val, .uplinkLanesExceeded))) ∧
  (∀ (rt : Routes) (x : Fin 4) (p k : Fin 8),
    let up := fun (a b : Fin 8) => ((rt.get (rescueSlot b)).get (remoteAt x a)).uplink = true
    let free := fun i : Nat => ∀ c : Fin 40, 16 ≤ c.val → (∃ r, portOf r = x ∧ ((rt.get c).get r).uplink = true) →
      ¬(downLane rt x c ≤ i ∧ i < downLane rt x c + 16)
    (¬ up p k → rescueLane rt x (p, k) = none) ∧
    (up p k → upstreamLanes rt x ≤ 320 →
      ∃ (i : Nat) (lanes : List Nat) (pairs : List (Fin 8 × Fin 8)), rescueLane rt x (p, k) = some i ∧ i < 320 ∧ free i ∧
        lanes.Nodup ∧ (∀ j, j ∈ lanes ↔ j < i ∧ free j) ∧
        pairs.Nodup ∧ (∀ q, q ∈ pairs ↔ up q.1 q.2 ∧ (q.1 < p ∨ q.1 = p ∧ q.2 < k)) ∧ lanes.length = pairs.length)) ∧
  (∀ (rt : Routes) (r : Fin 32) (c : Fin 40),
    let x := (rt.get c).get r
    let pair := rescueLane rt (portOf r) (posOf r, ⟨c.val % 8, by omega⟩)
    (x.routed = false → mapOf rt r c = none) ∧
    (x.routed = true → mapOf rt r c = some {
      lane := ((allFin 40).map (fun t => if t < c ∧ ∃ y, portOf y = portOf r ∧ ((rt.get t).get y).routed = true
        then blockLanes t else 0)).sum
      trim := x.trim, uplink := x.uplink
      upLane := if 8 ≤ c.val ∧ c.val < 16 ∧ x.uplink = true then pair.getD 0 else 0 })) ∧
  (∀ (m : Memory) (l : Layout) (c : Fin 40) (r : Fin 32),
    let b := m.read (l.route + 8 * (4 * c.val + r.val / 8) + r.val % 8)
    ((hostRoutes m l).get c).get r = {
      routed := b.getLsbD 7, uplink := b.getLsbD 7 && b.getLsbD 6 && decide (8 ≤ c.val), trim := min 47 (b.toNat % 64) }) ∧
  (∀ s l q, s.dev.smc.state = .linked → s.dev.smc.layout = some l → LayoutInv s.dev →
    s.dev.smc.notices = .revision :: q → s.dev.smc.job = none →
    (s.dev.rp.phase = .staging ∧ (∃ r ∈ s.dev.rp.staged, ∃ x ∈ (s.dev.remote r).queue, x.msg.kind = .map) ∨
      s.dev.rp.phase = .switching ∧
        ∃ r ∈ s.dev.rp.switching, ∃ x ∈ (s.dev.remote r).queue, x.msg.kind = .map ∨ x.msg.kind = .switch) →
    revisionWord s.dev.smc.mem l .remote = 0 ∨ revisionWord s.dev.smc.mem l .remote = s.dev.smc.lastReq.get 1 →
    Completes .revisionNoticeTake s (fun e =>
      let asked := revisionWord s.dev.smc.mem l .route ≠ 0 ∧ revisionWord s.dev.smc.mem l .route ≠ s.dev.smc.lastReq.get 2
      (e.smc.deferred.get 2 = true ↔ s.dev.smc.deferred.get 2 = true ∨ asked) ∧
        e.smc.lastReq.get 2 = s.dev.smc.lastReq.get 2 ∧ e.smc.taken.get 2 = s.dev.smc.taken.get 2 ∧
        e.rp.phase = s.dev.rp.phase ∧ e.rp.routes = s.dev.rp.routes ∧ e.rp.newRoutes = s.dev.rp.newRoutes ∧
        e.rp.staged = s.dev.rp.staged ∧ e.rp.bootRows = s.dev.rp.bootRows)) ∧
  ∀ s l q, s.dev.smc.state = .linked → s.dev.smc.layout = some l → LayoutInv s.dev →
    s.dev.smc.notices = .revision :: q → s.dev.smc.job = none → s.dev.rp.phase = .idle → s.dev.rp.bootRows = none →
    Completes .revisionNoticeTake s (fun e =>
      (revisionWord s.dev.smc.mem l .route = 0 ∨ revisionWord s.dev.smc.mem l .route = s.dev.smc.lastReq.get 2 →
        e.rp.routes = s.dev.rp.routes ∧ e.rp.phase = .idle ∧ e.smc.lastReq.get 2 = s.dev.smc.lastReq.get 2) ∧
      (revisionWord s.dev.smc.mem l .route ≠ 0 → revisionWord s.dev.smc.mem l .route ≠ s.dev.smc.lastReq.get 2 →
        e.smc.lastReq.get 2 = revisionWord s.dev.smc.mem l .route ∧
        (∀ i c, routeCheck (hostRoutes s.dev.smc.mem l) = some (i, c) →
          e.rp.routes = s.dev.rp.routes ∧ e.rp.phase = .idle ∧
            e.smc.lastRefusal = some ⟨.route, revisionWord s.dev.smc.mem l .route, i, c⟩) ∧
        (routeCheck (hostRoutes s.dev.smc.mem l) = none →
          let new := hostRoutes s.dev.smc.mem l
          let differs := fun (r : Fin 32) (c : Fin 40) => mapOf s.dev.rp.routes r c ≠ mapOf new r c
          let disabled := fun r : Fin 32 => (s.dev.entry r).enabled = true ∧ (e.entry r).enabled = false
          let stages := fun r : Fin 32 => (s.dev.remote r).serving = true ∧ ¬ disabled r ∧ ∃ c, differs r c
          ((∃ r, stages r) →
            e.rp.phase = .staging ∧ e.rp.newRoutes = new ∧ e.rp.routes = s.dev.rp.routes ∧ e.rp.newBoot = false ∧
              e.rp.stagingDue = s.dev.now + 2457600 ∧ (∀ r, r ∈ e.rp.staged ↔ stages r) ∧
              e.smc.taken.get 2 = s.dev.smc.taken.get 2 ∧
              ∀ r, ¬ disabled r → ∀ c,
                (stages r → differs r c →
                  ∃ y ∈ (e.remote r).queue, y.msg = .map c (mapOf new r c) ∧ y.sent = false ∧ y.count = 0) ∧
                (¬ stages r ∨ ¬ differs r c → ∀ y, y.msg.id = ⟨.map, c.val⟩ →
                  (y ∈ (e.remote r).queue ↔ y ∈ (s.dev.remote r).queue))) ∧
          ((∀ r, ¬ stages r) →
            e.rp.phase ≠ .staging ∧ e.rp.routes = new ∧
              e.smc.taken.get 2 = revisionWord s.dev.smc.mem l .route))))

/-- A POSTED cue that fails a check is answered REFUSED with its code and does nothing else; one that passes is answered
TAKEN and its request stands in the pending record, in place of an earlier one, while the source cannot start (R115, R116,
R187). The checks are those of R115 in their order; the fields of the cell are the bytes of 10 section 10.5. That bits 31:8 of the
state word read 0 is the model's choice (log 55). -/
def Obligations.PostedCueIsAnswered : Prop :=
  (∀ (m : Memory) (a : Nat),
    let byte := fun k => (m.read (a + k)).toNat
    let word := fun k => byte k + 256 * byte (k + 1)
    readCue m a = { zones := BitVec.ofNat 16 (word 8), progs := m.read (a + 10), origin := byte 11, clipId := byte 12
                    repeats := byte 13, gap := word 14, addr := word 16 + 65536 * word 18, len := word 20 + 65536 * word 22 }) ∧
  (∀ (d : Dev) (l : Layout) (n : Fin 8) (c : CueCell),
    let t := d.bic.table.get n
    let z := if c.zones = 0 then t.zones else c.zones
    let p := if c.progs = 0 then t.progs else c.progs
    let busy := (d.source n).inService = true ∧ t.again = false
    (busy → cueCheck d l n c = .inl .busy) ∧
    (¬ busy → 4 < c.origin → cueCheck d l n c = .inl .badOrigin) ∧
    (¬ busy → ∀ o : ReqOrigin,
      (c.origin = 0 ∧ o = t.origin ∨ c.origin = 1 ∧ o = .none ∨ c.origin = 2 ∧ o = .shared c.addr c.len ∨
        c.origin = 3 ∧ o = .flash c.clipId ∨ c.origin = 4 ∧ o = .line) →
      let misplaced := o = .line ∧ n.val ≠ 1 ∧ n.val ≠ 2
      let bad := (∃ a k, o = .shared a k ∧ (a % 64 ≠ 0 ∨ k = 0 ∨ 67108864 < a + 2 * k ∨
          ∃ x ∈ (0, 4096) :: l.areas, ∃ y, a ≤ y ∧ y < a + 2 * k ∧ x.1 ≤ y ∧ y < x.1 + x.2)) ∨
        ∃ id, o = .flash id ∧ ∀ h : id < 16, d.fb.dir.get ⟨id, h⟩ = none
      (misplaced → cueCheck d l n c = .inl .badOrigin) ∧
      (¬ misplaced → bad → cueCheck d l n c = .inl .badClip) ∧
      (¬ misplaced → ¬ bad → z = 0 ∨ p = 0 → cueCheck d l n c = .inl .nothingToDo) ∧
      (¬ misplaced → ¬ bad → z ≠ 0 → p ≠ 0 → cueCheck d l n c = .inr ⟨z, p, o, c.repeats, c.gap⟩))) ∧
  ∀ s l q n, s.dev.smc.state = .linked → s.dev.smc.layout = some l → s.dev.smc.notices = .cue n :: q →
    cellState s.dev.smc.mem (cueAddr l n) = 1 →
    (∀ r, cueCheck s.dev l n (readCue s.dev.smc.mem (cueAddr l n)) = .inl r → Completes .cue s (fun e =>
      e = { s.dev.event with smc := { s.dev.smc with
        notices := q, mem := s.dev.smc.mem.write (cueAddr l n) (le 4 3 ++ le 4 r.code) } })) ∧
    ∀ x, cueCheck s.dev l n (readCue s.dev.smc.mem (cueAddr l n)) = .inr x →
      (s.dev.source n).inService = true ∨ (s.dev.bic.table.get n).enabled = false ∨ s.dev.bic.master = false →
      Completes .cue s (fun e => ShownOnly [sourceCell n]
        (({ s.dev.event with smc := { s.dev.smc with
            notices := q, mem := s.dev.smc.mem.write (cueAddr l n) (le 4 2 ++ le 4 0) } } : Dev).setSource n
          (fun c => { c with cueReq := some x })) e)

/-- A cue that passes its checks starts the service of an idle, enabled source at once, with the cue's parameters (R116,
R118, R119, R120, R126). That the first play instant comes 768 ticks after the start (log 9), that the end reason is none at once
(log 58), and that bits 31:8 of the cell's state word read 0 (log 55), are the model's choices. -/
def Obligations.AcceptedCueStartsTheService : Prop :=
  ∀ s l q n x, s.dev.smc.state = .linked → s.dev.smc.layout = some l → LayoutInv s.dev →
    s.dev.smc.notices = .cue n :: q → cellState s.dev.smc.mem (cueAddr l n) = 1 →
    cueCheck s.dev l n (readCue s.dev.smc.mem (cueAddr l n)) = .inr x → (s.dev.source n).inService = false →
    (s.dev.bic.table.get n).enabled = true → s.dev.bic.master = true → s.dev.smc.job = none →
    Completes .cue s (fun e =>
      e.smc.notices = q ∧ e.smc.mem.readN (cueAddr l n) 8 = le 4 2 ++ le 4 0 ∧
        ServiceStarts s.dev n x (resolveOrigin s.dev x.origin).1 e ∧ (e.source n).isPending = false ∧
        e.tables = s.dev.tables ∧
        ∀ k, k ≠ n → (e.source k).inService = (s.dev.source k).inService)

/-- A CANCEL (R117, R134, R187): the service ends with CANCELLED, the requests are cleared, a LEVEL line that is up is held off,
the cell shows CANCELLED. That ALARM after a failed boot counts as a LEVEL line with line use off is the model's reading (log 50);
that bits 31:8 of the cell's state word read 0 is its choice (log 55). -/
def Obligations.CancelEndsTheServiceAndClearsTheRequest : Prop :=
  ∀ s l q n, s.dev.smc.state = .linked → s.dev.smc.layout = some l → s.dev.smc.notices = .cue n :: q →
    cellState s.dev.smc.mem (cueAddr l n) = 4 →
    Completes .cancel s (fun e =>
      e.smc.notices = q ∧ e.smc.mem.readN (cueAddr l n) 8 = le 4 5 ++ le 4 0 ∧
        (e.source n).inService = false ∧ (e.source n).isPending = false ∧
        (e.source n).cancelHold = ((s.dev.source n).cancelHold || (levelLine s.dev n && lineLevel s.dev n)) ∧
        (e.source n).endReason = (if (s.dev.source n).inService then .cancelled else (s.dev.source n).endReason) ∧
        ((s.dev.source n).inService = true → (e.source n).fifo = [] ∧ (e.source n).settleDue = none ∧
          (e.smc.latches.get (sourceCell n)).getLsbD 1 = true) ∧
        (BimInv s.dev → ∀ m p, (e.bim m).pair ≠ some (n, p)) ∧ e.tables = s.dev.tables ∧
        ∀ k, k ≠ n → (e.source k).inService = (s.dev.source k).inService)

/-- The take of a status cell's notice clears the bits of its clear mask, zeroes the mask and updates the news bit, with no
message; the latch word is shown, and at the fall of the news bit its word of the news bitmap (R181, R182). A cue cell in
neither POSTED nor CANCEL, and a maintenance notice taken while the unit is BUSY or the cell is not POSTED, lose their notice
and change nothing else (R187, R188). -/
def Obligations.NoticesLeaveTheQueueAtTheirTake : Prop :=
  (∀ s q i, s.dev.smc.state = .linked → s.dev.smc.notices = .status i :: q → NewsInv s.dev →
     Completes .clearOnes s (fun e =>
       ShownOnly [i] { s.dev.event with smc := { s.dev.smc with notices := q } } e ∧
         e.smc.latches.get i = s.dev.smc.latches.get i &&& ~~~(s.dev.smc.masks.get i) ∧ e.smc.masks.get i = 0 ∧
         (e.smc.news.get i = true ↔ s.dev.smc.latches.get i &&& ~~~(s.dev.smc.masks.get i) ≠ 0) ∧
         e.hp.messages = s.dev.hp.messages ∧
         ∀ l, s.dev.smc.layout = some l → LayoutInv s.dev →
           e.smc.mem.readN (statusAddr l i) 4 = le 4 (e.smc.latches.get i).toNat ∧
           (s.dev.smc.latches.get i ≠ 0 → s.dev.smc.latches.get i &&& ~~~(s.dev.smc.masks.get i) = 0 → ∀ k, k < 32 →
             (e.smc.mem.read (l.news + 4 * (i.val / 32) + k / 8)).getLsbD (k % 8) =
               if h : 32 * (i.val / 32) + k < 85 then e.smc.news.get ⟨32 * (i.val / 32) + k, h⟩ else false) ∧
           (s.dev.smc.latches.get i = 0 ∨ s.dev.smc.latches.get i &&& ~~~(s.dev.smc.masks.get i) ≠ 0 → ∀ k, k < 12 →
             e.smc.mem.read (l.news + k) = s.dev.smc.mem.read (l.news + k)))) ∧
    (∀ s l q, s.dev.smc.state = .linked → s.dev.smc.layout = some l →
       (∀ n, s.dev.smc.notices = .cue n :: q → cellState s.dev.smc.mem (cueAddr l n) ≠ 1 →
         cellState s.dev.smc.mem (cueAddr l n) ≠ 4 → Completes .cueCellNoAction s (fun e =>
           e = { s.dev.event with smc := { s.dev.smc with notices := q } })) ∧
       (s.dev.smc.notices = .maint :: q → s.dev.smc.job ≠ none ∨ cellState s.dev.smc.mem l.maint ≠ 1 →
         Completes .maintNoticeNoAction s (fun e => e = { s.dev.event with smc := { s.dev.smc with notices := q } })))

/-! ### Maintenance commands -/

/-- The fields of the maintenance cell (R213; 10 section 10.5). The checks of the flash commands (R207, R208, R209; 09 section
9.7). The commands that are refused at their take (R44, R45,
R46, R47, R48, R188): the answer with its code, MAINT_DONE, and nothing else. That bits 31:8 of the state word read 0 is the
model's choice (log 55). -/
def Obligations.RefusedCommandsOnlyAnswer : Prop :=
  (∀ (m : Memory) (a : Nat),
    let byte := fun k => (m.read (a + k)).toNat
    let long := fun k => byte k + 256 * byte (k + 1) + 65536 * byte (k + 2) + 16777216 * byte (k + 3)
    readMaint m a = { tag := BitVec.ofNat 32 (long 12), code := byte 16, port := byte 20, pos := byte 21, clear := byte 22
                      flashOff := long 24, addr := long 28, len := long 32 }) ∧
  (∀ (d : Dev) (l : Layout) (c : MaintCell),
    (badTransfer d c = true ↔ c.len = 0 ∨ 4096 < c.len ∨ d.fb.size < c.flashOff + c.len ∨ c.addr % 64 ≠ 0 ∨
      67108864 < c.addr + c.len) ∧
    (badErase d c = true ↔ c.flashOff % 4096 ≠ 0 ∨ c.len = 0 ∨ 16 < c.len ∨ d.fb.size < c.flashOff + 4096 * c.len) ∧
    (0 < c.len → (overlapsAreas l c.addr c.len = true ↔
      ∃ x ∈ (0, 4096) :: l.areas, ∃ y, c.addr ≤ y ∧ y < c.addr + c.len ∧ x.1 ≤ y ∧ y < x.1 + x.2)) ∧
    (flashInUse d = true ↔ ∃ n off len, (d.source n).inService = true ∧ (d.source n).origin = some (.flash off len))) ∧
  ∀ s l q c, CommandWaits s.dev l q c →
    let refused := fun (i : Instr) (code : Nat) => Completes i s (fun e =>
      ShownOnly [partCell] (answered s.dev.event l q (answerBytes 4 code c.tag)) e ∧
        e.smc.latches = latchesAfter s.dev partCell latchMaintDone)
    (c.code = 0 ∨ 9 < c.code → refused .badCommand 1) ∧
    (c.code = 1 → c.pos = 0 → 3 < c.port → refused .snapshot 2) ∧
    (c.code = 2 → 3 < c.port → refused .portReset 2) ∧
    (c.code = 3 → 3 < c.port ∨ 7 < c.pos → refused .patternStart 2) ∧
    (∀ (x : Fin 4) (p : Fin 8), c.code = 3 → c.port = x.val → c.pos = p.val →
      (s.dev.rs.test ≠ none → refused .patternStart 3) ∧
      (s.dev.rs.test = none → (s.dev.remote (remoteAt x p)).serving = false → refused .patternStart 4) ∧
      (s.dev.rs.test = none → (s.dev.remote (remoteAt x p)).serving = true →
        (∀ i, (s.dev.pool x).lanes.get i ≠ .free) → refused .patternStart 5)) ∧
    (s.dev.rs.test = none → (c.code = 4 → refused .patternStop 6) ∧ (c.code = 5 → refused .errorInsert 6)) ∧
    (s.dev.fb.present = false → (c.code = 7 → refused .flashRead 7) ∧ (c.code = 8 → refused .flashWrite 7) ∧
      (c.code = 9 → refused .flashErase 7)) ∧
    (s.dev.fb.present = true →
      (c.code = 7 → badTransfer s.dev c = true ∨ overlapsAreas l c.addr c.len = true → refused .flashRead 2) ∧
      (c.code = 8 → badTransfer s.dev c = true → refused .flashWrite 2) ∧
      (c.code = 8 → badTransfer s.dev c = false → flashInUse s.dev = true → refused .flashWrite 8) ∧
      (c.code = 9 → badErase s.dev c = true → refused .flashErase 2) ∧
      (c.code = 9 → badErase s.dev c = false → flashInUse s.dev = true → refused .flashErase 8))

/-- SNAPSHOT (R44): the sequence, the header, the records of the ports in scope with their counters and saturation flags, and
with the clear option the counters copied set to 0. That bits 31:8 of the state word read 0 is the model's
choice (log 55). -/
def Obligations.SnapshotCopiesTheCounters : Prop :=
  ∀ s l q c, CommandWaits s.dev l q c → LayoutInv s.dev → c.code = 1 → c.pos ≠ 0 ∨ c.port < 4 →
    Completes .snapshot s (fun e =>
      CellAnswers l q (answerBytes 3 0 c.tag) e ∧ e.rs.snapSeq = s.dev.rs.snapSeq + 1 ∧
      e.smc.mem.readN l.snapshot 4 =
        le 2 (s.dev.rs.snapSeq + 1).toNat ++ le 1 (if c.pos ≠ 0 then 0xFF else c.port) ++ le 1 (if c.clear = 0 then 0 else 1) ∧
      (∀ x : Fin 4,
        (c.pos ≠ 0 ∨ c.port = x.val →
          e.smc.mem.readN (l.snapshot + 64 + 128 * x.val) 8 =
            le 2 (s.dev.rs.snapSeq + 1).toNat ++ le 2 (s.dev.port x).codeViol ++ le 2 (s.dev.port x).alignLoss ++
              le 2 (s.dev.port x).slips ∧
          ((e.smc.mem.read (l.snapshot + 72 + 128 * x.val)).getLsbD 0 = decide ((s.dev.port x).codeViol = 65535) ∧
            (e.smc.mem.read (l.snapshot + 72 + 128 * x.val)).getLsbD 1 = decide ((s.dev.port x).alignLoss = 65535) ∧
            (e.smc.mem.read (l.snapshot + 72 + 128 * x.val)).getLsbD 2 = decide ((s.dev.port x).slips = 65535)) ∧
          (∀ p : Fin 8, e.smc.mem.readN (l.snapshot + 80 + 128 * x.val + 8 * p.val) 6 =
            le 2 (s.dev.remote (remoteAt x p)).checkFails ++ le 2 (s.dev.remote (remoteAt x p)).misses ++
              le 2 (s.dev.remote (remoteAt x p)).patErrs ∧
            ((e.smc.mem.read (l.snapshot + 86 + 128 * x.val + 8 * p.val)).getLsbD 0 =
                decide ((s.dev.remote (remoteAt x p)).checkFails = 65535) ∧
              (e.smc.mem.read (l.snapshot + 86 + 128 * x.val + 8 * p.val)).getLsbD 1 =
                decide ((s.dev.remote (remoteAt x p)).misses = 65535) ∧
              (e.smc.mem.read (l.snapshot + 86 + 128 * x.val + 8 * p.val)).getLsbD 2 =
                decide ((s.dev.remote (remoteAt x p)).patErrs = 65535))) ∧
          (c.clear ≠ 0 → e.port x = { s.dev.port x with codeViol := 0, alignLoss := 0, slips := 0 } ∧
            ∀ p, e.remote (remoteAt x p) =
              { s.dev.remote (remoteAt x p) with checkFails := 0, misses := 0, patErrs := 0 })) ∧
        (¬(c.pos ≠ 0 ∨ c.port = x.val) ∨ c.clear = 0 → e.port x = s.dev.port x ∧
          ∀ p, e.remote (remoteAt x p) = s.dev.remote (remoteAt x p)) ∧
        (¬(c.pos ≠ 0 ∨ c.port = x.val) → ∀ k, k < 128 →
          e.smc.mem.read (l.snapshot + 64 + 128 * x.val + k) = s.dev.smc.mem.read (l.snapshot + 64 + 128 * x.val + k))) ∧
      Only [.clock, .hp, .smc, .lp, .rs] s.dev e)

/-- PORT_RESET (R48, R23, R47): the port goes DARK with its counters and those of its remotes at 0 and no alignment loss,
the remotes of a RUNNING port are LOST and no voter selects one of them (R158), a test on the port ends; other ports stand. That
bits 31:8 of the state word read 0 is the model's choice (log 55). -/
def Obligations.PortResetDarkensThePort : Prop :=
  ∀ s l q c (x : Fin 4), CommandWaits s.dev l q c → LayoutInv s.dev → c.code = 2 → c.port = x.val →
    Completes .portReset s (fun e =>
      CellAnswers l q (answerBytes 3 0 c.tag) e ∧ (e.port x).state = .dark ∧ (e.port x).good = 0 ∧
        (e.port x).bad = 0 ∧ (e.port x).near = false ∧ (e.port x).codeViol = 0 ∧ (e.port x).alignLoss = 0 ∧
        (e.port x).slips = 0 ∧ ((s.dev.port x).state = .running → (e.port x).fifo = []) ∧
        (∀ y, y ≠ x → e.port y = s.dev.port y) ∧
        ((s.dev.port x).state = .running → ∀ k r, (e.voter k).sel = some r → portOf r ≠ x) ∧
        (∀ t, s.dev.rs.test = some t → t.port = x → e.rs.test = none) ∧
        (∀ r, portOf r = x → (e.remote r).checkFails = 0 ∧ (e.remote r).misses = 0 ∧ (e.remote r).patErrs = 0 ∧
          ((s.dev.port x).state = .running → (s.dev.remote r).present = true →
            (e.remote r).state = .lost ∧ (e.remote r).queue = [] ∧ (e.remote r).d = (s.dev.remote r).d)) ∧
        ∀ r, portOf r ≠ x → (e.remote r).state = (s.dev.remote r).state ∧
          (e.remote r).checkFails = (s.dev.remote r).checkFails ∧ (e.remote r).misses = (s.dev.remote r).misses ∧
          (e.remote r).patErrs = (s.dev.remote r).patErrs)

/-- PATTERN_START whose checks pass (R45): the test runs on the lowest FREE reserve lane with the generator at all ones and a
last PCOUNT of 0, PATTERN is offered, the command completes DONE. PATTERN_STOP of a running test (R47): the lane goes back
to the pool or to the first waiting request, STOP is offered. ERROR_INSERT of a running test waits for the next pattern
word (R46, R188); when the test ends first, as at the loss of its remote, it is refused with PATTERN_NOT_RUNNING (R39, R46,
R189). MAINT_DONE latched there by the part state of the moment (log 41), and bits 31:8 of the state words read as 0 (log 55), are
the model's choices. -/
def Obligations.PatternCommandsRunTheTest : Prop :=
  (∀ s l q c (x : Fin 4) (p : Fin 8) (i : Fin 12), CommandWaits s.dev l q c → c.code = 3 → c.port = x.val →
     c.pos = p.val → s.dev.rs.test = none → (s.dev.remote (remoteAt x p)).serving = true →
     (s.dev.pool x).lanes.get i = .free → (∀ j, j < i → (s.dev.pool x).lanes.get j ≠ .free) →
     Completes .patternStart s (fun e =>
       e.rs = { s.dev.rs with
         test := some ⟨x, p, i, 0, false, BitVec.allOnes 15⟩,
         remotes := s.dev.rs.remotes.modify (remoteAt x p) (fun m =>
           { m with queue := enqueue (s.dev.eventNo + 1) m.queue (.pattern (some (308 + i.val))) }) } ∧
       e.rp = { s.dev.rp with pools := s.dev.rp.pools.modify x (fun k => { k with lanes := k.lanes.set i .pattern }) } ∧
       Only [.clock, .hp, .smc, .rs, .rp] s.dev e ∧ e.smc.latches = latchesAfter s.dev partCell latchMaintDone ∧
       (LayoutInv s.dev → CellAnswers l q (answerBytes 3 0 c.tag) e))) ∧
    (∀ s l q c t, CommandWaits s.dev l q c → s.dev.rs.test = some t →
       (c.code = 4 → Completes .patternStop s (fun e =>
         e.rs.test = none ∧
         (e.pool t.port).lanes = (s.dev.pool t.port).lanes.set t.lane
           (match firstWaiting (s.dev.pool t.port) with
             | some w => .version w
             | none => .free) ∧
         ((s.dev.remote t.remote).serving = true →
           (e.remote t.remote).queue = enqueue (s.dev.eventNo + 1) (s.dev.remote t.remote).queue (.pattern none)) ∧
         (∀ r, r ≠ t.remote → e.remote r = s.dev.remote r) ∧
         (e.remote t.remote).patErrs = (s.dev.remote t.remote).patErrs ∧
         Only [.clock, .hp, .smc, .rs, .rp] s.dev e ∧ (LayoutInv s.dev → CellAnswers l q (answerBytes 3 0 c.tag) e))) ∧
       (c.code = 5 → Completes .errorInsert s (fun e =>
         e = { s.dev.event with smc := { s.dev.smc with
           notices := q, overrun := false, mem := s.dev.smc.mem.write l.maint (le 4 2),
           job := some ⟨l.maint, c.tag, .errorInsert⟩ } }))) ∧
    ∀ s t a tag k, s.dev.rs.test = some t → s.dev.smc.job = some ⟨a, tag, .errorInsert⟩ →
      (s.dev.remote t.remote).silenceDue = some k → k ≤ s.dev.now → (s.dev.remote t.remote).present = true →
      Completes (.silenceTimerExpiry t.remote) s (fun e => e.rs.test = none ∧ e.smc.job = none ∧
        (LayoutInv s.dev → (∀ l, s.dev.smc.layout = some l → a = l.maint) → e.smc.mem.readN a 16 =
          le 4 4 ++ le 4 6 ++ le 4 (if s.dev.smc.overrun then 1 else 0) ++ le 4 tag.toNat) ∧
        (s.dev.linked = true → (e.smc.latches.get partCell).getLsbD 5 = true))

/-- REREFERENCE (R143, R145, R146, R147): T_ref is the largest of min(65535, d + guard) over the qualifying remotes, or itself
when there is none; the reference sequence advances; each holding remote has the hold of the new T_ref, is offered HOLD when
that is not the last value given (R150), and is selected by no voter when it is LATE (R158). An evaluation makes the same
re-reference when no slot is KEYED and the candidate is not T_ref, and does nothing else (R144). Every step that finds the keyed
record and T_ref so leaves the record the keying of the slots, and, with no slot KEYED, T_ref the candidate: so the unkeying of the
last KEYED slot, a join's completion, a departure from service, DELAY_MOVED and the switches of the remote, rescue and route tables
are evaluated (R142, R144). While a slot is KEYED T_ref moves by the command alone (R144, R146), and a move latches REREFERENCED
(R145). That bits 31:8 of the state word read 0 is the model's choice (log 55). -/
def Obligations.RereferenceMovesTheReference : Prop :=
  (∀ s l q c, CommandWaits s.dev l q c → LayoutInv s.dev → c.code = 6 → Completes .rereference s (fun e =>
    CellAnswers l q (answerBytes 3 0 c.tag) e ∧ Rereferenced s.dev.event e ∧
      Only [.clock, .hp, .smc, .rs, .sru, .uv] s.dev e)) ∧
  (∀ d : Dev,
    let keyed := ∃ k, d.sru.keyed.get k = true
    (keyed ∨ IsCandidate d d.sru.tRef → sruEvaluate d = d) ∧
    (¬ keyed → ¬ IsCandidate d d.sru.tRef → Rereferenced d (sruEvaluate d) ∧
      Only [.hp, .smc, .rs, .sru, .uv] d (sruEvaluate d))) ∧
  ∀ s t, step s = .next t → ReferenceInv s.dev → ReferenceInv t.dev ∧
    ((∃ k, t.dev.sru.keyed.get k = true) → s.pending.head? ≠ some .rereference →
      (∀ ie, s.pending.head? ≠ some (.start ie)) →
      t.dev.sru.tRef = s.dev.sru.tRef ∧ t.dev.sru.refSeq = s.dev.sru.refSeq) ∧
    (t.dev.sru.tRef ≠ s.dev.sru.tRef → s.dev.linked = true → s.pending.head? ≠ some .powerOnReset →
      (t.dev.smc.latches.get partCell).getLsbD 2 = true)

/-- A flash command whose checks pass is BUSY (R188, R207, R208, R209). It waits when a transaction holds the port; on a
free port with no clip read waiting its first transaction starts. That the first page's bytes are read from the memory that
already holds BUSY (log 43), that the 10 ms and the 2 s run from the grant (log 44), and that bits 31:8 of the state word read 0
(log 55), are the model's choices. -/
def Obligations.FlashCommandsTakeThePort : Prop :=
  ∀ s l q c k, CommandWaits s.dev l q c → s.dev.fb.present = true →
    (k = .read ∧ c.code = 7 ∧ badTransfer s.dev c = false ∧ overlapsAreas l c.addr c.len = false ∨
      k = .write ∧ c.code = 8 ∧ badTransfer s.dev c = false ∧ flashInUse s.dev = false ∨
      k = .erase ∧ c.code = 9 ∧ badErase s.dev c = false ∧ flashInUse s.dev = false) →
    Completes (match k with
        | .read => .flashRead
        | .write => .flashWrite
        | .erase => .flashErase) s (fun e =>
      let m := s.dev.smc.mem.write l.maint (le 4 2)
      (∀ h, s.dev.fb.holder = some h → e = { s.dev.event with smc := { s.dev.smc with
        notices := q, overrun := false, mem := m,
        job := some ⟨l.maint, c.tag, .flash ⟨k, c.flashOff, c.addr, c.len, false, false, false⟩⟩ } }) ∧
      (s.dev.fb.holder = none → (∀ n, s.dev.fb.waiting.get n = none) → ∃ touched, e = { s.dev.event with
        smc := { s.dev.smc with
          notices := q, overrun := false, mem := m,
          job := some ⟨l.maint, c.tag, .flash ⟨k, c.flashOff, c.addr, c.len, touched, false, false⟩⟩ },
        fb := { s.dev.fb with holder := some ⟨(match k with
          | .read => .maintRead c.flashOff c.addr (min 256 c.len)
          | .write => .program c.flashOff (m.readN c.addr (min c.len (256 - c.flashOff % 256))) (s.dev.now + 245760)
          | .erase => .erase c.flashOff (s.dev.now + 49152000)), false⟩ } } ∧
        (touched = true ↔ k ≠ .read ∧ ∃ o, s.dev.fb.dirOffset = some o ∧
          ∃ a, o ≤ a ∧ a < o + 256 ∧ a / 4096 = c.flashOff / 4096)))

/-! ### Link ports -/

/-- The eight bytes of each message (10 section 10.10). The queue of a remote (R26, R27): what a message offered does to it in
each state of the remote, and which entry is selected. A frame launch (R20, R27, R30, R45, R46, R55, R63): each port's frame
carries the launch tick, the alignment word (its pattern is free, log 37) and, for each remote of a RUNNING port, the message
selected; a sent MARK leaves the queue and opens its record, any other message awaits its ACK with the send counter as its
sequence, and a SWITCH sent to a switching remote is noted; a position without a message is empty. Its lanes carry the routed
slots' blocks in slot order, the versions and the pattern of the test; the first pattern word launched carries a waiting
ERROR_INSERT, which completes. The next launch is a frame later. The model's choices: the samples made since the last launch are
carried and then dropped (log 29), reserve lanes carry their streams also on a port that is not RUNNING (log 47), the pattern's
bit order and output stage (log 13), MAINT_DONE latched by the part state at the completion, also after a link loss and a new
START meanwhile (log 41), and bits 31:8 of the state word of ERROR_INSERT's completion read as 0 (log 55). That the time to the
next MARK runs from the launch is the model's reading (log 14). -/
def Obligations.FrameLaunchSendsTheSelectedMessages : Prop :=
  (∀ (m : DownMsg) (seq : BitVec 6) (markSeq : BitVec 8),
    let byte := fun v : Nat => BitVec.ofNat 8 v
    let lane := fun v : Option Nat => [byte (v.getD 1023), byte (v.getD 1023 / 256), 0, 0]
    let shift := fun c : Byte => if c.getLsbD 7 = true then (c <<< 1) ^^^ 0x07 else c <<< 1
    (∀ (l : List Byte) (x : Byte), crc8 [] = 0 ∧ crc8 (l ++ [x]) = shift^[8] (crc8 l ^^^ x)) ∧
    let l : List Byte := match m with
        | .mark => [1, 0, seq.setWidth 8, markSeq, 0, 0, 0]
        | .map c none => [2, byte c.val, seq.setWidth 8, 0, 0, 0, 0]
        | .map c (some b) =>
          let lanes := b.lane + 512 * b.upLane
          [2, byte c.val, seq.setWidth 8, byte (128 + (if b.uplink = true then 64 else 0) + b.trim), byte lanes,
            byte (lanes / 256), byte (lanes / 65536)]
        | .switch => [3, 0, seq.setWidth 8, 0, 0, 0, 0]
        | .subst p v => [4, byte p.val, seq.setWidth 8] ++ lane v
        | .hold (.ticks n) => [5, 0, seq.setWidth 8, byte n, byte (n / 256), 0, 0]
        | .hold .off => [5, 0, seq.setWidth 8, 0, 0, 1, 0]
        | .level carrier step => [6, if carrier = true then 1 else 0, seq.setWidth 8, byte step, 0, 0, 0]
        | .gate t => [7, 0, seq.setWidth 8, byte t, byte (t / 256), 0, 0]
        | .pattern v => [8, 0, seq.setWidth 8] ++ lane v
    m.bytes seq markSeq = l ++ [crc8 l]) ∧
  (∀ n q m, SelectsOldest q ∧ AdmitsInPlace n q m) ∧
  (∀ (d : Dev) r (m : DownMsg), offer d r m =
    if (d.remote r).state = .inService ∨ (d.remote r).state = .impaired ∨
        (d.remote r).state = .joining ∧ ((d.remote r).locked = true ∨ m.kind = .mark)
      then d.setRemote r (fun x => { x with queue := enqueue d.eventNo x.queue m }) else d) ∧
  ∀ s, s.dev.lp.frameDue ≤ s.dev.now → Completes .frameLaunch s (fun e =>
    e.lp.frameDue = s.dev.lp.frameDue + 3072 ∧
    (∀ x : Fin 4, ∃ f ws, (e.port x).frame = some f ∧ f.align = Config.alignmentWord ∧
      (let routed := fun c : Fin 40 => ∃ r, portOf r = x ∧ (s.dev.route c r).routed = true
       ∀ run, run ∈ f.lanes ↔
         (∃ (c : Fin 40) (before : List (Fin 40)), routed c ∧ (∀ t, t ∈ before ↔ t < c ∧ routed t) ∧ before.Nodup ∧
           run = ⟨(before.map (fun t : Fin 40 => if t.val < 16 then 1 else 16)).sum, if c.val < 16 then 1 else 16, .slot c,
             (s.dev.slot c).out⟩) ∨
         (∃ (i : Fin 12) (v : VersionReq), (s.dev.pool x).lanes.get i = .version v ∧
           run = ⟨308 + i.val, 1, .version v.bim, (s.dev.bim v.bim).out⟩) ∨
         (∃ i : Fin 12, (s.dev.pool x).lanes.get i = .pattern ∧ run = ⟨308 + i.val, 1, .pattern, ws⟩)) ∧
      ∀ t, s.dev.rs.test = some t → ws.length = 48 ∧ ∀ g : Nat → Bool,
        (∀ n, n < 15 → g n = t.lfsr.getLsbD (14 - n)) → (∀ n, g (n + 15) = (g n ^^ g (n + 1))) →
        let flip : Bool := match s.dev.smc.job with
          | some ⟨_, _, .errorInsert⟩ => true
          | some ⟨_, _, .flash _⟩ | none => false
        (∀ k j, k < 48 → j < 16 →
          ((ws.getD k Sample.zero).i.getLsbD j = (g (32 * k + 15 - j) ^^ (flip && k == 0 && j == 0)) ∧
            (ws.getD k Sample.zero).q.getLsbD j = g (32 * k + 31 - j))) ∧
        ∃ t', e.rs.test = some { t with lfsr := t' } ∧ ∀ n, n < 15 → t'.getLsbD (14 - n) = g (1536 + n)) ∧
    (s.dev.rs.test = none → e.rs.test = none) ∧
    (∀ j, s.dev.rs.test ≠ none → s.dev.smc.job = some j → j.work = .errorInsert → e.smc.job = none ∧
      (s.dev.linked = true → (e.smc.latches.get partCell).getLsbD 5 = true) ∧
      (LayoutInv s.dev → (∀ l, s.dev.smc.layout = some l → j.addr = l.maint) → e.smc.mem.readN j.addr 16 =
        le 4 3 ++ le 4 0 ++ le 4 (if s.dev.smc.overrun then 1 else 0) ++ le 4 j.tag.toNat)) ∧
    (∀ r, ∃ f, (e.port (portOf r)).frame = some f ∧ f.tick = s.dev.now ∧ f.positions.length = 8 ∧
      ((s.dev.port (portOf r)).state ≠ .running ∨ sendSelection (s.dev.remote r).queue = none →
        f.positions[(posOf r).val]? = some (List.replicate 8 0) ∧ e.remote r = s.dev.remote r) ∧
      ∀ x, (s.dev.port (portOf r)).state = .running → sendSelection (s.dev.remote r).queue = some x →
        (x.msg.kind = .mark →
          f.positions[(posOf r).val]? = some (x.msg.bytes 0 (s.dev.remote r).markSeq) ∧
          (e.remote r).queue = (s.dev.remote r).queue.filter (fun y => y.msg.id != ⟨.mark, 0⟩) ∧
          (e.remote r).markSeq = (s.dev.remote r).markSeq + 1 ∧
          (e.remote r).record = some ⟨(s.dev.remote r).markSeq, s.dev.now⟩ ∧
          (e.remote r).markDue = some (s.dev.now + if (s.dev.remote r).state = .joining then 245760 else 2457600) ∧
          (e.remote r).misses =
            (if (s.dev.remote r).record = none then (s.dev.remote r).misses
              else min 65535 ((s.dev.remote r).misses + 1))) ∧
        (x.msg.kind ≠ .mark →
          f.positions[(posOf r).val]? = some (x.msg.bytes (s.dev.remote r).sendCtr (s.dev.remote r).markSeq) ∧
          e.remote r = { s.dev.remote r with
            sendCtr := (s.dev.remote r).sendCtr + 1,
            queue := (s.dev.remote r).queue.map (fun y => if y.msg.id = x.msg.id then
              { y with sent := true, count := y.count + 1, seq := some (s.dev.remote r).sendCtr,
                       ackDue := some (s.dev.now + 491520) } else y) })) ∧
    e.rp = { s.dev.rp with switchSent := e.rp.switchSent } ∧
    (∀ r, r ∈ e.rp.switchSent ↔ r ∈ s.dev.rp.switchSent ∨ s.dev.rp.phase = .switching ∧ r ∈ s.dev.rp.switching ∧
      (s.dev.port (portOf r)).state = .running ∧
      ∃ x, sendSelection (s.dev.remote r).queue = some x ∧ x.msg.kind = .switch) ∧
    (∀ x, e.port x = { s.dev.port x with frame := (e.port x).frame }) ∧
    (∀ x, (e.slot x).out = []) ∧ (∀ m, (e.bim m).out = []) ∧
    Only [.clock, .hp, .smc, .rs, .rp, .lm, .pm, .lp] s.dev e)

/-- The walk of a port's state (R22) but for the events that leave RUNNING: the counts, the eighth consecutive good word, the
return of light and lock; a DARK port judges no word. -/
def Obligations.PortRisesThroughAligningToRunning : Prop :=
  ∀ s x,
    ((s.dev.port x).state = .dark →
      (∀ g, Completes (.alignmentWord x g) s (fun e => e = s.dev.event)) ∧
      Completes (.lightAndLock x) s (fun e => (e.port x).state = .aligning ∧ (e.port x).good = 0 ∧
        (e.port x).near = false ∧ e.smc.latches.get (portCell x) =
          (if (s.dev.port x).near then (latchesAfter s.dev (portCell x) latchNearLimit).get (portCell x)
            else s.dev.smc.latches.get (portCell x)) ∧
        ∀ y, y ≠ x → e.port y = s.dev.port y)) ∧
    ((s.dev.port x).state = .aligning →
      Completes (.alignmentWord x false) s (fun e => e = s.dev.event.setPort x (fun p => { p with good := 0 })) ∧
      ((s.dev.port x).good < 7 → Completes (.alignmentWord x true) s (fun e =>
        e = s.dev.event.setPort x (fun p => { p with good := p.good + 1 }))) ∧
      (7 ≤ (s.dev.port x).good → Completes (.alignmentWord x true) s (fun e =>
        (e.port x).state = .running ∧ (e.port x).bad = 0 ∧ (e.port x).fifo = [] ∧ (e.port x).mode = .starting ∧
          (e.port x).near = false ∧
          (s.dev.linked = true → (e.smc.latches.get (portCell x)).getLsbD 0 = true) ∧
          (∀ y, y ≠ x → e.port y = s.dev.port y) ∧ ∀ r, e.remote r = s.dev.remote r))) ∧
    ((s.dev.port x).state = .running →
      Completes (.alignmentWord x true) s (fun e => e = s.dev.event.setPort x (fun p => { p with bad := 0 })) ∧
      ((s.dev.port x).bad < 3 → Completes (.alignmentWord x false) s (fun e =>
        e = s.dev.event.setPort x (fun p => { p with bad := p.bad + 1 }))))

/-- A port leaves RUNNING (R22, R23, R39, R43): at the fourth consecutive bad word it goes to ALIGNING, at a loss of light or
lock to DARK; one alignment loss counts, the FIFO is emptied, its present remotes are LOST with empty queues, the rest keep
their states, and no voter selects a remote of the port (R158). An ALIGNING port that loses light goes DARK and loses
nothing. -/
def Obligations.LeavingRunningLosesTheRemotes : Prop :=
  ∀ s x,
    (let left := fun (st : PortState) (e : Dev) =>
      (e.port x).state = st ∧ (e.port x).good = 0 ∧ (e.port x).bad = 0 ∧ (e.port x).fifo = [] ∧
        (e.port x).near = false ∧ (e.port x).alignLoss = min 65535 ((s.dev.port x).alignLoss + 1) ∧
        (e.port x).codeViol = (s.dev.port x).codeViol ∧ (e.port x).slips = (s.dev.port x).slips ∧
        (∀ y, y ≠ x → e.port y = s.dev.port y) ∧
        (s.dev.linked = true → (e.smc.latches.get (portCell x)).getLsbD 0 = true) ∧
        (∀ r, portOf r = x → (s.dev.remote r).present = true →
          (e.remote r).state = .lost ∧ (e.remote r).queue = [] ∧ (e.remote r).record = none ∧
            (e.remote r).joinDue = none ∧ (e.remote r).silenceDue = none ∧ (e.remote r).d = (s.dev.remote r).d) ∧
        (∀ k r, portOf r = x → (e.voter k).sel ≠ some r) ∧
        ∀ r, ¬(portOf r = x ∧ (s.dev.remote r).present = true) → (e.remote r).state = (s.dev.remote r).state
    (s.dev.port x).state = .running →
      (3 ≤ (s.dev.port x).bad → Completes (.alignmentWord x false) s (left .aligning)) ∧
        Completes (.lossOfLightOrLock x) s (left .dark)) ∧
    ((s.dev.port x).state = .aligning → Completes (.lossOfLightOrLock x) s (fun e =>
      (e.port x).state = .dark ∧ (e.port x).alignLoss = (s.dev.port x).alignLoss ∧
        (∀ y, y ≠ x → e.port y = s.dev.port y) ∧ ∀ r, e.remote r = s.dev.remote r))

/-- An upstream word joins the FIFO of a RUNNING port (R24, R25, R43): a full FIFO first discards its 33 oldest words and
counts a slip; a fill of 32 ends the filling; NEAR_LIMIT follows the fill, and at its rise no voter selects a remote of the
port (R158). A line-code violation in ALIGNING or RUNNING
counts, saturating, and reaching 65535 latches COUNTER_SATURATED (R22, R43). -/
def Obligations.UplinkWordsAndCodeViolationsAreCounted : Prop :=
  (∀ s x w, (s.dev.port x).state = .running → Completes (.uplinkWordArrival x w) s (fun e =>
     ((s.dev.port x).fifo.length < 64 →
       (e.port x).fifo = (s.dev.port x).fifo ++ [w] ∧ (e.port x).slips = (s.dev.port x).slips) ∧
     (64 ≤ (s.dev.port x).fifo.length →
       (e.port x).fifo = (s.dev.port x).fifo.drop 33 ++ [w] ∧
         (e.port x).slips = min 65535 ((s.dev.port x).slips + 1)) ∧
     (e.port x).mode = (if 32 ≤ (e.port x).fifo.length then .delivering else (s.dev.port x).mode) ∧
     ((e.port x).near = true ↔ (e.port x).mode ≠ .starting ∧
       ((e.port x).fifo.length ≤ 3 ∨ 61 ≤ (e.port x).fifo.length)) ∧
     ((s.dev.port x).near = false → (e.port x).near = true → ∀ k r, portOf r = x → (e.voter k).sel ≠ some r) ∧
     (e.port x).state = .running ∧ (e.port x).word = (s.dev.port x).word ∧
     (∀ y, y ≠ x → e.port y = s.dev.port y) ∧ Only [.clock, .hp, .smc, .lp, .uv] s.dev e)) ∧
    (∀ s x, (s.dev.port x).state ≠ .dark → Completes (.codeViolation x) s (fun e =>
       ShownOnly [portCell x]
         (s.dev.event.setPort x (fun p => { p with codeViol := min 65535 ((s.dev.port x).codeViol + 1) })) e ∧
         e.smc.latches = if (s.dev.port x).codeViol = 65534 then latchesAfter s.dev (portCell x) latchCounterSaturated
           else s.dev.smc.latches))

/-- A read instant (R24, R25, R43, R15, R16): each RUNNING port delivers its oldest word, or zeros while it fills and at an
underflow, which counts a slip; NEAR_LIMIT follows the fill, each change is latched, and at its rise no voter selects a remote
of the port (R158). Each carrier of slots 16 to 39 gets sixteen uplink samples, each the clamped sum of the contributing ports
after the uplink step, and its clamped samples are counted. Every voter takes the sample of each remote's rescue lane and gives
the one its selection and read offset name, or zeros, after the uplink step (R152, R153). The donor outputs are the saturated
sums of their slots (R16); interpolators are free (log 6). The model's choices: every RUNNING port is read at one instant (log
10); sample i of a word stands on lane i of its block (log 12); a read of an empty FIFO outside normal delivery, in the refill,
counts no slip (log 45); one word in four carries a rescue sample (log 11); zeros stand where a remote has no rescue lane or its
port is not RUNNING (log 54). -/
def Obligations.FifoReadFeedsTheUplinks : Prop :=
  ∀ s, s.dev.lp.readDue ≤ s.dev.now → Completes .fifoRead s (fun e =>
    e.lp.readDue = s.dev.lp.readDue + 64 ∧ e.lp.readNo = s.dev.lp.readNo + 1 ∧
    (∀ x, ((s.dev.port x).state ≠ .running → e.port x = s.dev.port x) ∧
      ((s.dev.port x).state = .running →
        ((s.dev.port x).mode ≠ .delivering →
          (e.port x).word = [] ∧ (e.port x).fifo = (s.dev.port x).fifo ∧ (e.port x).mode = (s.dev.port x).mode ∧
            (e.port x).slips = (s.dev.port x).slips) ∧
        (∀ w q, (s.dev.port x).mode = .delivering → (s.dev.port x).fifo = w :: q →
          (e.port x).word = w ∧ (e.port x).fifo = q ∧ (e.port x).mode = .delivering ∧
            (e.port x).slips = (s.dev.port x).slips) ∧
        ((s.dev.port x).mode = .delivering → (s.dev.port x).fifo = [] →
          (e.port x).word = [] ∧ (e.port x).fifo = [] ∧ (e.port x).mode = .refilling ∧
            (e.port x).slips = min 65535 ((s.dev.port x).slips + 1)) ∧
        ((e.port x).near = true ↔
          (e.port x).mode ≠ .starting ∧ ((e.port x).fifo.length ≤ 3 ∨ 61 ≤ (e.port x).fifo.length)) ∧
        ((e.port x).near ≠ (s.dev.port x).near → s.dev.linked = true →
          (e.smc.latches.get (portCell x)).getLsbD 1 = true) ∧
        ((s.dev.port x).near = false → (e.port x).near = true → ∀ k r, (e.voter k).sel = some r → portOf r ≠ x))) ∧
    (∀ k : Fin 8,
      let sample := fun r : Fin 32 => match rescueLane s.dev.rp.routes (portOf r) (posOf r, k) with
        | some i => if (s.dev.port (portOf r)).state = .running then (e.port (portOf r)).word.getD i Sample.zero
          else Sample.zero
        | none => Sample.zero
      let v := s.dev.voter k
      let w := e.voter k
      let out := match w.sel with
        | some r => (w.hist.get r).getD (4 - w.offset).toNat Sample.zero
        | none => Sample.zero
      (s.dev.lp.readNo % 4 = 0 → (∀ r, w.hist.get r = (sample r :: v.hist.get r).take 12) ∧ w.outs = (out :: v.outs).take 4 ∧
        (e.slot (rescueSlot k)).upOut = if (s.dev.chan (rescueSlot k)).kind = .rescue
          then [stepSample (s.dev.chan (rescueSlot k)).upStep out] else []) ∧
      (s.dev.lp.readNo % 4 ≠ 0 → w.hist = v.hist ∧ w.outs = v.outs ∧ (e.slot (rescueSlot k)).upOut = []) ∧
      w = { v with sel := w.sel, offset := w.offset, hist := w.hist, outs := w.outs } ∧
      ((∀ x, (e.port x).near = (s.dev.port x).near) → w.sel = v.sel ∧ w.offset = v.offset)) ∧
    (∀ c : Fin 40, 8 ≤ c.val → (s.dev.chan c).kind ≠ .off → (e.slot c).interp =
      Config.interpNext (tuningOf c (s.dev.chan c)) (s.dev.slot c).interp (e.slot c).upOut) ∧
    (∀ n : Fin 2,
      let on := (allFin 40).filter (fun c => decide (8 ≤ c.val ∧ (s.dev.chan c).kind ≠ .off ∧
        (s.dev.chan c).donor = decide (n.val = 1)))
      let total := fun (f : Config.Tuning → Nat → Nat → Int) (j : Nat) => BitVec.ofInt 16 (max (-32768) (min 32767
        ((on.map (fun c => f (tuningOf c (s.dev.chan c)) (e.slot c).interp j)).sum)))
      e.lm.donorOut.get n = (List.range 160).map (fun j => ⟨total Config.interpI j, total Config.interpQ j⟩)) ∧
    (∀ c : Fin 40, 16 ≤ c.val → (s.dev.chan c).kind = .carrier →
      let ports := (allFin 4).filter (fun x => decide ((s.dev.port x).state = .running) && carrierUplink s.dev.rp.routes x c)
      let sum := fun (f : Sample → BitVec 16) (i : Nat) =>
        (ports.map (fun x =>
          (f ((e.port x).word.getD (downLane s.dev.rp.routes x c + i) Sample.zero)).toInt)).sum
      let lim := fun (k : Int) => max (-32768) (min 32767 k)
      (e.slot c).upOut = (List.range 16).map (fun i =>
        stepSample (s.dev.chan c).upStep
          ⟨BitVec.ofInt 16 (lim (sum Sample.i i)), BitVec.ofInt 16 (lim (sum Sample.q i))⟩) ∧
      (e.slot c).clip = (s.dev.slot c).clip + ((List.range 16).filter (fun i =>
        decide (lim (sum Sample.i i) ≠ sum Sample.i i ∨ lim (sum Sample.q i) ≠ sum Sample.q i))).length) ∧
    Only [.clock, .hp, .smc, .lm, .lp, .uv] s.dev e)

/-! ### Upstream messages -/

/-- An ECHO from a present remote (R21, R31, R32, R35): with no open record of its sequence it only restarts the silence
timer; one that gives no measurement is a marker miss; a measurement in service within 2 ticks of d ends the movement
run, and the third in a row on one side moves d and latches DELAY_MOVED, and no voter then selects the remote if it is LATE
(R158); before delay lock a measurement extends or
restarts the lock run; after it, in JOINING, it is discarded. -/
def Obligations.EchoMeasuresTheDelay : Prop :=
  ∀ s r seq turn, (s.dev.port (portOf r)).state = .running → (s.dev.entry r).enabled = true →
    (s.dev.remote r).present = true →
    let quiet := some (s.dev.now + 1228800)
    ((∀ k, (s.dev.remote r).record = some k → k.seq ≠ seq) → Completes (.echo r seq turn) s (fun e =>
      e = s.dev.event.setRemote r (fun m => { m with silenceDue := quiet }))) ∧
    ∀ k, (s.dev.remote r).record = some k → k.seq = seq →
      (s.dev.now - k.launch < turn.toNat → Completes (.echo r seq turn) s (fun e =>
        (e.remote r).record = none ∧ (e.remote r).silenceDue = quiet ∧
          (e.remote r).misses = min 65535 ((s.dev.remote r).misses + 1) ∧ (e.remote r).d = (s.dev.remote r).d ∧
          (e.remote r).state = (s.dev.remote r).state ∧
          (e.remote r).lockRun = (if (s.dev.remote r).state = .joining ∧ (s.dev.remote r).locked = false then []
            else (s.dev.remote r).lockRun) ∧
          (∀ y, y ≠ r → e.remote y = s.dev.remote y) ∧ Only [.clock, .hp, .smc, .rs] s.dev e)) ∧
      (turn.toNat ≤ s.dev.now - k.launch →
        let m := min 65535 ((s.dev.now - k.launch - turn.toNat) / 2)
        let near := m ≤ (s.dev.remote r).d + 2 ∧ (s.dev.remote r).d ≤ m + 2
        let run := if (s.dev.remote r).moveRun = 0 ∨ (s.dev.remote r).moveUp ≠ decide ((s.dev.remote r).d < m) then 1
          else (s.dev.remote r).moveRun + 1
        ((s.dev.remote r).serving = true → near → Completes (.echo r seq turn) s (fun e =>
          e = s.dev.event.setRemote r (fun x => { x with silenceDue := quiet, record := none, moveRun := 0 }))) ∧
        ((s.dev.remote r).serving = true → ¬ near → run < 3 → Completes (.echo r seq turn) s (fun e =>
          e = s.dev.event.setRemote r (fun x => { x with
            silenceDue := quiet, record := none, moveRun := run, moveUp := decide ((s.dev.remote r).d < m) }))) ∧
        ((s.dev.remote r).serving = true → ¬ near → 3 ≤ run → Completes (.echo r seq turn) s (fun e =>
          (e.remote r).d = m ∧ (e.remote r).moveRun = 0 ∧ (e.remote r).record = none ∧
            (e.remote r).silenceDue = quiet ∧ (e.remote r).state = (s.dev.remote r).state ∧
            (s.dev.linked = true → (e.smc.latches.get (remoteCell r)).getLsbD 2 = true) ∧
            ((e.hold r).late = true → ∀ k, (e.voter k).sel ≠ some r) ∧
            (∀ y, y ≠ r → (e.remote y).d = (s.dev.remote y).d ∧ (e.remote y).state = (s.dev.remote y).state) ∧
            Only [.clock, .hp, .smc, .rs, .sru, .uv] s.dev e)) ∧
        ((s.dev.remote r).state = .joining → (s.dev.remote r).locked = true → Completes (.echo r seq turn) s (fun e =>
          e = s.dev.event.setRemote r (fun x => { x with silenceDue := quiet, record := none }))) ∧
        ((s.dev.remote r).state = .joining → (s.dev.remote r).locked = false →
          let run := match (s.dev.remote r).lockRun.getLast? with
            | some y => if m ≤ y + 2 ∧ y ≤ m + 2 then (s.dev.remote r).lockRun ++ [m] else [m]
            | none => [m]
          run.length < 4 → Completes (.echo r seq turn) s (fun e =>
            e = s.dev.event.setRemote r (fun x => { x with silenceDue := quiet, record := none, lockRun := run }))))

/-- Delay lock (R35, R36, R147, R148): the fourth measurement in a row becomes d, the remote holds the hold of T_ref and d, and
its queue holds a MAP for every slot, GATE, HOLD, both LEVELs, and SUBST with the desired value for each programme whose
acknowledged value is another or UNKNOWN (R105). No voter selects it while it joins (R158). -/
def Obligations.FourthMeasurementLocksTheDelay : Prop :=
  ∀ s r turn k (y : Nat), (s.dev.port (portOf r)).state = .running → (s.dev.entry r).enabled = true →
    (s.dev.remote r).state = .joining → (s.dev.remote r).locked = false → (s.dev.remote r).record = some k →
    turn.toNat ≤ s.dev.now - k.launch → (s.dev.remote r).lockRun.getLast? = some y →
    (s.dev.remote r).lockRun.length = 3 →
    let m := min 65535 ((s.dev.now - k.launch - turn.toNat) / 2)
    m ≤ y + 2 → y ≤ m + 2 → Completes (.echo r k.seq turn) s (fun e =>
      (e.remote r).locked = true ∧ (e.remote r).d = m ∧ (e.remote r).state = .joining ∧
        (e.remote r).record = none ∧ (e.hold r).holding = true ∧
        (m ≤ s.dev.sru.tRef → (e.hold r).hold = some (.ticks (s.dev.sru.tRef - m)) ∧ (e.hold r).late = false) ∧
        (s.dev.sru.tRef < m → (e.hold r).hold = some .off ∧ (e.hold r).late = true) ∧
        (∀ c : Fin 40, ∃ x ∈ (e.remote r).queue, x.msg = .map c (mapOf s.dev.rp.routes r c) ∧ x.sent = false) ∧
        (∃ x ∈ (e.remote r).queue, x.msg = .gate (s.dev.entry r).gate) ∧
        (∃ x ∈ (e.remote r).queue, ∃ v, (e.hold r).hold = some v ∧ x.msg = .hold v) ∧
        (∃ x ∈ (e.remote r).queue, x.msg = .level false (s.dev.budget r).progStep) ∧
        (∃ x ∈ (e.remote r).queue, x.msg = .level true (s.dev.budget r).carStep) ∧
        (∀ p, let v := s.dev.delivery r p
          (v.acked = some v.desired → e.delivery r p = v) ∧
          (v.acked ≠ some v.desired → e.delivery r p = { v with offered := some v.desired } ∧
            ∃ x ∈ (e.remote r).queue, x.sent = false ∧ x.msg = .subst p (match v.desired with
              | .through => none
              | .lane i _ => some i))) ∧
        (∀ n, (e.voter n).sel ≠ some r) ∧
        (∀ z, z ≠ r → (e.remote z).state = (s.dev.remote z).state ∧ (e.remote z).d = (s.dev.remote z).d))

/-- The first valid message of an enabled ABSENT or LOST remote starts its join, whatever its kind (R21, R33, R34): JOINING,
the timers, a MARK alone in the queue, STATE_CHANGE. From a position without an enabled entry or on a port that is not
RUNNING it changes nothing. -/
def Obligations.FirstValidMessageStartsTheJoin : Prop :=
  ∀ s r i,
    ((∃ q t, i = .echo r q t) ∨ (∃ k y q, i = .ack r k y q) ∨ (∃ x q, i = .quality r x q) ∨ (∃ p o, i = .alarm r p o) ∨
      ∃ v, i = .pcount r v) →
    ((s.dev.port (portOf r)).state ≠ .running ∨ (s.dev.entry r).enabled = false → exec i s = .next s) ∧
    ((s.dev.port (portOf r)).state = .running → (s.dev.entry r).enabled = true → (s.dev.remote r).present = false →
      Completes i s (fun e =>
        (e.remote r).state = .joining ∧ (e.remote r).locked = false ∧ (e.remote r).lockRun = [] ∧
          (e.remote r).record = none ∧ (e.remote r).joinDue = some (s.dev.now + 49152000) ∧
          (e.remote r).silenceDue = some (s.dev.now + 1228800) ∧
          (e.remote r).queue = [⟨.mark, s.dev.eventNo + 1, false, 0, none, none⟩] ∧
          (e.remote r).d = (s.dev.remote r).d ∧ (e.remote r).sendCtr = (s.dev.remote r).sendCtr ∧
          (e.remote r).markSeq = (s.dev.remote r).markSeq ∧
          (s.dev.linked = true → (e.smc.latches.get (remoteCell r)).getLsbD 0 = true) ∧
          ∀ y, y ≠ r → (e.remote y).state = (s.dev.remote y).state))

/-- An ACK (R28, R29, R36, R37, R46, R60, R63, R104, R150). One that matches no entry's latest sequence only restarts the
silence timer. Else the entry leaves the queue and its owner hears of it: a LEVEL is confirmed, a HOLD or SUBST acknowledged,
the PATTERN of the running test acknowledged; the MAP after which a locked join holds none offers its SWITCH, and an ACK after
which it holds nothing but a MARK, its SWITCH offered, completes it; the MAP after which no staged remote holds one makes the
switch event; in SWITCHING a MAP after the SWITCH was sent offers SWITCH again, and a remote without MAP and SWITCH leaves the
switching set, whose last one ends the exchange. That an entry made UNSENT again keeps its sequence follows R29 against R28
(log 30). -/
def Obligations.AckRemovesTheEntryItMatches : Prop :=
  ∀ s r (k : MsgKind) (y : Byte) (q : BitVec 6), (s.dev.port (portOf r)).state = .running →
    (s.dev.entry r).enabled = true → (s.dev.remote r).present = true →
    let quiet := some (s.dev.now + 1228800)
    let code := BitVec.ofNat 8 (msgKindCode k)
    let rest := (s.dev.remote r).queue.filter (fun x => x.msg.id != ⟨k, y.toNat⟩)
    ((∀ x ∈ (s.dev.remote r).queue, x.msg.id = ⟨k, y.toNat⟩ → x.seq ≠ some q) →
      Completes (.ack r code y q) s (fun e =>
        e = s.dev.event.setRemote r (fun m => { m with silenceDue := quiet }))) ∧
    ∀ x, entryOf (s.dev.remote r).queue ⟨k, y.toNat⟩ = some x → x.seq = some q →
      let removed := s.dev.event.setRemote r (fun m => { m with silenceDue := quiet, queue := rest })
      let tests := fun (lane : Option Nat) (t : Test) =>
        s.dev.rs.test = some t ∧ t.remote = r ∧ lane = some (308 + t.lane.val)
      ((s.dev.remote r).serving = true → s.dev.rp.phase = .idle →
        (x.msg.kind = .gate ∨ x.msg.kind = .map ∨ x.msg.kind = .switch →
          Completes (.ack r code y q) s (fun e => e = removed)) ∧
        (∀ lane, x.msg = .pattern lane →
          (∀ t, tests lane t → Completes (.ack r code y q) s (fun e =>
            e = { removed with rs := { removed.rs with test := some { t with acked := true } } })) ∧
          ((∀ t, ¬ tests lane t) → Completes (.ack r code y q) s (fun e => e = removed))) ∧
        (∀ c n, x.msg = .level c n → Completes (.ack r code y q) s (fun e =>
          ShownOnly [remoteCell r] ((s.dev.event.setRemote r
            (fun m => { m with silenceDue := quiet, queue := rest })).setBudget r
            (fun b => if c then { b with carConfirmed := n } else { b with progConfirmed := n })) e ∧
            e.smc.latches = s.dev.smc.latches)) ∧
        (∀ v, x.msg = .hold v → Completes (.ack r code y q) s (fun e =>
          ShownOnly [remoteCell r] ((s.dev.event.setRemote r
            (fun m => { m with silenceDue := quiet, queue := rest })).setHold r
            (fun h => { h with acked := h.offered, offered := none })) e ∧ e.smc.latches = s.dev.smc.latches)) ∧
        (∀ p n, x.msg = .subst p n → Completes (.ack r code y q) s (fun e =>
          e.delivery r p = { s.dev.delivery r p with acked := (s.dev.delivery r p).offered, offered := none } ∧
            (e.remote r).queue = rest ∧ Only [.clock, .hp, .smc, .rs, .bic] s.dev e))) ∧
      ((s.dev.remote r).state = .joining → (s.dev.remote r).locked = true → s.dev.rp.phase = .idle →
        ((s.dev.remote r).joinSwitch = false → x.msg.kind = .map →
          ((∃ z ∈ rest, z.msg.kind = .map) → Completes (.ack r code y q) s (fun e => e = removed)) ∧
          ((∀ z ∈ rest, z.msg.kind ≠ .map) → Completes (.ack r code y q) s (fun e => e = removed.setRemote r (fun m =>
            { m with joinSwitch := true, queue := enqueue (s.dev.eventNo + 1) rest .switch })))) ∧
        ((s.dev.remote r).joinSwitch = true → (∀ z ∈ rest, z.msg.kind = .mark) →
          Completes (.ack r code y q) s (fun e =>
            (e.remote r).state = .inService ∧ (e.remote r).joinDue = none ∧
              (s.dev.linked = true → (e.smc.latches.get (remoteCell r)).getLsbD 0 = true) ∧
              ∀ z, z ≠ r → (e.remote z).state = (s.dev.remote z).state))) ∧
      ((s.dev.remote r).serving = true → s.dev.rp.bootRows = none → s.dev.smc.deferred.get 2 = false →
        let left := fun (z : Fin 32) (own : List QEntry) => if z = r then own else (s.dev.remote z).queue
        (s.dev.rp.phase = .staging → x.msg.kind = .map →
          ((∃ z ∈ s.dev.rp.staged, ∃ w ∈ left z rest, w.msg.kind = .map) →
            Completes (.ack r code y q) s (fun e => e = removed)) ∧
          ((∀ z ∈ s.dev.rp.staged, ∀ w ∈ left z rest, w.msg.kind ≠ .map) → Completes (.ack r code y q) s (fun e =>
            e.rp.phase ≠ .staging ∧ e.rp.routes = s.dev.rp.newRoutes ∧ e.rp.staged = [] ∧
              e.smc.taken.get 2 = (if s.dev.rp.newBoot then 0 else s.dev.rp.newWord) ∧
              ∀ z, (e.remote z).state = (s.dev.remote z).state))) ∧
        (s.dev.rp.phase = .switching → x.msg.kind = .map ∨ x.msg.kind = .switch →
          let own := if x.msg.kind = .map ∧ r ∈ s.dev.rp.switching ∧ r ∈ s.dev.rp.switchSent then
            enqueue (s.dev.eventNo + 1) rest .switch else rest
          Completes (.ack r code y q) s (fun e =>
            (e.remote r).queue = own ∧ (∀ z, z ≠ r → e.remote z = s.dev.remote z) ∧ e.rp.routes = s.dev.rp.routes ∧
              (∀ z, z ∈ e.rp.switching ↔ z ∈ s.dev.rp.switching ∧
                ∃ w ∈ left z own, w.msg.kind = .map ∨ w.msg.kind = .switch) ∧
              e.rp.phase = if e.rp.switching = [] then .idle else .switching)))

/-- The message that an upstream position is, and when it fails its check (R21, R215; 10 section 10.10). QUALITY, ALARM and PCOUNT
from a present remote (R42, R46, R154): the voter's figure; the alarm set, with ALARM_CHANGE at
a change; and, for the test's remote once its PATTERN is acknowledged, the pattern errors. -/
def Obligations.QualityAlarmAndPcountAreRecorded : Prop :=
  (∀ (r : Fin 32) (b : List Byte),
    let byte := fun k => b.getD k 0
    let sound := crc8 (b.take 7) = byte 7
    (byte 0 = 0 → upstreamPosition r b = none) ∧
    (byte 0 ≠ 0 → ¬ sound ∨ 5 < (byte 0).toNat ∨ byte 0 = 3 ∧ 7 < (byte 1).toNat →
      upstreamPosition r b = some (.controlCheckFailure r)) ∧
    (sound → byte 0 = 1 → upstreamPosition r b = some (.echo r (byte 3)
      (BitVec.ofNat 16 ((byte 4).toNat + 256 * (byte 5).toNat)))) ∧
    (sound → byte 0 = 2 → upstreamPosition r b = some (.ack r (byte 3) (byte 1) ((byte 2).extractLsb' 0 6))) ∧
    (∀ k : Fin 8, sound → byte 0 = 3 → (byte 1).toNat = k.val → upstreamPosition r b = some (.quality r k (byte 3))) ∧
    (sound → byte 0 = 4 → upstreamPosition r b = some (.alarm r ((byte 3).getLsbD 0) ((byte 3).getLsbD 1))) ∧
    (sound → byte 0 = 5 → upstreamPosition r b = some (.pcount r
      (BitVec.ofNat 16 ((byte 3).toNat + 256 * (byte 4).toNat))))) ∧
  ∀ s r, (s.dev.port (portOf r)).state = .running → (s.dev.entry r).enabled = true →
    (s.dev.remote r).present = true →
    let heard := s.dev.event.setRemote r (fun m => { m with silenceDue := some (s.dev.now + 1228800) })
    (∀ k (x : Byte), Completes (.quality r k x) s (fun e =>
      e = heard.setVoter k (fun v => { v with cur := v.cur.set r (some x.toNat) }))) ∧
    (Completes (.alarm r (s.dev.remote r).paFault (s.dev.remote r).overTemp) s (fun e => e = heard)) ∧
    (∀ pa ot, pa ≠ (s.dev.remote r).paFault ∨ ot ≠ (s.dev.remote r).overTemp → Completes (.alarm r pa ot) s (fun e =>
      e.remote r = { s.dev.remote r with
        silenceDue := some (s.dev.now + 1228800), paFault := pa, overTemp := ot } ∧
      (s.dev.linked = true → (e.smc.latches.get (remoteCell r)).getLsbD 3 = true) ∧
      (∀ y, y ≠ r → e.remote y = s.dev.remote y) ∧ Only [.clock, .hp, .smc, .rs, .bic] s.dev e)) ∧
    (∀ v, (∀ t, s.dev.rs.test = some t → t.remote = r → t.acked = false) →
      Completes (.pcount r v) s (fun e => e = heard)) ∧
    ∀ t (v : BitVec 16), s.dev.rs.test = some t → t.remote = r → t.acked = true → Completes (.pcount r v) s (fun e =>
      e.rs.test = some { t with last := v.toNat } ∧
        (e.remote r).patErrs = min 65535 ((s.dev.remote r).patErrs +
          if t.last ≤ v.toNat then v.toNat - t.last else v.toNat) ∧
        (∀ y, y ≠ r → e.remote y = s.dev.remote y) ∧ Only [.clock, .hp, .smc, .rs] s.dev e)

/-- A control check failure at an enabled position counts (R21, R43) and makes a remote in service whose window count reaches
a nonzero threshold IMPAIRED. The close of the supervision window judges each remote by its count and restarts every
count at 0; the next close is one second on (R40). No voter selects a remote that has become IMPAIRED (R158). -/
def Obligations.ControlChecksImpairRemotes : Prop :=
  (∀ s r, (s.dev.port (portOf r)).state = .running → (s.dev.entry r).enabled = true →
     Completes (.controlCheckFailure r) s (fun e =>
       let w := min 65535 ((s.dev.remote r).winFail + 1)
       let bad := (s.dev.remote r).state = .inService ∧ (s.dev.entry r).impairment ≠ 0 ∧ (s.dev.entry r).impairment ≤ w
       (¬ bad → e.remote r = { s.dev.remote r with
         checkFails := min 65535 ((s.dev.remote r).checkFails + 1), winFail := w }) ∧
       (bad → e.remote r = { s.dev.remote r with
           checkFails := min 65535 ((s.dev.remote r).checkFails + 1), winFail := w, state := .impaired, goodWin := 0 } ∧
         (s.dev.linked = true → (e.smc.latches.get (remoteCell r)).getLsbD 0 = true) ∧ ∀ k, (e.voter k).sel ≠ some r) ∧
       (∀ y, y ≠ r → e.remote y = s.dev.remote y) ∧ Only [.clock, .hp, .smc, .rs, .uv] s.dev e)) ∧
    (∀ s, s.dev.rs.superDue ≤ s.dev.now → Completes .supervisionWindowClose s (fun e =>
       e.rs.superDue = s.dev.rs.superDue + 24576000 ∧ e.rs.test = s.dev.rs.test ∧
         (∀ r,
           let bad := (s.dev.entry r).impairment ≠ 0 ∧ (s.dev.entry r).impairment ≤ (s.dev.remote r).winFail
           ((s.dev.remote r).state = .inService → bad →
             e.remote r = { s.dev.remote r with winFail := 0, state := .impaired, goodWin := 0 } ∧
               ∀ k, (e.voter k).sel ≠ some r) ∧
           ((s.dev.remote r).state = .impaired → bad → e.remote r = { s.dev.remote r with winFail := 0, goodWin := 0 }) ∧
           ((s.dev.remote r).state = .impaired → ¬ bad → 2 ≤ (s.dev.remote r).goodWin →
             e.remote r = { s.dev.remote r with winFail := 0, state := .inService, goodWin := 0 }) ∧
           ((s.dev.remote r).state = .impaired → ¬ bad → (s.dev.remote r).goodWin < 2 →
             e.remote r = { s.dev.remote r with winFail := 0, goodWin := (s.dev.remote r).goodWin + 1 }) ∧
           ((s.dev.remote r).state = .inService → ¬ bad →
             e.remote r = { s.dev.remote r with winFail := 0 }) ∧
           ((s.dev.remote r).serving = false → e.remote r = { s.dev.remote r with winFail := 0 })) ∧
         Only [.clock, .hp, .smc, .rs, .uv] s.dev e))

/-! ### Timers -/

/-- ACK timer (R29): after one or two sends the entry is UNSENT again and keeps its age and sequence; after three the remote
joins anew. Marker timers (R26, R30, R31, R35, R43): the next MARK is offered when it is due; a record open for 10 ms
closes as a marker miss, which empties the lock run of a remote that has not locked; a timer that is not due does nothing
(the model's choice, log 2), and a join start clears the time set for the next MARK (log 14). Reach settle timer (R124):
PARTIAL is latched when some covered remote is not reached. -/
def Obligations.RunningTimersExpire : Prop :=
  (∀ s r id x due, entryOf (s.dev.remote r).queue id = some x → x.ackDue = some due → due ≤ s.dev.now →
     (x.count < 3 → Completes (.ackTimerExpiry r id) s (fun e =>
       e = s.dev.event.setRemote r (fun m => { m with queue := m.queue.map (fun y =>
         if y.msg.id = id then { y with sent := false, ackDue := none } else y) }))) ∧
     (3 ≤ x.count → Completes (.ackTimerExpiry r id) s (fun e => JoinStarts s.dev r e))) ∧
    (∀ s r,
       (∀ k, (s.dev.remote r).markDue = some k → k ≤ s.dev.now → Completes (.nextMarkOffer r) s (fun e =>
         e = s.dev.event.setRemote r (fun m => { m with
           markDue := none,
           queue := if (s.dev.remote r).present then enqueue (s.dev.eventNo + 1) m.queue .mark else m.queue }))) ∧
       (∀ k, (s.dev.remote r).record = some k → k.launch + 245760 ≤ s.dev.now →
         Completes (.markerRecordExpiry r) s (fun e =>
           ShownOnly [portCell (portOf r)] (s.dev.event.setRemote r (fun m => { m with
             record := none, misses := min 65535 (m.misses + 1),
             lockRun := if m.state = .joining ∧ m.locked = false then [] else m.lockRun })) e ∧
           e.smc.latches = if (s.dev.remote r).misses = 65534
             then latchesAfter s.dev (portCell (portOf r)) latchCounterSaturated else s.dev.smc.latches)) ∧
       ((∀ k, (s.dev.remote r).markDue = some k → s.dev.now < k) → exec (.nextMarkOffer r) s = .next s) ∧
       ((∀ k, (s.dev.remote r).record = some k → s.dev.now < k.launch + 245760) → exec (.markerRecordExpiry r) s = .next s)) ∧
    (∀ s n k, (s.dev.source n).settleDue = some k → k ≤ s.dev.now → Completes (.reachSettleExpiry n) s (fun e =>
       ShownOnly [sourceCell n] (s.dev.event.setSource n (fun c => { c with settleDue := none, settled := true })) e ∧
         e.smc.latches = if (s.dev.source n).unreached = 0 then s.dev.smc.latches
           else latchesAfter s.dev (sourceCell n) latchPartial))

/-- Silence and join timers (R34, R38, R39): a present remote that stays silent is LOST with an empty queue and keeps d, its
alarms, counters and send counter; one that has not completed its join in time joins anew, and JOIN_SLOW is latched; so
does one whose message goes three times unanswered. No voter selects it then (R158). That a loss and a join start clear the
time set for the next MARK is the model's reading (log 14). -/
def Obligations.SilenceLosesAndSlowJoinsRestart : Prop :=
  ∀ s r k, k ≤ s.dev.now →
    ((s.dev.remote r).silenceDue = some k → (s.dev.remote r).present = true →
      Completes (.silenceTimerExpiry r) s (fun e =>
        e.remote r = { s.dev.remote r with
          state := .lost, queue := [], record := none, markDue := none, lockRun := [], locked := false,
          joinSwitch := false, moveRun := 0, joinDue := none, silenceDue := none } ∧
        (s.dev.linked = true → (e.smc.latches.get (remoteCell r)).getLsbD 0 = true) ∧
        (e.hold r).holding = false ∧ (∀ t, s.dev.rs.test = some t → t.remote = r → e.rs.test = none) ∧
        (∀ k, (e.voter k).sel ≠ some r) ∧
        ∀ y, y ≠ r → (e.remote y).state = (s.dev.remote y).state)) ∧
    ((s.dev.remote r).joinDue = some k → (s.dev.remote r).state = .joining →
      Completes (.joinTimerExpiry r) s (fun e => JoinStarts s.dev r e ∧
        (s.dev.linked = true → (e.smc.latches.get (remoteCell r)).getLsbD 1 = true))) ∧
    ∀ id x, (s.dev.remote r).state = .joining → entryOf (s.dev.remote r).queue id = some x → x.ackDue = some k →
      3 ≤ x.count → Completes (.ackTimerExpiry r id) s (fun e => JoinStarts s.dev r e)

/-- The close of the level window: every slot closes its window (R7, R8, R9); at a full window keying follows P_out against
the key threshold and presence follows P_in against the loss threshold, each change latched and keying changes handed to the
SRU (R11, R12, R13, R14); a clip count or clamp count above 0 latches UPLINK_CLIPPING or OVER_DEVIATION (R16, R92), and the
slot cells show the new figures (R10, R214; that the fields of a slot's range are written for an OFF slot too is the model's choice,
log 25); every remote in service without a power amplifier fault, or joining behind its delay
lock, is evaluated on the new figures (R76 to R82, R86). -/
def Obligations.LevelWindowClosesSlotsAndBudgets : Prop :=
  ∀ s, s.dev.lm.windowDue ≤ s.dev.now → Completes .levelWindowClose s (fun e =>
    e.lm.windowDue = s.dev.lm.windowDue + 245760 ∧ e.lm.windowSeq = s.dev.lm.windowSeq + 1 ∧
      e.lm.chan = s.dev.lm.chan ∧
      (∀ x,
        (e.slot x).sumOut = 0 ∧ (e.slot x).sumIn = 0 ∧ (e.slot x).clip = 0 ∧
          (e.slot x).lastClip = (s.dev.slot x).clip ∧ (e.slot x).partialWin = false ∧
          (e.slot x).out = (s.dev.slot x).out ∧ (e.slot x).upOut = (s.dev.slot x).upOut ∧
        ((s.dev.slot x).partialWin = true ∨ (s.dev.chan x).kind = .off →
          (e.slot x).pOut = (s.dev.slot x).pOut ∧ (e.slot x).pIn = (s.dev.slot x).pIn ∧
            (e.slot x).on = (s.dev.slot x).on ∧ (e.slot x).rise = (s.dev.slot x).rise ∧
            (e.slot x).fall = (s.dev.slot x).fall) ∧
        ((s.dev.slot x).partialWin = false → (s.dev.chan x).kind ≠ .off →
          (e.slot x).pOut = min 65535 ((s.dev.slot x).sumOut / (windowSamples (s.dev.chan x).kind * 32768)) ∧
            ((s.dev.chan x).kind = .carrier → (e.slot x).pIn = 0 ∧ (e.slot x).on = (s.dev.slot x).on ∧
              (e.slot x).rise = (s.dev.slot x).rise ∧ (e.slot x).fall = (s.dev.slot x).fall))) ∧
      (∀ k : Fin 8, let c := s.dev.slot (rescueSlot k)
        ((s.dev.chan (rescueSlot k)).kind = .rescue → c.partialWin = false → (e.slot (rescueSlot k)).pIn = 0 ∧
          ((e.slot (rescueSlot k)).on, (e.slot (rescueSlot k)).rise, (e.slot (rescueSlot k)).fall) =
            match c.on, decide ((s.dev.chan (rescueSlot k)).keyThreshold ≤ (e.slot (rescueSlot k)).pOut) with
            | false, true => if c.rise = 0 then (false, 1, c.fall) else (true, 0, 0)
            | false, false => (false, 0, c.fall)
            | true, false => if c.fall < 24 then (true, c.rise, c.fall + 1) else (false, 0, 0)
            | true, true => (true, c.rise, 0)) ∧
        ((e.slot (rescueSlot k)).on = c.on → e.sru.keyed.get k = s.dev.sru.keyed.get k) ∧
        ((e.slot (rescueSlot k)).on ≠ c.on → e.sru.keyed.get k = (e.slot (rescueSlot k)).on ∧
          (s.dev.linked = true → (e.smc.latches.get (slotCell (rescueSlot k))).getLsbD 0 = true))) ∧
      (∀ p : Fin 8, let c := s.dev.slot (progSlot p)
        ((s.dev.chan (progSlot p)).kind = .programme → c.partialWin = false →
          (e.slot (progSlot p)).pIn = min 65535 (c.sumIn / (3840 * 32768)) ∧
          ((e.slot (progSlot p)).on, (e.slot (progSlot p)).rise, (e.slot (progSlot p)).fall) =
            match c.on, decide ((s.dev.pm.table.get p).lossThreshold ≤ (e.slot (progSlot p)).pIn) with
            | false, true => if c.rise < 49 then (false, c.rise + 1, c.fall) else (true, 0, 0)
            | false, false => (false, 0, c.fall)
            | true, false => if c.fall < 9 then (true, c.rise, c.fall + 1) else (false, 0, 0)
            | true, true => (true, c.rise, 0)) ∧
        ((e.slot (progSlot p)).on ≠ c.on → s.dev.linked = true →
          (e.smc.latches.get (slotCell (progSlot p))).getLsbD 1 = true)) ∧
      (∀ p, (e.mod p).lastClamp = (s.dev.mod p).clamp ∧ (e.mod p).clamp = 0 ∧
        (0 < (s.dev.mod p).clamp → s.dev.linked = true → (e.smc.latches.get (slotCell (progSlot p))).getLsbD 3 = true)) ∧
      (∀ x : Fin 40, 16 ≤ x.val → 0 < (s.dev.slot x).clip → s.dev.linked = true →
        (e.smc.latches.get (slotCell x)).getLsbD 2 = true) ∧
      (∀ l, s.dev.linked = true → s.dev.smc.layout = some l → LayoutInv s.dev → ∀ x : Fin 40, ∀ f ∈ slotLive e x,
        f.1 = 6 ∨ f.1 = 8 ∨ f.1 = 10 ∨ f.1 = 5 ∧ x.val < 16 ∨ f.1 = 12 ∧ 16 ≤ x.val ∨ f.1 = 16 ∧ x.val < 8 →
        e.smc.mem.readN (statusAddr l (slotCell x) + f.1) f.2.1 = le f.2.1 f.2.2) ∧
      (∀ r, ((s.dev.remote r).serving = true ∧ (s.dev.remote r).paFault = false ∨
            (s.dev.remote r).state = .joining ∧ (s.dev.remote r).locked = true →
          e.budget r = evaluateBudget (s.dev.budget r) (effectiveBudget s.dev r) (classSum e r .rescue)
            (classSum e r .programme) (classSum e r .carrier) (s.dev.lm.windowSeq + 1)) ∧
        (¬((s.dev.remote r).serving = true ∧ (s.dev.remote r).paFault = false ∨
            (s.dev.remote r).state = .joining ∧ (s.dev.remote r).locked = true) → e.budget r = s.dev.budget r) ∧
        (e.remote r).state = (s.dev.remote r).state) ∧
      Only [.clock, .hp, .smc, .lm, .rs, .lbu, .pm, .sru, .uv] s.dev e)

/-- The evaluation of a remote at the close of the level window, in its own arithmetic (R73, R74, R76 to R83): effective budget,
class sums, the room left after rescue, the least step that fits each class or 47, BUDGET_SHORT, attack and release, the
evaluation sequence, RESCUE_OVER latched at its rise, and a LEVEL with the new step for each class whose step changed. -/
def Obligations.BudgetStepsFitTheRoom : Prop :=
  (∀ k, k < 48 → gain k = [32768, 29205, 26029, 23198, 20675, 18427, 16384, 14602, 13014, 11599, 10337, 9213, 8192, 7301,
    6507, 5799, 5168, 4606, 4096, 3650, 3253, 2899, 2584, 2303, 2048, 1825, 1626, 1449, 1292, 1151, 1024, 912, 813, 724,
    646, 575, 512, 456, 406, 362, 323, 287, 256, 228, 203, 181, 161, 143].getD k 0) ∧
  ∀ s, s.dev.lm.windowDue ≤ s.dev.now → Completes .levelWindowClose s (fun e => ∀ r,
    (s.dev.remote r).serving = true ∧ (s.dev.remote r).paFault = false ∨
      (s.dev.remote r).state = .joining ∧ (s.dev.remote r).locked = true →
    let b := s.dev.budget r
    let n := e.budget r
    let scaled := fun v k => v * ([65536, 52058, 41351, 32845, 26089, 20724].getD (k % 6) 0 / 4 ^ (k / 6)) / 65536
    let sum := fun lo hi : Nat => ((allFin 40).map (fun x =>
      if lo ≤ x.val ∧ x.val < hi ∧ (s.dev.route x r).routed = true then scaled (e.slot x).pOut (s.dev.route x r).trim
      else 0)).sum
    let room := n.effective - n.sumR
    let room2 := room - scaled n.sumP n.progTarget
    let fits := fun v rm t : Nat => t ≤ 47 ∧ (∀ k, k < t → rm < scaled v k) ∧ (scaled v t ≤ rm ∨ t = 47)
    let step := fun t c : Nat => if c < t then t else if t < c then c - 1 else c
    n.effective = (if (s.dev.remote r).serving = true ∧ (s.dev.remote r).overTemp = true then (s.dev.entry r).budget / 2
      else (s.dev.entry r).budget) ∧
    n.sumP = sum 0 8 ∧ n.sumR = sum 8 16 ∧ n.sumC = sum 16 40 ∧ (n.rescueOver = true ↔ n.effective < n.sumR) ∧
    fits n.sumP room n.progTarget ∧ fits n.sumC room2 n.carTarget ∧
    (n.short = true ↔ room < scaled n.sumP n.progTarget ∨ room2 < scaled n.sumC n.carTarget) ∧
    n.progStep = step n.progTarget b.progStep ∧ n.carStep = step n.carTarget b.carStep ∧
    n.progConfirmed = b.progConfirmed ∧ n.carConfirmed = b.carConfirmed ∧ n.evalSeq = s.dev.lm.windowSeq + 1 ∧
    (s.dev.linked = true → b.rescueOver = false → n.rescueOver = true →
      (e.smc.latches.get (remoteCell r)).getLsbD 4 = true) ∧
    (n.progStep ≠ b.progStep → ∃ y ∈ (e.remote r).queue, y.msg = .level false n.progStep ∧ y.sent = false) ∧
    (n.carStep ≠ b.carStep → ∃ y ∈ (e.remote r).queue, y.msg = .level true n.carStep ∧ y.sent = false))

/-- The counts of keying and presence (R11, R13): a slot keys at the second consecutive window at or above its threshold and
unkeys at the twenty-fifth below; a carrier is present after fifty consecutive good windows and lost after ten low ones. -/
def Obligations.KeyingAndPresenceCountConsecutiveWindows : Prop :=
  ∀ c : Slot,
    (c.on = false → c.rise = 0 → ∀ n, (((keyAdvance true)^[n] c).on = true ↔ 2 ≤ n)) ∧
      (c.on = true → c.fall = 0 → ∀ n, (((keyAdvance false)^[n] c).on = false ↔ 25 ≤ n)) ∧
      (c.on = false → c.rise = 0 → ∀ n, (((presenceAdvance true)^[n] c).on = true ↔ 50 ≤ n)) ∧
      (c.on = true → c.fall = 0 → ∀ n, (((presenceAdvance false)^[n] c).on = false ↔ 10 ≤ n)) ∧
      (c.on = false → (keyAdvance false c).on = false ∧ (keyAdvance false c).rise = 0) ∧
      (c.on = true → (keyAdvance true c).on = true ∧ (keyAdvance true c).fall = 0) ∧
      (c.on = false → (presenceAdvance false c).on = false ∧ (presenceAdvance false c).rise = 0) ∧
      (c.on = true → (presenceAdvance true c).on = true ∧ (presenceAdvance true c).fall = 0)

/-- The staging timer (R60, R61, R62, R63): the switch event. The working route table becomes the new one and its revision is
recorded. The switching set is the remotes still staged and every remote in service, or joining behind its delay lock, whose MAP
differs for some slot: each still staged is offered SWITCH and keeps its MAPs, each other is offered its differing MAPs, and
SWITCH unless its join has yet to offer that (R36); no other remote's MAP or SWITCH changes. The exchange is SWITCHING while a
remote of the set holds a MAP or a SWITCH, else IDLE; a voter selects only remotes with route and uplink in the new table (R158). At the end of the exchange, here with no remote to switch, a boot load
that has waited starts its own exchange with its rows over the new working table, or with them cleared when that fails the
capacity check (R71); else a deferred revision word is read and judged anew, and its table read at that moment (R64, R184, R186).
That TAKE_UP_DONE is latched by the part state at the switch, also after a link loss and a new START meanwhile, is the model's
choice (log 41). -/
def Obligations.StagingTimerSwitchesTheRoutes : Prop :=
  (∀ s, s.dev.rp.phase = .staging → s.dev.rp.stagingDue ≤ s.dev.now → s.dev.smc.job = none →
    (∀ r, (s.dev.remote r).serving = false ∧ ((s.dev.remote r).state = .joining → (s.dev.remote r).locked = false) ∧
      ∀ x ∈ (s.dev.remote r).queue, x.msg.kind ≠ .map ∧ x.msg.kind ≠ .switch) →
    (∀ rows : Tab 160 (Option (List Byte)), s.dev.rp.bootRows = some rows → s.dev.smc.deferred.get 2 = false →
      ∀ full bare : Routes,
        (∀ (c : Fin 40) (r : Fin 32),
          (∀ b, rows.get (rowOf c (portOf r)) = some b → (full.get c).get r = routeForm c (b.getD (posOf r).val 0) ∧
            (bare.get c).get r = ⟨false, false, 0⟩) ∧
          (rows.get (rowOf c (portOf r)) = none → (full.get c).get r = (s.dev.rp.newRoutes.get c).get r ∧
            (bare.get c).get r = (s.dev.rp.newRoutes.get c).get r)) →
        Completes .stagingTimerExpiry s (fun e => e.rp.phase = .idle ∧ e.rp.bootRows = none ∧ e.smc.taken.get 2 = 0 ∧
          e.smc.lastReq = s.dev.smc.lastReq ∧ (routeCheck full = none → e.rp.routes = full) ∧
          (routeCheck full ≠ none → e.rp.routes = bare))) ∧
    (∀ l, s.dev.rp.bootRows = none → s.dev.smc.deferred.get 2 = true → s.dev.smc.layout = some l → LayoutInv s.dev →
      Completes .stagingTimerExpiry s (fun e =>
        let w := revisionWord s.dev.smc.mem l .route
        let new := hostRoutes s.dev.smc.mem l
        e.smc.deferred.get 2 = false ∧ e.rp.phase = .idle ∧
        (w = 0 ∨ w = s.dev.smc.lastReq.get 2 → e.rp.routes = s.dev.rp.newRoutes ∧
          e.smc.lastReq.get 2 = s.dev.smc.lastReq.get 2) ∧
        (w ≠ 0 → w ≠ s.dev.smc.lastReq.get 2 → e.smc.lastReq.get 2 = w ∧
          (∀ i c, routeCheck new = some (i, c) → e.rp.routes = s.dev.rp.newRoutes ∧
            e.smc.lastRefusal = some ⟨.route, w, i, c⟩) ∧
          (routeCheck new = none → e.rp.routes = new ∧ e.smc.taken.get 2 = w))))) ∧
  ∀ s, s.dev.rp.phase = .staging → s.dev.rp.stagingDue ≤ s.dev.now → s.dev.rp.bootRows = none →
    s.dev.smc.deferred.get 2 = false → Completes .stagingTimerExpiry s (fun e =>
      e.rp.routes = s.dev.rp.newRoutes ∧ e.rp.staged = [] ∧
        e.smc.taken.get 2 = (if s.dev.rp.newBoot then 0 else s.dev.rp.newWord) ∧
        (∀ t, t ≠ 2 → e.smc.taken.get t = s.dev.smc.taken.get t) ∧
        (s.dev.linked = true → s.dev.rp.newBoot = false → (e.smc.latches.get partCell).getLsbD 0 = true) ∧
        e.rp.phase = (if e.rp.switching = [] then .idle else .switching) ∧
        (let differs := fun (r : Fin 32) (c : Fin 40) => mapOf s.dev.rp.routes r c ≠ mapOf s.dev.rp.newRoutes r c
          let staged := fun r => r ∈ s.dev.rp.staged
          let admits := fun r => (s.dev.remote r).serving = true ∨
            (s.dev.remote r).state = .joining ∧ (s.dev.remote r).locked = true
          let others := fun r => ¬ staged r ∧ admits r ∧ ∃ c, differs r c
          let offered := fun (r : Fin 32) (m : DownMsg) =>
            ∃ y ∈ (e.remote r).queue, y.msg = m ∧ y.sent = false ∧ y.count = 0
          let stands := fun (r : Fin 32) (id : MsgId) =>
            ∀ y, y.msg.id = id → (y ∈ (e.remote r).queue ↔ y ∈ (s.dev.remote r).queue)
          (∀ r, r ∈ e.rp.switching ↔ (staged r ∨ others r) ∧
            ∃ y ∈ (e.remote r).queue, y.msg.kind = .map ∨ y.msg.kind = .switch) ∧
          (∀ r, staged r → admits r → offered r .switch) ∧
          (∀ r, others r → (∀ c, differs r c → offered r (.map c (mapOf s.dev.rp.newRoutes r c))) ∧
            ((s.dev.remote r).serving = true ∨ (s.dev.remote r).joinSwitch = true → offered r .switch) ∧
            ((s.dev.remote r).serving = false → (s.dev.remote r).joinSwitch = false → stands r ⟨.switch, 0⟩)) ∧
          (∀ r c, ¬ (others r ∧ differs r c) → stands r ⟨.map, c.val⟩) ∧
          ∀ r, ¬ staged r → ¬ others r → stands r ⟨.switch, 0⟩) ∧
        (∀ k r, (e.voter k).sel = some r →
          (e.route (rescueSlot k) r).routed = true ∧ (e.route (rescueSlot k) r).uplink = true) ∧
        (∀ r, (e.remote r).state = (s.dev.remote r).state) ∧ e.lm = s.dev.lm ∧ e.lp = s.dev.lp ∧
        e.lbu = s.dev.lbu ∧ e.tables = s.dev.tables)

/-- The end of a voting frame (R155, R156, R157): the frame's figures become the last ones; the best candidate, of those that
meet the state conditions with a figure in this frame, is recorded; a voter without a selection takes it, and one with a
selection keeps it or splices to it, at the smallest offset of the least sum of absolute differences. The recheck that
follows each change of a remote's state, LATE mark, port or route (R158, R159): a selected remote that meets the state
conditions stays, any other is left at once for the remote with the highest last figure of those that meet them, or for
none; that the read offset is 0 with none is the model's reading (log 27). -/
def Obligations.VotingFrameEndJudgesTheSelection : Prop :=
  (∀ s k, (s.dev.voter k).due ≤ s.dev.now → Completes (.votingFrameEnd k) s (fun e =>
    let v := s.dev.voter k
    let w := e.voter k
    let can := fun r => selectable s.dev k r ∧ v.cur.get r ≠ none
    let q := fun r => (v.cur.get r).getD 0
    let latched := fun b => e.smc.latches = latchesAfter s.dev (slotCell (rescueSlot k)) b
    let stays := w.sel = v.sel ∧ w.offset = v.offset
    w.last = v.cur ∧ (∀ r, w.cur.get r = none) ∧ w.seq = v.seq + 1 ∧ w.due = v.due + 491520 ∧ w.hist = v.hist ∧
      w.outs = v.outs ∧
      ((∀ r, ¬ can r) → w.best = none ∧ stays ∧ e.smc.latches = s.dev.smc.latches) ∧
      (∀ b, highest can q b → w.best = some b ∧
        (v.sel = none → w.sel = some b ∧ w.offset = 0 ∧ latched latchVoterChange) ∧
        ∀ r, v.sel = some r →
          let judged := can r → b ≠ r ∧ q r + (s.dev.sru.table.get k).hysteresis ≤ q b
          let env := fun x : Sample => min 255 ((x.i.toInt.natAbs + x.q.toInt.natAbs) / 256)
          let out := fun i => env (v.outs.getD (3 - i) Sample.zero)
          let new := fun i => env ((v.hist.get b).getD (11 - i) Sample.zero)
          let sad := fun j => ((List.range 4).map (fun i => (out i - new (j + i)) + (new (j + i) - out i))).sum
          (¬ judged → stays ∧ e.smc.latches = s.dev.smc.latches) ∧
          (judged → ∃ j, j < 8 ∧ (∀ n, n < 8 → sad j ≤ sad n) ∧ (∀ n, n < j → sad j < sad n) ∧
            (sad j ≤ (s.dev.sru.table.get k).spliceLimit →
              w.sel = some b ∧ w.offset = (j : Int) - 4 ∧ latched latchVoterChange) ∧
            ((s.dev.sru.table.get k).spliceLimit < sad j → stays ∧ latched latchSpliceRefused))) ∧
      (∀ y, y ≠ k → e.voter y = s.dev.voter y) ∧ Only [.clock, .hp, .smc, .uv] s.dev e)) ∧
  ∀ d : Dev, Only [.hp, .smc, .uv] d (uvRecheck d) ∧ ∀ k,
    let v := d.voter k
    let w := (uvRecheck d).voter k
    let can := fun r => selectable d k r ∧ v.last.get r ≠ none
    let latched := fun b => d.linked = true → ((uvRecheck d).smc.latches.get (slotCell (rescueSlot k))).getLsbD b = true
    (v.sel = none → w = v) ∧
    ∀ r, v.sel = some r →
      (selectable d k r → w = v) ∧
      (¬ selectable d k r → latched 4 ∧
        (∀ b, highest can (fun r => (v.last.get r).getD 0) b → w = { v with sel := some b, offset := 0 }) ∧
        ((∀ b, ¬ can b) → w = { v with sel := none, offset := 0 } ∧ latched 5))

/-! ### Break-in services, audio and lines -/

/-- A BIM request (R121): the lowest-numbered FREE BIM; else the BIM of the last programme of the last source, if that source
has the lower priority; else the pair waits. A BIM given takes the phase of the programme's main modulator (R96); its audio
sample 0 until the first delivery (log 21) and its empty sample list (log 29) are the model's choices. A version
request on a port (R66): the lowest FREE lane; else the pattern's, whose test ends with PATTERN_PREEMPTED; else that of the
last programme of the last source, if that source has the lower priority, whose request then waits; else the request waits.
A released lane goes to the first waiting request, or becomes FREE (R67). The BIMs of a service that has ended, the
lowest-numbered first, go to the waiting pairs in their order of source and programme, and become FREE when none is left
(R122). -/
def Obligations.BimAndLaneRequestsTakeAFreeOrLowerOne : Prop :=
  (∀ (d : Dev) n, (d.source n).inService = false →
    let released := fun m => ∃ p, (d.bim m).pair = some (n, p)
    let waits := fun q : Fin 8 × Fin 8 => (d.source q.1).inService = true ∧ (d.source q.1).progs.getLsbD q.2.val = true ∧
      ∀ m, (d.bim m).pair ≠ some q
    let ranks := fun a b : Fin 8 × Fin 8 => a.1 < b.1 ∨ a.1 = b.1 ∧ a.2 < b.2
    let e := releaseBims d true n
    (∀ m, ¬ released m → e.bim m = d.bim m) ∧
    (∀ m, released m → e.bim m = ⟨none, 0, 0, []⟩ ∨ ∃ q, waits q ∧ e.bim m = ⟨some q, (d.mod q.2).phase, 0, []⟩) ∧
    (∀ m k q, released m → released k → m < k → (e.bim k).pair = some q → ∃ p, (e.bim m).pair = some p ∧ ranks p q) ∧
    ∀ q, waits q → (∃ m, released m ∧ (e.bim m).pair = some q) ∨
      ∀ m, released m → ∃ p, (e.bim m).pair = some p ∧ ranks p q) ∧
  (∀ (d : Dev) (x : Fin 4) (q : VersionReq),
    let lanes := (d.pool x).lanes
    let e := poolRequest d x q
    (∀ i, lanes.get i = .free → (∀ j, j < i → lanes.get j ≠ .free) →
      e.pool x = { d.pool x with lanes := lanes.set i (.version q) } ∧ e.rs = d.rs) ∧
    ((∀ i, lanes.get i ≠ .free) →
      (∀ i, lanes.get i = .pattern → (∀ j, j < i → lanes.get j ≠ .pattern) →
        e.pool x = { d.pool x with lanes := lanes.set i (.version q) } ∧ e.rs.test = none ∧
          ∀ t, d.rs.test = some t → d.linked = true → (e.smc.latches.get (portCell t.port)).getLsbD 3 = true) ∧
      ((∀ i, lanes.get i ≠ .pattern) → ∀ i h, lanes.get i = .version h →
        (∀ j k, lanes.get j = .version k → j ≠ i → k.src < h.src ∨ (k.src = h.src ∧ k.prog < h.prog)) →
        (q.src < h.src → e.pool x = ⟨lanes.set i (.version q), (d.pool x).waiting ++ [h]⟩ ∧ e.rs = d.rs) ∧
        (h.src ≤ q.src → e.pool x = ⟨lanes, (d.pool x).waiting ++ [q]⟩ ∧ e.rs = d.rs))) ∧
    (∀ y, y ≠ x → e.pool y = d.pool y) ∧
    ∀ i, ((d.pool x).waiting = [] → (releaseLane d x i).pool x = { d.pool x with lanes := lanes.set i .free }) ∧
      ∀ w, w ∈ (d.pool x).waiting →
        (∀ v ∈ (d.pool x).waiting, v ≠ w → w.src < v.src ∨ (w.src = v.src ∧ w.prog < v.prog)) →
        (releaseLane d x i).pool x = ⟨lanes.set i (.version w), (d.pool x).waiting.filter (fun v => v != w)⟩) ∧
  ∀ (d : Dev) n p,
    (∀ m, (d.bim m).pair = none → (∀ k, k < m → (d.bim k).pair ≠ none) →
      ((requestBim d (n, p)).bim m) = ⟨some (n, p), (d.mod p).phase, 0, []⟩ ∧
        ∀ k, k ≠ m → (requestBim d (n, p)).bim k = d.bim k) ∧
    ((∀ m, (d.bim m).pair ≠ none) → BimInv d → ∀ m h q, (d.bim m).pair = some (h, q) →
      (∀ k g r, (d.bim k).pair = some (g, r) → g < h ∨ (g = h ∧ r ≤ q)) →
      (n < h → (requestBim d (n, p)).bim m = ⟨some (n, p), (d.mod p).phase, 0, []⟩ ∧
        ∀ k, k ≠ m → (requestBim d (n, p)).bim k = d.bim k) ∧
      (h ≤ n → requestBim d (n, p) = d))

/-- The break-in update that follows every change of its inputs: the zone selection table names the first source in service
that covers the entry and holds its BIM (R123); after it every version lane is held by a BIM that needs it, and every BIM
that needs a lane holds one or waits (R101, R102); each delivery record has its desired value, and a remote that admits it is
offered SUBST when that value is not the last one given (R103, R104); the unreached set of each service is that of R106, and
PARTIAL is latched when it leaves empty after the settle time (R124). That a remote out of service is not reached is the
model's reading (log 19). -/
def Obligations.BreakInUpdateDeliversTheVersions : Prop :=
  ∀ d : Dev, BimInv d →
    let e := bicUpdate d
    let covers := fun (n : Fin 8) (z : Fin 16) (p : Fin 8) => (d.source n).inService = true ∧
      (d.source n).progs.getLsbD p.val = true ∧ (d.source n).zones.getLsbD z.val = true
    let owns := fun n z p => covers n z p ∧ ∃ m, (d.bim m).pair = some (n, p)
    let needs := fun (n p : Fin 8) (x : Fin 4) => ∃ r, portOf r = x ∧ (d.route (progSlot p) r).routed = true ∧
      (d.source n).zones.getLsbD (d.entry r).zone.val = true
    let carries := fun (x : Fin 4) (i : Fin 12) (v : VersionReq) => (e.pool x).lanes.get i = .version v ∧
      ∀ j, j < i → (e.pool x).lanes.get j ≠ .version v
    (∀ z p, ((∀ n, ¬ owns n z p) → (e.bic.zoneSel.get z).get p = none) ∧
      ∀ n, owns n z p → (∀ k, k < n → ¬ owns k z p) →
        ∃ m, (e.bic.zoneSel.get z).get p = some (n, m) ∧ (d.bim m).pair = some (n, p)) ∧
    (∀ x,
      (∀ i v, (e.pool x).lanes.get i = .version v → (d.bim v.bim).pair = some (v.src, v.prog) ∧ needs v.src v.prog x) ∧
      (∀ v ∈ (e.pool x).waiting, (d.bim v.bim).pair = some (v.src, v.prog) ∧ needs v.src v.prog x) ∧
      ∀ m n p, (d.bim m).pair = some (n, p) → needs n p x →
        (∃ i, (e.pool x).lanes.get i = .version ⟨m, n, p⟩) ∨ ⟨m, n, p⟩ ∈ (e.pool x).waiting) ∧
    (∀ r p,
      let v := e.delivery r p
      let old := d.delivery r p
      let routed := (d.route (progSlot p) r).routed
      let owner := (e.bic.zoneSel.get (d.entry r).zone).get p
      (∀ n m i, routed = true → owner = some (n, m) → carries (portOf r) i ⟨m, n, p⟩ → v.desired = .lane (308 + i.val) n) ∧
      (routed = false ∨ owner = none ∨ (∃ n m, owner = some (n, m) ∧
        ∀ i, (e.pool (portOf r)).lanes.get i ≠ .version ⟨m, n, p⟩) → v.desired = .through) ∧
      v.acked = old.acked ∧
      ((d.remote r).serving = true ∨ (d.remote r).state = .joining ∧ (d.remote r).locked = true →
        (old.offered = some v.desired ∨ old.offered = none ∧ old.acked = some v.desired → v.offered = old.offered) ∧
        (¬(old.offered = some v.desired ∨ old.offered = none ∧ old.acked = some v.desired) →
          v.offered = some v.desired ∧ ∃ y ∈ (e.remote r).queue, y.sent = false ∧ y.msg = .subst p (match v.desired with
            | .through => none
            | .lane i _ => some i))) ∧
      (¬((d.remote r).serving = true ∨ (d.remote r).state = .joining ∧ (d.remote r).locked = true) →
        v.offered = old.offered)) ∧
    ∀ n, (d.source n).inService = true →
      (∀ r : Fin 32,
        let mine := fun p : Fin 8 => (d.source n).progs.getLsbD p.val = true ∧ (d.route (progSlot p) r).routed = true
        ((e.source n).unreached.getLsbD r.val = true ↔
          (d.source n).zones.getLsbD (d.entry r).zone.val = true ∧ (∃ p, mine p) ∧
            ¬((d.remote r).serving = true ∧ (d.remote r).paFault = false ∧ ∀ p, mine p →
              ∃ m i, (d.bim m).pair = some (n, p) ∧ carries (portOf r) i ⟨m, n, p⟩ ∧
                (e.delivery r p).acked = some (.lane (308 + i.val) n)))) ∧
      (d.linked = true → (d.source n).settled = true → (d.source n).unreached = 0 → (e.source n).unreached ≠ 0 →
        (e.smc.latches.get (sourceCell n)).getLsbD 4 = true)

/-- A play instant of a service (R97, R126, R130, R131): the sample that each phase delivers to the source's BIMs and what the
service becomes; an underrun counts and latches AUDIO_SLOW; the last sample of a pass ends the service, or begins the
gap or the next pass; at an end a source that can start and holds a request, or whose LEVEL line is up and not held off, begins
its next service at once, with the parameters of its cue or the defaults (R112, R118, R119, R134; logs 9, 58). That ALARM after a
failed boot counts as a LEVEL line with line use off is the model's reading (log 50). -/
def Obligations.PlayInstantDeliversOneSample : Prop :=
  ∀ s n, (s.dev.source n).inService = true → (s.dev.source n).playDue ≤ s.dev.now →
    let gives := fun (x : BitVec 16) (e : Dev) =>
      (e.source n).playDue = (s.dev.source n).playDue + 768 ∧
        ∀ m, e.bim m = if (∃ p, (s.dev.bim m).pair = some (n, p)) then { s.dev.bim m with audio := x } else s.dev.bim m
    ((s.dev.source n).audioPhase = .priming ∨ (s.dev.source n).audioPhase = .silent →
      Completes (.playInstant n) s (fun e => gives 0 e ∧
        e.source n = { s.dev.source n with playDue := (s.dev.source n).playDue + 768 } ∧
        Only [.clock, .bic, .pm] s.dev e)) ∧
    ((s.dev.source n).audioPhase = .gap → Completes (.playInstant n) s (fun e => gives 0 e ∧
      (e.source n).gapLeft = (s.dev.source n).gapLeft - 1 ∧
      (e.source n).audioPhase = (if (s.dev.source n).gapLeft ≤ 1 then .playing else .gap) ∧
      (e.source n).fifo = (s.dev.source n).fifo ∧ Only [.clock, .smc, .bic, .pm] s.dev e)) ∧
    ((s.dev.source n).audioPhase = .playing → (s.dev.source n).fifo = [] →
      Completes (.playInstant n) s (fun e => gives 0 e ∧
        (e.source n).underruns = min 65535 ((s.dev.source n).underruns + 1) ∧
        (e.source n).played = (s.dev.source n).played ∧ (e.source n).audioPhase = .playing ∧
        (s.dev.linked = true → (e.smc.latches.get (sourceCell n)).getLsbD 5 = true) ∧
        Only [.clock, .hp, .smc, .bic, .pm] s.dev e)) ∧
    ∀ x q, (s.dev.source n).audioPhase = .playing → (s.dev.source n).fifo = x :: q →
      let len := match (s.dev.source n).origin with
        | some (.shared _ k) | some (.flash _ k) => k
        | some .none | some .line | none => 0
      (len = 0 ∨ (s.dev.source n).played + 1 < len → Completes (.playInstant n) s (fun e => gives x e ∧
        (e.source n).fifo = q ∧ (e.source n).played = (s.dev.source n).played + 1 ∧
        (e.source n).audioPhase = .playing ∧ (e.source n).inService = true ∧
        (e.source n).underruns = (s.dev.source n).underruns ∧ e.smc.latches = s.dev.smc.latches ∧
        Only [.clock, .smc, .bic, .pm, .fb] s.dev e)) ∧
      (len ≠ 0 → len ≤ (s.dev.source n).played + 1 →
        ((s.dev.source n).ending = false → (s.dev.source n).repeatsLeft ≠ 1 →
          Completes (.playInstant n) s (fun e => gives x e ∧ (e.source n).fifo = q ∧ (e.source n).played = 0 ∧
            (e.source n).inService = true ∧ (e.source n).repeatsLeft = (s.dev.source n).repeatsLeft - 1 ∧
            (e.source n).audioPhase = (if (s.dev.source n).gap = 0 then .playing else .gap) ∧
            (e.source n).gapLeft = 32 * (s.dev.source n).gap)) ∧
        ((s.dev.source n).ending = true ∨ (s.dev.source n).repeatsLeft = 1 → (s.dev.source n).isPending = false →
          levelLine s.dev n = false → Completes (.playInstant n) s (fun e =>
            (e.source n).inService = false ∧ (e.source n).fifo = [] ∧ (e.source n).settleDue = none ∧
              (e.source n).endReason = (if (s.dev.source n).ending then .lineDropped else .finished) ∧
              (s.dev.linked = true → (e.smc.latches.get (sourceCell n)).getLsbD 1 = true) ∧
              (BimInv s.dev → ∀ m p, (e.bim m).pair ≠ some (n, p)) ∧ e.tables = s.dev.tables)) ∧
        ((s.dev.source n).ending = true ∨ (s.dev.source n).repeatsLeft = 1 →
          let c := s.dev.source n
          let t := s.dev.bic.table.get n
          let follows := levelLine s.dev n = true ∧ c.cancelHold = false
          let asks := c.cueReq ≠ none ∨ follows ∧ lineLevel s.dev n = true ∨ ¬ follows ∧ c.lineReq = true
          t.enabled = true → s.dev.bic.master = true → asks → Completes (.playInstant n) s (fun e =>
            (e.source n).isPending = false ∧
              ServiceStarts s.dev n (startCue s.dev n t) (resolveOrigin s.dev (startCue s.dev n t).origin).1 e ∧
              (s.dev.linked = true → (e.smc.latches.get (sourceCell n)).getLsbD 1 = true))))

/-- Samples that reach an audio FIFO (R126, R127, R129, R206): a sample of input AUDi joins that of a LINE service of its
source while there is room and is discarded otherwise; a block of a SHARED clip joins its FIFO, and the fetch goes on or
begins the next pass; a clip read from the flash joins its source's FIFO, its fetch goes on, and the next 128 samples are asked
for when there is room (R128), or it is dropped when discarded; the port goes to the next waiting read in turn, else to
maintenance work (R205). PRIMING ends at the priming amount. One SHARED block on its way at a time, the next asked for
when there is room for 32 samples, and its bytes read at its end (log 22), and the 10 ms and the 2 s of a page program and a sector
erase granted after a clip read, which run from the grant (log 44), are the model's choices. -/
def Obligations.FetchedSamplesJoinTheAudioFifo : Prop :=
  ((∀ s (i : Fin 2) (n : Fin 8) v, n.val = i.val + 1 →
     (¬((s.dev.source n).inService = true ∧ (s.dev.source n).origin = some .line ∧
         (s.dev.source n).fifo.length < 2048) →
       Completes (.audSampleArrival i v) s (fun e => e = s.dev.event)) ∧
     ((s.dev.source n).inService = true → (s.dev.source n).origin = some .line →
       (s.dev.source n).fifo.length < 2048 → Completes (.audSampleArrival i v) s (fun e =>
         e.source n = { s.dev.source n with
           fifo := (s.dev.source n).fifo ++ [v],
           audioPhase := if (s.dev.source n).audioPhase = .priming ∧ 64 ≤ (s.dev.source n).fifo.length + 1 then .playing
             else (s.dev.source n).audioPhase } ∧
         (∀ k, k ≠ n → e.source k = s.dev.source k) ∧ Only [.clock, .smc, .bic] s.dev e))) ∧
     ∀ s n a k, (s.dev.source n).inService = true → (s.dev.source n).origin = some (.shared a k) →
       0 < (s.dev.source n).onWay → Completes (.sharedClipBlockDone n) s (fun e =>
         let c := s.dev.source n
         let block := (List.range c.onWay).map (fun j =>
           BitVec.ofNat 16 ((s.dev.smc.mem.read (a + 2 * c.fetchPos + 2 * j)).toNat +
             256 * (s.dev.smc.mem.read (a + 2 * c.fetchPos + 2 * j + 1)).toNat))
         (e.source n).fifo = c.fifo ++ block ∧
           (c.fetchPos + c.onWay < k → (e.source n).fetchPos = c.fetchPos + c.onWay ∧ (e.source n).fetched = c.fetched) ∧
           (k ≤ c.fetchPos + c.onWay → (e.source n).fetchPos = 0 ∧ (e.source n).fetched = c.fetched + 1) ∧
           (e.source n).audioPhase =
             (if c.audioPhase = .priming ∧ min 256 k ≤ c.fifo.length + c.onWay then .playing else c.audioPhase) ∧
           (e.source n).onWay = (if (c.repeats = 0 ∨ (e.source n).fetched < c.repeats) ∧
               c.fifo.length + c.onWay + 32 ≤ 2048 then min 32 (k - (e.source n).fetchPos) else 0) ∧
           (e.source n).inService = true ∧ (∀ j, j ≠ n → e.source j = s.dev.source j) ∧
           Only [.clock, .smc, .bic] s.dev e)) ∧
    (∀ s n r x, s.dev.fb.holder = some ⟨.clip n r, x⟩ →
       (x = true → Completes .clipReadDone s (fun e => (∀ k, e.source k = s.dev.source k) ∧
         Only [.clock, .smc, .fb] s.dev e ∧ e.fb.dir = s.dev.fb.dir)) ∧
       (x = false → Completes .clipReadDone s (fun e =>
         (e.source n).fifo = (s.dev.source n).fifo ++ (List.range (r.count / 2)).map (fun j =>
           BitVec.ofNat 16 ((chipRead s.dev.fb.chip (r.off + 2 * j)).toNat +
             256 * (chipRead s.dev.fb.chip (r.off + 2 * j + 1)).toNat)) ∧
         ((s.dev.source n).audioPhase ≠ .priming → (e.source n).audioPhase = (s.dev.source n).audioPhase) ∧
         (∀ k, k ≠ n → e.source k = s.dev.source k) ∧ Only [.clock, .smc, .bic, .fb] s.dev e)) ∧
       (s.dev.smc.state ≠ .booting →
         (x = true → Completes .clipReadDone s (fun e => PortGoes s.dev (fun m => s.dev.fb.waiting.get m) e)) ∧
         ∀ o k, x = false → (s.dev.source n).inService = true → (s.dev.source n).origin = some (.flash o k) →
           s.dev.fb.waiting.get n = none → Completes .clipReadDone s (fun e =>
             let c := s.dev.source n
             let got := r.count / 2
             let pos := (e.source n).fetchPos
             (c.fetchPos + got < k → pos = c.fetchPos + got ∧ (e.source n).fetched = c.fetched) ∧
             (k ≤ c.fetchPos + got → pos = 0 ∧ (e.source n).fetched = c.fetched + 1) ∧
             (e.source n).audioPhase =
               (if c.audioPhase = .priming ∧ min 256 k ≤ c.fifo.length + got then .playing else c.audioPhase) ∧
             PortGoes s.dev (fun m =>
               if m = n then
                 if (c.repeats = 0 ∨ (e.source n).fetched < c.repeats) ∧ c.fifo.length + got + 128 ≤ 2048 then
                   some ⟨o + 2 * pos, 2 * min 128 (k - pos)⟩
                 else none
               else s.dev.fb.waiting.get m) e)))

/-- A rising edge (R112, R113, R114, R137): the level is recorded, and outside BOOTING a source in line use is triggered: one
that can start is put in service; one that cannot holds the request; one in service is triggered again or ignores the
trigger; a LEVEL trigger held off by a cancel makes no request. A start has the parameters of a cue request if one is held, else
the defaults of the source's table entry (R119; logs 9, 58). After a failed boot ALARM makes its masked request until a source
table enables the master and S0 or gives S0 line use (R136); that it does so with line use off is the model's reading (log 50), and
that an edge of a line already up changes nothing is its choice (log 2). -/
def Obligations.RisingLineTriggersItsSource : Prop :=
  ∀ s (i : Fin 3) (n : Fin 8), n.val = i.val →
    (s.dev.bic.lines.get i = true → exec (.lineRisingEdge i) s = .next s) ∧
    (s.dev.bic.lines.get i = false → Completes (.lineRisingEdge i) s (fun e =>
      let c := s.dev.source n
      let t := s.dev.bic.table.get n
      let idle := e.source n = c ∧ Only [.clock, .hp, .smc, .bic] s.dev e
      let failed := s.dev.smc.bootResult.outcome ≠ .none ∧ s.dev.smc.bootResult.outcome ≠ .loaded
      let heard := t.lineUse = true ∨ n.val = 0 ∧ failed ∧ s.dev.bic.alarmMasked = true
      e.bic.lines.get i = true ∧ (∀ j, j ≠ i → e.bic.lines.get j = s.dev.bic.lines.get j) ∧
        (∀ k, k ≠ n → (e.source k).inService = (s.dev.source k).inService) ∧
        (s.dev.smc.state = .booting ∨ ¬ heard → idle) ∧
        (s.dev.smc.state ≠ .booting → heard →
          (c.inService = true → t.again = false → idle ∧
            (s.dev.linked = true → (e.smc.latches.get (sourceCell n)).getLsbD 3 = true)) ∧
          (c.inService = true → t.again = true →
            e.source n = { c with lineReq := true } ∧ Only [.clock, .smc, .bic] s.dev e) ∧
          (c.inService = false → t.latched = false → c.cancelHold = true → idle) ∧
          (c.inService = false → t.latched = true ∨ c.cancelHold = false →
            (t.enabled = false ∨ s.dev.bic.master = false →
              e.source n = { c with lineReq := true } ∧ Only [.clock, .smc, .bic] s.dev e) ∧
            (t.enabled = true → s.dev.bic.master = true →
              (e.source n).isPending = false ∧
                ServiceStarts s.dev n (startCue s.dev n t) (resolveOrigin s.dev (startCue s.dev n t).origin).1 e)))))

/-- A falling edge (R112, R114, R132, R133, R137): the level is recorded, and outside BOOTING a LEVEL source loses its line
request and cancel hold, with REQUEST_WITHDRAWN for a request; a PLAYING clip of a LEVEL source ends with its pass; a LINE
service, or a LEVEL service in another phase, ends with LINE_DROPPED, and a request still held by a source that can start begins
its next service at once, with the parameters of its cue or the defaults (R114, R118, R119, R134; logs 9, 58). ALARM after a failed boot acts so with line use off too, until a source table
enables the master and S0 or gives S0 line use (R136, log 50). That an edge of a line already down changes nothing is the
model's choice (log 2). -/
def Obligations.FallingLineWithdrawsOrEnds : Prop :=
  ∀ s (i : Fin 3) (n : Fin 8), n.val = i.val →
    (s.dev.bic.lines.get i = false → exec (.lineFallingEdge i) s = .next s) ∧
    (s.dev.bic.lines.get i = true → Completes (.lineFallingEdge i) s (fun e =>
      let c := s.dev.source n
      let t := s.dev.bic.table.get n
      let failed := s.dev.smc.bootResult.outcome ≠ .none ∧ s.dev.smc.bootResult.outcome ≠ .loaded
      let heard := t.lineUse = true ∨ n.val = 0 ∧ failed ∧ s.dev.bic.alarmMasked = true
      let level := heard ∧ t.latched = false
      e.bic.lines.get i = false ∧ (∀ j, j ≠ i → e.bic.lines.get j = s.dev.bic.lines.get j) ∧
        (s.dev.smc.state = .booting → e.source n = c ∧ Only [.clock, .smc, .bic] s.dev e) ∧
        (s.dev.smc.state ≠ .booting →
          (level → c.lineReq = true → s.dev.linked = true → (e.smc.latches.get (sourceCell n)).getLsbD 2 = true) ∧
          (c.inService = false → ¬ level → e.source n = c ∧ Only [.clock, .smc, .bic] s.dev e) ∧
          (c.inService = false → level → e.source n = { c with lineReq := false, cancelHold := false } ∧
            Only [.clock, .hp, .smc, .bic] s.dev e) ∧
          (c.inService = true → c.origin ≠ some .line → ¬ level → e.source n = c) ∧
          (c.inService = true → c.origin ≠ some .line → level → c.audioPhase = .playing →
            e.source n = { c with lineReq := false, cancelHold := false, ending := true }) ∧
          (c.inService = true → c.origin = some .line ∨ (level ∧ c.audioPhase ≠ .playing) →
            let held := c.cueReq ≠ none ∨ (¬ level ∧ c.lineReq = true)
            (s.dev.linked = true → (e.smc.latches.get (sourceCell n)).getLsbD 1 = true) ∧
            (¬ held ∨ t.enabled = false ∨ s.dev.bic.master = false →
              (e.source n).inService = false ∧ (e.source n).endReason = .lineDropped ∧ (e.source n).cueReq = c.cueReq) ∧
            (held → t.enabled = true → s.dev.bic.master = true →
              (e.source n).isPending = false ∧
                ServiceStarts s.dev n (startCue s.dev n t) (resolveOrigin s.dev (startCue s.dev n t).origin).1 e)))))

/-- A sample of each donor input reaches every slot (R1, R2, R9): slots 8 to 39 deliver, at their decimated rate, the filtered
sample after the step and add its power to the window sum; an OFF slot delivers zeros at its rate, and the last samples of
other slots stand. Filter and decimation phase are free values (log 6); that a sample delivered is kept for the next frame is
the model's choice (log 29). -/
def Obligations.DonorSampleFeedsTheSlots : Prop :=
  ∀ s di0 di1, Completes (.donorSample di0 di1) s (fun e =>
    (∀ x, (s.dev.chan x).kind = .off →
      e.slot x = { s.dev.slot x with
        decim := if (s.dev.slot x).decim ≠ 0 then (s.dev.slot x).decim - 1
          else if x.val < 8 then 159 else if x.val < 16 then 639 else 9
        out := (e.slot x).out } ∧
      ((s.dev.slot x).decim ≠ 0 → (e.slot x).out = (s.dev.slot x).out) ∧
      ((s.dev.slot x).decim = 0 → (e.slot x).out.getLast? = some Sample.zero)) ∧
    (∀ x, (s.dev.chan x).kind ≠ .off → (s.dev.slot x).decim ≠ 0 → e.slot x = { s.dev.slot x with
      filter := Config.filterNext (tuningOf x (s.dev.chan x)) (s.dev.slot x).filter
        (if (s.dev.chan x).donor then di1 else di0),
      decim := (s.dev.slot x).decim - 1 }) ∧
    (∀ x : Fin 40, 8 ≤ x.val → (s.dev.chan x).kind ≠ .off → (s.dev.slot x).decim = 0 →
      let f := Config.filterNext (tuningOf x (s.dev.chan x)) (s.dev.slot x).filter
        (if (s.dev.chan x).donor then di1 else di0)
      let y := stepSample (s.dev.chan x).step
        ⟨Config.filterI (tuningOf x (s.dev.chan x)) f, Config.filterQ (tuningOf x (s.dev.chan x)) f⟩
      (e.slot x).filter = f ∧ (e.slot x).decim = (if x.val < 16 then 639 else 9) ∧
        (e.slot x).sumOut = (s.dev.slot x).sumOut + (y.i.toInt * y.i.toInt + y.q.toInt * y.q.toInt).toNat ∧
        (e.slot x).out.getLast? = some y ∧ (e.slot x).sumIn = (s.dev.slot x).sumIn ∧
        (e.slot x).on = (s.dev.slot x).on ∧ (e.slot x).pOut = (s.dev.slot x).pOut) ∧
    (∀ p, (s.dev.chan (progSlot p)).kind = .off ∨ (s.dev.slot (progSlot p)).decim ≠ 0 → e.mod p = s.dev.mod p) ∧
    (∀ m, (e.bim m).pair = (s.dev.bim m).pair ∧ (e.bim m).audio = (s.dev.bim m).audio) ∧
    Only [.clock, .lm, .pm] s.dev e)

/-- A filtered sample of a programme slot (R1, R2, R9, R91 to R94, R98 to R100): it adds to the P_in sum; each second one gives
a composite, which drives the main modulator as presence and loss action say and every BIM of the programme in its source's
style; their two output samples pass through the slot step, and each composite beyond the limit counts one clamp. The
demodulator's zero cases and quarter turns and the sine table's quarter turns are stated with it. Filter state and filtered
sample are free functions (log 6); that samples delivered are kept for the next frame is the model's choice (log 29). -/
def Obligations.ProgrammeSampleDrivesTheModulators : Prop :=
  (∀ x y, (x = Sample.zero ∨ y = Sample.zero → demodulate x y = 0) ∧ -32768 ≤ demodulate x y ∧ demodulate x y ≤ 32767) ∧
  (∀ a : BitVec 16, 0 < a.toInt → demodulate ⟨a, 0⟩ ⟨a, 0⟩ = 0 ∧ demodulate ⟨a, 0⟩ ⟨0, a⟩ = 16384 ∧
    demodulate ⟨a, 0⟩ ⟨-a, 0⟩ = -32768 ∧ demodulate ⟨a, 0⟩ ⟨0, -a⟩ = -16384) ∧
  (phaseOut 0 = ⟨29205, 0⟩ ∧ phaseOut 0x40000000 = ⟨0, 29205⟩ ∧ phaseOut 0x80000000 = ⟨-29205, 0⟩ ∧
    phaseOut 0xC0000000 = ⟨0, -29205⟩) ∧
  ∀ s di0 di1 (p : Fin 8), (s.dev.chan (progSlot p)).kind ≠ .off → (s.dev.slot (progSlot p)).decim = 0 →
    Completes (.donorSample di0 di1) s (fun e =>
      let x := progSlot p
      let g := s.dev.chan x
      let f := Config.filterNext (tuningOf x g) (s.dev.slot x).filter (if g.donor then di1 else di0)
      let y : Sample := ⟨Config.filterI (tuningOf x g) f, Config.filterQ (tuningOf x g) f⟩
      let power := fun z : Sample => (z.i.toInt * z.i.toInt + z.q.toInt * z.q.toInt).toNat
      let old := s.dev.mod p
      let last2 := fun l : List Sample => l.drop (l.length - 2)
      (e.slot x).filter = f ∧ (e.slot x).decim = 159 ∧ (e.slot x).sumIn = (s.dev.slot x).sumIn + power y ∧
        (e.slot x).on = (s.dev.slot x).on ∧
      (old.half = none → e.mod p = { old with half := some y } ∧ (e.slot x).sumOut = (s.dev.slot x).sumOut ∧
        (e.slot x).out = (s.dev.slot x).out ∧ ∀ m n, (s.dev.bim m).pair = some (n, p) → e.bim m = s.dev.bim m) ∧
      (old.half ≠ none →
        let w := s.dev.pm.table.get p
        let c := demodulate old.ref y
        let present := (s.dev.slot x).on
        let limit := fun v : Int => max (-(w.limit : Int)) (min w.limit v)
        let move := fun v : Int => BitVec.ofInt 32 (limit v * w.kDev)
        let stepped := fun (k : Nat) (v : Int) => v * gain k / 32768
        let through := fun z : Sample => (⟨BitVec.ofInt 16 (stepped g.step z.i.toInt), BitVec.ofInt 16 (stepped g.step z.q.toInt)⟩ : Sample)
        let made := if present = true then [phaseOut (old.phase + move c), phaseOut (old.phase + move c + move c)]
          else if w.drop = true then [Sample.zero, Sample.zero] else [phaseOut old.phase, phaseOut old.phase]
        let composite := fun (b : Bim) (n : Fin 8) =>
          let t := s.dev.bic.table.get n
          let voice := stepped t.announce b.audio.toInt
          if t.overlay = true then
            max (-32768) (min 32767 (stepped t.duck (if present = true then c else 0) + voice))
          else voice
        let clamps := fun v : Int => decide (w.limit < v.natAbs)
        (e.mod p).ref = y ∧ (e.mod p).half = none ∧ (e.mod p).lastClamp = old.lastClamp ∧
        (e.mod p).phase = (if present = true then old.phase + move c + move c else old.phase) ∧
        (e.mod p).clamp = old.clamp + (if present = true ∧ clamps c = true then 1 else 0) +
          ((allFin 12).filter (fun m => match (s.dev.bim m).pair with
            | some (n, q) => q == p && clamps (composite (s.dev.bim m) n)
            | none => false)).length ∧
        last2 (e.slot x).out = made.map through ∧
        (e.slot x).sumOut = (s.dev.slot x).sumOut + ((made.map through).map power).sum ∧
        ∀ m n, (s.dev.bim m).pair = some (n, p) →
          let b := s.dev.bim m
          let h := move (composite b n)
          (e.bim m).phase = b.phase + h + h ∧ (e.bim m).audio = b.audio ∧ (e.bim m).pair = b.pair ∧
            last2 (e.bim m).out = [phaseOut (b.phase + h), phaseOut (b.phase + h + h)].map through))

/-! ### Flash and boot -/

/-- The reads of a boot up to its body (R195, R197, R198, R199, R203): status FFh or a capacity code below 16 is NO_FLASH, a
header without its magic bytes BLANK, of another version BAD_FORMAT, too long BAD_LENGTH, each ending the boot in AUTONOMOUS
with the lines read (R138): a source whose line is up and makes requests, S0 also with line use off until a source table has
unmasked it (R136, log 50), starts by R119 (logs 9, 58) or holds the request; otherwise the boot goes on with its next read. A discarded read decides
nothing. -/
def Obligations.BootReadsDecideTheOutcome : Prop :=
  ∀ s b, s.dev.fb.boot = some b → s.dev.smc.state = .booting → s.dev.smc.job = none →
    let ends := fun (o : BootOutcome) (e : Dev) =>
      e.smc.state = .autonomous ∧ e.smc.bootResult.outcome = o ∧ e.smc.bootResult.scope = b.scope ∧
        e.smc.scope = b.scope ∧ e.smc.bootMark = true ∧ e.fb.boot = none ∧ (∀ k, e.fb.dir.get k = none) ∧
        e.lm = s.dev.lm ∧ e.rp.routes = s.dev.rp.routes ∧ e.tables = s.dev.tables ∧
        ∀ (i : Fin 3) (n : Fin 8), n.val = i.val →
          let c := s.dev.source n
          let t := s.dev.bic.table.get n
          let masked := t.enabled = false ∨ s.dev.bic.master = false
          let asks := s.dev.bic.lines.get i = true ∧ (t.lineUse = true ∨ n.val = 0 ∧ s.dev.bic.alarmMasked = true) ∧ (c.inService = false ∨ t.again = true)
          (masked ∨ c.inService = true → (e.source n).inService = c.inService ∧ (e.source n).cueReq = c.cueReq ∧
            ((e.source n).lineReq = true ↔ c.lineReq = true ∨ asks)) ∧
          (¬ masked → c.inService = false →
            ((e.source n).inService = true ↔ c.lineReq = true ∨ c.cueReq ≠ none ∨ asks) ∧
            (c.lineReq = true ∨ c.cueReq ≠ none ∨ asks → (e.source n).isPending = false ∧
              ServiceStarts s.dev n (startCue s.dev n t) (resolveOrigin e (startCue s.dev n t).origin).1 e))
    let goes := fun (t : Txn) (e : Dev) =>
      e.fb.holder = some ⟨t, false⟩ ∧ e.smc = s.dev.smc ∧ Only [.clock, .fb] s.dev e
    (s.dev.fb.holder = some ⟨.bootStatus, false⟩ →
      Completes (.flashStatusReadDone 0xFF) s (fun e => ends .noFlash e ∧ e.fb.present = false ∧ e.fb.sizeCode = 0) ∧
        ∀ x, x ≠ 0xFF → Completes (.flashStatusReadDone x) s (fun e => goes .bootIdent e ∧ e.fb.present = true)) ∧
    (s.dev.fb.holder = some ⟨.bootIdent, false⟩ → ∀ x y (z : Byte),
      (z.toNat < 16 → Completes (.flashIdentReadDone x y z) s (fun e =>
        ends .noFlash e ∧ e.fb.present = false ∧ e.fb.sizeCode = 0)) ∧
      (16 ≤ z.toNat → Completes (.flashIdentReadDone x y z) s (fun e =>
        goes .bootHeader e ∧ e.fb.sizeCode = min 24 z.toNat))) ∧
    (s.dev.fb.holder = some ⟨.bootHeader, false⟩ →
      let h := chipReadN s.dev.fb.chip 0 16
      (h.take 2 ≠ [0xA3, 0x5C] → Completes .bootHeaderReadDone s (ends .blank)) ∧
      (h.take 2 = [0xA3, 0x5C] →
        (field h 2 1 ≠ 1 → Completes .bootHeaderReadDone s (ends .badFormat)) ∧
        (field h 2 1 = 1 → s.dev.fb.size - 16 < field h 4 3 → Completes .bootHeaderReadDone s (ends .badLength)) ∧
        (field h 2 1 = 1 → field h 4 3 ≤ s.dev.fb.size - 16 → 16 ≤ field h 4 3 →
          Completes .bootHeaderReadDone s (fun e => goes (.bootRecord 0) e ∧ ∃ c, e.fb.boot = some c ∧
            c.count = field h 4 3 / 16 ∧ c.dirOffset = field h 8 4 ∧ c.staging = Staging.empty ∧
            c.scope = b.scope ∧ (c.tail = true ↔ field h 4 3 % 16 ≠ 0))))) ∧
    (∀ t, (t = .bootStatus ∨ t = .bootIdent ∨ t = .bootHeader) → s.dev.fb.holder = some ⟨t, true⟩ →
      ∀ i, (t = .bootStatus ∧ (∃ x, i = .flashStatusReadDone x) ∨ t = .bootIdent ∧ (∃ x y z, i = .flashIdentReadDone x y z) ∨
        t = .bootHeader ∧ i = .bootHeaderReadDone) → Completes i s (fun e => goes (bootTxn b) e))

/-- A boot record (R200): read from its place in the flash, it is staged when its table and entry exist and the scope reaches
it, passed over outside the scope, else counted as ignored; the next record is read. After the last record, and after the
header when its body holds no complete record, the groups are checked and formed (R201); then the directory is read, or,
when it does not fit in the flash, the boot ends AUTONOMOUS with LOADED and no clip (R202 to R204), the sources start by the
switch of their table and the line reading (R111, R119, R138; logs 9, 17, 58). The record that ALARM's requests
are masked follows a new source table by log 50. -/
def Obligations.BootRecordIsStagedOrIgnored : Prop :=
  ∀ s b, s.dev.fb.boot = some b → s.dev.smc.state = .booting → s.dev.smc.job = none →
    let chip := s.dev.fb.chip
    let bodyDone := fun (b0 : BootRec) (e : Dev) => ∃ c k t u, GroupsChecked s.dev b0 c k t u ∧
      (b0.dirOffset + 256 ≤ s.dev.fb.size → e.fb.holder = some ⟨.bootDirectory, false⟩ ∧
        e.fb.boot = some { c with stage := .directory } ∧ e.smc = s.dev.smc ∧ Only [.clock, .fb] s.dev e) ∧
      (s.dev.fb.size < b0.dirOffset + 256 → e.smc.state = .autonomous ∧ e.smc.bootMark = true ∧ e.fb.boot = none ∧
        e.smc.bootResult = ⟨.loaded, b0.scope, s.dev.fb.sizeCode, b0.ignored, b0.tail, c.failedChannel, c.failedRemote,
          c.failedRoute, c.firstFailure, 0⟩ ∧ (∀ x, e.fb.dir.get x = none) ∧
        (b0.scope ≠ .none → e.lm.chan = k.chan) ∧ (b0.scope = .none → e.lm = s.dev.lm) ∧
        (wholeScope b0.scope → e.tables = (k.remote, k.programme, k.master, k.source, k.guardTicks, k.rescue,
          alarmAfter s.dev k.master k.source)) ∧
        (¬ wholeScope b0.scope → e.tables = s.dev.tables) ∧
        (BootingInv s.dev → ∀ x, BootStarts (wholeScope b0.scope) s.dev e x))
    (∀ n, s.dev.fb.holder = some ⟨.bootRecord n, false⟩ → Completes .bootRecord s (fun e =>
      ∃ c, RecordTaken chip n b c ∧
        (n + 1 < b.count → e.fb.holder = some ⟨.bootRecord (n + 1), false⟩ ∧
          e.fb.boot = some { c with stage := .records (n + 1) } ∧ e.smc = s.dev.smc ∧ Only [.clock, .fb] s.dev e) ∧
        (b.count ≤ n + 1 → bodyDone c e))) ∧
    (s.dev.fb.holder = some ⟨.bootHeader, false⟩ →
      let h := chipReadN chip 0 16
      h.take 2 = [0xA3, 0x5C] → field h 2 1 = 1 → field h 4 3 ≤ s.dev.fb.size - 16 → field h 4 3 < 16 →
        Completes .bootHeaderReadDone s (bodyDone { b with
          count := 0, tail := decide (field h 4 3 ≠ 0), dirOffset := field h 8 4, staging := Staging.empty }))

/-- The boot's directory read ends the boot with LOADED (R202, R203, R204): the tables of the scope's checked copies stand,
slots and disabled remotes follow them (R5, R6, R41; logs 14, 25, 29), the directory is read at the header's offset, the
revisions of the tables switched or handed on are 0 (R191), and the part is AUTONOMOUS. The sources, which have neither service nor
request through BOOTING (R137), make the requests of the SOURCE switch (R111) and of the line reading that follows (R138), and start
by them (R118, R119; logs 9, 17, 58). The ROUTE table is handed to the
exchange, or its rows wait behind the exchange in flight (R71); that the later of two waiting loads of a row stands is the
model's choice (log 23). The record that ALARM's requests are masked follows a new source table by log 50. -/
def Obligations.BootDirectoryReadSwitchesTheTables : Prop :=
  ∀ s b c, s.dev.fb.boot = some b → b.checked = some c → s.dev.smc.state = .booting → s.dev.smc.job = none →
    s.dev.fb.holder = some ⟨.bootDirectory, false⟩ → Completes .bootDirectoryReadDone s (fun e =>
      e.smc.state = .autonomous ∧ e.smc.bootResult.outcome = .loaded ∧ e.smc.bootResult.scope = b.scope ∧
        e.smc.bootResult.ignored = b.ignored ∧ e.smc.bootResult.firstFailure = b.firstFailure ∧ e.smc.bootMark = true ∧
        e.fb.boot = none ∧
        DirectoryOf s.dev.fb.chip s.dev.fb.size b.dirOffset e.fb.dir ∧ e.fb.dirOffset = some b.dirOffset ∧
        SlotsSwitched s.dev e ∧ RemotesDisabled s.dev e ∧
        (b.scope ≠ .none → e.lm.chan = c.chan) ∧ (b.scope = .none → e.lm = s.dev.lm) ∧
        (wholeScope b.scope → e.tables = (c.remote, c.programme, c.master, c.source, c.guardTicks, c.rescue,
          alarmAfter s.dev c.master c.source)) ∧
        (¬ wholeScope b.scope → e.tables = s.dev.tables) ∧
        (BootingInv s.dev → ∀ n, BootStarts (wholeScope b.scope) s.dev e n) ∧
        (b.scope ≠ .none → ∀ t, wholeScope b.scope ∨ t = 0 ∨ t = 2 → e.smc.taken.get t = 0 ∧ e.smc.lastReq.get t = 0) ∧
        (∀ t, b.scope = .none ∨ b.scope = .carriers ∧ t ≠ 0 ∧ t ≠ 2 →
          e.smc.taken.get t = s.dev.smc.taken.get t ∧ e.smc.lastReq.get t = s.dev.smc.lastReq.get t) ∧
        (b.scope ≠ .none → s.dev.rp.phase = .idle → s.dev.rp.bootRows = none → s.dev.smc.deferred.get 2 = false →
          (e.rp.phase = .staging ∧ e.rp.newRoutes = c.routes ∧ e.rp.newBoot = true ∧ e.rp.routes = s.dev.rp.routes ∨
            e.rp.phase ≠ .staging ∧ e.rp.routes = c.routes)) ∧
        (b.scope = .carriers → s.dev.rp.phase ≠ .idle ∨ s.dev.rp.bootRows ≠ none → e.rp.phase = s.dev.rp.phase ∧
          e.rp.routes = s.dev.rp.routes ∧ e.rp.newRoutes = s.dev.rp.newRoutes ∧ ∃ rows, e.rp.bootRows = some rows ∧
            ∀ x : Fin 160, (16 ≤ x.val / 4 → rows.get x = some (b.staging.route.get x)) ∧
              (x.val / 4 < 16 → rows.get x = s.dev.rp.bootRows.bind (fun old => old.get x))) ∧
        (b.scope = .none → e.rp.routes = s.dev.rp.routes ∧ e.rp.phase = s.dev.rp.phase ∧
          e.rp.bootRows = s.dev.rp.bootRows) ∧
        e.smc.latches = s.dev.smc.latches ∧ e.smc.notices = s.dev.smc.notices)

/-- The work of a flash command goes on (R195, R207, R208, R209): a data read stores the flash bytes and reads on; a page
program leaves the AND of old and new bytes and a sector erase FFh, both when their own end or a status read with the
busy bit clear says so, and the next page, its bytes read from shared memory now, or the next sector is issued; a status read
that says busy changes nothing. Between two transactions the port goes first to the clip reads that wait (R205). After the last
one the command completes with its answer in the cell, once the directory is
reloaded when the command has touched it (R189, R210). That the 10 ms and the 2 s run from the grant (log 44), and that
MAINT_DONE is latched by the part state at the completion, also after a link loss and a new START meanwhile (log 41), and that
bytes read reach memory also in the status area or news bitmap of a newer layout (log 59), and that bits 31:8 of the state word
read 0 (log 55), are the model's choices. -/
def Obligations.FlashWorkMovesTheBytes : Prop :=
  (∀ s a tag j, s.dev.smc.job = some ⟨a, tag, .flash j⟩ → s.dev.smc.state ≠ .booting →
    (∃ n, s.dev.fb.waiting.get n ≠ none) →
    let yields := fun (k : FlashJob) (e : Dev) => PortGoes s.dev (fun m => s.dev.fb.waiting.get m) e ∧ flashJob e = some k
    (∀ off addr n, s.dev.fb.holder = some ⟨.maintRead off addr n, false⟩ → n < j.left → Completes .flashReadDataDone s
      (yields { j with off := off + n, addr := addr + n, left := j.left - n })) ∧
    (∀ off data due, s.dev.fb.holder = some ⟨.program off data due, false⟩ → data.length < j.left →
      Completes .pageProgramDone s (yields
        { j with off := off + data.length, addr := j.addr + data.length, left := j.left - data.length })) ∧
    (∀ off due, s.dev.fb.holder = some ⟨.erase off due, false⟩ → 1 < j.left → Completes .sectorEraseDone s
      (yields { j with off := off + 4096, left := j.left - 1 }))) ∧
  ∀ s a tag j, s.dev.smc.job = some ⟨a, tag, .flash j⟩ → (∀ n, s.dev.fb.waiting.get n = none) →
    let answer := le 4 (if j.timedOut then 4 else 3) ++ le 4 (if j.timedOut then 9 else 0) ++
      le 4 (if s.dev.smc.overrun then 1 else 0) ++ le 4 tag.toNat
    let finishes := fun (m : Memory) (e : Dev) =>
      (j.touched = true → s.dev.fb.dirOffset ≠ none →
        e.fb.holder = some ⟨.reload, false⟩ ∧ ∃ k, flashJob e = some k ∧ k.reload = true ∧ k.timedOut = j.timedOut) ∧
      (j.touched = false ∨ s.dev.fb.dirOffset = none → e.smc.job = none ∧
        (s.dev.linked = true → (e.smc.latches.get partCell).getLsbD 5 = true) ∧
        (LayoutInv s.dev → (∀ l, s.dev.smc.layout = some l → a = l.maint) → e.smc.mem.readN a 16 = answer) ∧
        (s.dev.linked = false → e.smc.mem = m.write a answer))
    let touches := fun (off : Nat) (e : Dev) => ∃ k, flashJob e = some k ∧ (k.touched = true ↔ j.touched = true ∨
      ∃ o, s.dev.fb.dirOffset = some o ∧ o / 4096 ≤ off / 4096 ∧ off / 4096 ≤ (o + 255) / 4096)
    (∀ off addr n, s.dev.fb.holder = some ⟨.maintRead off addr n, false⟩ → Completes .flashReadDataDone s (fun e =>
      (n < j.left → j.kind = .read → j.reload = false →
        e.smc.mem = s.dev.smc.mem.write addr (chipReadN s.dev.fb.chip off n) ∧
          e.fb.holder = some ⟨.maintRead (off + n) (addr + n) (min 256 (j.left - n)), false⟩) ∧
      (j.left ≤ n → finishes (s.dev.smc.mem.write addr (chipReadN s.dev.fb.chip off n)) e) ∧
      e.fb.chip = s.dev.fb.chip)) ∧
    (∀ off data due, s.dev.fb.holder = some ⟨.program off data due, false⟩ →
      (∀ i, (i = .pageProgramDone ∨ ∃ x : Byte, x.getLsbD 0 = false ∧ i = .flashStatusReadDone x) →
        Completes i s (fun e =>
          (∀ k, k < data.length →
            chipRead e.fb.chip (off + k) = chipRead s.dev.fb.chip (off + k) &&& data.getD k 0) ∧
          (∀ k, ¬(off ≤ k ∧ k < off + data.length) → chipRead e.fb.chip k = chipRead s.dev.fb.chip k) ∧
          (data.length < j.left → j.kind = .write → j.reload = false →
            let next := off + data.length
            e.fb.holder = some ⟨.program next (s.dev.smc.mem.readN (j.addr + data.length)
                (min (j.left - data.length) (256 - next % 256))) (s.dev.now + 245760), false⟩ ∧
              touches next e ∧ e.smc.mem = s.dev.smc.mem) ∧
          (j.left ≤ data.length → finishes s.dev.smc.mem e))) ∧
      ∀ x : Byte, x.getLsbD 0 = true → Completes (.flashStatusReadDone x) s (fun e => e = s.dev.event)) ∧
    (∀ off due, s.dev.fb.holder = some ⟨.erase off due, false⟩ →
      (∀ i, (i = .sectorEraseDone ∨ ∃ x : Byte, x.getLsbD 0 = false ∧ i = .flashStatusReadDone x) →
        Completes i s (fun e =>
          (∀ k, off ≤ k → k < off + 4096 → chipRead e.fb.chip k = 0xFF) ∧
          (∀ k, ¬(off ≤ k ∧ k < off + 4096) → chipRead e.fb.chip k = chipRead s.dev.fb.chip k) ∧
          (1 < j.left → j.kind = .erase → j.reload = false →
            e.fb.holder = some ⟨.erase (off + 4096) (s.dev.now + 49152000), false⟩ ∧ touches (off + 4096) e ∧
              e.smc.mem = s.dev.smc.mem) ∧
          (j.left ≤ 1 → finishes s.dev.smc.mem e))) ∧
      ∀ x : Byte, x.getLsbD 0 = true → Completes (.flashStatusReadDone x) s (fun e => e = s.dev.event))

/-- A page program or sector erase past its time (R195, R209, R210): bytes outside the page or sector stand; the sector's bytes
are free, and in the page free bits turn from 1 to 0 and none from 0 to 1 (log 5); without a touched directory the command
completes REFUSED with FLASH_TIMEOUT. The end of a directory reload (R204, R210): the directory is that of the flash now,
FLASH_DIR_RELOADED is latched, and the command completes. A reload past the recorded flash size that finds no entry (log 28),
and MAINT_DONE latched by the part state at the completion, also after a link loss and a new START meanwhile (log 41), and bits
31:8 of the state word read as 0 (log 55), are the model's choices. -/
def Obligations.FlashTimeoutAndDirectoryReloadEndTheCommand : Prop :=
  ∀ s a tag j, s.dev.smc.job = some ⟨a, tag, .flash j⟩ →
    (∀ t off n due, (t = .erase off due ∧ n = 4096 ∨ ∃ data : List Byte, t = .program off data due ∧ n = data.length) →
      due ≤ s.dev.now → s.dev.fb.holder = some ⟨t, false⟩ → Completes .flashTimeout s (fun e =>
        (∀ k, ¬(off ≤ k ∧ k < off + n) → chipRead e.fb.chip k = chipRead s.dev.fb.chip k) ∧
          (∀ k, off ≤ k → k < off + n → chipRead e.fb.chip k =
            if t = .erase off due then Config.flashByte s.dev.freeNo k
            else chipRead s.dev.fb.chip k &&& Config.flashByte s.dev.freeNo k) ∧
          e.freeNo = s.dev.freeNo + 1 ∧
          (j.touched = false → e.smc.job = none ∧
            (LayoutInv s.dev → (∀ l, s.dev.smc.layout = some l → a = l.maint) → e.smc.mem.readN a 16 =
              le 4 4 ++ le 4 9 ++ le 4 (if s.dev.smc.overrun then 1 else 0) ++ le 4 tag.toNat) ∧
            (s.dev.linked = true → (e.smc.latches.get partCell).getLsbD 5 = true)) ∧
          (j.touched = true → s.dev.fb.dirOffset ≠ none → (∀ m, s.dev.fb.waiting.get m = none) →
            e.fb.holder = some ⟨.reload, false⟩ ∧ ∃ k, flashJob e = some k ∧ k.timedOut = true))) ∧
    ∀ o, s.dev.fb.holder = some ⟨.reload, false⟩ → s.dev.fb.dirOffset = some o → Completes .directoryReloadDone s (fun e =>
      DirectoryOf s.dev.fb.chip s.dev.fb.size o e.fb.dir ∧ e.fb.chip = s.dev.fb.chip ∧ e.smc.job = none ∧
        (s.dev.linked = true → (e.smc.latches.get partCell).getLsbD 4 = true ∧
          (e.smc.latches.get partCell).getLsbD 5 = true) ∧
        (LayoutInv s.dev → (∀ l, s.dev.smc.layout = some l → a = l.maint) → e.smc.mem.readN a 16 =
          le 4 (if j.timedOut then 4 else 3) ++ le 4 (if j.timedOut then 9 else 0) ++
            le 4 (if s.dev.smc.overrun then 1 else 0) ++ le 4 tag.toNat) ∧
        Only [.clock, .hp, .smc, .fb] s.dev e)
end

