-- ==== Sys2Proof/Laws/Memory.lean ====
section
/-! SUPPORT. Laws/Memory.lean: what the memory operations do: a byte read after a write, and the canonical form. -/

namespace Sys2Proof.Machine

-- In order, so that the package as one text compiles with few threads.
set_option Elab.async false

open Sys2Proof

/-! ### Cells of consecutive bytes -/

theorem cellsFrom_addr {blank : Byte} {bs : List Byte} :
    ∀ {a : Nat} {c : Host.Cell}, c ∈ cellsFrom blank a bs → a ≤ c.1 ∧ c.1 < a + bs.length ∧ c.2 ≠ blank := by
  induction bs with
  | nil => intro a c h; simp [cellsFrom] at h
  | cons b bs ih =>
    intro a c h
    unfold cellsFrom at h
    by_cases hb : b = blank
    · rw [if_pos hb] at h
      have := ih h
      simp only [List.length_cons]; exact ⟨by omega, by omega, this.2.2⟩
    · rw [if_neg hb] at h
      rcases List.mem_cons.mp h with rfl | h
      · exact ⟨Nat.le_refl _, by simp, hb⟩
      · have := ih h
        simp only [List.length_cons]; exact ⟨by omega, by omega, this.2.2⟩

theorem cellsFrom_rising {blank : Byte} {bs : List Byte} :
    ∀ a : Nat, (cellsFrom blank a bs).Pairwise (fun c e => c.1 < e.1) := by
  induction bs with
  | nil => intro a; simp [cellsFrom]
  | cons b bs ih =>
    intro a
    unfold cellsFrom
    by_cases hb : b = blank
    · rw [if_pos hb]; exact ih _
    · rw [if_neg hb]
      refine List.pairwise_cons.mpr ⟨?_, ih _⟩
      intro e he
      have := cellsFrom_addr he
      simp only; omega

/-! ### Reads -/

theorem bytesRead_nil (blank : Byte) (a : Nat) : bytesRead blank [] a = blank := rfl

theorem bytesRead_cons (blank : Byte) (c : Host.Cell) (m : Memory) (a : Nat) :
    bytesRead blank (c :: m) a = if c.1 = a then c.2 else bytesRead blank m a := by
  unfold bytesRead
  by_cases h : c.1 = a
  · simp [h]
  · simp [h]

/-- A read of a list of two parts looks in the first part when that part lists the address. -/
theorem bytesRead_append_of_not_mem {blank : Byte} {m n : Memory} {a : Nat} (h : ∀ c ∈ m, c.1 ≠ a) :
    bytesRead blank (m ++ n) a = bytesRead blank n a := by
  induction m with
  | nil => rfl
  | cons c m ih =>
    rw [List.cons_append, bytesRead_cons, if_neg (h c (by simp))]
    exact ih (fun c hc => h c (by simp [hc]))

theorem bytesRead_append_left {blank : Byte} {m n : Memory} {a : Nat} (h : ∀ c ∈ n, c.1 ≠ a) :
    bytesRead blank (m ++ n) a = bytesRead blank m a := by
  induction m with
  | nil =>
    have := bytesRead_append_of_not_mem (blank := blank) (n := []) h
    simpa using this
  | cons c m ih => rw [List.cons_append, bytesRead_cons, bytesRead_cons, ih]

theorem bytesRead_filter {blank : Byte} {m : Memory} {a : Nat} (p : Host.Cell → Bool)
    (h : ∀ c : Host.Cell, c.1 = a → p c = true) : bytesRead blank (m.filter p) a = bytesRead blank m a := by
  induction m with
  | nil => rfl
  | cons c m ih =>
    by_cases hc : c.1 = a
    · rw [List.filter_cons_of_pos (h c hc), bytesRead_cons, bytesRead_cons, if_pos hc, if_pos hc]
    · by_cases hp : p c
      · rw [List.filter_cons_of_pos hp, bytesRead_cons, bytesRead_cons, if_neg hc, if_neg hc, ih]
      · rw [List.filter_cons_of_neg hp, bytesRead_cons, if_neg hc, ih]

theorem bytesRead_cellsFrom (blank : Byte) (bs : List Byte) :
    ∀ a k : Nat, k < bs.length → bytesRead blank (cellsFrom blank a bs) (a + k) = bs.getD k blank := by
  induction bs with
  | nil => intro a k h; simp at h
  | cons b bs ih =>
    intro a k h
    unfold cellsFrom
    cases k with
    | zero =>
      by_cases hb : b = blank
      · rw [if_pos hb]
        have : ∀ c ∈ cellsFrom blank (a + 1) bs, c.1 ≠ a + 0 := fun c hc => by
          have := cellsFrom_addr hc; omega
        have h2 := bytesRead_append_of_not_mem (blank := blank) (n := []) this
        rw [List.append_nil] at h2
        rw [h2]; simp [bytesRead_nil, hb]
      · rw [if_neg hb, bytesRead_cons]; simp
    | succ k =>
      have hk : k < bs.length := by simpa using h
      have e : a + (k + 1) = a + 1 + k := by omega
      by_cases hb : b = blank
      · rw [if_pos hb, e, ih _ _ hk]; simp
      · rw [if_neg hb, bytesRead_cons, if_neg (by simp only; omega), e, ih _ _ hk]; simp

/-- A byte inside a write reads as the byte written. -/
theorem bytesRead_write_in (blank : Byte) (m : Memory) (a : Nat) (bs : List Byte) (k : Nat) (h : k < bs.length) :
    bytesRead blank (bytesWrite blank m a bs) (a + k) = bs.getD k blank := by
  unfold bytesWrite
  rw [List.append_assoc, bytesRead_append_of_not_mem, bytesRead_append_left, bytesRead_cellsFrom _ _ _ _ h]
  · intro c hc
    have := (List.mem_filter.mp hc).2
    simp at this; omega
  · intro c hc
    have := (List.mem_filter.mp hc).2
    simp at this; omega

/-- A byte outside a write reads as before. -/
theorem bytesRead_write_out (blank : Byte) (m : Memory) (a : Nat) (bs : List Byte) (x : Nat)
    (h : x < a ∨ a + bs.length ≤ x) : bytesRead blank (bytesWrite blank m a bs) x = bytesRead blank m x := by
  unfold bytesWrite
  have hc : ∀ c ∈ cellsFrom blank a bs, c.1 ≠ x := fun c hc => by
    have := cellsFrom_addr hc; omega
  rcases h with h | h
  · rw [List.append_assoc, bytesRead_append_left, bytesRead_filter]
    · intro c e; simp; omega
    · intro c hm
      rcases List.mem_append.mp hm with hm | hm
      · exact hc c hm
      · have := (List.mem_filter.mp hm).2
        simp at this; omega
  · rw [bytesRead_append_of_not_mem, bytesRead_filter]
    · intro c e; simp; omega
    · intro c hm
      rcases List.mem_append.mp hm with hm | hm
      · have := (List.mem_filter.mp hm).2
        simp at this; omega
      · exact hc c hm

/-! ### Canonical form -/

/-- Every write keeps the canonical form. -/
theorem bytesWrite_wf {blank : Byte} {m : Memory} (a : Nat) (bs : List Byte) (h : bytesWf blank m) :
    bytesWf blank (bytesWrite blank m a bs) := by
  obtain ⟨hp, hb⟩ := h
  unfold bytesWrite
  refine ⟨?_, ?_⟩
  · refine List.pairwise_append.mpr ⟨List.pairwise_append.mpr ⟨hp.filter _, cellsFrom_rising _, ?_⟩, hp.filter _, ?_⟩
    · intro c hc e he
      have h1 := (List.mem_filter.mp hc).2
      have h2 := cellsFrom_addr he
      simp at h1; omega
    · intro c hc e he
      have h2 := (List.mem_filter.mp he).2
      simp at h2
      rcases List.mem_append.mp hc with hc | hc
      · have h1 := (List.mem_filter.mp hc).2
        simp at h1; omega
      · have h1 := cellsFrom_addr hc; omega
  · intro c hc
    rcases List.mem_append.mp hc with hc | hc
    · rcases List.mem_append.mp hc with hc | hc
      · exact hb c (List.mem_filter.mp hc).1
      · exact (cellsFrom_addr hc).2.2
    · exact hb c (List.mem_filter.mp hc).1

theorem Memory.read_write_in (m : Memory) (a : Nat) (bs : List Byte) (k : Nat) (h : k < bs.length) :
    (m.write a bs).read (a + k) = bs.getD k sdramBlank := bytesRead_write_in _ m a bs k h

theorem Memory.read_write_out (m : Memory) (a : Nat) (bs : List Byte) (x : Nat) (h : x < a ∨ a + bs.length ≤ x) :
    (m.write a bs).read x = m.read x := bytesRead_write_out _ m a bs x h

theorem Memory.write_wf {m : Memory} (a : Nat) (bs : List Byte) (h : m.wf) : (m.write a bs).wf := bytesWrite_wf a bs h

theorem chipWrite_wf {m : Memory} (a : Nat) (bs : List Byte) (h : bytesWf flashBlank m) :
    bytesWf flashBlank (chipWrite m a bs) := bytesWrite_wf a bs h

theorem chipProgram_wf {m : Memory} (a : Nat) (bs : List Byte) (h : bytesWf flashBlank m) :
    bytesWf flashBlank (chipProgram m a bs) := chipWrite_wf a _ h

/-- A programmed byte is the AND of the old and the new one (R195). -/
theorem chipRead_program_in (m : Memory) (a : Nat) (bs : List Byte) (k : Nat) (h : k < bs.length) :
    chipRead (chipProgram m a bs) (a + k) = chipRead m (a + k) &&& bs.getD k flashBlank := by
  have hl : k < ((chipReadN m a bs.length).zipWith (fun x y => x &&& y) bs).length := by simpa [chipReadN] using h
  have := bytesRead_write_in flashBlank m a _ k hl
  rw [show chipRead (chipProgram m a bs) (a + k) = _ from this, List.getD_eq_getElem _ _ hl, List.getD_eq_getElem _ _ h]
  simp [chipReadN]

/-- Programming leaves every byte outside its range as it was. -/
theorem chipRead_program_out (m : Memory) (a : Nat) (bs : List Byte) (x : Nat) (h : x < a ∨ a + bs.length ≤ x) :
    chipRead (chipProgram m a bs) x = chipRead m x :=
  bytesRead_write_out _ m a _ x (by simpa [chipReadN] using h)

/-- Two memories in canonical form that read alike are equal. -/
theorem bytesWf_ext {blank : Byte} {m n : Memory} (hm : bytesWf blank m) (hn : bytesWf blank n)
    (h : ∀ a, bytesRead blank m a = bytesRead blank n a) : m = n := by
  induction m generalizing n with
  | nil =>
    cases n with
    | nil => rfl
    | cons e n =>
      have := h e.1
      rw [bytesRead_nil, bytesRead_cons, if_pos rfl] at this
      exact absurd this.symm (hn.2 e (by simp))
  | cons c m ih =>
    have nomem : ∀ (l : Memory) (x : Nat), (∀ y ∈ l, x < y.1) → bytesRead blank l x = blank := fun l x hl => by
      have := bytesRead_append_of_not_mem (blank := blank) (n := []) (m := l) (a := x) (fun y hy => by
        have := hl y hy; omega)
      rwa [List.append_nil] at this
    cases n with
    | nil =>
      have := h c.1
      rw [bytesRead_nil, bytesRead_cons, if_pos rfl] at this
      exact absurd this (hm.2 c (by simp))
    | cons e n =>
      have hmp := List.pairwise_cons.mp hm.1
      have hnp := List.pairwise_cons.mp hn.1
      have key : c.1 = e.1 := by
        rcases Nat.lt_trichotomy c.1 e.1 with hlt | heq | hgt
        · have := h c.1
          rw [bytesRead_cons, if_pos rfl, nomem (e :: n) c.1 (fun y hy => by
            rcases List.mem_cons.mp hy with rfl | hy
            · exact hlt
            · have := hnp.1 y hy; omega)] at this
          exact absurd this (hm.2 c (by simp))
        · exact heq
        · have := h e.1
          rw [bytesRead_cons blank e, if_pos rfl, nomem (c :: m) e.1 (fun y hy => by
            rcases List.mem_cons.mp hy with rfl | hy
            · exact hgt
            · have := hmp.1 y hy; omega)] at this
          exact absurd this.symm (hn.2 e (by simp))
      have kb : c.2 = e.2 := by
        have := h c.1
        rwa [bytesRead_cons, if_pos rfl, bytesRead_cons, if_pos key.symm] at this
      have hc : c = e := Prod.ext key kb
      subst hc
      congr 1
      refine ih ⟨hmp.2, fun y hy => hm.2 y (by simp [hy])⟩ ⟨hnp.2, fun y hy => hn.2 y (by simp [hy])⟩ (fun a => ?_)
      by_cases ha : c.1 = a
      · subst ha; rw [nomem m _ hmp.1, nomem n _ hnp.1]
      · have := h a
        rwa [bytesRead_cons, if_neg ha, bytesRead_cons, if_neg ha] at this

end Sys2Proof.Machine
end

