-- ==== Sys2Proof/Laws/State.lean ====
section
/-! SUPPORT. Laws/State.lean: one lemma per field per update of State, so that no proof unfolds a record update. -/

namespace Sys2Proof.Machine

-- In order, so that the package as one text compiles with few threads.
set_option Elab.async false

open Sys2Proof

variable (d : Dev)

/-! ### setSlot -/

@[simp] theorem setSlot_now (s : Fin 40) (f : Slot → Slot) : (d.setSlot s f).now = d.now := rfl
@[simp] theorem setSlot_eventNo (s : Fin 40) (f : Slot → Slot) : (d.setSlot s f).eventNo = d.eventNo := rfl
@[simp] theorem setSlot_freeNo (s : Fin 40) (f : Slot → Slot) : (d.setSlot s f).freeNo = d.freeNo := rfl
@[simp] theorem setSlot_hp (s : Fin 40) (f : Slot → Slot) : (d.setSlot s f).hp = d.hp := rfl
@[simp] theorem setSlot_smc (s : Fin 40) (f : Slot → Slot) : (d.setSlot s f).smc = d.smc := rfl
@[simp] theorem setSlot_lp (s : Fin 40) (f : Slot → Slot) : (d.setSlot s f).lp = d.lp := rfl
@[simp] theorem setSlot_rs (s : Fin 40) (f : Slot → Slot) : (d.setSlot s f).rs = d.rs := rfl
@[simp] theorem setSlot_rp (s : Fin 40) (f : Slot → Slot) : (d.setSlot s f).rp = d.rp := rfl
@[simp] theorem setSlot_lbu (s : Fin 40) (f : Slot → Slot) : (d.setSlot s f).lbu = d.lbu := rfl
@[simp] theorem setSlot_pm (s : Fin 40) (f : Slot → Slot) : (d.setSlot s f).pm = d.pm := rfl
@[simp] theorem setSlot_bic (s : Fin 40) (f : Slot → Slot) : (d.setSlot s f).bic = d.bic := rfl
@[simp] theorem setSlot_sru (s : Fin 40) (f : Slot → Slot) : (d.setSlot s f).sru = d.sru := rfl
@[simp] theorem setSlot_uv (s : Fin 40) (f : Slot → Slot) : (d.setSlot s f).uv = d.uv := rfl
@[simp] theorem setSlot_fb (s : Fin 40) (f : Slot → Slot) : (d.setSlot s f).fb = d.fb := rfl
@[simp] theorem setSlot_lm_chan (s : Fin 40) (f : Slot → Slot) : (d.setSlot s f).lm.chan = d.lm.chan := rfl
@[simp] theorem setSlot_lm_windowSeq (s : Fin 40) (f : Slot → Slot) : (d.setSlot s f).lm.windowSeq = d.lm.windowSeq := rfl
@[simp] theorem setSlot_lm_windowDue (s : Fin 40) (f : Slot → Slot) : (d.setSlot s f).lm.windowDue = d.lm.windowDue := rfl
@[simp] theorem setSlot_lm_donorOut (s : Fin 40) (f : Slot → Slot) : (d.setSlot s f).lm.donorOut = d.lm.donorOut := rfl

/-! ### setPort -/

@[simp] theorem setPort_now (x : Fin 4) (f : Port → Port) : (d.setPort x f).now = d.now := rfl
@[simp] theorem setPort_eventNo (x : Fin 4) (f : Port → Port) : (d.setPort x f).eventNo = d.eventNo := rfl
@[simp] theorem setPort_freeNo (x : Fin 4) (f : Port → Port) : (d.setPort x f).freeNo = d.freeNo := rfl
@[simp] theorem setPort_hp (x : Fin 4) (f : Port → Port) : (d.setPort x f).hp = d.hp := rfl
@[simp] theorem setPort_smc (x : Fin 4) (f : Port → Port) : (d.setPort x f).smc = d.smc := rfl
@[simp] theorem setPort_lm (x : Fin 4) (f : Port → Port) : (d.setPort x f).lm = d.lm := rfl
@[simp] theorem setPort_rs (x : Fin 4) (f : Port → Port) : (d.setPort x f).rs = d.rs := rfl
@[simp] theorem setPort_rp (x : Fin 4) (f : Port → Port) : (d.setPort x f).rp = d.rp := rfl
@[simp] theorem setPort_lbu (x : Fin 4) (f : Port → Port) : (d.setPort x f).lbu = d.lbu := rfl
@[simp] theorem setPort_pm (x : Fin 4) (f : Port → Port) : (d.setPort x f).pm = d.pm := rfl
@[simp] theorem setPort_bic (x : Fin 4) (f : Port → Port) : (d.setPort x f).bic = d.bic := rfl
@[simp] theorem setPort_sru (x : Fin 4) (f : Port → Port) : (d.setPort x f).sru = d.sru := rfl
@[simp] theorem setPort_uv (x : Fin 4) (f : Port → Port) : (d.setPort x f).uv = d.uv := rfl
@[simp] theorem setPort_fb (x : Fin 4) (f : Port → Port) : (d.setPort x f).fb = d.fb := rfl
@[simp] theorem setPort_lp_frameDue (x : Fin 4) (f : Port → Port) : (d.setPort x f).lp.frameDue = d.lp.frameDue := rfl
@[simp] theorem setPort_lp_readDue (x : Fin 4) (f : Port → Port) : (d.setPort x f).lp.readDue = d.lp.readDue := rfl
@[simp] theorem setPort_lp_readNo (x : Fin 4) (f : Port → Port) : (d.setPort x f).lp.readNo = d.lp.readNo := rfl

/-! ### setRemote -/

@[simp] theorem setRemote_now (r : Fin 32) (f : Remote → Remote) : (d.setRemote r f).now = d.now := rfl
@[simp] theorem setRemote_eventNo (r : Fin 32) (f : Remote → Remote) : (d.setRemote r f).eventNo = d.eventNo := rfl
@[simp] theorem setRemote_freeNo (r : Fin 32) (f : Remote → Remote) : (d.setRemote r f).freeNo = d.freeNo := rfl
@[simp] theorem setRemote_hp (r : Fin 32) (f : Remote → Remote) : (d.setRemote r f).hp = d.hp := rfl
@[simp] theorem setRemote_smc (r : Fin 32) (f : Remote → Remote) : (d.setRemote r f).smc = d.smc := rfl
@[simp] theorem setRemote_lm (r : Fin 32) (f : Remote → Remote) : (d.setRemote r f).lm = d.lm := rfl
@[simp] theorem setRemote_lp (r : Fin 32) (f : Remote → Remote) : (d.setRemote r f).lp = d.lp := rfl
@[simp] theorem setRemote_rp (r : Fin 32) (f : Remote → Remote) : (d.setRemote r f).rp = d.rp := rfl
@[simp] theorem setRemote_lbu (r : Fin 32) (f : Remote → Remote) : (d.setRemote r f).lbu = d.lbu := rfl
@[simp] theorem setRemote_pm (r : Fin 32) (f : Remote → Remote) : (d.setRemote r f).pm = d.pm := rfl
@[simp] theorem setRemote_bic (r : Fin 32) (f : Remote → Remote) : (d.setRemote r f).bic = d.bic := rfl
@[simp] theorem setRemote_sru (r : Fin 32) (f : Remote → Remote) : (d.setRemote r f).sru = d.sru := rfl
@[simp] theorem setRemote_uv (r : Fin 32) (f : Remote → Remote) : (d.setRemote r f).uv = d.uv := rfl
@[simp] theorem setRemote_fb (r : Fin 32) (f : Remote → Remote) : (d.setRemote r f).fb = d.fb := rfl
@[simp] theorem setRemote_rs_superDue (r : Fin 32) (f : Remote → Remote) : (d.setRemote r f).rs.superDue = d.rs.superDue := rfl
@[simp] theorem setRemote_rs_test (r : Fin 32) (f : Remote → Remote) : (d.setRemote r f).rs.test = d.rs.test := rfl
@[simp] theorem setRemote_rs_snapSeq (r : Fin 32) (f : Remote → Remote) : (d.setRemote r f).rs.snapSeq = d.rs.snapSeq := rfl

/-! ### setPool -/

@[simp] theorem setPool_now (x : Fin 4) (f : Pool → Pool) : (d.setPool x f).now = d.now := rfl
@[simp] theorem setPool_eventNo (x : Fin 4) (f : Pool → Pool) : (d.setPool x f).eventNo = d.eventNo := rfl
@[simp] theorem setPool_freeNo (x : Fin 4) (f : Pool → Pool) : (d.setPool x f).freeNo = d.freeNo := rfl
@[simp] theorem setPool_hp (x : Fin 4) (f : Pool → Pool) : (d.setPool x f).hp = d.hp := rfl
@[simp] theorem setPool_smc (x : Fin 4) (f : Pool → Pool) : (d.setPool x f).smc = d.smc := rfl
@[simp] theorem setPool_lm (x : Fin 4) (f : Pool → Pool) : (d.setPool x f).lm = d.lm := rfl
@[simp] theorem setPool_lp (x : Fin 4) (f : Pool → Pool) : (d.setPool x f).lp = d.lp := rfl
@[simp] theorem setPool_rs (x : Fin 4) (f : Pool → Pool) : (d.setPool x f).rs = d.rs := rfl
@[simp] theorem setPool_lbu (x : Fin 4) (f : Pool → Pool) : (d.setPool x f).lbu = d.lbu := rfl
@[simp] theorem setPool_pm (x : Fin 4) (f : Pool → Pool) : (d.setPool x f).pm = d.pm := rfl
@[simp] theorem setPool_bic (x : Fin 4) (f : Pool → Pool) : (d.setPool x f).bic = d.bic := rfl
@[simp] theorem setPool_sru (x : Fin 4) (f : Pool → Pool) : (d.setPool x f).sru = d.sru := rfl
@[simp] theorem setPool_uv (x : Fin 4) (f : Pool → Pool) : (d.setPool x f).uv = d.uv := rfl
@[simp] theorem setPool_fb (x : Fin 4) (f : Pool → Pool) : (d.setPool x f).fb = d.fb := rfl
@[simp] theorem setPool_rp_remoteTab (x : Fin 4) (f : Pool → Pool) : (d.setPool x f).rp.remoteTab = d.rp.remoteTab := rfl
@[simp] theorem setPool_rp_routes (x : Fin 4) (f : Pool → Pool) : (d.setPool x f).rp.routes = d.rp.routes := rfl
@[simp] theorem setPool_rp_phase (x : Fin 4) (f : Pool → Pool) : (d.setPool x f).rp.phase = d.rp.phase := rfl
@[simp] theorem setPool_rp_newRoutes (x : Fin 4) (f : Pool → Pool) : (d.setPool x f).rp.newRoutes = d.rp.newRoutes := rfl
@[simp] theorem setPool_rp_staged (x : Fin 4) (f : Pool → Pool) : (d.setPool x f).rp.staged = d.rp.staged := rfl
@[simp] theorem setPool_rp_switching (x : Fin 4) (f : Pool → Pool) : (d.setPool x f).rp.switching = d.rp.switching := rfl
@[simp] theorem setPool_rp_switchSent (x : Fin 4) (f : Pool → Pool) : (d.setPool x f).rp.switchSent = d.rp.switchSent := rfl
@[simp] theorem setPool_rp_bootRows (x : Fin 4) (f : Pool → Pool) : (d.setPool x f).rp.bootRows = d.rp.bootRows := rfl

/-! ### setBudget -/

@[simp] theorem setBudget_now (r : Fin 32) (f : Budget → Budget) : (d.setBudget r f).now = d.now := rfl
@[simp] theorem setBudget_eventNo (r : Fin 32) (f : Budget → Budget) : (d.setBudget r f).eventNo = d.eventNo := rfl
@[simp] theorem setBudget_freeNo (r : Fin 32) (f : Budget → Budget) : (d.setBudget r f).freeNo = d.freeNo := rfl
@[simp] theorem setBudget_hp (r : Fin 32) (f : Budget → Budget) : (d.setBudget r f).hp = d.hp := rfl
@[simp] theorem setBudget_smc (r : Fin 32) (f : Budget → Budget) : (d.setBudget r f).smc = d.smc := rfl
@[simp] theorem setBudget_lm (r : Fin 32) (f : Budget → Budget) : (d.setBudget r f).lm = d.lm := rfl
@[simp] theorem setBudget_lp (r : Fin 32) (f : Budget → Budget) : (d.setBudget r f).lp = d.lp := rfl
@[simp] theorem setBudget_rs (r : Fin 32) (f : Budget → Budget) : (d.setBudget r f).rs = d.rs := rfl
@[simp] theorem setBudget_rp (r : Fin 32) (f : Budget → Budget) : (d.setBudget r f).rp = d.rp := rfl
@[simp] theorem setBudget_pm (r : Fin 32) (f : Budget → Budget) : (d.setBudget r f).pm = d.pm := rfl
@[simp] theorem setBudget_bic (r : Fin 32) (f : Budget → Budget) : (d.setBudget r f).bic = d.bic := rfl
@[simp] theorem setBudget_sru (r : Fin 32) (f : Budget → Budget) : (d.setBudget r f).sru = d.sru := rfl
@[simp] theorem setBudget_uv (r : Fin 32) (f : Budget → Budget) : (d.setBudget r f).uv = d.uv := rfl
@[simp] theorem setBudget_fb (r : Fin 32) (f : Budget → Budget) : (d.setBudget r f).fb = d.fb := rfl

/-! ### setMod -/

@[simp] theorem setMod_now (p : Fin 8) (f : Modulator → Modulator) : (d.setMod p f).now = d.now := rfl
@[simp] theorem setMod_eventNo (p : Fin 8) (f : Modulator → Modulator) : (d.setMod p f).eventNo = d.eventNo := rfl
@[simp] theorem setMod_freeNo (p : Fin 8) (f : Modulator → Modulator) : (d.setMod p f).freeNo = d.freeNo := rfl
@[simp] theorem setMod_hp (p : Fin 8) (f : Modulator → Modulator) : (d.setMod p f).hp = d.hp := rfl
@[simp] theorem setMod_smc (p : Fin 8) (f : Modulator → Modulator) : (d.setMod p f).smc = d.smc := rfl
@[simp] theorem setMod_lm (p : Fin 8) (f : Modulator → Modulator) : (d.setMod p f).lm = d.lm := rfl
@[simp] theorem setMod_lp (p : Fin 8) (f : Modulator → Modulator) : (d.setMod p f).lp = d.lp := rfl
@[simp] theorem setMod_rs (p : Fin 8) (f : Modulator → Modulator) : (d.setMod p f).rs = d.rs := rfl
@[simp] theorem setMod_rp (p : Fin 8) (f : Modulator → Modulator) : (d.setMod p f).rp = d.rp := rfl
@[simp] theorem setMod_lbu (p : Fin 8) (f : Modulator → Modulator) : (d.setMod p f).lbu = d.lbu := rfl
@[simp] theorem setMod_bic (p : Fin 8) (f : Modulator → Modulator) : (d.setMod p f).bic = d.bic := rfl
@[simp] theorem setMod_sru (p : Fin 8) (f : Modulator → Modulator) : (d.setMod p f).sru = d.sru := rfl
@[simp] theorem setMod_uv (p : Fin 8) (f : Modulator → Modulator) : (d.setMod p f).uv = d.uv := rfl
@[simp] theorem setMod_fb (p : Fin 8) (f : Modulator → Modulator) : (d.setMod p f).fb = d.fb := rfl
@[simp] theorem setMod_pm_table (p : Fin 8) (f : Modulator → Modulator) : (d.setMod p f).pm.table = d.pm.table := rfl
@[simp] theorem setMod_pm_bims (p : Fin 8) (f : Modulator → Modulator) : (d.setMod p f).pm.bims = d.pm.bims := rfl

/-! ### setBim -/

@[simp] theorem setBim_now (m : Fin 12) (f : Bim → Bim) : (d.setBim m f).now = d.now := rfl
@[simp] theorem setBim_eventNo (m : Fin 12) (f : Bim → Bim) : (d.setBim m f).eventNo = d.eventNo := rfl
@[simp] theorem setBim_freeNo (m : Fin 12) (f : Bim → Bim) : (d.setBim m f).freeNo = d.freeNo := rfl
@[simp] theorem setBim_hp (m : Fin 12) (f : Bim → Bim) : (d.setBim m f).hp = d.hp := rfl
@[simp] theorem setBim_smc (m : Fin 12) (f : Bim → Bim) : (d.setBim m f).smc = d.smc := rfl
@[simp] theorem setBim_lm (m : Fin 12) (f : Bim → Bim) : (d.setBim m f).lm = d.lm := rfl
@[simp] theorem setBim_lp (m : Fin 12) (f : Bim → Bim) : (d.setBim m f).lp = d.lp := rfl
@[simp] theorem setBim_rs (m : Fin 12) (f : Bim → Bim) : (d.setBim m f).rs = d.rs := rfl
@[simp] theorem setBim_rp (m : Fin 12) (f : Bim → Bim) : (d.setBim m f).rp = d.rp := rfl
@[simp] theorem setBim_lbu (m : Fin 12) (f : Bim → Bim) : (d.setBim m f).lbu = d.lbu := rfl
@[simp] theorem setBim_bic (m : Fin 12) (f : Bim → Bim) : (d.setBim m f).bic = d.bic := rfl
@[simp] theorem setBim_sru (m : Fin 12) (f : Bim → Bim) : (d.setBim m f).sru = d.sru := rfl
@[simp] theorem setBim_uv (m : Fin 12) (f : Bim → Bim) : (d.setBim m f).uv = d.uv := rfl
@[simp] theorem setBim_fb (m : Fin 12) (f : Bim → Bim) : (d.setBim m f).fb = d.fb := rfl
@[simp] theorem setBim_pm_table (m : Fin 12) (f : Bim → Bim) : (d.setBim m f).pm.table = d.pm.table := rfl
@[simp] theorem setBim_pm_mods (m : Fin 12) (f : Bim → Bim) : (d.setBim m f).pm.mods = d.pm.mods := rfl

/-! ### setSource -/

@[simp] theorem setSource_now (n : Fin 8) (f : Source → Source) : (d.setSource n f).now = d.now := rfl
@[simp] theorem setSource_eventNo (n : Fin 8) (f : Source → Source) : (d.setSource n f).eventNo = d.eventNo := rfl
@[simp] theorem setSource_freeNo (n : Fin 8) (f : Source → Source) : (d.setSource n f).freeNo = d.freeNo := rfl
@[simp] theorem setSource_hp (n : Fin 8) (f : Source → Source) : (d.setSource n f).hp = d.hp := rfl
@[simp] theorem setSource_smc (n : Fin 8) (f : Source → Source) : (d.setSource n f).smc = d.smc := rfl
@[simp] theorem setSource_lm (n : Fin 8) (f : Source → Source) : (d.setSource n f).lm = d.lm := rfl
@[simp] theorem setSource_lp (n : Fin 8) (f : Source → Source) : (d.setSource n f).lp = d.lp := rfl
@[simp] theorem setSource_rs (n : Fin 8) (f : Source → Source) : (d.setSource n f).rs = d.rs := rfl
@[simp] theorem setSource_rp (n : Fin 8) (f : Source → Source) : (d.setSource n f).rp = d.rp := rfl
@[simp] theorem setSource_lbu (n : Fin 8) (f : Source → Source) : (d.setSource n f).lbu = d.lbu := rfl
@[simp] theorem setSource_pm (n : Fin 8) (f : Source → Source) : (d.setSource n f).pm = d.pm := rfl
@[simp] theorem setSource_sru (n : Fin 8) (f : Source → Source) : (d.setSource n f).sru = d.sru := rfl
@[simp] theorem setSource_uv (n : Fin 8) (f : Source → Source) : (d.setSource n f).uv = d.uv := rfl
@[simp] theorem setSource_fb (n : Fin 8) (f : Source → Source) : (d.setSource n f).fb = d.fb := rfl
@[simp] theorem setSource_bic_master (n : Fin 8) (f : Source → Source) : (d.setSource n f).bic.master = d.bic.master := rfl
@[simp] theorem setSource_bic_table (n : Fin 8) (f : Source → Source) : (d.setSource n f).bic.table = d.bic.table := rfl
@[simp] theorem setSource_bic_lines (n : Fin 8) (f : Source → Source) : (d.setSource n f).bic.lines = d.bic.lines := rfl
@[simp] theorem setSource_bic_zoneSel (n : Fin 8) (f : Source → Source) : (d.setSource n f).bic.zoneSel = d.bic.zoneSel := rfl
@[simp] theorem setSource_bic_alarmMasked (n : Fin 8) (f : Source → Source) : (d.setSource n f).bic.alarmMasked = d.bic.alarmMasked := rfl
@[simp] theorem setSource_bic_delivery (n : Fin 8) (f : Source → Source) : (d.setSource n f).bic.delivery = d.bic.delivery := rfl

/-! ### setDelivery -/

@[simp] theorem setDelivery_now (r : Fin 32) (p : Fin 8) (f : Delivery → Delivery) : (d.setDelivery r p f).now = d.now := rfl
@[simp] theorem setDelivery_eventNo (r : Fin 32) (p : Fin 8) (f : Delivery → Delivery) : (d.setDelivery r p f).eventNo = d.eventNo := rfl
@[simp] theorem setDelivery_freeNo (r : Fin 32) (p : Fin 8) (f : Delivery → Delivery) : (d.setDelivery r p f).freeNo = d.freeNo := rfl
@[simp] theorem setDelivery_hp (r : Fin 32) (p : Fin 8) (f : Delivery → Delivery) : (d.setDelivery r p f).hp = d.hp := rfl
@[simp] theorem setDelivery_smc (r : Fin 32) (p : Fin 8) (f : Delivery → Delivery) : (d.setDelivery r p f).smc = d.smc := rfl
@[simp] theorem setDelivery_lm (r : Fin 32) (p : Fin 8) (f : Delivery → Delivery) : (d.setDelivery r p f).lm = d.lm := rfl
@[simp] theorem setDelivery_lp (r : Fin 32) (p : Fin 8) (f : Delivery → Delivery) : (d.setDelivery r p f).lp = d.lp := rfl
@[simp] theorem setDelivery_rs (r : Fin 32) (p : Fin 8) (f : Delivery → Delivery) : (d.setDelivery r p f).rs = d.rs := rfl
@[simp] theorem setDelivery_rp (r : Fin 32) (p : Fin 8) (f : Delivery → Delivery) : (d.setDelivery r p f).rp = d.rp := rfl
@[simp] theorem setDelivery_lbu (r : Fin 32) (p : Fin 8) (f : Delivery → Delivery) : (d.setDelivery r p f).lbu = d.lbu := rfl
@[simp] theorem setDelivery_pm (r : Fin 32) (p : Fin 8) (f : Delivery → Delivery) : (d.setDelivery r p f).pm = d.pm := rfl
@[simp] theorem setDelivery_sru (r : Fin 32) (p : Fin 8) (f : Delivery → Delivery) : (d.setDelivery r p f).sru = d.sru := rfl
@[simp] theorem setDelivery_uv (r : Fin 32) (p : Fin 8) (f : Delivery → Delivery) : (d.setDelivery r p f).uv = d.uv := rfl
@[simp] theorem setDelivery_fb (r : Fin 32) (p : Fin 8) (f : Delivery → Delivery) : (d.setDelivery r p f).fb = d.fb := rfl
@[simp] theorem setDelivery_bic_master (r : Fin 32) (p : Fin 8) (f : Delivery → Delivery) : (d.setDelivery r p f).bic.master = d.bic.master := rfl
@[simp] theorem setDelivery_bic_table (r : Fin 32) (p : Fin 8) (f : Delivery → Delivery) : (d.setDelivery r p f).bic.table = d.bic.table := rfl
@[simp] theorem setDelivery_bic_lines (r : Fin 32) (p : Fin 8) (f : Delivery → Delivery) : (d.setDelivery r p f).bic.lines = d.bic.lines := rfl
@[simp] theorem setDelivery_bic_zoneSel (r : Fin 32) (p : Fin 8) (f : Delivery → Delivery) : (d.setDelivery r p f).bic.zoneSel = d.bic.zoneSel := rfl
@[simp] theorem setDelivery_bic_alarmMasked (r : Fin 32) (p : Fin 8) (f : Delivery → Delivery) : (d.setDelivery r p f).bic.alarmMasked = d.bic.alarmMasked := rfl
@[simp] theorem setDelivery_bic_sources (r : Fin 32) (p : Fin 8) (f : Delivery → Delivery) : (d.setDelivery r p f).bic.sources = d.bic.sources := rfl

/-! ### setHold -/

@[simp] theorem setHold_now (r : Fin 32) (f : HoldRec → HoldRec) : (d.setHold r f).now = d.now := rfl
@[simp] theorem setHold_eventNo (r : Fin 32) (f : HoldRec → HoldRec) : (d.setHold r f).eventNo = d.eventNo := rfl
@[simp] theorem setHold_freeNo (r : Fin 32) (f : HoldRec → HoldRec) : (d.setHold r f).freeNo = d.freeNo := rfl
@[simp] theorem setHold_hp (r : Fin 32) (f : HoldRec → HoldRec) : (d.setHold r f).hp = d.hp := rfl
@[simp] theorem setHold_smc (r : Fin 32) (f : HoldRec → HoldRec) : (d.setHold r f).smc = d.smc := rfl
@[simp] theorem setHold_lm (r : Fin 32) (f : HoldRec → HoldRec) : (d.setHold r f).lm = d.lm := rfl
@[simp] theorem setHold_lp (r : Fin 32) (f : HoldRec → HoldRec) : (d.setHold r f).lp = d.lp := rfl
@[simp] theorem setHold_rs (r : Fin 32) (f : HoldRec → HoldRec) : (d.setHold r f).rs = d.rs := rfl
@[simp] theorem setHold_rp (r : Fin 32) (f : HoldRec → HoldRec) : (d.setHold r f).rp = d.rp := rfl
@[simp] theorem setHold_lbu (r : Fin 32) (f : HoldRec → HoldRec) : (d.setHold r f).lbu = d.lbu := rfl
@[simp] theorem setHold_pm (r : Fin 32) (f : HoldRec → HoldRec) : (d.setHold r f).pm = d.pm := rfl
@[simp] theorem setHold_bic (r : Fin 32) (f : HoldRec → HoldRec) : (d.setHold r f).bic = d.bic := rfl
@[simp] theorem setHold_uv (r : Fin 32) (f : HoldRec → HoldRec) : (d.setHold r f).uv = d.uv := rfl
@[simp] theorem setHold_fb (r : Fin 32) (f : HoldRec → HoldRec) : (d.setHold r f).fb = d.fb := rfl
@[simp] theorem setHold_sru_tRef (r : Fin 32) (f : HoldRec → HoldRec) : (d.setHold r f).sru.tRef = d.sru.tRef := rfl
@[simp] theorem setHold_sru_refSeq (r : Fin 32) (f : HoldRec → HoldRec) : (d.setHold r f).sru.refSeq = d.sru.refSeq := rfl
@[simp] theorem setHold_sru_keyed (r : Fin 32) (f : HoldRec → HoldRec) : (d.setHold r f).sru.keyed = d.sru.keyed := rfl
@[simp] theorem setHold_sru_guardTicks (r : Fin 32) (f : HoldRec → HoldRec) : (d.setHold r f).sru.guardTicks = d.sru.guardTicks := rfl
@[simp] theorem setHold_sru_table (r : Fin 32) (f : HoldRec → HoldRec) : (d.setHold r f).sru.table = d.sru.table := rfl

/-! ### setVoter -/

@[simp] theorem setVoter_now (e : Fin 8) (f : Voter → Voter) : (d.setVoter e f).now = d.now := rfl
@[simp] theorem setVoter_eventNo (e : Fin 8) (f : Voter → Voter) : (d.setVoter e f).eventNo = d.eventNo := rfl
@[simp] theorem setVoter_freeNo (e : Fin 8) (f : Voter → Voter) : (d.setVoter e f).freeNo = d.freeNo := rfl
@[simp] theorem setVoter_hp (e : Fin 8) (f : Voter → Voter) : (d.setVoter e f).hp = d.hp := rfl
@[simp] theorem setVoter_smc (e : Fin 8) (f : Voter → Voter) : (d.setVoter e f).smc = d.smc := rfl
@[simp] theorem setVoter_lm (e : Fin 8) (f : Voter → Voter) : (d.setVoter e f).lm = d.lm := rfl
@[simp] theorem setVoter_lp (e : Fin 8) (f : Voter → Voter) : (d.setVoter e f).lp = d.lp := rfl
@[simp] theorem setVoter_rs (e : Fin 8) (f : Voter → Voter) : (d.setVoter e f).rs = d.rs := rfl
@[simp] theorem setVoter_rp (e : Fin 8) (f : Voter → Voter) : (d.setVoter e f).rp = d.rp := rfl
@[simp] theorem setVoter_lbu (e : Fin 8) (f : Voter → Voter) : (d.setVoter e f).lbu = d.lbu := rfl
@[simp] theorem setVoter_pm (e : Fin 8) (f : Voter → Voter) : (d.setVoter e f).pm = d.pm := rfl
@[simp] theorem setVoter_bic (e : Fin 8) (f : Voter → Voter) : (d.setVoter e f).bic = d.bic := rfl
@[simp] theorem setVoter_sru (e : Fin 8) (f : Voter → Voter) : (d.setVoter e f).sru = d.sru := rfl
@[simp] theorem setVoter_fb (e : Fin 8) (f : Voter → Voter) : (d.setVoter e f).fb = d.fb := rfl

/-! ### setFb -/

@[simp] theorem setFb_now (f : Fb → Fb) : (d.setFb f).now = d.now := rfl
@[simp] theorem setFb_eventNo (f : Fb → Fb) : (d.setFb f).eventNo = d.eventNo := rfl
@[simp] theorem setFb_freeNo (f : Fb → Fb) : (d.setFb f).freeNo = d.freeNo := rfl
@[simp] theorem setFb_hp (f : Fb → Fb) : (d.setFb f).hp = d.hp := rfl
@[simp] theorem setFb_smc (f : Fb → Fb) : (d.setFb f).smc = d.smc := rfl
@[simp] theorem setFb_lm (f : Fb → Fb) : (d.setFb f).lm = d.lm := rfl
@[simp] theorem setFb_lp (f : Fb → Fb) : (d.setFb f).lp = d.lp := rfl
@[simp] theorem setFb_rs (f : Fb → Fb) : (d.setFb f).rs = d.rs := rfl
@[simp] theorem setFb_rp (f : Fb → Fb) : (d.setFb f).rp = d.rp := rfl
@[simp] theorem setFb_lbu (f : Fb → Fb) : (d.setFb f).lbu = d.lbu := rfl
@[simp] theorem setFb_pm (f : Fb → Fb) : (d.setFb f).pm = d.pm := rfl
@[simp] theorem setFb_bic (f : Fb → Fb) : (d.setFb f).bic = d.bic := rfl
@[simp] theorem setFb_sru (f : Fb → Fb) : (d.setFb f).sru = d.sru := rfl
@[simp] theorem setFb_uv (f : Fb → Fb) : (d.setFb f).uv = d.uv := rfl

/-! ### setRp -/

@[simp] theorem setRp_now (f : Rp → Rp) : (d.setRp f).now = d.now := rfl
@[simp] theorem setRp_eventNo (f : Rp → Rp) : (d.setRp f).eventNo = d.eventNo := rfl
@[simp] theorem setRp_freeNo (f : Rp → Rp) : (d.setRp f).freeNo = d.freeNo := rfl
@[simp] theorem setRp_hp (f : Rp → Rp) : (d.setRp f).hp = d.hp := rfl
@[simp] theorem setRp_smc (f : Rp → Rp) : (d.setRp f).smc = d.smc := rfl
@[simp] theorem setRp_lm (f : Rp → Rp) : (d.setRp f).lm = d.lm := rfl
@[simp] theorem setRp_lp (f : Rp → Rp) : (d.setRp f).lp = d.lp := rfl
@[simp] theorem setRp_rs (f : Rp → Rp) : (d.setRp f).rs = d.rs := rfl
@[simp] theorem setRp_lbu (f : Rp → Rp) : (d.setRp f).lbu = d.lbu := rfl
@[simp] theorem setRp_pm (f : Rp → Rp) : (d.setRp f).pm = d.pm := rfl
@[simp] theorem setRp_bic (f : Rp → Rp) : (d.setRp f).bic = d.bic := rfl
@[simp] theorem setRp_sru (f : Rp → Rp) : (d.setRp f).sru = d.sru := rfl
@[simp] theorem setRp_uv (f : Rp → Rp) : (d.setRp f).uv = d.uv := rfl
@[simp] theorem setRp_fb (f : Rp → Rp) : (d.setRp f).fb = d.fb := rfl

/-! ### poke -/

@[simp] theorem poke_now (a : Nat) (bs : List Byte) : (d.poke a bs).now = d.now := rfl
@[simp] theorem poke_eventNo (a : Nat) (bs : List Byte) : (d.poke a bs).eventNo = d.eventNo := rfl
@[simp] theorem poke_freeNo (a : Nat) (bs : List Byte) : (d.poke a bs).freeNo = d.freeNo := rfl
@[simp] theorem poke_hp (a : Nat) (bs : List Byte) : (d.poke a bs).hp = d.hp := rfl
@[simp] theorem poke_lm (a : Nat) (bs : List Byte) : (d.poke a bs).lm = d.lm := rfl
@[simp] theorem poke_lp (a : Nat) (bs : List Byte) : (d.poke a bs).lp = d.lp := rfl
@[simp] theorem poke_rs (a : Nat) (bs : List Byte) : (d.poke a bs).rs = d.rs := rfl
@[simp] theorem poke_rp (a : Nat) (bs : List Byte) : (d.poke a bs).rp = d.rp := rfl
@[simp] theorem poke_lbu (a : Nat) (bs : List Byte) : (d.poke a bs).lbu = d.lbu := rfl
@[simp] theorem poke_pm (a : Nat) (bs : List Byte) : (d.poke a bs).pm = d.pm := rfl
@[simp] theorem poke_bic (a : Nat) (bs : List Byte) : (d.poke a bs).bic = d.bic := rfl
@[simp] theorem poke_sru (a : Nat) (bs : List Byte) : (d.poke a bs).sru = d.sru := rfl
@[simp] theorem poke_uv (a : Nat) (bs : List Byte) : (d.poke a bs).uv = d.uv := rfl
@[simp] theorem poke_fb (a : Nat) (bs : List Byte) : (d.poke a bs).fb = d.fb := rfl
@[simp] theorem poke_smc_state (a : Nat) (bs : List Byte) : (d.poke a bs).smc.state = d.smc.state := rfl
@[simp] theorem poke_smc_cause (a : Nat) (bs : List Byte) : (d.poke a bs).smc.cause = d.smc.cause := rfl
@[simp] theorem poke_smc_scope (a : Nat) (bs : List Byte) : (d.poke a bs).smc.scope = d.smc.scope := rfl
@[simp] theorem poke_smc_layout (a : Nat) (bs : List Byte) : (d.poke a bs).smc.layout = d.smc.layout := rfl
@[simp] theorem poke_smc_notices (a : Nat) (bs : List Byte) : (d.poke a bs).smc.notices = d.smc.notices := rfl
@[simp] theorem poke_smc_masks (a : Nat) (bs : List Byte) : (d.poke a bs).smc.masks = d.smc.masks := rfl
@[simp] theorem poke_smc_latches (a : Nat) (bs : List Byte) : (d.poke a bs).smc.latches = d.smc.latches := rfl
@[simp] theorem poke_smc_news (a : Nat) (bs : List Byte) : (d.poke a bs).smc.news = d.smc.news := rfl
@[simp] theorem poke_smc_lastReq (a : Nat) (bs : List Byte) : (d.poke a bs).smc.lastReq = d.smc.lastReq := rfl
@[simp] theorem poke_smc_deferred (a : Nat) (bs : List Byte) : (d.poke a bs).smc.deferred = d.smc.deferred := rfl
@[simp] theorem poke_smc_taken (a : Nat) (bs : List Byte) : (d.poke a bs).smc.taken = d.smc.taken := rfl
@[simp] theorem poke_smc_lastRefusal (a : Nat) (bs : List Byte) : (d.poke a bs).smc.lastRefusal = d.smc.lastRefusal := rfl
@[simp] theorem poke_smc_job (a : Nat) (bs : List Byte) : (d.poke a bs).smc.job = d.smc.job := rfl
@[simp] theorem poke_smc_overrun (a : Nat) (bs : List Byte) : (d.poke a bs).smc.overrun = d.smc.overrun := rfl
@[simp] theorem poke_smc_bootMark (a : Nat) (bs : List Byte) : (d.poke a bs).smc.bootMark = d.smc.bootMark := rfl
@[simp] theorem poke_smc_bootResult (a : Nat) (bs : List Byte) : (d.poke a bs).smc.bootResult = d.smc.bootResult := rfl

@[simp] theorem setFb_fb (f : Fb → Fb) : (d.setFb f).fb = f d.fb := rfl
@[simp] theorem setRp_rp (f : Rp → Rp) : (d.setRp f).rp = f d.rp := rfl
@[simp] theorem poke_mem (a : Nat) (bs : List Byte) : (d.poke a bs).smc.mem = d.smc.mem.write a bs := rfl

/-! ### The entry updated, and the others -/

theorem slot_setSlot (i j : Fin 40) (f : Slot → Slot) :
    (d.setSlot i f).slot j = if i = j then f (d.slot i) else d.slot j := Tab.get_modify _ i j f
@[simp] theorem slot_setSlot_same (i : Fin 40) (f : Slot → Slot) : (d.setSlot i f).slot i = f (d.slot i) := Tab.get_modify_eq _ i f
theorem port_setPort (i j : Fin 4) (f : Port → Port) :
    (d.setPort i f).port j = if i = j then f (d.port i) else d.port j := Tab.get_modify _ i j f
@[simp] theorem port_setPort_same (i : Fin 4) (f : Port → Port) : (d.setPort i f).port i = f (d.port i) := Tab.get_modify_eq _ i f
theorem remote_setRemote (i j : Fin 32) (f : Remote → Remote) :
    (d.setRemote i f).remote j = if i = j then f (d.remote i) else d.remote j := Tab.get_modify _ i j f
@[simp] theorem remote_setRemote_same (i : Fin 32) (f : Remote → Remote) : (d.setRemote i f).remote i = f (d.remote i) := Tab.get_modify_eq _ i f
theorem pool_setPool (i j : Fin 4) (f : Pool → Pool) :
    (d.setPool i f).pool j = if i = j then f (d.pool i) else d.pool j := Tab.get_modify _ i j f
@[simp] theorem pool_setPool_same (i : Fin 4) (f : Pool → Pool) : (d.setPool i f).pool i = f (d.pool i) := Tab.get_modify_eq _ i f
theorem budget_setBudget (i j : Fin 32) (f : Budget → Budget) :
    (d.setBudget i f).budget j = if i = j then f (d.budget i) else d.budget j := Tab.get_modify _ i j f
@[simp] theorem budget_setBudget_same (i : Fin 32) (f : Budget → Budget) : (d.setBudget i f).budget i = f (d.budget i) := Tab.get_modify_eq _ i f
theorem mod_setMod (i j : Fin 8) (f : Modulator → Modulator) :
    (d.setMod i f).mod j = if i = j then f (d.mod i) else d.mod j := Tab.get_modify _ i j f
@[simp] theorem mod_setMod_same (i : Fin 8) (f : Modulator → Modulator) : (d.setMod i f).mod i = f (d.mod i) := Tab.get_modify_eq _ i f
theorem bim_setBim (i j : Fin 12) (f : Bim → Bim) :
    (d.setBim i f).bim j = if i = j then f (d.bim i) else d.bim j := Tab.get_modify _ i j f
@[simp] theorem bim_setBim_same (i : Fin 12) (f : Bim → Bim) : (d.setBim i f).bim i = f (d.bim i) := Tab.get_modify_eq _ i f
theorem source_setSource (i j : Fin 8) (f : Source → Source) :
    (d.setSource i f).source j = if i = j then f (d.source i) else d.source j := Tab.get_modify _ i j f
@[simp] theorem source_setSource_same (i : Fin 8) (f : Source → Source) : (d.setSource i f).source i = f (d.source i) := Tab.get_modify_eq _ i f
theorem hold_setHold (i j : Fin 32) (f : HoldRec → HoldRec) :
    (d.setHold i f).hold j = if i = j then f (d.hold i) else d.hold j := Tab.get_modify _ i j f
@[simp] theorem hold_setHold_same (i : Fin 32) (f : HoldRec → HoldRec) : (d.setHold i f).hold i = f (d.hold i) := Tab.get_modify_eq _ i f
theorem voter_setVoter (i j : Fin 8) (f : Voter → Voter) :
    (d.setVoter i f).voter j = if i = j then f (d.voter i) else d.voter j := Tab.get_modify _ i j f
@[simp] theorem voter_setVoter_same (i : Fin 8) (f : Voter → Voter) : (d.setVoter i f).voter i = f (d.voter i) := Tab.get_modify_eq _ i f

end Sys2Proof.Machine
end

