-- ==== Sys2Proof/Laws/Shown.lean ====
section
/-! SUPPORT. Laws/Shown.lean: what `publish` and `setLatch` can do (R17, R181 to R183, R214): they show in the status
cells they name and change nothing else. -/

namespace Sys2Proof.Machine

-- In order, so that the package as one text compiles with few threads.
set_option Elab.async false

open Sys2Proof

theorem ShownOnly.refl (cells : List (Fin 85)) (d : Dev) : ShownOnly cells d d :=
  ⟨rfl, fun _ _ => ⟨rfl, rfl, rfl⟩, fun _ _ => rfl, fun _ => rfl⟩

theorem ShownOnly.layout_eq {cells : List (Fin 85)} {d e : Dev} (h : ShownOnly cells d e) : e.smc.layout = d.smc.layout := by
  rw [h.rest]

theorem ShownOnly.linked_eq {cells : List (Fin 85)} {d e : Dev} (h : ShownOnly cells d e) : e.linked = d.linked := by
  rw [h.rest]; rfl

theorem ShownOnly.trans {cells : List (Fin 85)} {d e f : Dev} (h : ShownOnly cells d e) (k : ShownOnly cells e f) :
    ShownOnly cells d f where
  rest := by
    have h1 := h.rest
    have k1 := k.rest
    rw [h1] at k1
    exact k1
  others i hi := by
    obtain ⟨a, b, c⟩ := h.others i hi
    obtain ⟨a', b', c'⟩ := k.others i hi
    exact ⟨a'.trans a, b'.trans b, c'.trans c⟩
  bytes a ha := (k.bytes a (fun l hl => ha l (h.layout_eq ▸ hl))).trans (h.bytes a ha)
  idle hd := (k.idle (h.linked_eq ▸ hd)).trans (h.idle hd)

theorem ShownOnly.mono {cells cells' : List (Fin 85)} {d e : Dev} (h : ShownOnly cells d e)
    (hs : ∀ i, i ∈ cells → i ∈ cells') : ShownOnly cells' d e :=
  ⟨h.rest, fun i hi => h.others i (fun hc => hi (hs i hc)), fun a ha => h.bytes a (fun l hl i hi => ha l hl i (hs i hi)),
    h.idle⟩

/-! ### Bytes -/

theorem le_length (n v : Nat) : (le n v).length = n := by
  induction n generalizing v with
  | zero => rfl
  | succ n ih => simp [le, ih]

/-- A poke that stays inside one status cell or its news word. -/
theorem shown_poke {d : Dev} {l : Layout} (i : Fin 85) (a : Nat) (bs : List Byte) (hl : d.smc.layout = some l)
    (hk : d.linked = true) (h : ∀ x, a ≤ x → x < a + bs.length → cellBytes l i x) : ShownOnly [i] d (d.poke a bs) where
  rest := rfl
  others _ _ := ⟨rfl, rfl, rfl⟩
  bytes x hx := by
    refine Memory.read_write_out _ _ _ _ ?_
    by_contra hc
    push Not at hc
    exact hx l hl i (by simp) (h x hc.1 hc.2)
  idle hf := by rw [hk] at hf; cases hf

theorem shown_writeNewsWord (d : Dev) (i : Fin 85) (hk : d.linked = true) : ShownOnly [i] d (writeNewsWord d i) := by
  unfold writeNewsWord
  split
  · rename_i l hl
    refine shown_poke i _ _ hl hk (fun x h1 h2 => Or.inr ?_)
    rw [le_length] at h2
    exact ⟨h1, h2⟩
  · exact ShownOnly.refl _ _

theorem shown_writeLatchWord (d : Dev) (i : Fin 85) (hk : d.linked = true) : ShownOnly [i] d (writeLatchWord d i) := by
  unfold writeLatchWord
  split
  · rename_i l hl
    refine shown_poke i _ _ hl hk (fun x h1 h2 => Or.inl ?_)
    rw [le_length] at h2
    exact ⟨h1, by omega⟩
  · exact ShownOnly.refl _ _

/-- An update of the latch word, clear mask and news bit of one cell. -/
theorem shown_setNews (d : Dev) (i : Fin 85) (la ma : BitVec 32 → BitVec 32) (ne : Bool → Bool) (hk : d.linked = true) :
    ShownOnly [i] d { d with smc := { d.smc with
      latches := d.smc.latches.set i (la (d.smc.latches.get i)), masks := d.smc.masks.set i (ma (d.smc.masks.get i)),
      news := d.smc.news.set i (ne (d.smc.news.get i)) } } where
  rest := rfl
  others j hj := by
    have h : i ≠ j := fun e => hj (by simp [e])
    exact ⟨Tab.get_set_ne _ _ h, Tab.get_set_ne _ _ h, Tab.get_set_ne _ _ h⟩
  bytes _ _ := rfl
  idle hf := by rw [hk] at hf; cases hf

theorem Tab.set_get_self {n : Nat} {α : Type} (t : Tab n α) (i : Fin n) : t.set i (t.get i) = t :=
  Tab.ext_get (fun j => by rw [Tab.get_set]; split <;> simp_all)

theorem shown_sendMessage (d : Dev) (cells : List (Fin 85)) (hk : d.linked = true) : ShownOnly cells d (sendMessage d) :=
  ⟨rfl, fun _ _ => ⟨rfl, rfl, rfl⟩, fun _ _ => rfl, fun hf => by rw [hk] at hf; cases hf⟩

theorem shown_raiseNews (d : Dev) (i : Fin 85) (hk : d.linked = true) : ShownOnly [i] d (raiseNews d i) := by
  have h1 : ShownOnly [i] d { d with smc := { d.smc with news := d.smc.news.set i true } } := by
    have := shown_setNews d i id id (fun _ => true) hk
    simpa [Tab.set_get_self] using this
  have h2 := h1.trans (shown_writeNewsWord _ i hk)
  unfold raiseNews
  dsimp only
  split
  · exact h2.trans (shown_sendMessage _ _ (by rw [h2.linked_eq]; exact hk))
  · exact h2

/-- Setting a latch bit shows in its cell alone. -/
theorem shown_setLatch (d : Dev) (i : Fin 85) (b : Fin 32) : ShownOnly [i] d (setLatch d i b) := by
  unfold setLatch
  split
  · rename_i hk
    dsimp only
    have h1 : ShownOnly [i] d { d with smc := { d.smc with
        latches := d.smc.latches.set i (d.smc.latches.get i ||| latchBit b),
        masks := d.smc.masks.modify i (fun m => m &&& ~~~(latchBit b)) } } := by
      have := shown_setNews d i (· ||| latchBit b) (fun m => m &&& ~~~(latchBit b)) id hk
      simpa [Tab.set_get_self, Tab.modify] using this
    have h2 := h1.trans (shown_writeLatchWord _ i hk)
    split
    · exact h2.trans (shown_raiseNews _ i (by rw [h2.linked_eq]; exact hk))
    · exact h2
  · exact ShownOnly.refl _ _

@[simp] theorem writeNewsWord_latches (d : Dev) (i : Fin 85) : (writeNewsWord d i).smc.latches = d.smc.latches := by
  unfold writeNewsWord; split <;> rfl
@[simp] theorem writeNewsWord_news (d : Dev) (i : Fin 85) : (writeNewsWord d i).smc.news = d.smc.news := by
  unfold writeNewsWord; split <;> rfl
@[simp] theorem writeLatchWord_latches (d : Dev) (i : Fin 85) : (writeLatchWord d i).smc.latches = d.smc.latches := by
  unfold writeLatchWord; split <;> rfl
@[simp] theorem writeLatchWord_news (d : Dev) (i : Fin 85) : (writeLatchWord d i).smc.news = d.smc.news := by
  unfold writeLatchWord; split <;> rfl
@[simp] theorem sendMessage_smc (d : Dev) : (sendMessage d).smc = d.smc := rfl
@[simp] theorem raiseNews_latches (d : Dev) (i : Fin 85) : (raiseNews d i).smc.latches = d.smc.latches := by
  unfold raiseNews; dsimp only; split <;> simp
@[simp] theorem raiseNews_news (d : Dev) (i : Fin 85) : (raiseNews d i).smc.news = d.smc.news.set i true := by
  unfold raiseNews; dsimp only; split <;> simp

/-- The latch words after a latch bit is set. -/
theorem setLatch_latches (d : Dev) (i : Fin 85) (b : Fin 32) : (setLatch d i b).smc.latches = latchesAfter d i b := by
  unfold setLatch latchesAfter
  split
  · dsimp only; split <;> simp
  · rfl

/-! ### Live fields -/

theorem le_getD_length (f : List Byte) (k n : Nat) : ((f.drop k).take n).length ≤ n := by simp

theorem shown_fields {d : Dev} {l : Layout} (i : Fin 85) (f : List Byte) (ranges : List (Nat × Nat))
    (hl : d.smc.layout = some l) (hk : d.linked = true) (hr : ∀ r ∈ ranges, r.1 + r.2 ≤ 64) :
    ShownOnly [i] d
      (ranges.foldl (fun d r => d.poke (statusAddr l i + r.1) ((f.drop (r.1 - 4)).take r.2)) d) := by
  induction ranges generalizing d with
  | nil => exact ShownOnly.refl _ _
  | cons r rs ih =>
    have h1 : ShownOnly [i] d (d.poke (statusAddr l i + r.1) ((f.drop (r.1 - 4)).take r.2)) := by
      refine shown_poke i _ _ hl hk (fun x h1 h2 => Or.inl ?_)
      have := le_getD_length f (r.1 - 4) r.2
      have := hr r (by simp)
      exact ⟨by omega, by omega⟩
    exact h1.trans (ih (d := d.poke _ _) hl hk (fun r hr' => hr r (by simp [hr'])))

/-- A publication of live fields shows in its cell alone. -/
theorem shown_publish (d : Dev) (i : Fin 85) (ranges : List (Nat × Nat)) (hr : ∀ r ∈ ranges, r.1 + r.2 ≤ 64) :
    ShownOnly [i] d (publish d i ranges) := by
  unfold publish
  split
  · rename_i hk
    split
    · rename_i l hl
      exact shown_fields i _ ranges hl hk hr
    · exact ShownOnly.refl _ _
  · exact ShownOnly.refl _ _

theorem foldl_poke_smc (l : Layout) (i : Fin 85) (f : List Byte) (ranges : List (Nat × Nat)) (d : Dev) :
    (ranges.foldl (fun d r => d.poke (statusAddr l i + r.1) ((f.drop (r.1 - 4)).take r.2)) d).smc.latches = d.smc.latches ∧
    (ranges.foldl (fun d r => d.poke (statusAddr l i + r.1) ((f.drop (r.1 - 4)).take r.2)) d).smc.news = d.smc.news := by
  induction ranges generalizing d with
  | nil => exact ⟨rfl, rfl⟩
  | cons r rs ih => exact ih (d.poke _ _)

@[simp] theorem publish_latches (d : Dev) (i : Fin 85) (rs : List (Nat × Nat)) :
    (publish d i rs).smc.latches = d.smc.latches := by
  unfold publish
  split
  · split
    · exact (foldl_poke_smc _ i _ rs d).1
    · rfl
  · rfl

@[simp] theorem publish_news (d : Dev) (i : Fin 85) (rs : List (Nat × Nat)) :
    (publish d i rs).smc.news = d.smc.news := by
  unfold publish
  split
  · split
    · exact (foldl_poke_smc _ i _ rs d).2
    · rfl
  · rfl

end Sys2Proof.Machine
end

