-- ==== Sys2Proof/Laws/Internal.lean ====
section
/-! SUPPORT. Laws/Internal.lean: `Internal bs d e` says all that the work of the blocks `bs` can do to the device: no other
block differs, the part state, the layout, the notices and the flash contents stand, no host byte of shared memory
differs, and every invariant of Safety.lean is kept. One lemma per operation follows in Laws/Work.lean. -/

namespace Sys2Proof.Machine

-- In order, so that the package as one text compiles with few threads.
set_option Elab.async false

open Sys2Proof

/-- What no block's own work changes in the SMC. -/
def Smc.fixed (s : Smc) : PartState × Cause × Scope × Option Layout × List WatchCell × Bool × BootResult :=
  (s.state, s.cause, s.scope, s.layout, s.notices, s.bootMark, s.bootResult)

/-- What work of the blocks `bs` does; with `n` and `b` it keeps the news rule and
the BIM rule, with `w` the host bytes, with `q` the working tables. -/
structure Work (n b w q : Bool) (bs : List Block) (d e : Dev) : Prop where
  only : Only bs d e
  fixed : e.smc.fixed = d.smc.fixed
  chip : e.fb.chip = d.fb.chip ∧ e.fb.boot = d.fb.boot
  job : w = true → ∀ j, e.smc.job = some j → ∃ k, d.smc.job = some k ∧ k.addr = j.addr
  mem : d.smc.mem.wf → e.smc.mem.wf
  host : w = true → KeepsHostBytes d e
  news : n = true → NewsInv d → NewsInv e
  counters : CounterInv d → CounterInv e
  fifo : FifoInv d → FifoInv e
  bims : b = true → BimInv d → BimInv e
  channel : ChannelInv d → ChannelInv e
  steps : StepInv d → StepInv e
  tables : q = true → e.tables = d.tables
  latched : n = true → ∀ i k, ((d.smc.latches.get i).getLsbD k) = true → ((e.smc.latches.get i).getLsbD k) = true

/-- Work that keeps every invariant. -/
abbrev Internal : List Block → Dev → Dev → Prop := Work true true true true

theorem Dev.agree_refl (d : Dev) (b : Block) : d.agree d b := by cases b <;> simp [Dev.agree]

theorem Dev.agree_trans {d e f : Dev} {b : Block} (h : d.agree e b) (k : e.agree f b) : d.agree f b := by
  cases b <;> simp only [Dev.agree] at * <;> first | exact h.trans k | exact ⟨h.1.trans k.1, h.2.1.trans k.2.1, h.2.2.trans k.2.2⟩

theorem Only.refl (bs : List Block) (d : Dev) : Only bs d d := fun b _ => Dev.agree_refl d b

theorem Only.trans {bs : List Block} {d e f : Dev} (h : Only bs d e) (k : Only bs e f) : Only bs d f :=
  fun b hb => Dev.agree_trans (h b hb) (k b hb)

theorem Only.mono {bs cs : List Block} {d e : Dev} (h : Only bs d e) (hs : ∀ b ∈ bs, b ∈ cs) : Only cs d e :=
  fun b hb => h b (fun hc => hb (hs b hc))

theorem Work.layout_eq {n b w q : Bool} {bs : List Block} {d e : Dev} (h : Work n b w q bs d e) : e.smc.layout = d.smc.layout := by
  have := h.fixed
  simp only [Smc.fixed, Prod.mk.injEq] at this
  exact this.2.2.2.1

theorem Work.state_eq {n b w q : Bool} {bs : List Block} {d e : Dev} (h : Work n b w q bs d e) : e.smc.state = d.smc.state := by
  have := h.fixed
  simp only [Smc.fixed, Prod.mk.injEq] at this
  exact this.1

theorem Work.notices_eq {n b w q : Bool} {bs : List Block} {d e : Dev} (h : Work n b w q bs d e) : e.smc.notices = d.smc.notices := by
  have := h.fixed
  simp only [Smc.fixed, Prod.mk.injEq] at this
  exact this.2.2.2.2.1

theorem Work.area_of {n b q : Bool} {bs : List Block} {d e : Dev} (h : Work n b true q bs d e) {a : Nat} (ha : partArea e a) : partArea d a := by
  rcases ha with ⟨l, hl, hr⟩ | ⟨j, hj, hr⟩
  · exact Or.inl ⟨l, h.layout_eq ▸ hl, hr⟩
  · obtain ⟨k, hk, e⟩ := h.job rfl j hj
    exact Or.inr ⟨k, hk, e ▸ hr⟩

theorem Work.refl {n b w q : Bool} (bs : List Block) (d : Dev) : Work n b w q bs d d :=
  ⟨Only.refl _ _, rfl, ⟨rfl, rfl⟩, fun _ j h => ⟨j, h, rfl⟩, id, fun _ _ _ => rfl, fun _ => id, id, id, fun _ => id, id, id, fun _ => rfl, fun _ _ _ h => h⟩

theorem Work.trans {n b w q : Bool} {bs : List Block} {d e f : Dev} (h : Work n b w q bs d e) (k : Work n b w q bs e f) : Work n b w q bs d f where
  only := h.only.trans k.only
  fixed := k.fixed.trans h.fixed
  chip := ⟨k.chip.1.trans h.chip.1, k.chip.2.trans h.chip.2⟩
  job hw j hj := by
    obtain ⟨i, hi, ei⟩ := k.job hw j hj
    obtain ⟨m, hm, em⟩ := h.job hw i hi
    exact ⟨m, hm, em.trans ei⟩
  mem := k.mem ∘ h.mem
  host hw a ha := by
    subst hw
    exact (k.host rfl a (fun hc => ha (h.area_of hc))).trans (h.host rfl a ha)
  news hn := k.news hn ∘ h.news hn
  counters := k.counters ∘ h.counters
  fifo := k.fifo ∘ h.fifo
  bims hb := k.bims hb ∘ h.bims hb
  channel := k.channel ∘ h.channel
  steps := k.steps ∘ h.steps
  tables hq := (k.tables hq).trans (h.tables hq)
  latched hn i b hb := k.latched hn i b (h.latched hn i b hb)

theorem Work.mono {n b w q : Bool} {bs cs : List Block} {d e : Dev} (h : Work n b w q bs d e) (hs : ∀ c ∈ bs, c ∈ cs) : Work n b w q cs d e :=
  { h with only := h.only.mono hs }

/-- Two pieces of work, one after the other. -/
theorem Work.seq {n b w q : Bool} {bs cs ds : List Block} {d e f : Dev} (h : Work n b w q bs d e) (k : Work n b w q cs e f)
    (hs : ∀ c ∈ bs, c ∈ ds) (ks : ∀ c ∈ cs, c ∈ ds) : Work n b w q ds d f := (h.mono hs).trans (k.mono ks)

/-- The last piece of work, and what came before it. -/
theorem Work.after {n b w q : Bool} {cs ds : List Block} {d e f : Dev} (k : Work n b w q cs e f) (h : Work n b w q ds d e)
    (ks : ∀ c ∈ cs, c ∈ ds := by simp) : Work n b w q ds d f := h.trans (k.mono ks)

theorem Work.foldl {n b w q : Bool} {bs : List Block} {α : Type} {f : Dev → α → Dev} (h : ∀ d a, Work n b w q bs d (f d a)) :
    ∀ (l : List α) (d : Dev), Work n b w q bs d (l.foldl f d)
  | [], d => Work.refl bs d
  | a :: l, d => (h d a).trans (Work.foldl h l (f d a))

theorem Work.overAll {n b w q : Bool} {bs : List Block} {k : Nat} {f : Dev → Fin k → Dev} (h : ∀ d a, Work n b w q bs d (f d a)) (d : Dev) :
    Work n b w q bs d (overAll d f) := Work.foldl h _ d

theorem Work.ite {n b w q : Bool} {bs : List Block} {p : Prop} [Decidable p] {d e f : Dev} (h : p → Work n b w q bs d e)
    (k : ¬ p → Work n b w q bs d f) : Work n b w q bs d (if p then e else f) := by
  by_cases hp : p
  · rw [if_pos hp]; exact h hp
  · rw [if_neg hp]; exact k hp

/-! ### Changes inside one block -/

/-- Services and BIM pairs as they were. -/
theorem BimInv.congr {d e : Dev} (hs : ∀ n, (e.source n).inService = (d.source n).inService ∧ (e.source n).progs = (d.source n).progs)
    (hb : ∀ m, (e.bim m).pair = (d.bim m).pair) (h : BimInv d) : BimInv e := by
  refine ⟨fun m n p hp => ?_, fun m k q hm hk => ?_⟩
  · rw [hb] at hp
    rw [(hs n).1, (hs n).2]
    exact h.1 m n p hp
  · rw [hb] at hm hk
    exact h.2 m k q hm hk

variable (d : Dev)

theorem Internal.ofHp (x : Hp) : Internal [.hp] d { d with hp := x } :=
  ⟨fun b hb => by cases b <;> simp_all [Dev.agree], rfl, ⟨rfl, rfl⟩, fun _ j h => ⟨j, h, rfl⟩, id, fun _ _ _ => rfl, fun _ => id, id, id, fun _ => id, id, id, fun _ => rfl, fun _ _ _ h => h⟩

theorem Internal.ofLm (x : Lm) (h : x.chan = d.lm.chan) : Internal [.lm] d { d with lm := x } :=
  ⟨fun b hb => by cases b <;> simp_all [Dev.agree], rfl, ⟨rfl, rfl⟩, fun _ j h => ⟨j, h, rfl⟩, id, fun _ _ _ => rfl, fun _ => id, id, id, fun _ => id,
    fun hc => ⟨by simp only; rw [h]; exact hc.1, hc.2⟩, id, fun _ => rfl, fun _ _ _ h => h⟩

theorem Internal.ofLp (x : Lp) (hc : CounterInv d → CounterInv { d with lp := x })
    (hf : FifoInv d → FifoInv { d with lp := x }) : Internal [.lp] d { d with lp := x } :=
  ⟨fun b hb => by cases b <;> simp_all [Dev.agree], rfl, ⟨rfl, rfl⟩, fun _ j h => ⟨j, h, rfl⟩, id, fun _ _ _ => rfl, fun _ => id, hc, hf, fun _ => id, id, id, fun _ => rfl, fun _ _ _ h => h⟩

theorem Internal.ofRs (x : Rs) (hc : CounterInv d → CounterInv { d with rs := x }) : Internal [.rs] d { d with rs := x } :=
  ⟨fun b hb => by cases b <;> simp_all [Dev.agree], rfl, ⟨rfl, rfl⟩, fun _ j h => ⟨j, h, rfl⟩, id, fun _ _ _ => rfl, fun _ => id, hc, id, fun _ => id, id, id, fun _ => rfl, fun _ _ _ h => h⟩

theorem Internal.ofRp (x : Rp) (ht : x.remoteTab = d.rp.remoteTab) : Internal [.rp] d { d with rp := x } :=
  ⟨fun b hb => by cases b <;> simp_all [Dev.agree], rfl, ⟨rfl, rfl⟩, fun _ j h => ⟨j, h, rfl⟩, id, fun _ _ _ => rfl, fun _ => id, id, id, fun _ => id, id, id,
    fun _ => by simp only [Dev.tables, ht], fun _ _ _ h => h⟩

theorem Internal.ofLbu (x : Tab 32 Budget) (h : StepInv d → StepInv { d with lbu := x }) :
    Internal [.lbu] d { d with lbu := x } :=
  ⟨fun b hb => by cases b <;> simp_all [Dev.agree], rfl, ⟨rfl, rfl⟩, fun _ j h => ⟨j, h, rfl⟩, id, fun _ _ _ => rfl, fun _ => id, id, id, fun _ => id, id, h, fun _ => rfl, fun _ _ _ h => h⟩

theorem Internal.ofPm (x : Pm) (h : ∀ m, (x.bims.get m).pair = (d.bim m).pair) (ht : x.table = d.pm.table) : Internal [.pm] d { d with pm := x } :=
  ⟨fun b hb => by cases b <;> simp_all [Dev.agree], rfl, ⟨rfl, rfl⟩, fun _ j h => ⟨j, h, rfl⟩, id, fun _ _ _ => rfl, fun _ => id, id, id,
    fun _ => BimInv.congr (fun _ => ⟨rfl, rfl⟩) h, id, id,
    fun _ => by simp only [Dev.tables, ht], fun _ _ _ h => h⟩

theorem Internal.ofBic (x : Bic)
    (h : ∀ n, (x.sources.get n).inService = (d.source n).inService ∧ (x.sources.get n).progs = (d.source n).progs)
    (ht : x.master = d.bic.master ∧ x.table = d.bic.table ∧ x.alarmMasked = d.bic.alarmMasked) :
    Internal [.bic] d { d with bic := x } :=
  ⟨fun b hb => by cases b <;> simp_all [Dev.agree], rfl, ⟨rfl, rfl⟩, fun _ j h => ⟨j, h, rfl⟩, id, fun _ _ _ => rfl, fun _ => id, id, id,
    fun _ => BimInv.congr h (fun _ => rfl), id, id,
    fun _ => by simp only [Dev.tables, ht], fun _ _ _ h => h⟩

theorem Internal.ofSru (x : Sru) (ht : x.guardTicks = d.sru.guardTicks ∧ x.table = d.sru.table) : Internal [.sru] d { d with sru := x } :=
  ⟨fun b hb => by cases b <;> simp_all [Dev.agree], rfl, ⟨rfl, rfl⟩, fun _ j h => ⟨j, h, rfl⟩, id, fun _ _ _ => rfl, fun _ => id, id, id, fun _ => id, id, id,
    fun _ => by simp only [Dev.tables, ht], fun _ _ _ h => h⟩

theorem Internal.ofUv (x : Tab 8 Voter) : Internal [.uv] d { d with uv := x } :=
  ⟨fun b hb => by cases b <;> simp_all [Dev.agree], rfl, ⟨rfl, rfl⟩, fun _ j h => ⟨j, h, rfl⟩, id, fun _ _ _ => rfl, fun _ => id, id, id, fun _ => id, id, id, fun _ => rfl, fun _ _ _ h => h⟩

theorem Internal.ofFb (x : Fb) (h : x.chip = d.fb.chip ∧ x.boot = d.fb.boot) : Internal [.fb] d { d with fb := x } :=
  ⟨fun b hb => by cases b <;> simp_all [Dev.agree], rfl, h, fun _ j h => ⟨j, h, rfl⟩, id, fun _ _ _ => rfl, fun _ => id, id, id, fun _ => id,
    fun hc => ⟨hc.1, fun b c hb => hc.2 b c (h.2 ▸ hb)⟩, id, fun _ => rfl, fun _ _ _ h => h⟩

/-- A change of the SMC that leaves its fixed fields, the memory and the news alone. -/
theorem Internal.ofSmc (x : Smc) (hf : x.fixed = d.smc.fixed) (hm : x.mem = d.smc.mem) (hn : x.news = d.smc.news)
    (hl : x.latches = d.smc.latches) (hj : ∀ j, x.job = some j → ∃ k, d.smc.job = some k ∧ k.addr = j.addr) :
    Internal [.smc] d { d with smc := x } :=
  ⟨fun b hb => by cases b <;> simp_all [Dev.agree], hf, ⟨rfl, rfl⟩, fun _ => hj, fun h => by simp only; rw [hm]; exact h,
    fun _ _ _ => by simp only; rw [hm], fun _ h i => by simp only; rw [hn, hl]; exact h i, id, id, fun _ => id, id, id,
    fun _ => rfl, fun _ _ _ h => by simp only; rw [hl]; exact h⟩

/-! ### Bytes and latches -/

/-- A poke whose bytes are the part's own. -/
theorem Internal.poke (a : Nat) (bs : List Byte) (h : ∀ x, a ≤ x → x < a + bs.length → partArea d x) :
    Internal [.smc] d (d.poke a bs) :=
  ⟨fun b hb => by cases b <;> simp_all [Dev.agree], rfl, ⟨rfl, rfl⟩, fun _ j h => ⟨j, h, rfl⟩, Memory.write_wf _ _,
    fun _ x hx => Memory.read_write_out _ _ _ _ (by
      by_contra hc; push Not at hc; exact hx (h x hc.1 hc.2)), fun _ => id, id, id, fun _ => id, id, id, fun _ => rfl, fun _ _ _ h => h⟩

/-- A poke anywhere. -/
theorem Work.poke (a : Nat) (bs : List Byte) : Work true true false true [.smc] d (d.poke a bs) :=
  ⟨fun b hb => by cases b <;> simp_all [Dev.agree], rfl, ⟨rfl, rfl⟩, fun h => absurd h (by decide), Memory.write_wf _ _,
    fun h => absurd h (by decide), fun _ => id, id, id, fun _ => id, id, id, fun _ => rfl, fun _ _ _ h => h⟩

theorem cellBytes_area {d : Dev} {l : Layout} (i : Fin 85) (hl : d.smc.layout = some l) {a : Nat} (h : cellBytes l i a) :
    partArea d a := by
  refine Or.inl ⟨l, hl, ?_⟩
  have := i.isLt
  rcases h with h | h
  · left; unfold statusAddr at h; omega
  · right; omega

theorem Internal.pokeCell {d : Dev} {l : Layout} (i : Fin 85) (a : Nat) (bs : List Byte) (hl : d.smc.layout = some l)
    (h : ∀ x, a ≤ x → x < a + bs.length → cellBytes l i x) : Internal [.smc] d (d.poke a bs) :=
  Internal.poke d a bs (fun x h1 h2 => cellBytes_area i hl (h x h1 h2))

theorem internal_publish (i : Fin 85) (ranges : List (Nat × Nat)) (hr : ∀ r ∈ ranges, r.1 + r.2 ≤ 64) :
    Internal [.smc] d (publish d i ranges) := by
  unfold publish
  split
  · split
    · rename_i l hl
      have : ∀ (f : List Byte) (rs : List (Nat × Nat)) (e : Dev), e.smc.layout = some l → (∀ r ∈ rs, r.1 + r.2 ≤ 64) →
          Internal [.smc] e (rs.foldl (fun d r => d.poke (statusAddr l i + r.1) ((f.drop (r.1 - 4)).take r.2)) e) := by
        intro f rs
        induction rs with
        | nil => intro e _ _; exact Work.refl _ _
        | cons r rs ih =>
          intro e he hr
          have h1 : Internal [.smc] e (e.poke (statusAddr l i + r.1) ((f.drop (r.1 - 4)).take r.2)) := by
            refine Internal.pokeCell i _ _ he (fun x h1 h2 => Or.inl ?_)
            have := le_getD_length f (r.1 - 4) r.2
            have := hr r (by simp)
            exact ⟨by omega, by omega⟩
          exact h1.trans (ih _ he (fun r hr' => hr r (by simp [hr'])))
      exact this _ ranges d hl hr
    · exact Work.refl _ _
  · exact Work.refl _ _

theorem internal_writeNewsWord (i : Fin 85) : Internal [.smc] d (writeNewsWord d i) := by
  unfold writeNewsWord
  split
  · rename_i l hl
    refine Internal.pokeCell i _ _ hl (fun x h1 h2 => Or.inr ?_)
    rw [le_length] at h2
    exact ⟨h1, h2⟩
  · exact Work.refl _ _

theorem internal_writeLatchWord (i : Fin 85) : Internal [.smc] d (writeLatchWord d i) := by
  unfold writeLatchWord
  split
  · rename_i l hl
    refine Internal.pokeCell i _ _ hl (fun x h1 h2 => Or.inl ?_)
    rw [le_length] at h2
    exact ⟨h1, by omega⟩
  · exact Work.refl _ _

theorem Work.weaken {n b w q : Bool} {bs : List Block} {d e : Dev} (h : Internal bs d e) : Work n b w q bs d e :=
  { h with news := fun _ => h.news rfl, bims := fun _ => h.bims rfl, job := fun _ => h.job rfl, host := fun _ => h.host rfl,
           tables := fun _ => h.tables rfl, latched := fun _ => h.latched rfl }

theorem Work.withNews {bs : List Block} {d e : Dev} (h : Work false true true true bs d e) (k : NewsInv d → NewsInv e)
    (l : ∀ i b, ((d.smc.latches.get i).getLsbD b) = true → ((e.smc.latches.get i).getLsbD b) = true) :
    Internal bs d e := { h with news := fun _ => k, latched := fun _ => l }

theorem Work.withBims {q : Bool} {bs : List Block} {d e : Dev} (h : Work true false true q bs d e) (k : BimInv d → BimInv e) :
    Work true true true q bs d e := { h with bims := fun _ => k }

/-- An update of latch words, clear masks and news bits. -/
theorem Work.ofNews (la ma : Tab 85 (BitVec 32)) (ne : Tab 85 Bool) :
    Work false true true true [.smc, .hp] d { d with smc := { d.smc with latches := la, masks := ma, news := ne } } :=
  ⟨fun b hb => by cases b <;> simp_all [Dev.agree], rfl, ⟨rfl, rfl⟩, fun _ j h => ⟨j, h, rfl⟩, id, fun _ _ _ => rfl, fun h => absurd h (by decide), id, id, fun _ => id, id, id, fun _ => rfl, fun h => absurd h (by decide)⟩

theorem internal_sendMessage : Internal [.smc, .hp] d (sendMessage d) :=
  Work.mono (Internal.ofHp d _) (by decide)

theorem work_raiseNews (i : Fin 85) : Work false true true true [.smc, .hp] d (raiseNews d i) := by
  have h : Work false true true true [.smc, .hp] d (writeNewsWord { d with smc := { d.smc with news := d.smc.news.set i true } } i) :=
    (Work.ofNews d d.smc.latches d.smc.masks _).trans ((internal_writeNewsWord _ i).mono (by decide)).weaken
  unfold raiseNews
  dsimp only
  split
  · exact h.trans (internal_sendMessage _).weaken
  · exact h

@[simp] theorem setLatch_off {d : Dev} (i : Fin 85) (b : Fin 32) (h : d.linked = false) : setLatch d i b = d := by
  unfold setLatch; simp [h]

/-- The news after a latch bit is set (R182). -/
theorem setLatch_news (i : Fin 85) (b : Fin 32) :
    (setLatch d i b).smc.news =
      if d.linked ∧ d.smc.latches.get i = 0 then d.smc.news.set i true else d.smc.news := by
  unfold setLatch
  by_cases hk : d.linked = true
  · rw [if_pos hk]
    dsimp only
    by_cases h0 : d.smc.latches.get i = 0
    · rw [if_pos h0, if_pos ⟨hk, h0⟩]; simp
    · rw [if_neg h0, if_neg (fun h => h0 h.2)]; simp
  · rw [if_neg hk, if_neg (fun h => hk h.1)]

theorem latch_ne_zero (x : BitVec 32) (b : Fin 32) : x ||| latchBit b ≠ 0 := by
  intro h
  have h1 := congrArg (fun y : BitVec 32 => y.getLsbD b.val) h
  have hb := b.isLt
  simp [hb, latchBit] at h1

theorem setLatch_newsInv (i : Fin 85) (b : Fin 32) (h : NewsInv d) : NewsInv (setLatch d i b) := by
  intro j
  rw [setLatch_news, setLatch_latches, latchesAfter]
  by_cases hk : d.linked = true
  · rw [if_pos hk]
    by_cases hj : i = j
    · subst hj
      rw [Tab.get_set_eq]
      by_cases h0 : d.smc.latches.get i = 0
      · rw [if_pos ⟨hk, h0⟩, Tab.get_set_eq]
        exact ⟨fun _ => latch_ne_zero _ _, fun _ => rfl⟩
      · rw [if_neg (fun h => h0 h.2)]
        exact ⟨fun _ => latch_ne_zero _ _, fun _ => (h i).mpr h0⟩
    · rw [Tab.get_set_ne _ _ hj]
      split
      · rw [Tab.get_set_ne _ _ hj]; exact h j
      · exact h j
  · rw [if_neg hk, if_neg (fun h => hk h.1)]; exact h j

/-- A latch bit that is set stays set (R181). -/
theorem setLatch_keeps (i : Fin 85) (b : Fin 32) (j : Fin 85) (k : Nat) (h : (d.smc.latches.get j).getLsbD k = true) :
    ((setLatch d i b).smc.latches.get j).getLsbD k = true := by
  rw [setLatch_latches, latchesAfter]
  split
  · rw [Tab.get_set]
    split
    · rename_i e; subst e; simp [h]
    · exact h
  · exact h

theorem internal_setLatch (i : Fin 85) (b : Fin 32) : Internal [.smc, .hp] d (setLatch d i b) := by
  refine Work.withNews ?_ (setLatch_newsInv d i b) (setLatch_keeps d i b)
  unfold setLatch
  split
  · dsimp only
    have h := (Work.ofNews d (d.smc.latches.set i (d.smc.latches.get i ||| latchBit b))
      (d.smc.masks.modify i (fun m => m &&& ~~~(latchBit b))) d.smc.news).trans
        ((internal_writeLatchWord _ i).mono (by decide)).weaken
    split
    · exact h.trans (work_raiseNews _ i)
    · exact h
  · exact (Work.refl _ _).weaken

/-- The take of a status cell's notice keeps R182. -/
theorem work_applyMask (i : Fin 85) : Work false true true true [.smc, .hp] d (applyMask d i) := by
    unfold applyMask
    dsimp only
    have h := (Work.ofNews d (d.smc.latches.set i (d.smc.latches.get i &&& ~~~(d.smc.masks.get i)))
      (d.smc.masks.set i 0) d.smc.news).trans ((internal_writeLatchWord _ i).mono (by decide)).weaken
    split
    · refine (h.trans (Work.ofNews _ _ _ _)).trans ((internal_writeNewsWord _ i).mono (by decide)).weaken
    · exact h

theorem newsInv_applyMask (i : Fin 85) (h : NewsInv d) : NewsInv (applyMask d i) := by
    intro j
    unfold applyMask
    dsimp only
    by_cases hj : i = j
    · subst hj
      split
      · rename_i hc
        simp [hc.1]
      · rename_i hc
        simp only [writeLatchWord_latches, writeLatchWord_news, Tab.get_set_eq] at hc ⊢
        have := h i
        constructor
        · intro hn h0; exact hc ⟨h0, hn⟩
        · intro hn
          refine this.mpr (fun h0 => hn ?_)
          rw [h0]; simp
    · split <;> simp [Tab.get_set_ne _ _ hj, h j]

end Sys2Proof.Machine
end

