-- ==== Sys2Proof/Laws/WorkLow.lean ====
section
/-! SUPPORT. Laws/WorkLow.lean: what each operation of Flags, Queue, Reserve and FlashPort can do. -/

namespace Sys2Proof.Machine

-- In order, so that the package as one text compiles with few threads.
set_option Elab.async false

open Sys2Proof

variable (d : Dev)

/-! ### One entry of a table -/

theorem Internal.setSlot (s : Fin 40) (f : Slot → Slot) : Internal [.lm] d (d.setSlot s f) := Internal.ofLm d _ rfl

theorem Internal.setPort (x : Fin 4) (f : Port → Port)
    (hc : ∀ p, p.codeViol ≤ 65535 ∧ p.alignLoss ≤ 65535 ∧ p.slips ≤ 65535 →
      (f p).codeViol ≤ 65535 ∧ (f p).alignLoss ≤ 65535 ∧ (f p).slips ≤ 65535 := by exact fun _ h => h)
    (hf : ∀ p, p.fifo.length ≤ 64 → (f p).fifo.length ≤ 64 := by exact fun _ h => h) : Internal [.lp] d (d.setPort x f) := by
  refine Internal.ofLp d _ (fun h => ⟨fun y => ?_, h.2⟩) (fun h y => ?_)
  · have e : (d.setPort x f).port y = if x = y then f (d.port x) else d.port y := port_setPort d x y f
    show ((d.setPort x f).port y).codeViol ≤ 65535 ∧ _
    rw [show ({ d with lp := { d.lp with ports := d.lp.ports.modify x f } } : Dev).port y = _ from e, e]
    split
    · exact hc _ (h.1 x)
    · exact h.1 y
  · have e : (d.setPort x f).port y = if x = y then f (d.port x) else d.port y := port_setPort d x y f
    rw [show ({ d with lp := { d.lp with ports := d.lp.ports.modify x f } } : Dev).port y = _ from e]
    split
    · exact hf _ (h x)
    · exact h y

theorem Internal.setRemote (r : Fin 32) (f : Remote → Remote)
    (hc : ∀ m, m.checkFails ≤ 65535 ∧ m.misses ≤ 65535 ∧ m.patErrs ≤ 65535 →
      (f m).checkFails ≤ 65535 ∧ (f m).misses ≤ 65535 ∧ (f m).patErrs ≤ 65535 := by exact fun _ h => h) :
    Internal [.rs] d (d.setRemote r f) := by
  refine Internal.ofRs d _ (fun h => ⟨h.1, fun q => ?_⟩)
  have e : (d.setRemote r f).remote q = if r = q then f (d.remote r) else d.remote q := remote_setRemote d r q f
  rw [show ({ d with rs := { d.rs with remotes := d.rs.remotes.modify r f } } : Dev).remote q = _ from e]
  split
  · exact hc _ (h.2 r)
  · exact h.2 q

theorem Internal.setPool (x : Fin 4) (f : Pool → Pool) : Internal [.rp] d (d.setPool x f) := Internal.ofRp d _ rfl
theorem Internal.setRp (f : Rp → Rp) (h : ∀ p, (f p).remoteTab = p.remoteTab := by exact fun _ => rfl) :
    Internal [.rp] d (d.setRp f) := Internal.ofRp d _ (h _)
theorem Internal.setHold (r : Fin 32) (f : HoldRec → HoldRec) : Internal [.sru] d (d.setHold r f) := Internal.ofSru d _ ⟨rfl, rfl⟩
theorem Internal.setVoter (e : Fin 8) (f : Voter → Voter) : Internal [.uv] d (d.setVoter e f) := Internal.ofUv d _

theorem Internal.setFb (f : Fb → Fb) (h : ∀ b, (f b).chip = b.chip ∧ (f b).boot = b.boot := by exact fun _ => ⟨rfl, rfl⟩) :
    Internal [.fb] d (d.setFb f) := Internal.ofFb d _ (h _)

theorem Internal.setBudget (r : Fin 32) (f : Budget → Budget)
    (h : ∀ b, b.progStep ≤ 47 ∧ b.carStep ≤ 47 →
      (f b).progStep ≤ 47 ∧ (f b).carStep ≤ 47) : Internal [.lbu] d (d.setBudget r f) := by
  refine Internal.ofLbu d _ (fun hs q => ?_)
  have e : (d.setBudget r f).budget q = if r = q then f (d.budget r) else d.budget q := budget_setBudget d r q f
  rw [show ({ d with lbu := d.lbu.modify r f } : Dev).budget q = _ from e]
  split
  · exact h _ (hs r)
  · exact hs q

theorem Internal.setMod (p : Fin 8) (f : Modulator → Modulator) : Internal [.pm] d (d.setMod p f) :=
  Internal.ofPm d _ (fun _ => rfl) rfl

theorem Internal.setBim (m : Fin 12) (f : Bim → Bim) (h : ∀ b, (f b).pair = b.pair := by exact fun _ => rfl) :
    Internal [.pm] d (d.setBim m f) := by
  refine Internal.ofPm d _ (fun k => ?_) rfl
  have e : (d.setBim m f).bim k = if m = k then f (d.bim m) else d.bim k := bim_setBim d m k f
  rw [show (d.pm.bims.modify m f).get k = _ from e]
  split
  · rename_i hk; rw [h, hk]
  · rfl

theorem Internal.setSource (n : Fin 8) (f : Source → Source)
    (h : ∀ c, (f c).inService = c.inService ∧ (f c).progs = c.progs := by exact fun _ => ⟨rfl, rfl⟩) :
    Internal [.bic] d (d.setSource n f) := by
  refine Internal.ofBic d _ (fun k => ?_) ⟨rfl, rfl, rfl⟩
  have e : (d.setSource n f).source k = if n = k then f (d.source n) else d.source k := source_setSource d n k f
  rw [show (d.bic.sources.modify n f).get k = _ from e]
  split
  · rename_i hk; rw [← hk]; exact h _
  · exact ⟨rfl, rfl⟩

theorem Internal.setDelivery (r : Fin 32) (p : Fin 8) (f : Delivery → Delivery) : Internal [.bic] d (d.setDelivery r p f) :=
  Internal.ofBic d _ (fun _ => ⟨rfl, rfl⟩) ⟨rfl, rfl, rfl⟩

/-! ### Counters (R43) -/

theorem internal_noteSaturation (x : Fin 4) (o n : Nat) : Internal [.smc, .hp] d (noteSaturation d x o n) := by
  unfold noteSaturation; split
  · exact internal_setLatch _ _ _
  · exact Work.refl _ _

theorem sat_le (n : Nat) : sat65535 n ≤ 65535 := Nat.min_le_left _ _

theorem internal_countCodeViolation (x : Fin 4) : Internal [.lp, .smc, .hp] d (countCodeViolation d x) :=
  Work.after (internal_noteSaturation _ _ _ _) (Work.after (Internal.setPort d x _ (by exact fun _ h => ⟨sat_le _, h.2⟩)) (Work.refl _ _))

theorem internal_countAlignLoss (x : Fin 4) : Internal [.lp, .smc, .hp] d (countAlignLoss d x) :=
  Work.after (internal_noteSaturation _ _ _ _) (Work.after (Internal.setPort d x _ (by exact fun _ h => ⟨h.1, sat_le _, h.2.2⟩)) (Work.refl _ _))

theorem internal_countSlip (x : Fin 4) : Internal [.lp, .smc, .hp] d (countSlip d x) :=
  Work.after (internal_noteSaturation _ _ _ _) (Work.after (Internal.setPort d x _ (by exact fun _ h => ⟨h.1, h.2.1, sat_le _⟩)) (Work.refl _ _))

theorem internal_countCheckFail (r : Fin 32) : Internal [.rs, .smc, .hp] d (countCheckFail d r) :=
  Work.after (internal_noteSaturation _ _ _ _) (Work.after (Internal.setRemote d r _ (by exact fun _ h => ⟨sat_le _, h.2⟩)) (Work.refl _ _))

theorem internal_countMarkerMiss (r : Fin 32) : Internal [.rs, .smc, .hp] d (countMarkerMiss d r) :=
  Work.after (internal_noteSaturation _ _ _ _) (Work.after (Internal.setRemote d r _ (by exact fun _ h => ⟨h.1, sat_le _, h.2.2⟩)) (Work.refl _ _))

theorem internal_countPatternErrors (r : Fin 32) (k : Nat) : Internal [.rs, .smc, .hp] d (countPatternErrors d r k) :=
  Work.after (internal_noteSaturation _ _ _ _) (Work.after (Internal.setRemote d r _ (by exact fun _ h => ⟨h.1, h.2.1, sat_le _⟩)) (Work.refl _ _))

/-! ### Completion (R189) -/

theorem internal_completeMaint {j : MaintJob} (hj : d.smc.job = some j) (tag : BitVec 32) (res : MaintResult) :
    Internal [.smc, .hp] d (completeMaint d j.addr tag res) := by
  unfold completeMaint
  dsimp only
  have h1 : Internal [.smc] d (d.poke j.addr (le 4 (if res = .none then 3 else 4) ++ le 4 res.code ++
      le 4 (bit d.smc.overrun) ++ le 4 tag.toNat)) := by
    refine Internal.poke d _ _ (fun x h1 h2 => Or.inr ⟨j, hj, h1, ?_⟩)
    simp only [List.length_append, le_length] at h2
    exact h2
  refine Work.seq (h1.trans ?_) (internal_setLatch _ _ _) (by decide) (by decide)
  exact Internal.ofSmc _ _ rfl rfl rfl rfl (fun j h => by simp at h)

theorem internal_completeJob (res : MaintResult) : Internal [.smc, .hp] d (completeJob d res) := by
  unfold completeJob; split
  · rename_i j hj; exact internal_completeMaint d hj _ _
  · exact Work.refl _ _

/-! ### Queue (R26) -/

theorem internal_offer (r : Fin 32) (m : DownMsg) : Internal [.rs] d (offer d r m) := by
  unfold offer; split
  · exact Internal.setRemote d r _
  · exact Work.refl _ _

/-! ### Reserve lanes (R66 to R68) and the test (R47) -/

theorem internal_publishPool (x : Fin 4) : Internal [.smc] d (publishPool d x) := internal_publish _ _ _ (by decide)

theorem internal_setLane (x : Fin 4) (i : Fin 12) (l : LaneState) : Internal [.rp, .smc] d (setLane d x i l) :=
  Work.seq (Internal.setPool d x _) (internal_publishPool _ _) (by decide) (by decide)

theorem internal_releaseLane (x : Fin 4) (i : Fin 12) : Internal [.rp, .smc] d (releaseLane d x i) := by
  unfold releaseLane; split
  · exact internal_setLane _ _ _ _
  · exact Work.seq (Internal.setPool d x _) (internal_setLane _ _ _ _) (by decide) (by decide)

theorem internal_publishPort (x : Fin 4) : Internal [.smc] d (publishPort d x) := internal_publish _ _ _ (by decide)

theorem internal_publishRemote (r : Fin 32) : Internal [.smc] d (publishRemote d r) := internal_publish _ _ _ (by decide)

theorem internal_testStop : Internal [.rs, .smc, .hp] d (testStop d) := by
  unfold testStop; split
  · exact Work.refl _ _
  · dsimp only
    refine Work.after (Work.ite (bs := [.rs, .smc, .hp]) (fun _ => (internal_completeJob _ _).mono (by decide))
      (fun _ => Work.refl _ _)) ?_
    refine Work.after (internal_publishPort _ _) ?_
    refine Work.after (internal_offer _ _ _) ?_
    exact Work.after (Internal.ofRs d { d.rs with test := none } id) (Work.refl _ _)

theorem internal_testEnd : Internal [.rs, .smc, .hp, .rp] d (testEnd d) := by
  unfold testEnd; split
  · exact Work.refl _ _
  · exact Work.seq (internal_testStop d) (internal_releaseLane _ _ _) (by decide) (by decide)

theorem internal_testPreempt : Internal [.rs, .smc, .hp] d (testPreempt d) := by
  unfold testPreempt; split
  · exact Work.refl _ _
  · exact Work.seq (internal_testStop d) (internal_setLatch _ _ _) (by decide) (by decide)

theorem internal_poolRequest (x : Fin 4) (q : VersionReq) : Internal [.rp, .rs, .smc, .hp] d (poolRequest d x q) := by
  unfold poolRequest
  dsimp only
  split
  · exact (internal_setLane _ _ _ _).mono (by decide)
  · split
    · exact Work.seq (internal_testPreempt d) (internal_setLane _ _ _ _) (by decide) (by decide)
    · split
      · split
        · exact Work.seq (Internal.setPool d x _) (internal_setLane _ _ _ _) (by decide) (by decide)
        · exact Work.seq (Internal.setPool d x _) (internal_publishPool _ _) (by decide) (by decide)
      · exact Work.seq (Internal.setPool d x _) (internal_publishPool _ _) (by decide) (by decide)

theorem internal_poolWithdraw (x : Fin 4) (q : VersionReq) : Internal [.rp, .smc] d (poolWithdraw d x q) :=
  Work.seq (Internal.setPool d x _) (internal_publishPool _ _) (by decide) (by decide)

/-! ### The flash port (R205, R206) -/

theorem internal_setFlashJob (j : FlashJob) : Internal [.smc] d (setFlashJob d j) := by
  refine Internal.ofSmc d _ rfl rfl rfl rfl (fun k hk => ?_)
  cases hj : d.smc.job with
  | none => simp [hj] at hk
  | some i => simp [hj] at hk; exact ⟨i, rfl, by rw [← hk]⟩

theorem internal_setHolder (t : Txn) : Internal [.fb] d (setHolder d t) := Internal.setFb d _

theorem internal_grantJob (j : FlashJob) : Internal [.fb, .smc] d (grantJob d j) :=
  Work.seq (internal_setFlashJob d _) (internal_setHolder _ _) (by decide) (by decide)

theorem internal_grantPort : Internal [.fb, .smc] d (grantPort d) := by
  unfold grantPort
  split
  · exact Work.refl _ _
  · split
    · split
      · exact internal_grantJob _ _
      · exact (internal_setHolder _ _).mono (by decide)
      · exact Work.refl _ _
    · split
      · exact ((Internal.setFb d _).trans (internal_setHolder _ _)).mono (by decide)
      · exact internal_grantJob _ _
      · exact Work.refl _ _

theorem internal_freePort : Internal [.fb, .smc] d (freePort d) :=
  Work.seq (Internal.setFb d _) (internal_grantPort _) (by decide) (by decide)

theorem internal_requestClip (n : Fin 8) (r : ClipRead) : Internal [.fb, .smc] d (requestClip d n r) :=
  Work.seq (Internal.setFb d _) (internal_grantPort _) (by decide) (by decide)

theorem internal_withdrawClip (n : Fin 8) : Internal [.fb] d (withdrawClip d n) := by
  unfold withdrawClip; exact Internal.setFb d _

end Sys2Proof.Machine
end

