-- ==== Sys2Proof/Laws/WorkBreakIn.lean ====
section
/-! SUPPORT. Laws/WorkBreakIn.lean: what each operation of the Break-In Controller can do (05 sections 5.5 to 5.7, 06). -/

namespace Sys2Proof.Machine

-- In order, so that the package as one text compiles with few threads.
set_option Elab.async false

open Sys2Proof

variable (d : Dev)

theorem internal_publishSource (n : Fin 8) : Internal [.smc] d (publishSource d n) := internal_publish _ _ _ (by decide)
theorem internal_publishPending (n : Fin 8) : Internal [.smc] d (publishPending d n) := internal_publish _ _ _ (by decide)
theorem internal_publishPhase (n : Fin 8) : Internal [.smc] d (publishPhase d n) := internal_publish _ _ _ (by decide)
theorem internal_publishGrants (n : Fin 8) : Internal [.smc] d (publishGrants d n) := internal_publish _ _ _ (by decide)
theorem internal_publishBimSet (p : Fin 8) : Internal [.smc] d (publishBimSet d p) := internal_publish _ _ _ (by decide)

theorem internal_publishPair (q : Option (Fin 8 × Fin 8)) : Internal [.smc] d (publishPair d q) := by
  unfold publishPair; split
  · exact (internal_publishGrants _ _).trans (internal_publishBimSet _ _)
  · exact Work.refl _ _

/-! ### BIM arbitration -/

/-- An update of one BIM, whatever its pair becomes. -/
theorem work_setBim (m : Fin 12) (f : Bim → Bim) : Work true false true true [.pm] d (d.setBim m f) :=
  ⟨fun b hb => by cases b <;> simp_all [Dev.agree], rfl, ⟨rfl, rfl⟩, fun _ j h => ⟨j, h, rfl⟩, id, fun _ _ _ => rfl, fun _ => id, id, id,
    fun h => absurd h (by decide), id, id, fun _ => rfl, fun _ _ _ h => h⟩

theorem bim_setBim_pair (m k : Fin 12) (f : Bim → Bim) :
    ((d.setBim m f).bim k).pair = if m = k then (f (d.bim m)).pair else (d.bim k).pair := by
  rw [bim_setBim]; split <;> rfl

/-- Only what the BIM rule needs to see: services and pairs. -/
theorem internal_bims_eq {bs : List Block} {d e : Dev} (h : Only bs d e) (hp : Block.pm ∉ bs) (m : Fin 12) : e.bim m = d.bim m := by
  have := h .pm hp
  simp only [Dev.agree] at this
  simp only [Dev.bim, this]

theorem only_source_eq {bs : List Block} {d e : Dev} (h : Only bs d e) (hp : Block.bic ∉ bs) (n : Fin 8) :
    e.source n = d.source n := by
  have := h .bic hp
  simp only [Dev.agree] at this
  simp only [Dev.source, this]

/-- A BIM that becomes FREE breaks no rule. -/
theorem bimInv_free {d : Dev} (m : Fin 12) (f : Bim → Bim) (hf : (f (d.bim m)).pair = none) (h : BimInv d) :
    BimInv (d.setBim m f) := by
  refine ⟨fun k n p hk => ?_, fun k i q hk hi => ?_⟩
  · rw [bim_setBim_pair] at hk
    split at hk
    · rw [hf] at hk; cases hk
    · exact h.1 k n p hk
  · rw [bim_setBim_pair] at hk hi
    split at hk
    · rw [hf] at hk; cases hk
    · split at hi
      · rw [hf] at hi; cases hi
      · exact h.2 k i q hk hi

/-- A BIM that is given a wanted pair which no BIM serves breaks no rule. -/
theorem bimInv_give {d : Dev} (m : Fin 12) (f : Bim → Bim) (q : Fin 8 × Fin 8) (hf : (f (d.bim m)).pair = some q)
    (hw : pairWanted d q = true) (hn : ∀ k, (d.bim k).pair ≠ some q) (h : BimInv d) : BimInv (d.setBim m f) := by
  refine ⟨fun k n p hk => ?_, fun k i q' hk hi => ?_⟩
  · rw [bim_setBim_pair] at hk
    split at hk
    · rw [hf] at hk
      cases hk
      show (d.source n).inService = true ∧ (d.source n).progs.getLsbD p.val = true
      simpa only [pairWanted, Bool.and_eq_true] using hw
    · exact h.1 k n p hk
  · rw [bim_setBim_pair] at hk hi
    split at hk
    · rename_i e1
      rw [hf] at hk; cases hk
      split at hi
      · rename_i e2; rw [← e1, ← e2]
      · exact absurd hi (hn i)
    · split at hi
      · rw [hf] at hi; cases hi; exact absurd hk (hn k)
      · exact h.2 k i q' hk hi

theorem internal_bimFree (m : Fin 12) : Internal [.pm, .smc] d (bimFree d m) := by
  unfold bimFree
  refine Work.after (internal_publishPair _ _) ?_
  exact ((work_setBim d m _).withBims (bimInv_free m _ rfl)).mono (by decide)

theorem internal_bimGive (m : Fin 12) (q : Fin 8 × Fin 8) (hw : pairWanted d q = true) (hn : ∀ k, (d.bim k).pair ≠ some q) :
    Internal [.pm, .smc] d (bimGive d m q) := by
  unfold bimGive
  refine Work.after (internal_publishPair _ _) ?_
  refine Work.after (internal_publishPair _ _) ?_
  exact ((work_setBim d m _).withBims (bimInv_give m _ q rfl hw hn)).mono (by decide)

theorem bimOf_none {n p : Fin 8} (h : bimOf d n p = none) (k : Fin 12) : (d.bim k).pair ≠ some (n, p) := by
  unfold bimOf at h
  have := List.find?_eq_none.mp h k (List.mem_finRange k)
  simpa using this

theorem waitingPairs_head {q : Fin 8 × Fin 8} (h : (waitingPairs d).head? = some q) :
    pairWanted d q = true ∧ ∀ k, (d.bim k).pair ≠ some q := by
  have hm := List.mem_of_mem_head? h
  have := (List.mem_filter.mp hm).2
  simp only [Bool.and_eq_true, Option.isNone_iff_eq_none] at this
  exact ⟨this.1, bimOf_none d this.2⟩

theorem internal_releaseBim (g : Bool) (m : Fin 12) : Internal [.pm, .smc] d (releaseBim d g m) := by
  unfold releaseBim; split
  · rename_i q hq
    split
    · exact internal_bimGive d m q (waitingPairs_head d hq).1 (waitingPairs_head d hq).2
    · exact internal_bimFree _ _
  · exact internal_bimFree _ _

theorem internal_requestBim (q : Fin 8 × Fin 8) (hw : pairWanted d q = true) (hn : ∀ k, (d.bim k).pair ≠ some q) :
    Internal [.pm, .smc] d (requestBim d q) := by
  unfold requestBim; split
  · exact internal_bimGive d _ q hw hn
  · split
    · split
      · exact internal_bimGive d _ q hw hn
      · exact Work.refl _ _
    · exact Work.refl _ _

/-- Pairs of the BIMs after a gift. -/
theorem bimGive_pair (m k : Fin 12) (q : Fin 8 × Fin 8) :
    ((bimGive d m q).bim k).pair = if m = k then some q else (d.bim k).pair := by
  have h := ((internal_publishPair (publishPair (d.setBim m (fun _ => ⟨some q, (d.mod q.2).phase, 0, []⟩)) (d.bim m).pair)
    (some q)).only)
  have h' := (internal_publishPair (d.setBim m (fun _ => ⟨some q, (d.mod q.2).phase, 0, []⟩)) (d.bim m).pair).only
  unfold bimGive
  dsimp only
  rw [internal_bims_eq h (by decide), internal_bims_eq h' (by decide), bim_setBim_pair]

/-- A request gives its own pair alone; the others keep or lose a BIM. -/
theorem requestBim_pair (q : Fin 8 × Fin 8) (k : Fin 12) :
    ((requestBim d q).bim k).pair = some q ∨ ((requestBim d q).bim k).pair = (d.bim k).pair := by
  unfold requestBim; split
  · rw [bimGive_pair]; split <;> simp
  · split
    · split
      · rw [bimGive_pair]; split <;> simp
      · exact Or.inr rfl
    · exact Or.inr rfl

theorem requestBim_source (q : Fin 8 × Fin 8) (n : Fin 8) : (requestBim d q).source n = d.source n := by
  have give : ∀ m, (bimGive d m q).source n = d.source n := by
    intro m
    unfold bimGive
    dsimp only
    rw [only_source_eq (internal_publishPair _ _).only (by decide), only_source_eq (internal_publishPair _ _).only (by decide)]
    rfl
  unfold requestBim; split
  · exact give _
  · split
    · split
      · exact give _
      · rfl
    · rfl

/-- The requests of a service start (R120): pairs of one in-service source that no BIM serves. -/
theorem internal_requestBims (n : Fin 8) : ∀ (l : List (Fin 8)) (d : Dev), l.Nodup →
    (∀ p ∈ l, pairWanted d (n, p) = true) → (∀ p ∈ l, ∀ k, (d.bim k).pair ≠ some (n, p)) →
    Internal [.pm, .smc] d (l.foldl (fun d p => requestBim d (n, p)) d)
  | [], d, _, _, _ => Work.refl _ d
  | p :: l, d, hd, hw, hn => by
    have hp := List.nodup_cons.mp hd
    refine (internal_requestBim d (n, p) (hw p (by simp)) (hn p (by simp))).trans
      (internal_requestBims n l _ hp.2 (fun r hr => ?_) (fun r hr k => ?_))
    · have := hw r (by simp [hr])
      simpa only [pairWanted, requestBim_source] using this
    · rcases requestBim_pair d (n, p) k with h | h
      · rw [h]; intro e
        have : p = r := by simpa using e
        exact hp.1 (this ▸ hr)
      · rw [h]; exact hn r (by simp [hr]) k

/-! ### Zone table, lanes, delivery, reach -/

theorem internal_recomputeZones : Internal [.bic] d (recomputeZones d) := Internal.ofBic d _ (fun _ => ⟨rfl, rfl⟩) ⟨rfl, rfl, rfl⟩

theorem internal_withdrawWhere (x : Fin 4) (f : VersionReq → Bool) : Internal [.rp, .rs, .smc, .hp] d (withdrawWhere d x f) :=
  (Work.foldl (fun d q => internal_poolWithdraw d x q) _ d).mono (by decide)

theorem internal_releaseWhere (x : Fin 4) (f : VersionReq → Bool) : Internal [.rp, .rs, .smc, .hp] d (releaseWhere d x f) :=
  (Work.foldl (fun d (h : Fin 12 × VersionReq) => internal_releaseLane d x h.1) _ d).mono (by decide)

theorem internal_bicLanes : Internal [.rp, .rs, .smc, .hp] d (bicLanes d) := by
  unfold bicLanes
  refine Work.after (Work.overAll (fun d x => internal_releaseWhere d x _) _) ?_
  refine Work.after (Work.overAll (fun d x => internal_withdrawWhere d x _) _) ?_
  refine Work.after (Work.foldl (fun d q => Work.overAll (fun d x =>
    Work.ite (fun _ => internal_poolRequest d x q) (fun _ => Work.refl _ _)) d) _ _) ?_
  refine Work.after (Work.overAll (fun d x => internal_releaseWhere d x _) _) ?_
  exact Work.overAll (fun d x => internal_withdrawWhere d x _) _

theorem internal_deliverOne (r : Fin 32) (p : Fin 8) : Internal [.bic, .rs] d (deliverOne d r p) := by
  unfold deliverOne
  dsimp only
  split
  · refine Work.after (internal_offer _ _ _) ?_
    exact ((Internal.setDelivery d r p _).trans (Internal.setDelivery _ r p _)).mono (by decide)
  · exact (Internal.setDelivery d r p _).mono (by decide)

theorem internal_deliverUpdate : Internal [.bic, .rs] d (deliverUpdate d) :=
  Work.overAll (fun d r => Work.overAll (fun d p => internal_deliverOne d r p) d) d

theorem internal_reachOne (s : Fin 8) : Internal [.bic, .smc, .hp] d (reachOne d s) := by
  unfold reachOne
  dsimp only
  split
  · have h : Internal [.bic, .smc, .hp] d
        (publish (d.setSource s (fun c => { c with unreached := unreachedSet d s })) (sourceCell s) [(32, 4)]) :=
      Work.after (internal_publish _ _ _ (by decide)) ((Internal.setSource d s _).mono (by decide))
    split
    · exact Work.after (internal_setLatch _ _ _) h
    · exact h
  · exact Work.refl _ _

theorem internal_reachUpdate : Internal [.bic, .smc, .hp] d (reachUpdate d) := Work.overAll internal_reachOne d

theorem internal_bicUpdate : Internal [.bic, .rp, .rs, .smc, .hp] d (bicUpdate d) := by
  unfold bicUpdate
  refine Work.after (internal_reachUpdate _) ?_
  refine Work.after (internal_deliverUpdate _) ?_
  refine Work.after (internal_bicLanes _) ?_
  exact (internal_recomputeZones d).mono (by decide)

theorem internal_substAcked (r : Fin 32) (p : Fin 8) : Internal [.bic, .smc, .hp] d (substAcked d r p) :=
  Work.after (internal_reachUpdate _) ((Internal.setDelivery d r p _).mono (by decide))

theorem internal_deliveryDoubt (r : Fin 32) : Internal [.bic] d (deliveryDoubt d r) :=
  Work.overAll (fun d p => Internal.setDelivery d r p _) d

/-! ### Audio -/

theorem internal_afPump (n : Fin 8) : Internal [.bic, .fb, .smc] d (afPump d n) := by
  unfold afPump
  dsimp only
  split
  · split
    · exact (Internal.setSource d n _).mono (by decide)
    · exact Work.refl _ _
  · split
    · exact (internal_requestClip _ _ _).mono (by decide)
    · exact Work.refl _ _
  all_goals exact Work.refl _ _

theorem internal_primed (n : Fin 8) : Internal [.bic, .smc] d (primed d n) := by
  unfold primed
  dsimp only
  split
  · exact Work.after (internal_publishPhase _ _) ((Internal.setSource d n _).mono (by decide))
  · exact Work.refl _ _

theorem internal_clipArrived (n : Fin 8) (xs : List (BitVec 16)) : Internal [.bic, .fb, .smc] d (clipArrived d n xs) := by
  unfold clipArrived
  refine Work.after (internal_afPump _ _) ?_
  refine Work.after (internal_primed _ _) ?_
  exact (Internal.setSource d n _).mono (by decide)

theorem internal_lineSample (n : Fin 8) (x : BitVec 16) : Internal [.bic, .smc] d (lineSample d n x) := by
  unfold lineSample
  dsimp only
  split
  · exact Work.after (internal_primed _ _) ((Internal.setSource d n _).mono (by decide))
  · exact Work.refl _ _

theorem internal_deliverAudio (n : Fin 8) (x : BitVec 16) : Internal [.pm] d (deliverAudio d n x) :=
  Work.overAll (fun d m => Work.ite (fun _ => Internal.setBim d m _) (fun _ => Work.refl _ _)) d

theorem internal_afStart (n : Fin 8) (nc : Bool) : Internal [.bic, .fb, .smc, .hp] d (afStart d n nc) := by
  unfold afStart
  dsimp only
  refine Work.after (internal_afPump _ _) ?_
  refine Work.after (Work.ite (bs := [.smc, .hp]) (fun _ => internal_setLatch _ _ _) (fun _ => Work.refl _ _)) ?_
  refine Work.after (Work.ite (bs := [.smc, .hp]) (fun _ => internal_setLatch _ _ _) (fun _ => Work.refl _ _)) ?_
  exact (Internal.setSource d n _).mono (by decide)

/-! ### Service start and end -/

/-- The blocks that the start or end of a service reaches. -/
abbrev serviceBlocks : List Block := [.bic, .rp, .rs, .smc, .hp, .pm, .fb]

/-- A change of sources' service records, whatever it does to the BIM rule. -/
theorem work_setSource (n : Fin 8) (f : Source → Source) : Work true false true true [.bic] d (d.setSource n f) :=
  ⟨fun b hb => by cases b <;> simp_all [Dev.agree], rfl, ⟨rfl, rfl⟩, fun _ j h => ⟨j, h, rfl⟩, id, fun _ _ _ => rfl, fun _ => id, id, id,
    fun h => absurd h (by decide), id, id, fun _ => rfl, fun _ _ _ h => h⟩

/-- Of a source out of service no BIM has a pair. -/
theorem bimInv_noPair {d : Dev} (h : BimInv d) {n : Fin 8} (hs : (d.source n).inService = false) (k : Fin 12) (p : Fin 8) :
    (d.bim k).pair ≠ some (n, p) := fun e => by
  have := (h.1 k n p e).1
  rw [hs] at this; cases this

theorem fillRecord_source (n : Fin 8) (q : CueReq) (o : Origin) :
    ((fillRecord d n q o).source n).inService = true ∧ ((fillRecord d n q o).source n).progs = q.progs := by
  unfold fillRecord; simp

theorem fillRecord_bim (n : Fin 8) (q : CueReq) (o : Origin) (k : Fin 12) : (fillRecord d n q o).bim k = d.bim k := rfl

theorem work_fillRecord (n : Fin 8) (q : CueReq) (o : Origin) : Work true false true true [.bic] d (fillRecord d n q o) :=
  (work_setSource d n _).trans (work_setSource _ n _)

theorem bimInv_fillRecord {d : Dev} (n : Fin 8) (q : CueReq) (o : Origin) (hs : (d.source n).inService = false)
    (h : BimInv d) : BimInv (fillRecord d n q o) := by
  have np := fun k p => bimInv_noPair h hs k p
  refine ⟨fun m s p hp => ?_, fun m k r hm hk => h.2 m k r hm hk⟩
  have hne : n ≠ s := fun e => np m p (e ▸ hp)
  have : (fillRecord d n q o).source s = d.source s := by
    unfold fillRecord
    dsimp only
    rw [source_setSource, if_neg hne, source_setSource, if_neg hne]
  rw [this]
  exact h.1 m s p hp

theorem internal_serviceStart (n : Fin 8) (hs : (d.source n).inService = false) :
    Internal serviceBlocks d (serviceStart d n) := by
  unfold serviceStart
  dsimp only
  refine Work.after (internal_setLatch _ _ _) ?_
  refine Work.after (internal_publishSource _ _) ?_
  refine Work.after (internal_afStart _ _ _) ?_
  refine Work.after (Internal.setSource _ n _) ?_
  refine Work.after (internal_bicUpdate _) ?_
  have hfill := work_fillRecord d n (startParams d n) (resolveOrigin d (startParams d n).origin).1
  by_cases hB : BimInv d
  · refine Work.after (internal_requestBims n _ _ ?_ ?_ ?_) ((hfill.withBims (bimInv_fillRecord n _ _ hs)).mono (by decide))
    · exact (List.nodup_finRange 8).filter _
    · intro p hp
      have hp := (List.mem_filter.mp hp).2
      have := fillRecord_source d n (startParams d n) (resolveOrigin d (startParams d n).origin).1
      simp [pairWanted, this, hp]
    · intro p _ k
      rw [fillRecord_bim]
      exact bimInv_noPair hB hs k p
  · refine Work.withBims ?_ (fun h => absurd h hB)
    refine Work.after (Work.foldl (bs := [.pm, .smc]) (fun d p => ?_) _ _) (hfill.mono (by decide))
    have give : ∀ m q, Work true false true true [.pm, .smc] d (bimGive d m q) := by
      intro m q
      unfold bimGive
      refine Work.after (internal_publishPair _ _).weaken ?_
      refine Work.after (internal_publishPair _ _).weaken ?_
      exact (work_setBim d m _).mono (by decide)
    unfold requestBim; split
    · exact give _ _
    · split
      · split
        · exact give _ _
        · exact Work.refl _ _
      · exact Work.refl _ _

theorem internal_tryStart (n : Fin 8) : Internal serviceBlocks d (tryStart d n) := by
  unfold tryStart
  dsimp only
  split
  · rename_i h
    exact internal_serviceStart d n (by simpa using h.2.2.2)
  · exact Work.refl _ _

theorem internal_takeLevel (n : Fin 8) : Internal [.bic, .smc] d (takeLevel d n) := by
  unfold takeLevel; split
  · exact Work.after (internal_publishPending _ _) ((Internal.setSource d n _).mono (by decide))
  · exact Work.refl _ _

/-- After its release a BIM serves no pair of a source out of service. -/
theorem releaseBim_pair {d : Dev} (g : Bool) (m k : Fin 12) :
    ((releaseBim d g m).bim k).pair =
      if m = k then (if g then (waitingPairs d).head? else none) else (d.bim k).pair := by
  have free : ((bimFree d m).bim k).pair = if m = k then none else (d.bim k).pair := by
    unfold bimFree
    dsimp only
    rw [internal_bims_eq (internal_publishPair _ _).only (by decide), bim_setBim_pair]; rfl
  unfold releaseBim
  split
  · rename_i q hq
    split
    · rename_i hg; rw [bimGive_pair, hq]
    · rename_i hg; rw [free]
  · rename_i hq
    rw [free]
    split <;> simp [hq]

theorem releaseBim_source {d : Dev} (g : Bool) (m : Fin 12) (n : Fin 8) : (releaseBim d g m).source n = d.source n :=
  only_source_eq (internal_releaseBim d g m).only (by decide) n

/-- The BIM rule while the BIMs `l` of source `n`, out of service, are still to be released. -/
def BimsLeft (n : Fin 8) (l : List (Fin 12)) (d : Dev) : Prop :=
  (d.source n).inService = false ∧
  (∀ m s p, (d.bim m).pair = some (s, p) →
    (s = n ∧ m ∈ l) ∨ ((d.source s).inService = true ∧ (d.source s).progs.getLsbD p.val = true)) ∧
  ∀ m k q, (d.bim m).pair = some q → (d.bim k).pair = some q → m = k

theorem bimsLeft_release {d : Dev} {n : Fin 8} {m : Fin 12} {l : List (Fin 12)} (g : Bool) (h : BimsLeft n (m :: l) d) :
    BimsLeft n l (releaseBim d g m) := by
  obtain ⟨hs, h1, h2⟩ := h
  refine ⟨by rw [releaseBim_source]; exact hs, fun k s p hk => ?_, fun k i q hk hi => ?_⟩
  · rw [releaseBim_pair] at hk
    rw [releaseBim_source]
    split at hk
    · split at hk
      · have := (waitingPairs_head d hk).1
        right
        simpa only [pairWanted, Bool.and_eq_true] using this
      · cases hk
    · rename_i hne
      rcases h1 k s p hk with ⟨e, hm⟩ | hw
      · rcases List.mem_cons.mp hm with e' | hm
        · exact absurd e'.symm hne
        · exact Or.inl ⟨e, hm⟩
      · exact Or.inr hw
  · rw [releaseBim_pair] at hk hi
    split at hk
    · rename_i e1
      split at hi
      · rename_i e2; rw [← e1, ← e2]
      · split at hk
        · exact absurd hi ((waitingPairs_head d hk).2 i)
        · cases hk
    · split at hi
      · split at hi
        · exact absurd hk ((waitingPairs_head d hi).2 k)
        · cases hi
      · exact h2 k i q hk hi

theorem bimsLeft_releases {n : Fin 8} (g : Bool) : ∀ (l : List (Fin 12)) (d : Dev), BimsLeft n l d →
    BimsLeft n [] (l.foldl (fun d m => releaseBim d g m) d)
  | [], _, h => h
  | _ :: l, _, h => bimsLeft_releases g l _ (bimsLeft_release g h)

/-- Releasing the BIMs of a source that has just gone out of service restores the BIM rule. -/
theorem bimInv_releaseBims {d : Dev} (n : Fin 8) (g : Bool) (h : BimsLeft n (bimsOf d n) d) : BimInv (releaseBims d g n) := by
  obtain ⟨_, h1, h2⟩ := bimsLeft_releases g _ d h
  exact ⟨fun m s p hp => (h1 m s p hp).elim (fun e => by simp at e) id, h2⟩

theorem internal_releaseBims (g : Bool) (n : Fin 8) : Internal [.pm, .smc] d (releaseBims d g n) :=
  Work.foldl (fun d m => internal_releaseBim d g m) _ d

theorem internal_endSteps (n : Fin 8) (why : EndReason) (g : Bool) : Internal serviceBlocks d (endSteps d n why g) := by
  unfold endSteps
  dsimp only
  refine Work.after (internal_setLatch _ _ _) ?_
  refine Work.after (internal_publishSource _ _) ?_
  refine Work.after (internal_bicUpdate _) ?_
  have h1 : Work true false true true serviceBlocks d ((withdrawClip d n).setSource n (fun c =>
      { c with fifo := [], onWay := 0, endReason := why, settleDue := none, settled := false, inService := false })) :=
    Work.after (work_setSource _ n _) ((internal_withdrawClip d n).weaken.mono (by simp))
  refine Work.withBims (Work.after (internal_releaseBims _ g n).weaken h1) (fun hB => bimInv_releaseBims n g ?_)
  refine ⟨by rw [source_setSource_same], fun m s p hp => ?_, fun m k q hm hk => hB.2 m k q hm hk⟩
  have hp' : (d.bim m).pair = some (s, p) := hp
  by_cases hs : n = s
  · left
    refine ⟨hs.symm, List.mem_filter.mpr ⟨List.mem_finRange m, ?_⟩⟩
    rw [hp]; simp [hs]
  · right
    rw [source_setSource, if_neg hs]
    exact hB.1 m s p hp'

theorem internal_serviceEnd (n : Fin 8) (why : EndReason) : Internal serviceBlocks d (serviceEnd d n why) := by
  unfold serviceEnd
  dsimp only
  split
  · refine Work.after (internal_tryStart _ _) ?_
    exact Work.after (internal_takeLevel _ _) (internal_endSteps d n why true)
  · exact internal_endSteps d n why true

/-! ### Play instants and lines -/

theorem internal_passEnd (n : Fin 8) : Internal serviceBlocks d (passEnd d n) := by
  unfold passEnd
  dsimp only
  split
  · exact internal_serviceEnd _ _ _
  · split
    · exact internal_serviceEnd _ _ _
    · exact Work.after (internal_publishPhase _ _) (Work.after (Internal.setSource d n _) (Work.refl _ _))

theorem internal_playSample (n : Fin 8) : Internal serviceBlocks d (playSample d n) := by
  unfold playSample
  split
  · refine Work.after (internal_setLatch _ _ _) ?_
    refine Work.after (internal_deliverAudio _ _ _) ?_
    exact Work.after (Internal.setSource d n _) (Work.refl _ _)
  · rename_i x xs _
    dsimp only
    have h : Internal serviceBlocks d
        (deliverAudio (d.setSource n (fun c => { c with fifo := xs, played := c.played + 1 })) n x) :=
      Work.after (internal_deliverAudio _ _ _) (Work.after (Internal.setSource d n _) (Work.refl _ _))
    split
    · refine Work.after (internal_afPump _ _) ?_
      exact Work.after (internal_passEnd _ _) h
    · exact Work.after (internal_afPump _ _) h

theorem internal_gapInstant (n : Fin 8) : Internal serviceBlocks d (gapInstant d n) := by
  unfold gapInstant
  dsimp only
  have h := internal_deliverAudio d n 0
  split
  · refine Work.after (internal_publishPhase _ _) ?_
    exact Work.after (Internal.setSource _ n _) (h.mono (by simp))
  · exact Work.after (Internal.setSource _ n _) (h.mono (by simp))

theorem internal_playInstant (n : Fin 8) : Internal serviceBlocks d (playInstant d n) := by
  unfold playInstant
  dsimp only
  have h : Internal serviceBlocks d (d.setSource n (fun c => { c with playDue := c.playDue + Config.playPeriod })) :=
    Work.after (Internal.setSource d n _) (Work.refl _ _)
  split
  · exact Work.after (internal_deliverAudio _ _ _) h
  · exact Work.after (internal_deliverAudio _ _ _) h
  · exact Work.after (internal_playSample _ _) h
  · exact Work.after (internal_gapInstant _ _) h

theorem internal_lineRise (n : Fin 8) : Internal serviceBlocks d (lineRise d n) := by
  unfold lineRise
  dsimp only
  have h : Internal serviceBlocks d (publishPending (d.setSource n (fun c => { c with lineReq := true })) n) :=
    Work.after (internal_publishPending _ _) (Work.after (Internal.setSource d n _) (Work.refl _ _))
  split
  · exact Work.refl _ _
  · split
    · split
      · exact h
      · exact (internal_setLatch _ _ _).mono (by simp)
    · split
      · exact Work.refl _ _
      · exact Work.after (internal_tryStart _ _) h

theorem internal_withdrawLine (n : Fin 8) : Internal [.bic, .smc, .hp] d (withdrawLine d n) := by
  unfold withdrawLine
  dsimp only
  have h : Internal [.bic, .smc, .hp] d
      (publishPending (d.setSource n (fun c => { c with lineReq := false, cancelHold := false })) n) :=
    Work.after (internal_publishPending _ _) (Work.after (Internal.setSource d n _) (Work.refl _ _))
  split
  · exact Work.after (internal_setLatch _ _ _) h
  · exact h

theorem internal_lineFallEnds (n : Fin 8) : Internal serviceBlocks d (lineFallEnds d n) := by
  unfold lineFallEnds
  dsimp only
  split
  · exact Work.refl _ _
  · split
    · exact internal_serviceEnd _ _ _
    · split
      · split
        · exact Work.after (Internal.setSource d n _) (Work.refl _ _)
        all_goals exact internal_serviceEnd _ _ _
      · exact Work.refl _ _

theorem internal_lineFall (n : Fin 8) : Internal serviceBlocks d (lineFall d n) := by
  unfold lineFall
  refine Work.after (internal_lineFallEnds _ _) (Work.ite (fun _ => ?_) (fun _ => Work.refl _ _))
  exact (internal_withdrawLine d n).mono (by simp)

end Sys2Proof.Machine
end

