-- ==== Sys2Proof/Laws/WorkLink.lean ====
section
/-! SUPPORT. Laws/WorkLink.lean: what each operation of Voting, Simulcast, Routes and Remotes can do. -/

namespace Sys2Proof.Machine

-- In order, so that the package as one text compiles with few threads.
set_option Elab.async false

open Sys2Proof

variable (d : Dev)

/-! ### The Uplink Voter -/

theorem internal_publishVoter (e : Fin 8) : Internal [.smc] d (publishVoter d e) := internal_publish _ _ _ (by decide)

theorem internal_hardSwitch (e : Fin 8) (o : Fin 32) : Internal [.uv, .smc, .hp] d (hardSwitch d e o) := by
  unfold hardSwitch
  dsimp only
  refine Work.ite (fun _ => Work.after (internal_setLatch _ _ _) ?_) (fun _ => ?_) <;>
  · refine Work.after (internal_setLatch _ _ _) ?_
    refine Work.after (internal_publishVoter _ _) ?_
    exact Work.after (Internal.setVoter d e _) (Work.refl _ _)

theorem internal_uvRecheck : Internal [.uv, .smc, .hp] d (uvRecheck d) := by
  refine Work.overAll (fun d e => ?_) d
  split
  · exact Work.ite (fun _ => Work.refl _ _) (fun _ => internal_hardSwitch _ _ _)
  · exact Work.refl _ _

theorem internal_splicedSwitch (e : Fin 8) (r : Fin 32) : Internal [.uv, .smc, .hp] d (splicedSwitch d e r) := by
  unfold splicedSwitch
  dsimp only
  split
  · exact Work.after (internal_setLatch _ _ _) (Work.after (Internal.setVoter d e _) (Work.refl _ _))
  · exact (internal_setLatch _ _ _).mono (by simp)

theorem internal_judgeSelection (e : Fin 8) : Internal [.uv, .smc, .hp] d (judgeSelection d e) := by
  unfold judgeSelection
  dsimp only
  split
  · exact Work.after (internal_setLatch _ _ _) (Work.after (Internal.setVoter d e _) (Work.refl _ _))
  · exact Work.refl _ _
  · exact Work.refl _ _
  · split
    · exact Work.ite (fun _ => internal_splicedSwitch _ _ _) (fun _ => Work.refl _ _)
    · exact internal_splicedSwitch _ _ _

theorem internal_frameEnd (e : Fin 8) : Internal [.uv, .smc, .hp] d (frameEnd d e) := by
  unfold frameEnd
  dsimp only
  refine Work.after (internal_publishVoter _ _) ?_
  exact Work.after (Internal.setVoter _ e _) (internal_judgeSelection d e)

/-! ### The Simulcast Reference Unit -/

theorem internal_publishHold (r : Fin 32) : Internal [.smc] d (publishHold d r) := internal_publish _ _ _ (by decide)

theorem internal_offerHold (r : Fin 32) : Internal [.sru, .rs] d (offerHold d r) := by
  unfold offerHold
  dsimp only
  split
  · split
    · exact Work.after (internal_offer _ _ _) (Work.after (Internal.setHold d r _) (Work.refl _ _))
    · exact Work.refl _ _
  · exact Work.refl _ _

theorem internal_setHoldFor (r : Fin 32) : Internal [.sru, .smc] d (setHoldFor d r) := by
  unfold setHoldFor
  dsimp only
  split
  · exact Work.after (internal_publishHold _ _) (Work.after (Internal.setHold d r _) (Work.refl _ _))
  · exact Work.refl _ _

/-- The blocks that a re-reference reaches. -/
abbrev sruBlocks : List Block := [.sru, .uv, .rs, .smc, .hp]

theorem internal_reReference : Internal sruBlocks d (reReference d) := by
  unfold reReference
  dsimp only
  refine Work.after (internal_setLatch _ _ _) ?_
  refine Work.after (internal_publish _ _ _ (by decide)) ?_
  refine Work.after (Work.overAll internal_offerHold _) ?_
  refine Work.after (internal_uvRecheck _) ?_
  refine Work.after (Work.overAll (bs := [.smc, .hp]) (fun d r =>
    Work.ite (fun _ => internal_setLatch _ _ _) (fun _ => Work.refl _ _)) _) ?_
  refine Work.after (Work.overAll internal_setHoldFor _) ?_
  exact Work.after (Internal.ofSru d _ ⟨rfl, rfl⟩) (Work.refl _ _)

theorem internal_sruEvaluate : Internal sruBlocks d (sruEvaluate d) := by
  unfold sruEvaluate
  exact Work.ite (fun _ => Work.refl _ _) (fun _ => internal_reReference d)

theorem internal_sruLock (r : Fin 32) : Internal sruBlocks d (sruLock d r) := by
  unfold sruLock
  dsimp only
  refine Work.after (internal_uvRecheck _) ?_
  refine Work.after (internal_publishHold _ _) ?_
  have h : Internal sruBlocks d _ := Work.after (Internal.setHold d r (fun h =>
    { h with holding := true, hold := some (holdFor d.sru.tRef (d.remote r).d).1,
             late := (holdFor d.sru.tRef (d.remote r).d).2,
             offered := some (holdFor d.sru.tRef (d.remote r).d).1 })) (Work.refl _ _)
  exact Work.ite (fun _ => Work.after (internal_setLatch _ _ _) h) (fun _ => h)

theorem internal_sruMoved (r : Fin 32) : Internal sruBlocks d (sruMoved d r) := by
  unfold sruMoved
  dsimp only
  refine Work.after (internal_sruEvaluate _) ?_
  refine Work.after (internal_offerHold _ _) ?_
  refine Work.after (internal_uvRecheck _) ?_
  have h : Internal sruBlocks d (setHoldFor d r) := (internal_setHoldFor d r).mono (by simp)
  exact Work.ite (fun _ => Work.after (internal_setLatch _ _ _) h) (fun _ => h)

theorem internal_stopHolding (r : Fin 32) : Internal [.sru, .smc, .hp] d (stopHolding d r) := by
  unfold stopHolding
  dsimp only
  have h : Internal [.sru, .smc, .hp] d (publishHold (d.setHold r (fun _ => HoldRec.reset)) r) :=
    Work.after (internal_publishHold _ _) (Work.after (Internal.setHold d r _) (Work.refl _ _))
  exact Work.ite (fun _ => Work.after (internal_setLatch _ _ _) h) (fun _ => h)

theorem internal_holdAcked (r : Fin 32) : Internal [.sru, .smc] d (holdAcked d r) :=
  Work.after (internal_publishHold _ _) (Work.after (Internal.setHold d r _) (Work.refl _ _))

theorem internal_keyingChange (e : Fin 8) (k o : Bool) : Internal sruBlocks d (keyingChange d e k o) := by
  unfold keyingChange
  dsimp only
  have h : Internal sruBlocks d { d with sru := { d.sru with keyed := d.sru.keyed.set e k } } :=
    Work.after (Internal.ofSru d _ ⟨rfl, rfl⟩) (Work.refl _ _)
  exact Work.ite (fun _ => h) (fun _ => Work.after (internal_sruEvaluate _) h)

/-! ### Take-up outcomes and the route exchange -/

theorem internal_takenUp (t : TableId) (w : BitVec 32) : Internal [.smc, .hp] d (takenUp d t w) := by
  unfold takenUp
  dsimp only
  refine Work.after (internal_setLatch _ _ _) ?_
  refine Work.after (internal_publish _ _ _ (by cases t <;> decide)) ?_
  exact Work.after (Internal.ofSmc d _ rfl rfl rfl rfl (fun j h => ⟨j, h, rfl⟩)) (Work.refl _ _)

theorem internal_takeUpRefused (t : TableId) (w : BitVec 32) (i : Nat) (c : TakeUpCause) :
    Internal [.smc, .hp] d (takeUpRefused d t w i c) := by
  unfold takeUpRefused
  dsimp only
  refine Work.after (internal_setLatch _ _ _) ?_
  refine Work.after (internal_publish _ _ _ (by decide)) ?_
  exact Work.after (Internal.ofSmc d _ rfl rfl rfl rfl (fun j h => ⟨j, h, rfl⟩)) (Work.refl _ _)

theorem internal_publishPhaseRp : Internal [.smc] d (publishPhaseRp d) := internal_publish _ _ _ (by decide)

theorem internal_offerMaps (r : Fin 32) (o n : Routes) : Internal [.rs] d (offerMaps d r o n) :=
  Work.foldl (fun d _ => internal_offer d r _) _ d

theorem internal_startExchange (new : Routes) (w : BitVec 32) (b : Bool) :
    Internal [.rp, .rs, .smc, .hp] d (startExchange d new w b) := by
  unfold startExchange
  dsimp only
  refine Work.after (internal_publishPhaseRp _) ?_
  refine Work.after (Work.foldl (fun d r => internal_offerMaps d r _ _) _ _) ?_
  exact Work.after (Internal.setRp d _) (Work.refl _ _)

theorem internal_switchOffers (o n : Routes) (r : Fin 32) : Internal [.rs] d (switchOffers d o n r) := by
  unfold switchOffers
  dsimp only
  split
  · exact internal_offer _ _ _
  · exact Work.ite (fun _ => internal_offerMaps _ _ _ _)
      (fun _ => Work.after (internal_offer _ _ _) (internal_offerMaps _ _ _ _))

/-- The blocks that a link event reaches beyond its own. -/
abbrev linkBlocks : List Block := [.bic, .rp, .rs, .smc, .hp, .sru, .uv]

theorem internal_switchEvent : Internal linkBlocks d (switchEvent d) := by
  unfold switchEvent
  dsimp only
  refine Work.after (internal_bicUpdate _) ?_
  refine Work.after (internal_sruEvaluate _) ?_
  refine Work.after (internal_uvRecheck _) ?_
  refine Work.after (internal_publishPhaseRp _) ?_
  refine Work.after (Work.overAll (fun d x => internal_publish d _ _ (by decide)) _) ?_
  refine Work.after (Internal.setRp _ _) ?_
  refine Work.after (Work.foldl (fun d r => internal_switchOffers d _ _ r) _ _) ?_
  have h : ∀ f, (∀ p : Rp, (f p).remoteTab = p.remoteTab) → Internal linkBlocks d (d.setRp f) :=
    fun f hf => Work.after (Internal.setRp d f hf) (Work.refl _ _)
  refine Work.ite (fun _ => ?_) (fun _ => Work.after (internal_takenUp _ _ _) (h _ (by exact fun _ => rfl)))
  refine Work.after (internal_publish _ _ _ (by decide)) ?_
  exact Work.after (Internal.ofSmc _ _ rfl rfl rfl rfl (fun j h => ⟨j, h, rfl⟩)) (h _ (by exact fun _ => rfl))

theorem internal_startBootLoad (rows : Tab 160 (Option (List Byte))) :
    Internal [.rp, .rs, .smc, .hp] d (startBootLoad d rows) := by
  unfold startBootLoad
  dsimp only
  exact Work.after (internal_startExchange _ _ _ _) (Work.after (Internal.setRp d _) (Work.refl _ _))

theorem internal_takeUpRoute (l : Layout) (w : BitVec 32) : Internal [.rp, .rs, .smc, .hp] d (takeUpRoute d l w) := by
  unfold takeUpRoute
  dsimp only
  split
  · exact (internal_takeUpRefused _ _ _ _ _).mono (by simp)
  · exact internal_startExchange _ _ _ _

theorem internal_judgeRoute (l : Layout) (w : BitVec 32) : Internal [.rp, .rs, .smc, .hp] d (judgeRoute d l w) := by
  unfold judgeRoute
  split
  · exact Work.refl _ _
  · split
    · exact Work.after (Internal.ofSmc d _ rfl rfl rfl rfl (fun j h => ⟨j, h, rfl⟩)) (Work.refl _ _)
    · refine Work.after (internal_takeUpRoute _ _ _) ?_
      exact Work.after (Internal.ofSmc d _ rfl rfl rfl rfl (fun j h => ⟨j, h, rfl⟩)) (Work.refl _ _)

theorem internal_judgeDeferred : Internal [.rp, .rs, .smc, .hp] d (judgeDeferred d) := by
  unfold judgeDeferred
  dsimp only
  have h : Internal [.rp, .rs, .smc, .hp] d { d with smc := { d.smc with deferred := d.smc.deferred.set 2 false } } :=
    Work.after (Internal.ofSmc d _ rfl rfl rfl rfl (fun j h => ⟨j, h, rfl⟩)) (Work.refl _ _)
  split
  · split
    · exact Work.after (internal_judgeRoute _ _ _) h
    · exact h
  · exact Work.refl _ _

theorem internal_endExchange : Internal [.rp, .rs, .smc, .hp] d (endExchange d) := by
  unfold endExchange
  dsimp only
  have h : ∀ f, (∀ p : Rp, (f p).remoteTab = p.remoteTab) → Internal [.rp, .rs, .smc, .hp] d (publishPhaseRp (d.setRp f)) :=
    fun f hf => Work.after (internal_publishPhaseRp _) (Work.after (Internal.setRp d f hf) (Work.refl _ _))
  split
  · exact Work.after (internal_startBootLoad _ _) (h _ (by exact fun _ => rfl))
  · exact Work.after (internal_judgeDeferred _) (h _ (by exact fun _ => rfl))

theorem internal_exchangeMoves : ∀ (k : Nat) (d : Dev), Internal linkBlocks d (exchangeMoves k d)
  | 0, d => Work.refl _ d
  | k + 1, d => by
    unfold exchangeMoves
    split
    · exact Work.refl _ _
    · split
      · exact Work.refl _ _
      · exact (internal_switchEvent d).trans (internal_exchangeMoves k _)
    · dsimp only
      have h : ∀ f, (∀ p : Rp, (f p).remoteTab = p.remoteTab) → Internal linkBlocks d (d.setRp f) :=
    fun f hf => Work.after (Internal.setRp d f hf) (Work.refl _ _)
      split
      · exact ((h _ (by exact fun _ => rfl)).trans ((internal_endExchange _).mono (by simp))).trans (internal_exchangeMoves k _)
      · exact h _ (by exact fun _ => rfl)

theorem internal_exchangeSettle : Internal linkBlocks d (exchangeSettle d) := internal_exchangeMoves 8 d

theorem internal_leaveExchange (r : Fin 32) : Internal [.rp] d (leaveExchange d r) := Internal.setRp d _

theorem internal_mapAcked (r : Fin 32) : Internal [.rs] d (mapAcked d r) := by
  unfold mapAcked
  exact Work.ite (fun _ => internal_offer _ _ _) (fun _ => Work.refl _ _)

/-! ### Remotes -/

theorem internal_stateShown (r : Fin 32) (o : RemoteState) : Internal [.smc, .hp] d (stateShown d r o) := by
  unfold stateShown
  exact Work.ite (fun _ => Work.refl _ _)
    (fun _ => Work.after (internal_setLatch _ _ _) ((internal_publish _ _ _ (by decide)).mono (by simp)))

theorem internal_departed (r : Fin 32) : Internal linkBlocks d (departed d r) := by
  unfold departed
  dsimp only
  have h : Internal linkBlocks d (leaveExchange (deliveryDoubt (stopHolding d r) r) r) :=
    Work.after (internal_leaveExchange _ _) (Work.after (internal_deliveryDoubt _ _)
      ((internal_stopHolding d r).mono (by simp)))
  split
  · exact Work.ite (fun _ => Work.after (internal_testEnd _) h) (fun _ => h)
  · exact h

theorem internal_afterDepartures (b : Bool) : Internal linkBlocks d (afterDepartures d b) := by
  unfold afterDepartures
  dsimp only
  refine Work.after (internal_bicUpdate _) ?_
  refine Work.after (internal_exchangeSettle _) ?_
  have h : Internal linkBlocks d (uvRecheck d) := (internal_uvRecheck d).mono (by simp)
  exact Work.ite (fun _ => Work.after (internal_sruEvaluate _) h) (fun _ => h)

theorem internal_joinStart (r : Fin 32) : Internal linkBlocks d (joinStart d r) := by
  unfold joinStart
  dsimp only
  refine Work.after (internal_afterDepartures _ _) ?_
  refine Work.after (internal_stateShown _ _ _) ?_
  refine Work.after (internal_offer _ _ _) ?_
  refine Work.after (internal_departed _ _) ?_
  exact Work.after (Internal.setRemote d r _) (Work.refl _ _)

theorem internal_loseOne (st : RemoteState) (r : Fin 32) : Internal linkBlocks d (loseOne st d r) := by
  unfold loseOne
  refine Work.after (internal_departed _ _) ?_
  refine Work.after (internal_stateShown _ _ _) ?_
  exact Work.after (Internal.setRemote d r _) (Work.refl _ _)

theorem internal_loseRemotes (st : RemoteState) (rs : List (Fin 32)) : Internal linkBlocks d (loseRemotes d st rs) :=
  Work.after (internal_afterDepartures _ _) (Work.foldl (fun d r => internal_loseOne d st r) rs d)

theorem internal_validMessage (r : Fin 32) : Internal linkBlocks d (validMessage d r) := by
  unfold validMessage
  refine Work.ite (fun _ => ?_) (fun _ => internal_joinStart _ _)
  exact Work.after (Internal.setRemote d r _) (Work.refl _ _)

theorem internal_markerMiss (r : Fin 32) : Internal [.rs, .smc, .hp] d (markerMiss d r) := by
  unfold markerMiss
  dsimp only
  have h := internal_countMarkerMiss d r
  exact Work.ite (fun _ => Work.after (Internal.setRemote _ r _) h) (fun _ => h)

theorem internal_joinHold (r : Fin 32) : Internal [.rs] d (joinHold d r) := by
  unfold joinHold; split
  · exact internal_offer _ _ _
  · exact Work.refl _ _

theorem internal_joinSubst (r : Fin 32) (p : Fin 8) : Internal [.rs, .bic] d (joinSubst d r p) := by
  unfold joinSubst
  refine Work.ite (fun _ => ?_) (fun _ => Work.refl _ _)
  exact Work.after (internal_offer _ _ _) (Work.after (Internal.setDelivery d r p _) (Work.refl _ _))

theorem internal_joinSet (r : Fin 32) : Internal [.rs, .bic] d (joinSet d r) := by
  unfold joinSet
  dsimp only
  refine Work.after (Work.overAll (fun d p => internal_joinSubst d r p) _) ?_
  refine Work.after (internal_offer _ _ _) ?_
  refine Work.after (internal_offer _ _ _) ?_
  refine Work.after (internal_joinHold _ _) ?_
  refine Work.after (internal_offer _ _ _) ?_
  exact Work.mono (Work.foldl (fun d s => internal_offer d r _) _ d) (by simp)

theorem internal_delayLock (r : Fin 32) (m : Nat) : Internal linkBlocks d (delayLock d r m) := by
  unfold delayLock
  dsimp only
  refine Work.after (internal_publishRemote _ _) ?_
  refine Work.after (internal_joinSet _ _) ?_
  refine Work.after (internal_sruLock _ _) ?_
  exact Work.after (Internal.setRemote d r _) (Work.refl _ _)

theorem internal_lockMeasure (r : Fin 32) (m : Nat) : Internal linkBlocks d (lockMeasure d r m) := by
  unfold lockMeasure
  dsimp only
  have h : ∀ run, Internal linkBlocks d (d.setRemote r (fun x => { x with lockRun := run })) := fun run =>
    Work.after (Internal.setRemote d r _) (Work.refl _ _)
  exact Work.ite (fun _ => Work.after (internal_delayLock _ _ _) (h _)) (fun _ => h _)

theorem internal_trackMeasure (r : Fin 32) (m : Nat) : Internal linkBlocks d (trackMeasure d r m) := by
  unfold trackMeasure
  dsimp only
  refine Work.ite (fun _ => ?_) (fun _ => Work.ite (fun _ => ?_) (fun _ => ?_))
  · exact Work.after (Internal.setRemote d r _) (Work.refl _ _)
  · refine Work.after (internal_sruMoved _ _) ?_
    refine Work.after (internal_setLatch _ _ _) ?_
    refine Work.after (internal_publishRemote _ _) ?_
    exact Work.after (Internal.setRemote d r _) (Work.refl _ _)
  · exact Work.after (Internal.setRemote d r _) (Work.refl _ _)

theorem internal_echoTaken (r : Fin 32) (seq : BitVec 8) (t : BitVec 16) : Internal linkBlocks d (echoTaken d r seq t) := by
  unfold echoTaken
  split
  · exact Work.refl _ _
  · dsimp only
    have h : Internal linkBlocks d (d.setRemote r (fun m => { m with record := none })) :=
      Work.after (Internal.setRemote d r _) (Work.refl _ _)
    split
    · exact Work.refl _ _
    · split
      · exact Work.after (internal_markerMiss _ _) h
      · split
        · exact Work.ite (fun _ => h) (fun _ => Work.after (internal_lockMeasure _ _ _) h)
        · exact Work.after (internal_trackMeasure _ _ _) h
        · exact Work.after (internal_trackMeasure _ _ _) h
        · exact h
        · exact h

/-- The blocks an acknowledgement reaches. -/
abbrev ackBlocks : List Block := [.bic, .rp, .rs, .smc, .hp, .sru, .uv, .lbu]

theorem internal_ackOwner (r : Fin 32) (m : DownMsg) : Internal ackBlocks d (ackOwner d r m) := by
  unfold ackOwner
  split
  · exact (internal_mapAcked _ _).mono (by simp)
  · exact Work.refl _ _
  · exact Work.refl _ _
  · exact Work.refl _ _
  · exact (internal_substAcked _ _ _).mono (by simp)
  · exact (internal_holdAcked _ _).mono (by simp)
  · rename_i c k
    dsimp only
    refine Work.after (internal_publish _ _ _ (by decide)) ?_
    refine Work.after (Internal.setBudget d r _ (fun b h => ?_)) (Work.refl _ _)
    cases c <;> exact h
  · split
    · exact Work.ite (fun _ => Work.after (Internal.ofRs d _ id) (Work.refl _ _)) (fun _ => Work.refl _ _)
    · exact Work.refl _ _

theorem internal_joinOffersSwitch (r : Fin 32) : Internal [.rs] d (joinOffersSwitch d r) := by
  unfold joinOffersSwitch
  exact Work.ite (fun _ => Work.after (internal_offer _ _ _) (Internal.setRemote d r _)) (fun _ => Work.refl _ _)

theorem internal_joinComplete (r : Fin 32) : Internal linkBlocks d (joinComplete d r) := by
  unfold joinComplete
  dsimp only
  refine Work.after (internal_reachUpdate _) ?_
  refine Work.after (internal_sruEvaluate _) ?_
  refine Work.after (internal_stateShown _ _ _) ?_
  exact Work.after (Internal.setRemote d r _) (Work.refl _ _)

theorem internal_joinProgress (r : Fin 32) : Internal linkBlocks d (joinProgress d r) := by
  unfold joinProgress
  dsimp only
  have h : Internal linkBlocks d (joinOffersSwitch d r) := (internal_joinOffersSwitch d r).mono (by simp)
  exact Work.ite (fun _ => Work.after (internal_joinComplete _ _) h) (fun _ => h)

theorem internal_ackTaken (r : Fin 32) (k y : Byte) (seq : BitVec 6) : Internal ackBlocks d (ackTaken d r k y seq) := by
  unfold ackTaken
  split
  · exact Work.refl _ _
  · split
    · exact Work.refl _ _
    · split
      · exact Work.refl _ _
      · dsimp only
        refine Work.after (internal_exchangeSettle _) ?_
        refine Work.after (internal_joinProgress _ _) ?_
        refine Work.after (internal_ackOwner _ _ _) ?_
        exact Work.after (Internal.setRemote d r _) (Work.refl _ _)

theorem internal_alarmTaken (r : Fin 32) (p o : Bool) : Internal [.rs, .bic, .smc, .hp] d (alarmTaken d r p o) := by
  unfold alarmTaken
  dsimp only
  split
  · exact Work.refl _ _
  · refine Work.after (internal_reachUpdate _) ?_
    refine Work.after (internal_setLatch _ _ _) ?_
    refine Work.after (internal_publish _ _ _ (by decide)) ?_
    exact Work.after (Internal.setRemote d r _) (Work.refl _ _)

theorem internal_serviceGrade (r : Fin 32) (st : RemoteState) : Internal [.rs, .uv, .smc, .hp] d (serviceGrade d r st) := by
  unfold serviceGrade
  dsimp only
  refine Work.after (internal_uvRecheck _) ?_
  refine Work.after (internal_stateShown _ _ _) ?_
  exact Work.after (Internal.setRemote d r _) (Work.refl _ _)

theorem internal_checkFailure (r : Fin 32) : Internal [.rs, .uv, .smc, .hp] d (checkFailure d r) := by
  unfold checkFailure
  dsimp only
  have h : Internal [.rs, .uv, .smc, .hp] d ((countCheckFail d r).setRemote r
      (fun m => { m with winFail := sat65535 (m.winFail + 1) })) :=
    Work.after (Internal.setRemote _ r _) ((internal_countCheckFail d r).mono (by simp))
  exact Work.ite (fun _ => Work.after (internal_serviceGrade _ _ _) h) (fun _ => h)

theorem internal_pcountTaken (r : Fin 32) (v : BitVec 16) : Internal [.rs, .smc, .hp] d (pcountTaken d r v) := by
  unfold pcountTaken
  split
  · split
    · exact Work.after (internal_countPatternErrors _ _ _) (Work.after (Internal.ofRs d _ id) (Work.refl _ _))
    · exact Work.refl _ _
  · exact Work.refl _ _

theorem internal_ackExpiry (r : Fin 32) (i : MsgId) : Internal linkBlocks d (ackExpiry d r i) := by
  unfold ackExpiry
  split
  · exact Work.refl _ _
  · split
    · exact Work.refl _ _
    · split
      · exact internal_joinStart _ _
      · exact Work.after (Internal.setRemote d r _) (Work.refl _ _)

theorem internal_superviseOne (r : Fin 32) : Internal [.rs, .uv, .smc, .hp] d (superviseOne d r) := by
  unfold superviseOne
  dsimp only
  split
  · exact Work.ite (fun _ => internal_serviceGrade _ _ _) (fun _ => Work.refl _ _)
  · split
    · exact Work.after (Internal.setRemote d r _) (Work.refl _ _)
    · split
      · exact internal_serviceGrade _ _ _
      · exact Work.after (Internal.setRemote d r _) (Work.refl _ _)
  all_goals exact Work.refl _ _

theorem internal_clearFails (k : Nat) : Internal [.rs] d { d with rs := { d.rs with
    superDue := k, remotes := d.rs.remotes.map (fun m => { m with winFail := 0 }) } } := by
  refine Internal.ofRs d _ (fun h => ⟨h.1, fun r => ?_⟩)
  have := h.2 r
  simp only [Dev.remote] at this ⊢
  simpa using this

theorem internal_superviseAll : Internal [.rs, .uv, .smc, .hp] d (superviseAll d) := by
  unfold superviseAll
  dsimp only
  refine Work.after (Work.overAll (fun d r => internal_publish d _ _ (by decide)) _) ?_
  refine Work.after (Work.overAll (fun d x => internal_publish d _ _ (by decide)) _) ?_
  exact Work.after (internal_clearFails _ _) (Work.overAll internal_superviseOne d)

/-! ### Ports -/

theorem internal_updateNear (x : Fin 4) : Internal [.lp, .uv, .smc, .hp] d (updateNear d x) := by
  unfold updateNear
  dsimp only
  split
  · exact Work.refl _ _
  · refine Work.after (internal_uvRecheck _) ?_
    refine Work.after (internal_setLatch _ _ _) ?_
    refine Work.after (internal_publish _ _ _ (by decide)) ?_
    exact Work.after (Internal.setPort d x _) (Work.refl _ _)

/-- The blocks that a port's state reaches. -/
abbrev portBlocks : List Block := [.lp, .bic, .rp, .rs, .smc, .hp, .sru, .uv]

theorem internal_portMoves (x : Fin 4) (st : PortState) : Internal portBlocks d (portMoves d x st) := by
  unfold portMoves
  dsimp only
  have h1 : Internal portBlocks d (publishPort (d.setPort x (fun p =>
      { p with state := st, good := 0, bad := 0,
               fifo := if (d.port x).state = .running ∨ st = .running then [] else p.fifo, mode := .starting,
               word := if (d.port x).state = .running ∧ st ≠ .running then [] else p.word })) x) :=
    Work.after (internal_publish _ _ _ (by decide)) (Work.after (Internal.setPort d x _ (fun _ h => h) (fun p h => by
      dsimp only; split
      · simp
      · exact h)) (Work.refl _ _))
  have h2 := Work.ite (p := (d.port x).state = .running ∨ st = .running)
    (fun _ => Work.after (internal_setLatch _ (portCell x) latchPortState) h1) (fun _ => h1)
  have h3 := Work.after (internal_updateNear _ x) h2
  exact Work.ite (fun _ => Work.after (internal_loseRemotes _ _ _) h3) (fun _ => h3)

theorem internal_alignmentWord (x : Fin 4) (g : Bool) : Internal portBlocks d (alignmentWord d x g) := by
  unfold alignmentWord
  dsimp only
  split
  · exact Work.refl _ _
  · split
    · exact Work.after (Internal.setPort d x _) (Work.refl _ _)
    · split
      · exact internal_portMoves _ _ _
      · exact Work.after (Internal.setPort d x _) (Work.refl _ _)
  · split
    · exact Work.after (Internal.setPort d x _) (Work.refl _ _)
    · split
      · exact (Work.mono (internal_countAlignLoss d x) (by simp)).trans (internal_portMoves _ _ _)
      · exact Work.after (Internal.setPort d x _) (Work.refl _ _)

theorem internal_lightLost (x : Fin 4) : Internal portBlocks d (lightLost d x) := by
  unfold lightLost
  split
  · exact Work.refl _ _
  · exact internal_portMoves _ _ _
  · exact (Work.mono (internal_countAlignLoss d x) (by simp)).trans (internal_portMoves _ _ _)

end Sys2Proof.Machine
end

