-- ==== Sys2Proof/Laws/WorkTables.lean ====
section
/-! SUPPORT. Laws/WorkTables.lean: what each operation of Levels, TakeUp, Programme, Links and the flash work can do. -/

namespace Sys2Proof.Machine

-- In order, so that the package as one text compiles with few threads.
set_option Elab.async false

open Sys2Proof

variable (d : Dev)

/-! ### The Level Budget Unit -/

theorem find_steps {p : Nat → Bool} {k : Nat} (h : steps.find? p = some k) : k ≤ 47 := by
  have := List.mem_of_find?_eq_some h
  simp only [steps, List.mem_range] at this
  omega

theorem fitStep_le (s r : Nat) : (fitStep s r).1 ≤ 47 := by
  unfold fitStep; split
  · rename_i k h; exact find_steps h
  · exact Nat.le_refl _

theorem progTarget_le (s r : Nat) : (progTarget s r).1 ≤ 47 := by
  unfold progTarget; split
  · exact Nat.zero_le _
  · exact fitStep_le _ _

theorem carTarget_le (s r : Nat) : (carTarget s r).1 ≤ 47 := by
  unfold carTarget; split
  · exact Nat.zero_le _
  · exact fitStep_le _ _

theorem stepToward_le {t c : Nat} (ht : t ≤ 47) (hc : c ≤ 47) : stepToward t c ≤ 47 := by
  unfold stepToward; split
  · exact ht
  · split <;> omega

theorem evaluateBudget_le {b : Budget} (e sr sp sc : Nat) (q : BitVec 16) (h : b.progStep ≤ 47 ∧ b.carStep ≤ 47) :
    (evaluateBudget b e sr sp sc q).progStep ≤ 47 ∧ (evaluateBudget b e sr sp sc q).carStep ≤ 47 :=
  ⟨stepToward_le (progTarget_le _ _) h.1, stepToward_le (carTarget_le _ _) h.2⟩

theorem internal_offerLevel (r : Fin 32) (c : Bool) (o n : Nat) : Internal [.rs] d (offerLevel d r c o n) := by
  unfold offerLevel
  exact Work.ite (fun _ => Work.refl _ _) (fun _ => internal_offer _ _ _)

theorem internal_storeBudget (r : Fin 32) (e sr sp sc : Nat) (q : BitVec 16) :
    Internal [.lbu] d (d.setBudget r (fun _ => evaluateBudget (d.budget r) e sr sp sc q)) := by
  refine Internal.ofLbu d _ (fun hs k => ?_)
  have e' := budget_setBudget d r k (fun _ => evaluateBudget (d.budget r) e sr sp sc q)
  rw [show ({ d with lbu := d.lbu.modify r (fun _ => evaluateBudget (d.budget r) e sr sp sc q) } : Dev).budget k = _ from e']
  split
  · exact evaluateBudget_le _ _ _ _ _ (hs r)
  · exact hs k

theorem internal_evaluateOne (r : Fin 32) : Internal [.lbu, .rs, .smc, .hp] d (evaluateOne d r) := by
  unfold evaluateOne
  dsimp only
  refine Work.ite (fun _ => ?_) (fun _ => Work.refl _ _)
  refine Work.after (internal_offerLevel _ _ _ _ _) ?_
  refine Work.after (internal_offerLevel _ _ _ _ _) ?_
  refine Work.after (Work.ite (bs := [.smc, .hp]) (fun _ => internal_setLatch _ _ _) (fun _ => Work.refl _ _)) ?_
  refine Work.after (internal_publish _ _ _ (by decide)) ?_
  exact Work.after (internal_storeBudget d r _ _ _ _ _) (Work.refl _ _)

/-! ### The level window and the channel table -/

theorem internal_handKeying (b : Fin 8 → Bool) : Internal sruBlocks d (handKeying d b) := by
  unfold handKeying
  dsimp only
  refine Work.overAll (fun d e => Work.ite (fun _ => Work.refl _ _) (fun _ => ?_)) d
  exact Work.after (internal_keyingChange _ _ _ _) ((internal_setLatch _ _ _).mono (by simp))

theorem internal_handPresence (b : Fin 8 → Bool) : Internal [.smc, .hp] d (handPresence d b) := by
  unfold handPresence
  refine Work.overAll (fun d p => Work.ite (fun _ => Work.refl _ _) (fun _ => ?_)) d
  exact Work.after (internal_setLatch _ _ _) (Work.mono (internal_publish _ _ _ (by decide)) (by simp))

theorem internal_closeClamp (p : Fin 8) : Internal [.pm, .smc, .hp] d
    (if 0 < (d.mod p).clamp then
      setLatch (d.setMod p (fun m => { m with lastClamp := (d.mod p).clamp, clamp := 0 })) (slotCell (progSlot p))
        latchOverDeviation
    else d.setMod p (fun m => { m with lastClamp := (d.mod p).clamp, clamp := 0 })) := by
  have h : ∀ f, Internal [.pm, .smc, .hp] d (d.setMod p f) := fun f => Work.after (Internal.setMod d p f) (Work.refl _ _)
  exact Work.ite (fun _ => Work.after (internal_setLatch _ _ _) (h _)) (fun _ => h _)

theorem internal_closeClips : Internal [.pm, .smc, .hp] d (closeClips d) := by
  unfold closeClips
  dsimp only
  refine Work.after (Work.overAll (fun d p => internal_closeClamp d p) _) ?_
  refine Work.overAll (fun d s => ?_) d
  exact Work.ite (fun _ => (internal_setLatch _ _ _).mono (by simp)) (fun _ => Work.refl _ _)

theorem internal_publishWindow (s : Fin 40) : Internal [.smc] d (publishWindow d s) :=
  internal_publish _ _ _ (by split <;> decide)

/-- The blocks that the close of a level window reaches. -/
abbrev windowBlocks : List Block := [.lm, .sru, .uv, .rs, .smc, .hp, .lbu, .pm]

theorem internal_windowClose : Internal windowBlocks d (windowClose d) := by
  unfold windowClose
  dsimp only
  refine Work.after (Work.overAll (fun d n => internal_publish d _ _ (by decide)) _) ?_
  refine Work.after (Work.overAll (fun d s => internal_publishWindow d s) _) ?_
  refine Work.after (internal_closeClips _) ?_
  refine Work.after (Work.overAll internal_evaluateOne _) ?_
  refine Work.after (internal_handPresence _ _) ?_
  refine Work.after (internal_handKeying _ _) ?_
  exact Work.after (Internal.ofLm d _ rfl) (Work.refl _ _)

theorem chanForm_kind (s : Fin 40) (e : ChanRaw) : (chanForm s e).kind = .off ∨ (chanForm s e).kind = slotRange s := by
  unfold chanForm; split
  · exact Or.inl rfl
  · exact Or.inr rfl

theorem internal_newChannels {new : Tab 40 ChanEntry} (slots : Tab 40 Slot) (mods : Tab 8 Modulator) (h : LegalKinds new) :
    Internal [.lm, .pm] d { d with lm := { d.lm with chan := new, slots := slots }, pm := { d.pm with mods := mods } } :=
  ⟨fun b hb => by cases b <;> simp_all [Dev.agree], rfl, ⟨rfl, rfl⟩, fun _ j h => ⟨j, h, rfl⟩, id, fun _ _ _ => rfl, fun _ => id, id, id,
    fun _ => id, fun hc => ⟨h, hc.2⟩, id, fun _ => rfl, fun _ _ _ h => h⟩

theorem internal_channelSwitch {new : Tab 40 ChanEntry} (h : LegalKinds new) :
    Internal windowBlocks d (channelSwitch d new) := by
  unfold channelSwitch
  dsimp only
  refine Work.after (internal_handPresence _ _) ?_
  refine Work.after (internal_handKeying _ _) ?_
  refine Work.after (Work.overAll (bs := [.smc]) (fun d p => Work.ite (fun _ => Work.refl _ _)
    (fun _ => internal_publish _ _ _ (by decide))) _) ?_
  refine Work.after (Work.overAll (fun d s => internal_publish d _ _ (by decide)) _) ?_
  exact Work.after (internal_newChannels d _ _ h) (Work.refl _ _)

/-! ### Table switches -/

theorem internal_clearAlarms (r : Fin 32) : Internal [.rs, .smc] d (clearAlarms d r) :=
  Work.after (internal_publish _ _ _ (by decide)) (Work.after (Internal.setRemote d r _) (Work.refl _ _))

/-- Work that keeps everything but the working tables. -/
abbrev Switches : List Block → Dev → Dev → Prop := Work true true true false

/-- One block's working table is replaced. -/
theorem switches_remote (t : Tab 32 RemoteEntry) : Switches [.rp] d (d.setRp (fun p => { p with remoteTab := t })) :=
  ⟨fun b hb => by cases b <;> simp_all [Dev.agree], rfl, ⟨rfl, rfl⟩, fun _ j h => ⟨j, h, rfl⟩, id, fun _ _ _ => rfl,
    fun _ => id, id, id, fun _ => id, id, id, fun h => absurd h (by decide), fun _ _ _ h => h⟩

theorem switches_prog (t : Tab 8 ProgEntry) : Switches [.pm] d { d with pm := { d.pm with table := t } } :=
  ⟨fun b hb => by cases b <;> simp_all [Dev.agree], rfl, ⟨rfl, rfl⟩, fun _ j h => ⟨j, h, rfl⟩, id, fun _ _ _ => rfl,
    fun _ => id, id, id, fun _ => id, id, id, fun h => absurd h (by decide), fun _ _ _ h => h⟩

theorem switches_rescue (g : Nat) (t : Tab 8 RescueEntry) :
    Switches [.sru] d { d with sru := { d.sru with guardTicks := g, table := t } } :=
  ⟨fun b hb => by cases b <;> simp_all [Dev.agree], rfl, ⟨rfl, rfl⟩, fun _ j h => ⟨j, h, rfl⟩, id, fun _ _ _ => rfl,
    fun _ => id, id, id, fun _ => id, id, id, fun h => absurd h (by decide), fun _ _ _ h => h⟩

theorem switches_source (m : Bool) (t : Tab 8 SrcEntry) (a : Bool) :
    Switches [.bic] d { d with bic := { d.bic with master := m, table := t, alarmMasked := a } } :=
  ⟨fun b hb => by cases b <;> simp_all [Dev.agree], rfl, ⟨rfl, rfl⟩, fun _ j h => ⟨j, h, rfl⟩, id, fun _ _ _ => rfl,
    fun _ => id, id, id, fun _ => id, id, id, fun h => absurd h (by decide), fun _ _ _ h => h⟩

theorem switches_remoteSwitch (new : Tab 32 RemoteEntry) : Switches linkBlocks d (remoteSwitch d new) := by
  unfold remoteSwitch
  dsimp only
  refine Work.after (internal_bicUpdate _).weaken ?_
  refine Work.after (internal_sruEvaluate _).weaken ?_
  refine Work.after (Work.overAll (bs := [.rs]) (fun d r => Work.ite (fun _ => Work.refl _ _)
    (fun _ => internal_offer _ _ _)) _).weaken ?_
  have h : Switches linkBlocks d ((disabledBy d.rp.remoteTab new).foldl clearAlarms
      (d.setRp (fun p => { p with remoteTab := new }))) :=
    Work.after (Work.foldl internal_clearAlarms _ _).weaken ((switches_remote d new).mono (by simp))
  exact Work.ite (fun _ => h) (fun _ => Work.after (internal_loseRemotes _ _ _).weaken h)

theorem switches_programmeSwitch (new : Tab 8 ProgEntry) : Switches [.pm, .smc] d (programmeSwitch d new) := by
  unfold programmeSwitch
  dsimp only
  refine Work.after (Work.overAll (bs := [.smc]) (fun d p => Work.ite (fun _ => Work.refl _ _)
    (fun _ => internal_publish _ _ _ (by decide))) _).weaken ?_
  exact (switches_prog d new).mono (by simp)

theorem switches_rescueSwitch (g : Nat) (new : Tab 8 RescueEntry) : Switches sruBlocks d (rescueSwitch d g new) :=
  Work.after (internal_sruEvaluate _).weaken ((switches_rescue d g new).mono (by simp))

theorem internal_switchPending (o : SrcEntry) (h : Bool) (n : Fin 8) : Internal [.bic, .smc, .hp] d (switchPending o h d n) := by
  unfold switchPending
  extract_lets new d1 d2 on d3 c
  have h1 : Internal [.bic, .smc, .hp] d d1 := Work.ite (fun _ => internal_withdrawLine d n) (fun _ => Work.refl _ _)
  have h2 : Internal [.bic, .smc, .hp] d d2 := Work.ite (fun _ => h1)
    (fun _ => Work.after (internal_publishPending _ _) (Work.after (Internal.setSource _ n _) h1))
  have h3 : Internal [.bic, .smc, .hp] d d3 :=
    Work.ite (fun _ => Work.after (internal_takeLevel _ _) h2) (fun _ => h2)
  clear_value d3
  refine Work.ite (fun _ => ?_) (fun _ => h3)
  have h4 : Internal [.bic, .smc, .hp] d
      (publishPending (d3.setSource n (fun c => { c with lineReq := false, cueReq := none })) n) :=
    Work.after (internal_publishPending _ _) (Work.after (Internal.setSource _ n _) h3)
  exact Work.ite (fun _ => Work.after (internal_setLatch _ _ _) h4) (fun _ => h4)

theorem switches_sourceRecords (m : Bool) (new : Tab 8 SrcEntry) : Switches serviceBlocks d (sourceRecords d m new) := by
  unfold sourceRecords
  dsimp only
  refine Work.after (Work.overAll (fun d n => internal_switchPending d _ _ n) _).weaken ?_
  refine Work.after (Work.overAll (bs := serviceBlocks) (fun d n => Work.ite (fun _ => internal_serviceEnd _ _ _)
    (fun _ => Work.refl _ _)) _).weaken ?_
  exact (switches_source d m new _).mono (by simp)

theorem switches_sourceSwitch (m : Bool) (new : Tab 8 SrcEntry) : Switches serviceBlocks d (sourceSwitch d m new) :=
  Work.after (Work.overAll internal_tryStart _).weaken (switches_sourceRecords d m new)

/-! ### The take-up dispatcher -/

/-- Every block but the model's clock. -/
abbrev allBlocks : List Block := [.hp, .smc, .lm, .lp, .rs, .rp, .lbu, .pm, .bic, .sru, .uv, .fb]

theorem internal_takeUpChannel (l : Layout) (w : BitVec 32) : Internal windowBlocks d (takeUpChannel d l w) := by
  unfold takeUpChannel
  dsimp only
  split
  · exact Work.mono (internal_takeUpRefused _ _ _ _ _) (by simp)
  · refine Work.after (internal_takenUp _ _ _) (internal_channelSwitch d (fun s => ?_))
    rw [Tab.get_ofFn]
    exact chanForm_kind _ _

theorem switches_takeUpRemote (l : Layout) (w : BitVec 32) : Switches linkBlocks d (takeUpRemote d l w) := by
  unfold takeUpRemote
  dsimp only
  split
  · exact (internal_takeUpRefused _ _ _ _ _).weaken.mono (by simp)
  · exact Work.after (internal_takenUp _ _ _).weaken (switches_remoteSwitch _ _)

theorem switches_takeUpTable (l : Layout) (t : TableId) (w : BitVec 32) : Switches allBlocks d (takeUpTable d l t w) := by
  unfold takeUpTable
  cases t <;> dsimp only
  · exact (internal_takeUpChannel _ _ _).weaken.mono (by simp)
  · exact (switches_takeUpRemote _ _ _).mono (by simp)
  · exact (internal_takeUpRoute _ _ _).weaken.mono (by simp)
  · exact Work.after (internal_takenUp _ _ _).weaken ((switches_sourceSwitch _ _ _).mono (by simp))
  · exact Work.after (internal_takenUp _ _ _).weaken ((switches_programmeSwitch _ _).mono (by simp))
  · exact Work.after (internal_takenUp _ _ _).weaken ((switches_rescueSwitch _ _ _).mono (by simp))

theorem internal_setLastReq (i : Fin 6) (w : BitVec 32) :
    Internal [.smc] d { d with smc := { d.smc with lastReq := d.smc.lastReq.set i w } } :=
  Internal.ofSmc d _ rfl rfl rfl rfl (fun j h => ⟨j, h, rfl⟩)

theorem switches_judgeTable (l : Layout) (t : TableId) (w : BitVec 32) : Switches allBlocks d (judgeTable d l t w) := by
  unfold judgeTable
  refine Work.ite (fun _ => Work.refl _ _) (fun _ => ?_)
  exact Work.after (switches_takeUpTable _ _ _ _) ((internal_setLastReq d _ _).weaken.mono (by simp))

theorem switches_judgeAll (l : Layout) : Switches allBlocks d (judgeAll d l) := by
  unfold judgeAll
  dsimp only
  refine Work.after (switches_judgeTable _ _ _ _) ?_
  refine Work.after (switches_judgeTable _ _ _ _) ?_
  refine Work.after (switches_judgeTable _ _ _ _) ?_
  refine Work.after (internal_exchangeSettle _).weaken ?_
  refine Work.after (internal_judgeRoute _ _ _).weaken ?_
  exact Work.after (switches_judgeTable _ _ _ _) (switches_judgeTable d l _ _)

/-! ### Sample streams -/

theorem internal_bimSample (p : Fin 8) (c : Int) (m : Fin 12) : Internal [.pm] d (bimSample d p c m) := by
  unfold bimSample
  dsimp only
  split
  · exact Work.refl _ _
  · refine Work.ite (fun _ => Work.refl _ _) (fun _ => ?_)
    exact Work.ite (fun _ => (Internal.setBim d m _).trans (Internal.setMod _ p _)) (fun _ => Internal.setBim d m _)

theorem internal_emit (s : Fin 40) (xs : List Sample) : Internal [.lm] d (emit d s xs) := Internal.setSlot d s _

theorem internal_compositeSample (p : Fin 8) (x : Sample) : Internal [.lm, .pm] d (compositeSample d p x) := by
  unfold compositeSample
  dsimp only
  refine Work.after (Work.overAll (fun d m => internal_bimSample d p _ m) _) ?_
  refine Work.after (internal_emit _ _ _) ?_
  exact Work.after (Internal.setMod d p _) (Work.refl _ _)

theorem internal_programmeSample (p : Fin 8) (x : Sample) : Internal [.lm, .pm] d (programmeSample d p x) := by
  unfold programmeSample
  dsimp only
  have h : ∀ f, Internal [.lm, .pm] d (d.setSlot (progSlot p) f) := fun f => Work.after (Internal.setSlot d _ f) (Work.refl _ _)
  split
  · exact Work.after (Internal.setMod _ p _) (h _)
  · exact Work.after (internal_compositeSample _ _ _) (h _)

theorem internal_filteredSample (s : Fin 40) (x : Sample) : Internal [.lm, .pm] d (filteredSample d s x) := by
  unfold filteredSample
  split
  · exact internal_programmeSample _ _ _
  all_goals exact Work.mono (internal_emit _ _ _) (by simp)

theorem internal_offSample (s : Fin 40) : Internal [.lm, .pm] d (offSample d s) := by
  unfold offSample
  dsimp only
  refine Work.ite (fun _ => ?_) (fun _ => Work.after (Internal.setSlot d s _) (Work.refl _ _))
  refine Work.after (Work.overAll (bs := [.pm]) (fun d m => ?_) _)
    (Work.after (Internal.setSlot d s _) (Work.refl _ _))
  exact Work.ite (fun _ => Internal.setBim d m _) (fun _ => Work.refl _ _)

theorem internal_slotDonor (a b : Sample) (s : Fin 40) : Internal [.lm, .pm] d (slotDonor d a b s) := by
  unfold slotDonor
  dsimp only
  have h : ∀ f, Internal [.lm, .pm] d (d.setSlot s f) := fun f => Work.after (Internal.setSlot d _ f) (Work.refl _ _)
  refine Work.ite (fun _ => Work.ite (fun _ => internal_offSample d s) (fun _ => h _))
    (fun _ => Work.ite (fun _ => ?_) (fun _ => h _))
  exact Work.after (internal_filteredSample _ _ _) (h _)

theorem internal_donorSample (a b : Sample) : Internal [.lm, .pm] d (donorSample d a b) :=
  Work.overAll (fun d s => internal_slotDonor d a b s) d

/-! ### Links -/

theorem fifoStore_le {p : Port} (w : List Sample) (h : p.fifo.length ≤ 64) : (fifoStore p w).fifo.length ≤ 64 := by
  unfold fifoStore
  dsimp only
  split <;> simp <;> omega

theorem internal_wordArrives (x : Fin 4) (w : List Sample) : Internal [.lp, .uv, .smc, .hp] d (wordArrives d x w) := by
  unfold wordArrives
  dsimp only
  refine Work.ite (fun _ => ?_) (fun _ => Work.refl _ _)
  refine Work.after (internal_updateNear _ _) ?_
  have h : Internal [.lp, .uv, .smc, .hp] d (d.setPort x (fun p => fifoStore p w)) :=
    Work.after (Internal.setPort d x _ (fun _ h => h) (fun p h => fifoStore_le w h)) (Work.refl _ _)
  exact Work.ite (fun _ => Work.after (internal_countSlip _ _) h) (fun _ => h)

theorem fifoTake_counters (p : Port) : (fifoTake p).codeViol = p.codeViol ∧ (fifoTake p).alignLoss = p.alignLoss ∧
    (fifoTake p).slips = p.slips := by
  unfold fifoTake; split <;> exact ⟨rfl, rfl, rfl⟩

theorem fifoTake_le {p : Port} (h : p.fifo.length ≤ 64) : (fifoTake p).fifo.length ≤ 64 := by
  unfold fifoTake; split
  · rename_i q he; rw [he] at h; simp at h; dsimp only; omega
  · exact h
  · exact h
  · exact h

theorem internal_readPort (x : Fin 4) : Internal [.lp, .uv, .smc, .hp] d (readPort d x) := by
  unfold readPort
  dsimp only
  refine Work.ite (fun _ => ?_) (fun _ => Work.refl _ _)
  refine Work.after (internal_updateNear _ _) ?_
  have h : Internal [.lp, .uv, .smc, .hp] d (d.setPort x fifoTake) :=
    Work.after (Internal.setPort d x _ (fun p h => by
      obtain ⟨a, b, c⟩ := fifoTake_counters p; rw [a, b, c]; exact h) (fun p h => fifoTake_le h)) (Work.refl _ _)
  exact Work.ite (fun _ => Work.after (internal_countSlip _ _) h) (fun _ => h)

theorem internal_carrierWord (s : Fin 40) : Internal [.lm] d (carrierWord d s) := by
  unfold carrierWord
  dsimp only
  exact Work.ite (fun _ => Internal.setSlot d s _) (fun _ => Work.refl _ _)

theorem internal_rescueWord (e : Fin 8) : Internal [.uv, .lm] d (rescueWord d e) := by
  unfold rescueWord
  dsimp only
  exact Work.after (Internal.setSlot _ _ _) (Work.after (Internal.setVoter d e _) (Work.refl _ _))

theorem internal_setDonorOut (o : Tab 2 (List Sample)) : Internal [.lm] d { d with lm := { d.lm with donorOut := o } } :=
  Internal.ofLm d _ rfl

theorem internal_readDone (n k : Nat) : Internal [.lp] d { d with lp := { d.lp with readNo := n, readDue := k } } :=
  Internal.ofLp d _ (fun h => h) (fun h => h)

theorem internal_donorOutputs : Internal [.lm] d (donorOutputs d) := by
  unfold donorOutputs
  dsimp only
  refine Work.after (internal_setDonorOut _ _) ?_
  exact Work.overAll (fun d s => Work.ite (fun _ => Internal.setSlot d s _) (fun _ => Work.refl _ _)) d

theorem internal_rescueUplinks : Internal [.uv, .lm] d (rescueUplinks d) := by
  unfold rescueUplinks
  refine Work.ite (fun _ => Work.overAll internal_rescueWord d) (fun _ => ?_)
  exact Work.overAll (fun d e => Work.after (Internal.setSlot d _ _) (Work.refl _ _)) d

theorem internal_readInstant : Internal [.lp, .uv, .smc, .hp, .lm] d (readInstant d) := by
  unfold readInstant
  dsimp only
  refine Work.after (internal_readDone _ _ _) ?_
  refine Work.after (internal_donorOutputs _) ?_
  refine Work.after (internal_rescueUplinks _) ?_
  refine Work.after (Work.overAll internal_carrierWord _) ?_
  exact Work.mono (Work.overAll internal_readPort d) (by simp)

theorem internal_launchMark (r : Fin 32) : Internal [.rs, .smc, .hp] d (launchMark d r) := by
  unfold launchMark
  dsimp only
  exact Work.after (Internal.setRemote _ r _) (Work.ite (fun _ => internal_markerMiss d r) (fun _ => Work.refl _ _))

theorem internal_launchOther (r : Fin 32) (i : MsgId) : Internal [.rs, .rp] d (launchOther d r i) := by
  unfold launchOther
  dsimp only
  have h : ∀ f, (∀ m : Remote, m.checkFails ≤ 65535 ∧ m.misses ≤ 65535 ∧ m.patErrs ≤ 65535 →
      (f m).checkFails ≤ 65535 ∧ (f m).misses ≤ 65535 ∧ (f m).patErrs ≤ 65535) → Internal [.rs, .rp] d (d.setRemote r f) :=
    fun f hf => Work.after (Internal.setRemote d r f hf) (Work.refl _ _)
  exact Work.ite (fun _ => Work.after (Internal.setRp _ _) (h _ (by exact fun _ h => h))) (fun _ => h _ (by exact fun _ h => h))

theorem internal_launchRemote (r : Fin 32) : Internal [.rs, .rp, .smc, .hp] d (launchRemote d r) := by
  unfold launchRemote
  split
  · split
    · split
      · exact Work.mono (internal_launchMark _ _) (by simp)
      all_goals exact Work.mono (internal_launchOther _ _ _) (by simp)
    · exact Work.refl _ _
  · exact Work.refl _ _

theorem internal_launchPattern : Internal [.rs, .smc, .hp] d (launchPattern d) := by
  unfold launchPattern
  split
  · dsimp only
    have h : ∀ t, Internal [.rs, .smc, .hp] d { d with rs := { d.rs with test := t } } := fun t =>
      Work.after (Internal.ofRs d _ (fun h => h)) (Work.refl _ _)
    exact Work.ite (fun _ => Work.after (internal_completeJob _ _) (h _)) (fun _ => h _)
  · exact Work.refl _ _

/-- The end of a launch: the streams of the frame are sent. -/
theorem internal_launchEnds (k : Nat) : Internal [.lm, .pm, .lp] d
    { d with lm := { d.lm with slots := d.lm.slots.map (fun c => { c with out := [] }) },
             pm := { d.pm with bims := d.pm.bims.map (fun b => { b with out := [] }) },
             lp := { d.lp with frameDue := k } } :=
  ⟨fun b hb => by cases b <;> simp_all [Dev.agree], rfl, ⟨rfl, rfl⟩, fun _ j h => ⟨j, h, rfl⟩, id, fun _ _ _ => rfl, fun _ => id,
    fun h => h, fun h => h, fun _ => BimInv.congr (fun _ => ⟨rfl, rfl⟩) (fun m => by simp [Dev.bim]), id, id, fun _ => rfl, fun _ _ _ h => h⟩

theorem internal_launchFrames : Internal [.rs, .rp, .smc, .hp, .lm, .pm, .lp] d (launchFrames d) := by
  unfold launchFrames
  dsimp only
  refine Work.after (internal_launchEnds _ _) ?_
  refine Work.after (internal_launchPattern _) ?_
  refine Work.after (Work.overAll internal_launchRemote _) ?_
  exact Work.mono (Work.overAll (fun d x => Internal.setPort d x _) d) (by simp)

end Sys2Proof.Machine
end

