-- ==== Sys2Proof/Laws/Quiet.lean ====
section
/-! SUPPORT. Laws/Quiet.lean: `Quiet d e` says all that offers of messages and ends of tests can do to the remotes: queues of
remotes that take every kind change, and a test may end; everything else of the Remote Supervisor stands (R26, R47). No voter
comes to select a remote that is not IN_SERVICE (R158). -/

namespace Sys2Proof.Machine

-- In order, so that the package as one text compiles with few threads.
set_option Elab.async false

open Sys2Proof

/-- A remote's record but for its queue. -/
def Remote.core (m : Remote) : Remote := { m with queue := [] }

/-- The remote admits every kind of message (R26). -/
def Remote.takesAll (m : Remote) : Bool := m.serving || m.lockedJoining

structure Quiet (d e : Dev) : Prop where
  core : ∀ r, (e.remote r).core = (d.remote r).core
  shut : ∀ r, (d.remote r).takesAll = false → e.remote r = d.remote r
  test : d.rs.test = none → e.rs.test = none
  rest : e.rs.superDue = d.rs.superDue ∧ e.rs.snapSeq = d.rs.snapSeq
  voters : ∀ r, (d.remote r).state ≠ .inService → (∀ k, (d.voter k).sel ≠ some r) → ∀ k, (e.voter k).sel ≠ some r

theorem Remote.core_state {m k : Remote} (h : m.core = k.core) : m.state = k.state := (Remote.mk.inj h).1

theorem Remote.core_takesAll {m k : Remote} (h : m.core = k.core) : m.takesAll = k.takesAll := by
  have e : m.takesAll = m.core.takesAll := rfl
  have f : k.takesAll = k.core.takesAll := rfl
  rw [e, f, h]

/-- Two records that differ in their queues at most are equal once the queues are. -/
theorem Remote.eq_of_core {m k : Remote} (h : m.core = k.core) : m = { k with queue := m.queue } := by
  have := congrArg (fun x : Remote => { x with queue := m.queue }) h
  exact this

variable {d : Dev}

theorem Quiet.refl (d : Dev) : Quiet d d := ⟨fun _ => rfl, fun _ _ => rfl, id, ⟨rfl, rfl⟩, fun _ _ h => h⟩

theorem Quiet.trans {e f : Dev} (h : Quiet d e) (k : Quiet e f) : Quiet d f where
  core r := (k.core r).trans (h.core r)
  shut r hr := by
    have e1 := h.shut r hr
    exact (k.shut r (by rw [e1]; exact hr)).trans e1
  test := k.test ∘ h.test
  rest := ⟨k.rest.1.trans h.rest.1, k.rest.2.trans h.rest.2⟩
  voters r hr hv := k.voters r (Remote.core_state (h.core r) ▸ hr) (h.voters r hr hv)

theorem Quiet.after {e f : Dev} (k : Quiet e f) (h : Quiet d e) : Quiet d f := h.trans k

theorem Quiet.foldl {α : Type} {f : Dev → α → Dev} (h : ∀ d a, Quiet d (f d a)) : ∀ (l : List α) (d : Dev), Quiet d (l.foldl f d)
  | [], d => Quiet.refl d
  | a :: l, d => (h d a).trans (Quiet.foldl h l (f d a))

theorem Quiet.overAll {k : Nat} {f : Dev → Fin k → Dev} (h : ∀ d a, Quiet d (f d a)) (d : Dev) : Quiet d (overAll d f) :=
  Quiet.foldl h _ d

theorem Quiet.ite {p : Prop} [Decidable p] {e f : Dev} (h : p → Quiet d e) (k : ¬ p → Quiet d f) :
    Quiet d (if p then e else f) := by
  by_cases hp : p
  · rw [if_pos hp]; exact h hp
  · rw [if_neg hp]; exact k hp

/-- Work that leaves the remotes, and brings no voter to select a remote that is not IN_SERVICE. -/
theorem Quiet.ofVoters {e : Dev} (h : e.rs = d.rs)
    (hv : ∀ r, (d.remote r).state ≠ .inService → (∀ k, (d.voter k).sel ≠ some r) → ∀ k, (e.voter k).sel ≠ some r) : Quiet d e :=
  ⟨fun r => by simp only [Dev.remote, h], fun r _ => by simp only [Dev.remote, h], fun t => by rw [h]; exact t,
    by rw [h]; exact ⟨rfl, rfl⟩, hv⟩

theorem Quiet.ofRs {e : Dev} (h : e.rs = d.rs) (hu : e.uv = d.uv := by rfl) : Quiet d e :=
  Quiet.ofVoters h (fun r _ hv k => by unfold Dev.voter; rw [hu]; exact hv k)

/-- Work outside the Remote Supervisor and the Uplink Voter. -/
theorem Work.quiet {n b w q : Bool} {bs : List Block} {e : Dev} (h : Work n b w q bs d e) (hb : Block.rs ∉ bs := by decide)
    (hu : Block.uv ∉ bs := by decide) : Quiet d e := Quiet.ofRs (h.only .rs hb).symm (h.only .uv hu).symm

variable (d)

theorem quiet_setLatch (i : Fin 85) (b : Fin 32) : Quiet d (setLatch d i b) := (internal_setLatch d i b).quiet

theorem quiet_offer (r : Fin 32) (m : DownMsg) (hm : m.kind ≠ .mark) : Quiet d (offer d r m) := by
  unfold offer
  split
  · rename_i h
    have all : (d.remote r).takesAll = true := by
      unfold admits at h
      unfold Remote.takesAll Remote.serving Remote.lockedJoining
      revert h
      cases (d.remote r).state <;> simp [hm]
    refine ⟨fun x => ?_, fun x hx => ?_, id, ⟨rfl, rfl⟩, fun _ _ h => h⟩
    · rw [remote_setRemote]; split
      · rename_i e; subst e; rfl
      · rfl
    · rw [remote_setRemote, if_neg]
      intro e; subst e; rw [all] at hx; cases hx
  · exact Quiet.refl _

/-! ### Reserve lanes and the test -/

theorem quiet_testStop : Quiet d (testStop d) := by
  unfold testStop
  split
  · exact Quiet.refl _
  · rename_i t _
    dsimp only
    have h0 : Quiet d { d with rs := { d.rs with test := none } } :=
      ⟨fun _ => rfl, fun _ _ => rfl, fun _ => rfl, ⟨rfl, rfl⟩, fun _ _ h => h⟩
    have h1 := h0.trans (quiet_offer _ t.remote (.pattern none) nofun)
    have h2 := h1.trans (internal_publishPort _ t.port).quiet
    exact Quiet.ite (fun _ => h2.trans (internal_completeJob _ _).quiet) (fun _ => h2)

theorem quiet_testEnd : Quiet d (testEnd d) := by
  unfold testEnd
  split
  · exact Quiet.refl _
  · exact (quiet_testStop d).trans (internal_releaseLane _ _ _).quiet

theorem quiet_testPreempt : Quiet d (testPreempt d) := by
  unfold testPreempt
  split
  · exact Quiet.refl _
  · exact (quiet_testStop d).trans (quiet_setLatch _ _ _)

theorem quiet_poolRequest (x : Fin 4) (q : VersionReq) : Quiet d (poolRequest d x q) := by
  have lane : ∀ (d : Dev) i l, Quiet d (setLane d x i l) := fun d i l => (internal_setLane d x i l).quiet
  have pool : ∀ (d : Dev) f, Quiet d (d.setPool x f) := fun d f => Quiet.ofRs rfl
  unfold poolRequest
  dsimp only
  split
  · exact lane _ _ _
  · split
    · exact (quiet_testPreempt d).trans (lane _ _ _)
    · split
      · split
        · exact (pool d _).trans (lane _ _ _)
        · exact (pool d _).trans (internal_publishPool _ _).quiet
      · exact (pool d _).trans (internal_publishPool _ _).quiet

theorem quiet_bicLanes : Quiet d (bicLanes d) := by
  unfold bicLanes
  have rel : ∀ (d : Dev) (x : Fin 4) (f : VersionReq → Bool), Quiet d (releaseWhere d x f) := fun d x f =>
    Quiet.foldl (fun d (h : Fin 12 × VersionReq) => (internal_releaseLane d x h.1).quiet) _ d
  have wd : ∀ (d : Dev) (x : Fin 4) (f : VersionReq → Bool), Quiet d (withdrawWhere d x f) := fun d x f =>
    Quiet.foldl (fun d q => (internal_poolWithdraw d x q).quiet) _ d
  refine Quiet.after (Quiet.overAll (fun d x => rel d x _) _) ?_
  refine Quiet.after (Quiet.overAll (fun d x => wd d x _) _) ?_
  refine Quiet.after (Quiet.foldl (fun d q => Quiet.overAll (fun d x =>
    Quiet.ite (fun _ => quiet_poolRequest d x q) (fun _ => Quiet.refl _)) d) _ _) ?_
  refine Quiet.after (Quiet.overAll (fun d x => rel d x _) _) ?_
  exact Quiet.overAll (fun d x => wd d x _) _

/-! ### The Break-In Controller -/

theorem quiet_deliverOne (r : Fin 32) (p : Fin 8) : Quiet d (deliverOne d r p) := by
  unfold deliverOne
  dsimp only
  have sub : ∀ v, (substMsg p v).kind ≠ .mark := by intro v; cases v <;> exact nofun
  split
  · refine Quiet.after (quiet_offer _ _ _ (sub _)) ?_
    exact Quiet.ofRs rfl
  · exact Quiet.ofRs rfl

theorem quiet_deliverUpdate : Quiet d (deliverUpdate d) :=
  Quiet.overAll (fun d r => Quiet.overAll (fun d p => quiet_deliverOne d r p) d) d

theorem quiet_bicUpdate : Quiet d (bicUpdate d) := by
  unfold bicUpdate
  refine Quiet.after (internal_reachUpdate _).quiet ?_
  refine Quiet.after (quiet_deliverUpdate _) ?_
  exact Quiet.after (quiet_bicLanes _) (internal_recomputeZones d).quiet

theorem quiet_endSteps (n : Fin 8) (why : EndReason) (g : Bool) : Quiet d (endSteps d n why g) := by
  unfold endSteps
  dsimp only
  refine Quiet.after (quiet_setLatch _ _ _) ?_
  refine Quiet.after (internal_publishSource _ _).quiet ?_
  refine Quiet.after (quiet_bicUpdate _) ?_
  refine Quiet.after (internal_releaseBims _ g n).quiet ?_
  have h : ∀ (d : Dev) f, Quiet d (d.setSource n f) := fun d f => Quiet.ofRs rfl
  exact Quiet.after (h _ _) (internal_withdrawClip d n).quiet

theorem quiet_requestBim (q : Fin 8 × Fin 8) : Quiet d (requestBim d q) := by
  have pair : ∀ (d : Dev) k, Quiet d (publishPair d k) := fun d k => (internal_publishPair d k).quiet
  have give : ∀ m, Quiet d (bimGive d m q) := fun m => by
    unfold bimGive
    exact Quiet.after (pair _ _) (Quiet.after (pair _ _) (Quiet.ofRs rfl))
  unfold requestBim; split
  · exact give _
  · split
    · split
      · exact give _
      · exact Quiet.refl _
    · exact Quiet.refl _

theorem quiet_serviceStart (n : Fin 8) : Quiet d (serviceStart d n) := by
  unfold serviceStart
  dsimp only
  refine Quiet.after (quiet_setLatch _ _ _) ?_
  refine Quiet.after (internal_publishSource _ _).quiet ?_
  refine Quiet.after (internal_afStart _ _ _).quiet ?_
  have src : ∀ (d : Dev) f, Quiet d (d.setSource n f) := fun d f => Quiet.ofRs rfl
  refine Quiet.after (src _ _) ?_
  refine Quiet.after (quiet_bicUpdate _) ?_
  refine Quiet.after (Quiet.foldl (fun d p => quiet_requestBim d _) _ _) ?_
  exact (work_fillRecord d n _ _).quiet

theorem quiet_tryStart (n : Fin 8) : Quiet d (tryStart d n) := by
  unfold tryStart
  exact Quiet.ite (fun _ => quiet_serviceStart d n) (fun _ => Quiet.refl _)

theorem quiet_serviceEnd (n : Fin 8) (why : EndReason) : Quiet d (serviceEnd d n why) := by
  unfold serviceEnd
  exact Quiet.ite
    (fun _ => Quiet.after (quiet_tryStart _ _) (Quiet.after (internal_takeLevel _ _).quiet (quiet_endSteps d n why true)))
    (fun _ => quiet_endSteps d n why true)

/-! ### Voting, simulcast -/

/-- What `bestBy` finds is one of the remotes it looks at. -/
theorem bestBy_mem (q : Fin 32 → Nat) : ∀ {l : List (Fin 32)} {b : Fin 32}, bestBy q l = some b → b ∈ l
  | r :: rs, b, h => by
    unfold bestBy at h
    split at h
    · exact List.mem_cons.2 (.inl (Option.some.inj h).symm)
    · rename_i c hc
      split at h
      · exact List.mem_cons_of_mem _ (Option.some.inj h ▸ bestBy_mem q hc)
      · exact List.mem_cons.2 (.inl (Option.some.inj h).symm)

/-- A remote that meets the state conditions is IN_SERVICE (R155). -/
theorem stateCond_inService {d : Dev} {k : Fin 8} {r : Fin 32} (h : stateCond d k r = true) : (d.remote r).state = .inService := by
  unfold stateCond at h
  simp only [Bool.and_eq_true, decide_eq_true_eq] at h
  exact h.1.1.1.1.1

/-- A hard switch leaves the other voters, and selects no remote out of service (R159). -/
theorem hardSwitch_voter (k : Fin 8) (o : Fin 32) : (∀ y, y ≠ k → (hardSwitch d k o).voter y = d.voter y) ∧
    ∀ r, (d.remote r).state ≠ .inService → ((hardSwitch d k o).voter k).sel ≠ some r := by
  let sel := bestBy (fun r => ((d.voter k).last.get r).getD 0)
    ((allFin 32).filter (fun r => ((d.voter k).last.get r).isSome && stateCond d k r && r != o))
  have uv : (hardSwitch d k o).uv = (d.setVoter k (fun v => { v with sel := sel, offset := 0 })).uv := by
    have p : ∀ d : Dev, (publishVoter d k).uv = d.uv := fun d => ((internal_publishVoter d k).only .uv (by decide)).symm
    have l : ∀ (d : Dev) i b, (setLatch d i b).uv = d.uv := fun d i b => ((internal_setLatch d i b).only .uv (by decide)).symm
    unfold hardSwitch
    dsimp only
    split
    · rw [l, l, p]
    · rw [l, p]
  refine ⟨fun y hy => ?_, fun r hr hs => ?_⟩
  · show (hardSwitch d k o).uv.get y = _
    rw [uv]
    exact (Tab.get_modify _ k y _).trans (if_neg (Ne.symm hy))
  · have hs' : sel = some r := by
      have e : (hardSwitch d k o).uv.get k = { d.voter k with sel := sel, offset := 0 } := by
        rw [uv]; exact Tab.get_modify_eq _ _ _
      rw [Dev.voter, e] at hs
      exact hs
    have := bestBy_mem _ hs'
    rw [List.mem_filter, Bool.and_eq_true, Bool.and_eq_true] at this
    exact hr (stateCond_inService this.2.1.2)

/-- Voters judged one by one, each leaving the remotes and the other voters: none is left with a remote out of service. -/
theorem unselects_foldl {f : Dev → Fin 8 → Dev} (hf : ∀ d k, (f d k).rs = d.rs ∧ (∀ y, y ≠ k → (f d k).voter y = d.voter y) ∧
    ∀ r, (d.remote r).state ≠ .inService → ((f d k).voter k).sel ≠ some r) (r : Fin 32) :
    ∀ (l : List (Fin 8)) (d : Dev), (d.remote r).state ≠ .inService → ∀ k, k ∈ l ∨ (d.voter k).sel ≠ some r →
      ((l.foldl f d).voter k).sel ≠ some r
  | [], _, _, _, h => h.resolve_left List.not_mem_nil
  | a :: l, d, hr, k, h => by
    refine unselects_foldl hf r l (f d a) (by unfold Dev.remote; rw [(hf d a).1]; exact hr) k ?_
    by_cases e : k = a
    · exact .inr (e ▸ (hf d a).2.2 r hr)
    · rcases h with h | h
      · exact .inl ((List.mem_cons.1 h).resolve_left e)
      · exact .inr ((hf d a).2.1 k e ▸ h)

/-- After the recheck no voter selects a remote that is not IN_SERVICE (R158). -/
theorem uvRecheck_unselects (r : Fin 32) (hr : (d.remote r).state ≠ .inService) (k : Fin 8) : ((uvRecheck d).voter k).sel ≠ some r := by
  have all : ∀ k : Fin 8, k ∈ allFin 8 := by decide
  unfold uvRecheck overAll
  refine unselects_foldl (fun d k => ?_) r (allFin 8) d hr k (.inl (all k))
  split
  · rename_i x hx
    split
    · rename_i h
      exact ⟨rfl, fun _ _ => rfl, fun r hr hs => hr (stateCond_inService (Option.some.inj (hx.symm.trans hs) ▸ h))⟩
    · exact ⟨((internal_hardSwitch d k x).only .rs (by decide)).symm, hardSwitch_voter d k x⟩
  · rename_i hx
    exact ⟨rfl, fun _ _ => rfl, fun r _ hs => by rw [hx] at hs; cases hs⟩

theorem quiet_uvRecheck : Quiet d (uvRecheck d) :=
  Quiet.ofVoters ((internal_uvRecheck d).only .rs (by decide)).symm (fun r hr _ => uvRecheck_unselects d r hr)


theorem quiet_offerHold (r : Fin 32) : Quiet d (offerHold d r) := by
  unfold offerHold
  dsimp only
  split
  · rename_i v _
    have hold : ∀ f, Quiet d (d.setHold r f) := fun f => Quiet.ofRs rfl
    split
    · exact Quiet.after (quiet_offer _ r (.hold v) nofun) (hold _)
    · exact Quiet.refl _
  · exact Quiet.refl _

theorem quiet_reReference : Quiet d (reReference d) := by
  unfold reReference
  dsimp only
  refine Quiet.after (quiet_setLatch _ _ _) ?_
  refine Quiet.after (internal_publish _ _ _ (by decide)).quiet ?_
  refine Quiet.after (Quiet.overAll quiet_offerHold _) ?_
  refine Quiet.after (quiet_uvRecheck _) ?_
  refine Quiet.after (Quiet.overAll (fun d r => Quiet.ite (fun _ => quiet_setLatch d _ _) (fun _ => Quiet.refl _)) _) ?_
  refine Quiet.after (Quiet.overAll (fun d r => (internal_setHoldFor d r).quiet) _) ?_
  exact Quiet.ofRs rfl

theorem quiet_sruEvaluate : Quiet d (sruEvaluate d) := by
  unfold sruEvaluate
  exact Quiet.ite (fun _ => Quiet.refl _) (fun _ => quiet_reReference d)

theorem quiet_sruMoved (r : Fin 32) : Quiet d (sruMoved d r) := by
  unfold sruMoved
  dsimp only
  refine Quiet.after (quiet_sruEvaluate _) ?_
  refine Quiet.after (quiet_offerHold _ r) ?_
  refine Quiet.after (quiet_uvRecheck _) ?_
  have h := (internal_setHoldFor d r).quiet
  exact Quiet.ite (fun _ => h.trans (quiet_setLatch _ _ _)) (fun _ => h)

theorem quiet_sruLock (r : Fin 32) : Quiet d (sruLock d r) := by
  unfold sruLock
  dsimp only
  refine Quiet.after (quiet_uvRecheck _) ?_
  refine Quiet.after (internal_publishHold _ r).quiet ?_
  have h : ∀ f, Quiet d (d.setHold r f) := fun f => Quiet.ofRs rfl
  exact Quiet.ite (fun _ => (h _).trans (quiet_setLatch _ _ _)) (fun _ => h _)

theorem quiet_keyingChange (e : Fin 8) (k o : Bool) : Quiet d (keyingChange d e k o) := by
  unfold keyingChange
  exact Quiet.ite (fun _ => Quiet.ofRs rfl) (fun _ => Quiet.after (quiet_sruEvaluate _) (Quiet.ofRs rfl))

/-! ### The route exchange -/

theorem quiet_setRp (f : Rp → Rp) : Quiet d (d.setRp f) := Quiet.ofRs rfl

theorem quiet_offerMaps (r : Fin 32) (o n : Routes) : Quiet d (offerMaps d r o n) :=
  Quiet.foldl (fun d s => quiet_offer d r (.map s (mapOf n r s)) nofun) _ d

theorem quiet_startExchange (new : Routes) (w : BitVec 32) (b : Bool) : Quiet d (startExchange d new w b) := by
  unfold startExchange
  dsimp only
  refine Quiet.after (internal_publishPhaseRp _).quiet ?_
  exact Quiet.after (Quiet.foldl (fun d r => quiet_offerMaps d r _ _) _ _) (quiet_setRp d _)

theorem quiet_switchOffers (o n : Routes) (r : Fin 32) : Quiet d (switchOffers d o n r) := by
  have switch : ∀ d, Quiet d (offer d r .switch) := fun d => quiet_offer d r _ nofun
  unfold switchOffers
  refine Quiet.ite (fun _ => switch d) (fun _ => ?_)
  exact Quiet.ite (fun _ => quiet_offerMaps d r o n) (fun _ => (quiet_offerMaps d r o n).trans (switch _))

theorem quiet_switchEvent : Quiet d (switchEvent d) := by
  unfold switchEvent
  dsimp only
  refine Quiet.after (quiet_bicUpdate _) ?_
  refine Quiet.after (quiet_sruEvaluate _) ?_
  refine Quiet.after (quiet_uvRecheck _) ?_
  refine Quiet.after (internal_publishPhaseRp _).quiet ?_
  refine Quiet.after (Quiet.overAll (fun d x => (internal_publish d _ _ (by decide)).quiet) _) ?_
  refine Quiet.after (quiet_setRp _ _) ?_
  refine Quiet.after (Quiet.foldl (fun d r => quiet_switchOffers d _ _ r) _ _) ?_
  refine Quiet.ite (fun _ => ?_) (fun _ => ?_)
  · exact Quiet.after (internal_publish _ _ _ (by decide)).quiet (Quiet.ofRs rfl)
  · exact Quiet.after (internal_takenUp _ _ _).quiet (quiet_setRp d _)

theorem quiet_startBootLoad (rows : Tab 160 (Option (List Byte))) : Quiet d (startBootLoad d rows) :=
  Quiet.after (quiet_startExchange _ _ _ _) (quiet_setRp d _)

theorem quiet_takeUpRoute (l : Layout) (w : BitVec 32) : Quiet d (takeUpRoute d l w) := by
  unfold takeUpRoute
  dsimp only
  split
  · exact (internal_takeUpRefused _ _ _ _ _).quiet
  · exact quiet_startExchange _ _ _ _

theorem quiet_judgeRoute (l : Layout) (w : BitVec 32) : Quiet d (judgeRoute d l w) := by
  unfold judgeRoute
  refine Quiet.ite (fun _ => Quiet.refl _) (fun _ => Quiet.ite (fun _ => Quiet.ofRs rfl) (fun _ => ?_))
  exact Quiet.after (quiet_takeUpRoute _ _ _) (Quiet.ofRs rfl)

theorem quiet_judgeDeferred : Quiet d (judgeDeferred d) := by
  unfold judgeDeferred
  refine Quiet.ite (fun _ => ?_) (fun _ => Quiet.refl _)
  dsimp only
  have h : Quiet d { d with smc := { d.smc with deferred := d.smc.deferred.set 2 false } } := Quiet.ofRs rfl
  split
  · exact h.trans (quiet_judgeRoute _ _ _)
  · exact h

theorem quiet_endExchange : Quiet d (endExchange d) := by
  unfold endExchange
  dsimp only
  have h := (quiet_setRp d (fun p => { p with phase := .idle, switchSent := [] })).trans (internal_publishPhaseRp _).quiet
  split
  · exact h.trans (quiet_startBootLoad _ _)
  · exact h.trans (quiet_judgeDeferred _)

theorem quiet_exchangeMoves : ∀ (k : Nat) (d : Dev), Quiet d (exchangeMoves k d)
  | 0, d => Quiet.refl d
  | k + 1, d => by
    unfold exchangeMoves
    dsimp only
    split
    · exact Quiet.refl _
    · exact Quiet.ite (fun _ => Quiet.refl _) (fun _ => (quiet_switchEvent d).trans (quiet_exchangeMoves k _))
    · refine Quiet.ite (fun _ => ?_) (fun _ => quiet_setRp d _)
      exact ((quiet_setRp d _).trans (quiet_endExchange _)).trans (quiet_exchangeMoves k _)

theorem quiet_exchangeSettle : Quiet d (exchangeSettle d) := quiet_exchangeMoves 8 d

/-! ### What follows a departure -/

theorem quiet_departed (r : Fin 32) : Quiet d (departed d r) := by
  unfold departed
  dsimp only
  have h : Quiet d (leaveExchange (deliveryDoubt (stopHolding d r) r) r) :=
    ((internal_stopHolding d r).quiet.trans (internal_deliveryDoubt _ r).quiet).trans (internal_leaveExchange _ r).quiet
  split
  · exact Quiet.ite (fun _ => h.trans (quiet_testEnd _)) (fun _ => h)
  · exact h

/-- After departures no voter selects a remote that is not IN_SERVICE (R158). -/
theorem afterDepartures_unselects (b : Bool) (r : Fin 32) (hr : (d.remote r).state ≠ .inService) (k : Fin 8) :
    ((afterDepartures d b).voter k).sel ≠ some r := by
  have q0 := quiet_uvRecheck d
  have q1 : Quiet (uvRecheck d) (afterDepartures d b) := by
    unfold afterDepartures
    dsimp only
    refine Quiet.after (quiet_bicUpdate _) ?_
    refine Quiet.after (quiet_exchangeSettle _) ?_
    exact Quiet.ite (fun _ => quiet_sruEvaluate _) (fun _ => Quiet.refl _)
  refine q1.voters r ?_ (uvRecheck_unselects d r hr) k
  rw [Remote.core_state (q0.core r)]
  exact hr

theorem quiet_afterDepartures (b : Bool) : Quiet d (afterDepartures d b) := by
  unfold afterDepartures
  dsimp only
  refine Quiet.after (quiet_bicUpdate _) ?_
  refine Quiet.after (quiet_exchangeSettle _) ?_
  exact Quiet.ite (fun _ => (quiet_uvRecheck d).trans (quiet_sruEvaluate _)) (fun _ => quiet_uvRecheck d)

/-- Work leaves the clock and the model's counters. -/
theorem Work.clock {n b w q : Bool} {bs : List Block} {d e : Dev} (h : Work n b w q bs d e) (hb : Block.clock ∉ bs := by decide) :
    d.now = e.now ∧ d.eventNo = e.eventNo ∧ d.freeNo = e.freeNo := h.only .clock hb

theorem testEnd_test (d : Dev) : (testEnd d).rs.test = none := by
  have stop : (testStop d).rs.test = none := by
    unfold testStop
    split
    · assumption
    · dsimp only
      split
      · exact ((quiet_offer _ _ (.pattern none) nofun).trans ((internal_publishPort _ _).quiet.trans
          (internal_completeJob _ _).quiet)).test rfl
      · exact ((quiet_offer _ _ (.pattern none) nofun).trans (internal_publishPort _ _).quiet).test rfl
  unfold testEnd
  split
  · assumption
  · exact (internal_releaseLane _ _ _).quiet.test stop

/-- A test to the departed remote ends (R47). -/
theorem departed_test (d : Dev) (r : Fin 32) (t : Test) (ht : d.rs.test = some t) (hr : t.remote = r) :
    (departed d r).rs.test = none := by
  unfold departed
  dsimp only
  have h : d.rs = (leaveExchange (deliveryDoubt (stopHolding d r) r) r).rs :=
    (Work.after (internal_leaveExchange _ r) (Work.after (internal_deliveryDoubt _ r)
      ((internal_stopHolding d r).mono (cs := [.sru, .smc, .hp, .bic, .rp]) (by decide)))).only .rs (by decide)
  rw [← h, ht]
  simp only [hr, if_true]
  exact testEnd_test _

/-- A join start does what R34 lists. -/
theorem joinStart_spec (d : Dev) (r : Fin 32) : JoinStarts d r (joinStart d.event r) := by
  set d0 := d.event.setRemote r (joinRecord d.event) with hd0
  have e0 : d0.remote r = joinRecord d.event (d.remote r) := remote_setRemote_same _ _ _
  have dep := internal_departed d0 r
  have q1 : Quiet d0 (departed d0 r) := quiet_departed _ r
  set d1 := departed d0 r with hd1
  have e1 : d1.remote r = joinRecord d.event (d.remote r) := by
    rw [← e0]; exact q1.shut r (by rw [e0]; rfl)
  have cl : d1.eventNo = d.eventNo + 1 := dep.clock.2.1.symm
  set d2 := offer d1 r .mark with hd2
  have e2 : d2.remote r = { joinRecord d.event (d.remote r) with queue := [⟨.mark, d.eventNo + 1, false, 0, none, none⟩] } := by
    rw [hd2, offer, if_pos (by rw [e1]; rfl), remote_setRemote_same, e1, cl]; rfl
  have shown : Internal [.smc, .hp] d2 (stateShown d2 r (d.remote r).state) := internal_stateShown d2 r _
  set d3 := stateShown d2 r (d.remote r).state with hd3
  have rs3 : d2.rs = d3.rs := shown.only .rs (by decide)
  have re3 : ∀ y, d3.remote y = d2.remote y := fun y => by unfold Dev.remote; rw [rs3]
  have q3 := quiet_afterDepartures d3 (d.remote r).serving
  have hj : joinStart d.event r = afterDepartures d3 (d.remote r).serving := rfl
  have aft := internal_afterDepartures d3 (d.remote r).serving
  rw [hj]
  refine ⟨?_, ?_, ?_, afterDepartures_unselects d3 _ r (by rw [re3, e2]; exact nofun), ?_⟩
  · rw [q3.shut r (by rw [re3, e2]; rfl), re3, e2]; rfl
  · intro t ht hr
    refine q3.test ?_
    have : d1.rs.test = none := departed_test _ r t ht hr
    rw [← rs3, hd2]; unfold offer; split
    · exact this
    · exact this
  · intro hl hs
    have hlk : d2.linked = true := by
      have a := dep.state_eq; have b := (internal_offer d1 r .mark).state_eq
      unfold Dev.linked; rw [hd2, b, a]; exact hl
    refine aft.latched rfl _ _ ?_
    rw [hd3]
    unfold stateShown
    rw [if_neg (by rw [e2]; exact fun h => hs h.symm), setLatch_latches, latchesAfter]
    have hk : (publishRemote d2 r).linked = true := by
      rw [publishRemote, (shown_publish d2 (remoteCell r) [(4, 3), (8, 2)] (by decide)).linked_eq]; exact hlk
    rw [if_pos hk, Tab.get_set_eq]
    simp [latchBit, latchRemoteState]
  · intro y hy
    have a : (d2.remote y).state = (d1.remote y).state := by
      rw [hd2]; unfold offer; split
      · rw [remote_setRemote, if_neg (Ne.symm hy)]
      · rfl
    rw [Remote.core_state (q3.core y), re3, a, Remote.core_state (q1.core y), hd0, remote_setRemote, if_neg (Ne.symm hy)]; rfl
end Sys2Proof.Machine
end

