-- ==== Sys2Proof/Laws/WorkWhole.lean ====
section
/-! SUPPORT. Laws/WorkWhole.lean: what the operations that change the part state, the notices, the flash contents or host
bytes keep: each invariant of Safety.lean on its own. -/

namespace Sys2Proof.Machine

-- In order, so that the package as one text compiles with few threads.
set_option Elab.async false

open Sys2Proof

structure Kept (d e : Dev) : Prop where
  mem : MemoryInv d → MemoryInv e
  news : NewsInv d → NewsInv e
  notices : NoticeInv d → NoticeInv e
  counters : CounterInv d → CounterInv e
  fifo : FifoInv d → FifoInv e
  bims : BimInv d → BimInv e
  channel : ChannelInv d → ChannelInv e
  steps : StepInv d → StepInv e
  layout : LayoutInv d → LayoutInv e

theorem Kept.refl (d : Dev) : Kept d d := ⟨id, id, id, id, id, id, id, id, id⟩

theorem Kept.trans {d e f : Dev} (h : Kept d e) (k : Kept e f) : Kept d f :=
  ⟨k.mem ∘ h.mem, k.news ∘ h.news, k.notices ∘ h.notices, k.counters ∘ h.counters, k.fifo ∘ h.fifo, k.bims ∘ h.bims,
    k.channel ∘ h.channel, k.steps ∘ h.steps, k.layout ∘ h.layout⟩

theorem Kept.after {d e f : Dev} (k : Kept e f) (h : Kept d e) : Kept d f := h.trans k

/-- The work of the blocks keeps every invariant. -/
theorem Work.kept {w q : Bool} {bs : List Block} {d e : Dev} (h : Work true true w q bs d e) : Kept d e :=
  ⟨fun m => ⟨h.mem m.1, by rw [h.chip.1]; exact m.2⟩, h.news rfl, fun n => by
    unfold NoticeInv; rw [h.notices_eq]; exact n, h.counters, h.fifo, h.bims rfl, h.channel, h.steps, fun l => by
    unfold LayoutInv; rw [h.layout_eq]; exact l⟩

theorem Kept.ite {p : Prop} [Decidable p] {d e f : Dev} (h : p → Kept d e) (k : ¬ p → Kept d f) :
    Kept d (if p then e else f) := by
  by_cases hp : p
  · rw [if_pos hp]; exact h hp
  · rw [if_neg hp]; exact k hp

theorem Kept.overAll {n : Nat} {f : Dev → Fin n → Dev} (h : ∀ d i, Kept d (f d i)) (d : Dev) : Kept d (overAll d f) := by
  have : ∀ (l : List (Fin n)) (d : Dev), Kept d (l.foldl f d) := by
    intro l
    induction l with
    | nil => exact fun d => Kept.refl d
    | cons a l ih => exact fun d => (h d a).trans (ih _)
  exact this _ d

theorem Kept.foldl {α : Type} {f : Dev → α → Dev} (h : ∀ d i, Kept d (f d i)) : ∀ (l : List α) (d : Dev), Kept d (l.foldl f d)
  | [], d => Kept.refl d
  | a :: l, d => (h d a).trans (Kept.foldl h l _)

variable (d : Dev)

theorem kept_poke (a : Nat) (bs : List Byte) : Kept d (d.poke a bs) :=
  ⟨fun m => ⟨Memory.write_wf a bs m.1, m.2⟩, id, id, id, id, id, id, id, id⟩

/-- A change of the SMC outside memory, latches, news, notices and layout. -/
theorem kept_smc (x : Smc) (hm : x.mem = d.smc.mem) (hn : x.news = d.smc.news) (hl : x.latches = d.smc.latches)
    (hq : x.notices = d.smc.notices) (ha : x.layout = d.smc.layout) : Kept d { d with smc := x } :=
  ⟨fun m => ⟨by rw [hm]; exact m.1, m.2⟩, fun n i => by simp only; rw [hn, hl]; exact n i,
    fun n => by unfold NoticeInv; simp only; rw [hq]; exact n, id, id, id, id, id,
    fun l => by unfold LayoutInv; simp only; rw [ha]; exact l⟩

theorem kept_hp (x : Hp) : Kept d { d with hp := x } := ⟨id, id, id, id, id, id, id, id, id⟩

/-- The model's own counters and the clock. -/
theorem kept_clock (a b c : Nat) : Kept d { d with now := a, eventNo := b, freeNo := c } :=
  ⟨id, id, id, id, id, id, id, id, id⟩

theorem kept_chip (f : Memory → Memory) (h : bytesWf flashBlank d.fb.chip → bytesWf flashBlank (f d.fb.chip)) :
    Kept d (d.setFb (fun b => { b with chip := f b.chip })) :=
  ⟨fun m => ⟨m.1, h m.2⟩, id, id, id, id, id, id, id, id⟩

/-- Work that may write host bytes: the answers in cells, the snapshot, the result of a command. -/
abbrev Takes : List Block → Dev → Dev → Prop := Work true true false true

theorem takes_setJob (x : Smc) (hf : x.fixed = d.smc.fixed) (hm : x.mem = d.smc.mem) (hn : x.news = d.smc.news)
    (hl : x.latches = d.smc.latches) : Takes [.smc] d { d with smc := x } :=
  ⟨fun b hb => by cases b <;> simp_all [Dev.agree], hf, ⟨rfl, rfl⟩, fun h => absurd h (by decide),
    fun h => by simp only; rw [hm]; exact h, fun h => absurd h (by decide),
    fun _ h i => by simp only; rw [hn, hl]; exact h i, id, id, fun _ => id, id, id, fun _ => rfl,
    fun _ _ _ h => by simp only; rw [hl]; exact h⟩

theorem takes_completeMaint (a : Nat) (t : BitVec 32) (r : MaintResult) : Takes [.smc, .hp] d (completeMaint d a t r) := by
  unfold completeMaint
  dsimp only
  refine Work.after (internal_setLatch _ _ _).weaken ?_
  exact Work.after (takes_setJob _ _ rfl rfl rfl rfl) ((Work.poke d a _).mono (by simp))

theorem kept_completeJob (r : MaintResult) : Kept d (completeJob d r) := (internal_completeJob d r).kept

/-! ### Boot -/

theorem kept_startExchange (new : Routes) (w : BitVec 32) (b : Bool) : Kept d (startExchange d new w b) :=
  (internal_startExchange d new w b).kept

theorem kept_handRoutes (b : BootRec) (r : Routes) : Kept d (handRoutes d b r) := by
  unfold handRoutes
  dsimp only
  exact Kept.ite (fun _ => (Internal.setRp d _).kept)
    (fun _ => Kept.after (internal_exchangeSettle _).kept (kept_startExchange _ _ _ _))

theorem formTables_kinds (b : BootRec) : LegalKinds (formTables d b).chan := by
  intro s
  unfold formTables
  dsimp only
  rw [Tab.get_ofFn]
  exact chanForm_kind _ _

theorem kept_bootTables (b : BootRec) (c : Checked) (h : LegalKinds c.chan) : Kept d (bootTables d b c) := by
  unfold bootTables
  dsimp only
  refine Kept.after (Kept.ite (fun _ => kept_handRoutes _ _ _) (fun _ => Kept.refl _)) ?_
  refine Kept.after (Kept.ite (fun _ => (switches_rescueSwitch _ _ _).kept) (fun _ => Kept.refl _)) ?_
  refine Kept.after (Kept.ite (fun _ => (switches_programmeSwitch _ _).kept) (fun _ => Kept.refl _)) ?_
  refine Kept.after (Kept.ite (fun _ => (switches_sourceSwitch _ _ _).kept) (fun _ => Kept.refl _)) ?_
  refine Kept.after (Kept.ite (fun _ => (switches_remoteSwitch _ _).kept) (fun _ => Kept.refl _)) ?_
  exact Kept.ite (fun _ => (internal_channelSwitch d h).kept) (fun _ => Kept.refl _)

theorem kept_readLines : Kept d (readLines d) := by
  unfold readLines
  dsimp only
  refine Kept.after (Kept.overAll (fun d n => (internal_tryStart d n).kept) _) ?_
  exact Kept.overAll (fun d n => Kept.ite (fun _ => (Internal.setSource d n _).kept) (fun _ => Kept.refl _)) d

theorem kept_setFb (f : Fb → Fb) (h : ∀ b, (f b).chip = b.chip ∧ (f b).boot = b.boot := by exact fun _ => ⟨rfl, rfl⟩) : Kept d (d.setFb f) :=
  (Internal.setFb d f h).kept

/-- The boot record leaves the device, or is replaced by one whose checked tables have legal kinds. -/
theorem kept_setBootRec (f : Fb → Fb) (hc : ∀ b, (f b).chip = b.chip)
    (hb : ∀ r c, (f d.fb).boot = some r → r.checked = some c → ChannelInv d → LegalKinds c.chan) : Kept d (d.setFb f) :=
  ⟨fun m => ⟨m.1, by show bytesWf flashBlank (f d.fb).chip; rw [hc]; exact m.2⟩, id, id, id, id, id,
    fun h => ⟨h.1, fun r c hr hk => hb r c hr hk h⟩, id, id⟩

/-- A boot record whose checked tables, if any, have legal kinds. -/
def BootRec.legal (b : BootRec) : Prop := ∀ c, b.checked = some c → LegalKinds c.chan

theorem kept_zeroRevision (t : TableId) : Kept d (zeroRevision d t) := kept_smc d _ rfl rfl rfl rfl rfl

theorem kept_bootSwitch (b : BootRec) (o : BootOutcome) (dir : Tab 16 (Option Clip)) (h : b.legal) :
    Kept d (bootSwitch d b o dir) := by
  unfold bootSwitch
  dsimp only
  refine Kept.after (internal_grantPort _).kept ?_
  refine Kept.after (kept_readLines _) ?_
  refine Kept.after (kept_smc _ _ rfl rfl rfl rfl rfl) ?_
  refine Kept.after (kept_setFb _ _) ?_
  have h0 : Kept d (d.setFb (fun f => { f with boot := none, holder := none })) :=
    kept_setBootRec d _ (fun _ => rfl) (fun r c hr => by cases hr)
  split
  · rename_i c hc
    refine Kept.after (Kept.foldl kept_zeroRevision _ _) ?_
    exact Kept.after (kept_bootTables _ b c (h c hc)) (Kept.after (kept_smc _ _ rfl rfl rfl rfl rfl) h0)
  · exact Kept.after (kept_smc _ _ rfl rfl rfl rfl rfl) h0

theorem kept_setBoot (b : BootRec) (h : b.legal) : Kept d (setBoot d b) :=
  kept_setBootRec d _ (fun _ => rfl) (fun r c hr hc _ => by
    have : b = r := by simpa using hr
    exact h c (this ▸ hc))

theorem kept_bootGoes (b : BootRec) (h : b.legal) : Kept d (bootGoes d b) :=
  Kept.after (internal_freePort _).kept (kept_setBoot d b h)

theorem noteFailure_checked (b : BootRec) (t : TableId) (i : Nat) (c : TakeUpCause) :
    (noteFailure b t i c).checked = b.checked := by
  unfold noteFailure; split <;> rfl

theorem groupCheck_legal (b : BootRec) : (groupCheck d b).legal := by
  intro c hc
  unfold groupCheck at hc
  dsimp only at hc
  cases hc
  exact formTables_kinds _ _

theorem kept_bootBodyDone (b : BootRec) : Kept d (bootBodyDone d b) := by
  unfold bootBodyDone
  dsimp only
  have hl := groupCheck_legal d b
  exact Kept.ite (fun _ => kept_bootSwitch _ _ _ _ hl) (fun _ => kept_bootGoes _ _ hl)

theorem kept_bootStatusDone (b : BootRec) (x : Byte) (h : b.legal) : Kept d (bootStatusDone d b x) := by
  unfold bootStatusDone
  exact Kept.ite (fun _ => Kept.after (kept_bootSwitch _ _ _ _ h) (kept_setFb d _))
    (fun _ => Kept.after (kept_bootGoes _ _ h) (kept_setFb d _))

theorem kept_bootIdentDone (b : BootRec) (x : Byte) (h : b.legal) : Kept d (bootIdentDone d b x) := by
  unfold bootIdentDone
  split
  · exact Kept.after (kept_bootSwitch _ _ _ _ h) (kept_setFb d _)
  · exact Kept.after (kept_bootGoes _ _ h) (kept_setFb d _)

theorem kept_bootHeaderDone (b : BootRec) (h : b.legal) : Kept d (bootHeaderDone d b) := by
  unfold bootHeaderDone
  dsimp only
  split
  · exact Kept.ite (fun _ => kept_bootBodyDone _ _) (fun _ => kept_bootGoes _ _ h)
  · exact kept_bootSwitch _ _ _ _ h

theorem applyRecord_checked (b : BootRec) (r : List Byte) : (applyRecord b r).checked = b.checked := by
  unfold applyRecord; split <;> rfl

theorem kept_bootRecordDone (b : BootRec) (n : Nat) (h : b.legal) : Kept d (bootRecordDone d b n) := by
  unfold bootRecordDone
  dsimp only
  refine Kept.ite (fun _ => kept_bootGoes _ _ (fun c hc => h c ?_)) (fun _ => kept_bootBodyDone _ _)
  rw [← applyRecord_checked b]; exact hc

theorem kept_bootDirectoryDone (b : BootRec) (h : b.legal) : Kept d (bootDirectoryDone d b) := kept_bootSwitch _ _ _ _ h

theorem kept_bootStart (sc : Scope) : Kept d (bootStart d sc) := by
  unfold bootStart
  dsimp only
  refine Kept.after (internal_grantPort _).kept ?_
  exact kept_setBootRec d _ (fun _ => rfl) (fun r c hr hc => by
    have : BootRec.begin sc = r := by simpa using hr
    rw [← this] at hc; cases hc)

/-! ### Flash work -/

theorem kept_flashWorkOver (j : FlashJob) : Kept d (flashWorkOver d j) := by
  unfold flashWorkOver
  refine Kept.ite (fun _ => ?_) (fun _ => ?_)
  · exact Kept.after (internal_freePort _).kept (internal_setFlashJob d _).kept
  · refine Kept.after (internal_freePort _).kept ?_
    exact Kept.after (kept_completeJob _ _) (kept_setFb d _)

theorem kept_flashWorkGoes (j : FlashJob) : Kept d (flashWorkGoes d j) := by
  unfold flashWorkGoes
  exact Kept.ite (fun _ => kept_flashWorkOver _ _)
    (fun _ => Kept.after (internal_freePort _).kept (internal_setFlashJob d _).kept)

theorem kept_maintReadDone (j : FlashJob) (o a n : Nat) : Kept d (maintReadDone d j o a n) :=
  Kept.after (kept_flashWorkGoes _ _) (kept_poke d a _)

theorem kept_programDone (j : FlashJob) (o : Nat) (b : List Byte) : Kept d (programDone d j o b) :=
  Kept.after (kept_flashWorkGoes _ _) (kept_chip d (fun m => chipProgram m o b) (chipProgram_wf o b))

theorem kept_eraseDone (j : FlashJob) (o : Nat) : Kept d (eraseDone d j o) :=
  Kept.after (kept_flashWorkGoes _ _) (kept_chip d (fun m => chipWrite m o (List.replicate 4096 flashBlank)) (chipWrite_wf o _))

theorem timedOutChip_wf (t : Txn) (h : bytesWf flashBlank d.fb.chip) : bytesWf flashBlank (timedOutChip d t) := by
  cases t with
  | program off data due => exact chipProgram_wf off _ h
  | erase off due => exact chipWrite_wf off _ h
  | _ => exact h

/-- A page program that times out turns no bit from 0 to 1 (R195). -/
theorem timedOutChip_program_bit (off due : Nat) (data : List Byte) (k i : Nat) (h : k < data.length)
    (hz : (chipRead d.fb.chip (off + k)).getLsbD i = false) :
    (chipRead (timedOutChip d (.program off data due)) (off + k)).getLsbD i = false := by
  rw [timedOutChip, chipRead_program_in _ _ _ _ (by simpa [freeBytes] using h), BitVec.getLsbD_and, hz, Bool.false_and]

theorem kept_scramble (t : Txn) : Kept d (scramble d t) :=
  ⟨fun m => ⟨m.1, timedOutChip_wf d t m.2⟩, id, id, id, id, id, id, id, id⟩

theorem kept_flashTimedOut (j : FlashJob) (t : Txn) : Kept d (flashTimedOut d j t) :=
  Kept.after (kept_flashWorkOver _ _) (kept_scramble d t)

theorem kept_reloadDone (j : FlashJob) : Kept d (reloadDone d j) := by
  unfold reloadDone
  dsimp only
  refine Kept.after (internal_freePort _).kept ?_
  refine Kept.after (kept_completeJob _ _) ?_
  exact Kept.after (internal_setLatch _ _ _).kept (kept_setFb d _)

theorem kept_clipDone (n : Fin 8) (r : ClipRead) (x : Bool) : Kept d (clipDone d n r x) := by
  unfold clipDone
  dsimp only
  refine Kept.after (internal_grantPort _).kept ?_
  exact Kept.ite (fun _ => kept_setFb d _) (fun _ => Kept.after (internal_clipArrived _ _ _).kept (kept_setFb d _))

/-! ### Cues and maintenance commands -/

theorem takes_takeCue (l : Layout) (n : Fin 8) : Takes serviceBlocks d (takeCue d l n) := by
  unfold takeCue
  dsimp only
  split
  · exact (Work.poke d _ _).mono (by simp)
  · refine Work.after (internal_tryStart _ _).weaken ?_
    refine Work.after (internal_publishPending _ _).weaken ?_
    exact Work.after (Internal.setSource _ n _).weaken ((Work.poke d _ _).mono (by simp))

theorem takes_takeCancel (l : Layout) (n : Fin 8) : Takes serviceBlocks d (takeCancel d l n) := by
  unfold takeCancel
  dsimp only
  refine Work.after (Work.poke _ _ _) ?_
  refine Work.after (internal_publishPending _ _).weaken ?_
  refine Work.after (Internal.setSource _ n _).weaken ?_
  exact Work.ite (fun _ => (internal_serviceEnd d n _).weaken) (fun _ => Work.refl _ _)

theorem takes_maintBegin : Takes [.smc] d (maintBegin d) := takes_setJob d _ rfl rfl rfl rfl

theorem takes_maintBusy (a : Nat) (t : BitVec 32) (w : MaintWork) : Takes [.smc] d (maintBusy d a t w) :=
  Work.after (takes_setJob _ _ rfl rfl rfl rfl) (Work.poke d a _)

theorem internal_clearPortCounters (x : Fin 4) : Internal [.lp, .rs] d (clearPortCounters d x) := by
  unfold clearPortCounters
  dsimp only
  refine Work.after (Work.foldl (bs := [.rs]) (fun d r => Internal.setRemote d r _ (fun m h => ?_)) _ _) ?_
  · exact ⟨Nat.zero_le _, Nat.zero_le _, Nat.zero_le _⟩
  · exact Work.after (Internal.setPort d x _ (fun p h => ⟨Nat.zero_le _, Nat.zero_le _, Nat.zero_le _⟩) (fun _ h => h))
      (Work.refl _ _)

theorem takes_snapshotPort (a : Nat) (c : Bool) (x : Fin 4) : Takes [.smc, .lp, .rs] d (snapshotPort a c d x) := by
  unfold snapshotPort
  dsimp only
  have h : Takes [.smc, .lp, .rs] d ((allFin 8).foldl (fun d p => d.poke (a + 64 + 128 * x.val + 16 + 8 * p.val)
      (remoteRecord d (remoteAt x p))) (d.poke (a + 64 + 128 * x.val) (portRecord d x))) :=
    Work.after (Work.foldl (fun d p => Work.poke d _ _) _ _) ((Work.poke d _ _).mono (by simp))
  exact Work.ite (fun _ => Work.after (internal_clearPortCounters _ _).weaken h) (fun _ => h)

theorem takes_takeSnapshot (l : Layout) (c : MaintCell) : Takes [.smc, .hp, .lp, .rs] d (takeSnapshot d l c) := by
  unfold takeSnapshot
  dsimp only
  refine Work.ite (fun _ => (takes_completeMaint _ _ _ _).mono (by simp)) (fun _ => Work.after (takes_completeMaint _ _ _ _) ?_)
  unfold snapshotCopy
  dsimp only
  refine Work.after (Work.foldl (fun d x => takes_snapshotPort d _ _ x) _ _) ?_
  refine Work.after (Work.poke _ _ _) ?_
  exact (Internal.ofRs d { d.rs with snapSeq := d.rs.snapSeq + 1 } (fun h => h)).weaken.mono (by simp)

theorem internal_portReset (x : Fin 4) : Internal portBlocks d (portReset d x) := by
  unfold portReset
  dsimp only
  refine Work.after (internal_clearPortCounters _ _) ?_
  have h := internal_portMoves d x .dark
  split
  · exact Work.ite (fun _ => Work.after (internal_testEnd _) h) (fun _ => h)
  · exact h

theorem takes_takePortReset (l : Layout) (c : MaintCell) : Takes portBlocks d (takePortReset d l c) := by
  unfold takePortReset
  split
  · exact Work.after (takes_completeMaint _ _ _ _) (internal_portReset d _).weaken
  · exact (takes_completeMaint _ _ _ _).mono (by simp)

theorem internal_startTest (x : Fin 4) (p : Fin 8) (i : Fin 12) : Internal [.rs, .rp, .smc] d (startTest d x p i) := by
  unfold startTest
  dsimp only
  refine Work.after (internal_publishPort _ _) ?_
  refine Work.after (internal_offer _ _ _) ?_
  exact Work.after (internal_setLane _ _ _ _) (Work.after (Internal.ofRs d _ (fun h => h)) (Work.refl _ _))

theorem takes_takePatternStart (l : Layout) (c : MaintCell) : Takes [.rs, .rp, .smc, .hp] d (takePatternStart d l c) := by
  unfold takePatternStart
  split
  · exact (takes_completeMaint _ _ _ _).mono (by simp)
  · exact Work.after (takes_completeMaint _ _ _ _) ((internal_startTest d _ _ _).weaken.mono (by simp))

theorem takes_takePatternStop (l : Layout) (c : MaintCell) : Takes [.rs, .rp, .smc, .hp] d (takePatternStop d l c) := by
  unfold takePatternStop
  split
  · exact (takes_completeMaint _ _ _ _).mono (by simp)
  · exact Work.after (takes_completeMaint _ _ _ _) ((internal_testEnd d).weaken.mono (by simp))

theorem takes_takeErrorInsert (l : Layout) (c : MaintCell) : Takes [.smc, .hp] d (takeErrorInsert d l c) := by
  unfold takeErrorInsert
  split
  · exact takes_completeMaint _ _ _ _
  · exact (takes_maintBusy _ _ _ _).mono (by simp)

theorem takes_takeRereference (l : Layout) (c : MaintCell) : Takes sruBlocks d (takeRereference d l c) :=
  Work.after (takes_completeMaint _ _ _ _) (internal_reReference d).weaken

theorem takes_takeFlash (l : Layout) (k : FlashKind) (c : MaintCell) : Takes [.smc, .hp, .fb] d (takeFlash d l k c) := by
  unfold takeFlash
  split
  · exact (takes_completeMaint _ _ _ _).mono (by simp)
  · exact Work.after (internal_grantPort _).weaken ((takes_maintBusy _ _ _ _).mono (by simp))

theorem takes_takeCommand (l : Layout) : Takes allBlocks d (takeCommand d l) := by
  unfold takeCommand
  dsimp only
  refine Work.trans ((takes_maintBegin d).mono (by simp)) ?_
  split
  · exact (takes_takeSnapshot _ _ _).mono (by simp)
  · exact (takes_takePortReset _ _ _).mono (by simp)
  · exact (takes_takePatternStart _ _ _).mono (by simp)
  · exact (takes_takePatternStop _ _ _).mono (by simp)
  · exact (takes_takeErrorInsert _ _ _).mono (by simp)
  · exact (takes_takeRereference _ _ _).mono (by simp)
  · exact (takes_takeFlash _ _ _ _).mono (by simp)
  · exact (takes_takeFlash _ _ _ _).mono (by simp)
  · exact (takes_takeFlash _ _ _ _).mono (by simp)
  · exact (takes_completeMaint _ _ _ _).mono (by simp)

/-! ### The host -/

theorem addNotice_nodup {q : List WatchCell} (c : WatchCell) (h : q.Nodup) : (addNotice q c).Nodup := by
  unfold addNotice
  split
  · exact h
  · rename_i hc
    refine List.nodup_append.mpr ⟨h, by simp, fun a ha b hb => ?_⟩
    simp at hb hc
    subst hb
    intro e; exact hc (e ▸ ha)

theorem addNotices_nodup : ∀ (cs q : List WatchCell), q.Nodup → (cs.foldl addNotice q).Nodup
  | [], _, h => h
  | c :: cs, _, h => addNotices_nodup cs _ (addNotice_nodup c h)

theorem kept_markOverrun (a n : Nat) : Kept d (markOverrun d a n) := by
  unfold markOverrun
  split
  · exact Kept.ite (fun _ => kept_smc d _ rfl rfl rfl rfl rfl) (fun _ => Kept.refl _)
  · exact Kept.refl _

/-- Bytes stored, clear masks joined, notices raised. -/
theorem kept_hostStore (a : Nat) (bs : List Byte) (ma : Tab 85 (BitVec 32)) (cs : List WatchCell) :
    Kept d { d with smc := { d.smc with mem := d.smc.mem.write a bs, masks := ma,
                                        notices := cs.foldl addNotice d.smc.notices } } :=
  ⟨fun m => ⟨Memory.write_wf a bs m.1, m.2⟩, id, fun n => addNotices_nodup cs _ n, id, id, id, id, id, id⟩

theorem kept_hostWrite (a : Nat) (bs : List Byte) : Kept d (hostWrite d a bs) := by
  unfold hostWrite
  dsimp only
  refine Kept.trans (kept_markOverrun d a bs.length) ?_
  split
  · exact kept_hostStore _ _ _ _ _
  · exact kept_poke _ _ _

theorem kept_takeIe (ie : Bool) : Kept d (takeIe d ie) := by
  unfold takeIe
  dsimp only
  exact Kept.ite (fun _ => Kept.after (kept_hp _ _) (kept_hp d _)) (fun _ => kept_hp d _)

theorem kept_clearWork : Kept d (clearWork d) :=
  ⟨id, id, fun _ => List.nodup_nil, id, id, id, id, id, id⟩

theorem kept_setCause (c : Cause) : Kept d (setCause d c) := kept_smc d _ rfl rfl rfl rfl rfl

theorem kept_setPart (p : PartState) : Kept d (setPart d p) := kept_smc d _ rfl rfl rfl rfl rfl

theorem kept_linkLost : Kept d (linkLost d) := by
  unfold linkLost
  dsimp only
  exact Kept.ite (fun _ => Kept.after (kept_clearWork _) (Kept.after (kept_setPart _ _) (kept_hp d _))) (fun _ => kept_hp d _)

/-- No latch and no news. -/
theorem kept_noNews : Kept d { d with smc := { d.smc with latches := Tab.const 85 0, news := Tab.const 85 false } } :=
  ⟨id, fun _ i => by simp, id, id, id, id, id, id, id⟩

theorem kept_writeCells (l : Layout) : Kept d (writeCells d l) := by
  unfold writeCells
  dsimp only
  refine Kept.after (kept_poke _ _ _) ?_
  exact Kept.after (kept_noNews _) (Kept.overAll (fun d i => kept_poke d _ _) d)

theorem kept_bootDone : Kept d (bootDone d) := by
  unfold bootDone
  exact Kept.ite (fun _ => Kept.after (kept_smc _ _ rfl rfl rfl rfl rfl) (internal_setLatch d _ _).kept) (fun _ => Kept.refl _)

theorem takes_takePosted (l : Layout) : Takes allBlocks d (takePosted d l) := by
  unfold takePosted
  dsimp only
  have h : Takes allBlocks d (overAll d (fun d (n : Fin 8) =>
      if cellState d.smc.mem (cueAddr l n) = 1 then takeCue d l n else d)) :=
    (Work.overAll (fun d n => Work.ite (fun _ => takes_takeCue d l n) (fun _ => Work.refl _ _)) d).mono (by simp)
  exact Work.ite (fun _ => Work.after (takes_takeCommand _ _) h) (fun _ => h)

/-- A layout that has passed its checks is put in use. -/
theorem kept_setLayout (l : Layout) (h : areaCheck l.areas = none ∧ anyMeet ((0, 4096) :: l.areas) = false) :
    Kept d { d with smc := { d.smc with layout := some l } } :=
  ⟨id, id, id, id, id, id, id, id, fun _ k hk => by cases hk; exact h⟩

theorem anchorCheck_areas {m : Memory} (h : anchorCheck m = none) :
    areaCheck (anchorLayout m).areas = none ∧ anyMeet ((0, 4096) :: (anchorLayout m).areas) = false := by
  unfold anchorCheck at h
  split at h
  · cases h
  · split at h
    · cases h
    · split at h
      · cases h
      · rename_i ha
        split at h
        · cases h
        · rename_i hb; exact ⟨ha, by simpa using hb⟩

theorem kept_startGood (l : Layout) (h : areaCheck l.areas = none ∧ anyMeet ((0, 4096) :: l.areas) = false) :
    Kept d (startGood d l) := by
  unfold startGood
  dsimp only
  refine Kept.after ((takes_takePosted _ _).kept) ?_
  refine Kept.after (switches_judgeAll _ _).kept ?_
  refine Kept.after (kept_smc _ _ rfl rfl rfl rfl rfl) ?_
  refine Kept.after (kept_bootDone _) ?_
  refine Kept.after (kept_setPart _ _) ?_
  exact Kept.after (kept_writeCells _ _) (kept_setLayout d l h)

theorem kept_startRequest : Kept d (startRequest d) := by
  unfold startRequest
  dsimp only
  refine Kept.ite (fun _ => kept_setCause _ _) (fun _ => ?_)
  split
  · exact Kept.after (kept_setPart _ _) (Kept.after (kept_setCause _ _) (kept_clearWork d))
  · rename_i h
    exact Kept.after (kept_startGood _ _ (anchorCheck_areas h)) (kept_clearWork d)

theorem internal_resetSources : Internal serviceBlocks d (resetSources d) := by
  unfold resetSources
  dsimp only
  refine Work.after (Work.overAll (fun d n => Internal.setSource d n _) _) ?_
  exact Work.overAll (fun d n => Work.ite (fun _ => internal_endSteps _ _ _ _) (fun _ => Work.refl _ _)) d

theorem internal_clearVoters : Internal [.uv] d (clearVoters d) := Internal.ofUv d _

theorem kept_softReset (sc : Scope) : Kept d (softResetRequest d sc) := by
  unfold softResetRequest
  dsimp only
  refine Kept.ite (fun _ => kept_setCause _ _) (fun _ => ?_)
  refine Kept.after (kept_bootStart _ _) ?_
  refine Kept.after (internal_clearVoters _).kept ?_
  refine Kept.after (internal_resetSources _).kept ?_
  refine Kept.after (kept_smc _ _ rfl rfl rfl rfl rfl) ?_
  refine Kept.after (kept_clearWork _) ?_
  exact Kept.after (kept_setCause _ _) (kept_setPart d _)

/-! ### Notices -/

theorem kept_popNotice : Kept d (popNotice d) :=
  ⟨id, id, fun n => n.sublist (List.tail_sublist _), id, id, id, id, id, id⟩

theorem kept_cueTake (f : Dev → Layout → Fin 8 → Dev) (h : ∀ d l n, Kept d (f d l n)) : Kept d (cueTake d f) := by
  unfold cueTake
  split
  · exact Kept.after (h _ _ _) (kept_popNotice d)
  · exact Kept.refl _

theorem kept_commandTake (f : Dev → Layout → MaintCell → Dev) (h : ∀ d l c, Kept d (f d l c)) : Kept d (commandTake f d) := by
  unfold commandTake
  split
  · exact Kept.after (h _ _ _) (Kept.after (takes_maintBegin _).kept (kept_popNotice d))
  · exact Kept.refl _

end Sys2Proof.Machine
end

