-- ==== Sys2Proof/Tests/Slice0.lean ====
section
/-! SUPPORT. Tests/Slice0.lean: the refusals of `Instr.wf`, small tests of the commands against values taken from the spec's
rules and examples, and for every statement with hypotheses a state that meets them (`witness_…`). -/

namespace Sys2Proof.Tests

-- In order, so that the package as one text compiles with few threads.
set_option Elab.async false

open Sys2Proof Sys2Proof.Machine

/-! ### Helpers -/

/-- The device that a command leaves passes a check. -/
def shows (i : Instr) (d : Dev) (p : Dev → Bool) : Bool :=
  match exec i ⟨d, []⟩ with
  | .next t => p t.dev
  | .fault _ | .refused _ => false

/-- A state with an empty queue. -/
def alone (d : Dev) : State := ⟨d, []⟩

/-- Shared memory with 32-bit words at the addresses listed. -/
def words (l : List (Nat × Nat)) : Memory := l.foldl (fun m w => m.write w.1 (le 4 w.2)) []

/-- A layout: revision block at page 1, cues 2, maintenance 3, status 4 and 5, news 6, snapshot 7, tables 8 to 13. -/
def plan : Layout := ⟨4096, 8192, 12288, 16384, 24576, 28672, 32768, 36864, 40960, 45056, 49152, 53248⟩

/-- The anchor of that layout (10 section 10.3). -/
def anchorWords : List (Nat × Nat) :=
  [(0, 0x5A2780A5), (4, 1), (8, 4096), (12, 8192), (16, 12288), (20, 16384), (24, 24576), (28, 28672), (32, 32768),
    (36, 36864), (40, 40960), (44, 45056), (48, 49152), (52, 53248)]

/-- A LINKED part with that layout, a memory and a notice queue. -/
def linkedWith (m : Memory) (q : List WatchCell) : Dev :=
  { Dev.reset with smc := { Dev.reset.smc with state := .linked, layout := some plan, mem := m, notices := q } }

/-- A LINKED part whose maintenance cell holds a posted command: command word, arguments and words of the cell. -/
def posted (code args : Nat) (rest : List (Nat × Nat)) : Dev :=
  linkedWith (words ([(12288, 1), (12300, 77), (12304, code), (12308, args)] ++ rest)) [.maint]

/-- Remote R0 enabled on a RUNNING port P0, in a state. -/
def oneRemote (f : Remote → Remote) : Dev :=
  let d := Dev.reset.setPort 0 (fun p => { p with state := .running })
  { d with rp := { d.rp with remoteTab := d.rp.remoteTab.modify 0 (fun e => { e with enabled := true }) },
           rs := { d.rs with remotes := d.rs.remotes.modify 0 f } }

/-- Source S0, S1 or another in a state. -/
def oneSource (n : Fin 8) (f : Source → Source) : Dev := Dev.reset.setSource n f

/-! ### What `Instr.wf` refuses -/

theorem test_wf_write_empty : (Instr.hostMemoryWrite 0 []).wf = false := by decide
theorem test_wf_write_last : (Instr.hostMemoryWrite 67108863 [1]).wf = true := by decide
theorem test_wf_write_past : (Instr.hostMemoryWrite 67108863 [1, 2]).wf = false := by decide
theorem test_wf_register_last : (Instr.registerWriteIgnored 4095 0).wf = true := by decide
theorem test_wf_register_past : (Instr.registerWriteIgnored 4096 0).wf = false := by decide
theorem test_wf_register_control : (Instr.registerWriteIgnored 4 0).wf = false := by decide
theorem test_wf_word_320 : (Instr.uplinkWordArrival 0 (List.replicate 320 Sample.zero)).wf = true := by decide +kernel
theorem test_wf_word_321 : (Instr.uplinkWordArrival 0 (List.replicate 321 Sample.zero)).wf = false := by decide +kernel
theorem test_wf_ack_mark : (Instr.ackTimerExpiry 0 ⟨.mark, 0⟩).wf = false := by decide
theorem test_wf_ack_map : (Instr.ackTimerExpiry 0 ⟨.map, 40⟩).wf = false := by decide
theorem test_wf_ack_subst : (Instr.ackTimerExpiry 0 ⟨.subst, 8⟩).wf = false := by decide
theorem test_wf_ack_level : (Instr.ackTimerExpiry 0 ⟨.level, 2⟩).wf = false := by decide
theorem test_wf_ack_gate : (Instr.ackTimerExpiry 0 ⟨.gate, 1⟩).wf = false := by decide

/-! ### Registers and messages as the spec encodes them (10 sections 10.2, 10.10) -/

theorem test_control_start : registerWrite 4 0b000011 = .start true := by decide
theorem test_control_soft_reset : registerWrite 4 0b010111 = .softReset true .safety := by decide
theorem test_control_none_scope : registerWrite 4 0b110100 = .softReset false .none := by decide
theorem test_ident_ignored : registerWrite 0 3 = .registerWriteIgnored 0 3 := by decide

/-- ECHO of sequence 5 with turnaround 0102h; the check is the polynomial's, computed outside the model. -/
theorem test_echo_message : upstreamPosition 3 [1, 0, 0, 5, 2, 1, 0, 82] = some (.echo 3 5 0x0102) := by decide +kernel
/-- CRC-8 with polynomial 07h over the byte 01h is 07h. -/
theorem test_crc : crc8 [1] = 7 := by decide +kernel
theorem test_bad_check : upstreamPosition 3 [1, 0, 0, 5, 2, 1, 0, 0] = some (.controlCheckFailure 3) := by decide +kernel
theorem test_empty_code : upstreamPosition 3 [0, 1, 2, 3, 4, 5, 6, 7] = none := by decide +kernel
theorem test_ident_register : readRegister Dev.reset 0 = 0x00012780 := by decide +kernel
theorem test_cause_register : readRegister Dev.reset 12 = 15 := by decide +kernel
theorem test_mark_bytes : DownMsg.mark.bytes 0 9 = [1, 0, 0, 9, 0, 0, 0, 121] := by decide +kernel
theorem test_subst_through : (DownMsg.subst 3 none).contents 0 = [0xFF, 0x03, 0, 0] := by decide +kernel

/-! ### Host commands -/

theorem test_power_on : shows .powerOnReset (linkedWith [] [.maint]) (fun e => e.smc.state == .booting && e.smc.notices == []) = true := by
  decide +kernel
theorem test_link_loss : shows .pcieLinkLoss (linkedWith [] [.maint]) (fun e => e.smc.state == .autonomous && !e.hp.ie) = true := by
  decide +kernel
theorem test_link_loss_booting : shows .pcieLinkLoss Dev.reset (fun e => e.smc.state == .booting && !e.hp.linkUp) = true := by decide
theorem test_link_return : shows .pcieLinkReturn { Dev.reset with hp := ⟨false, false, 0⟩ } (fun e => e.hp.linkUp) = true := by decide
theorem test_write_past_window : exec (.hostMemoryWrite 67108863 [1, 2]) State.reset = .fault .outsideWindow := by rfl
theorem test_write_cue_notice : shows (.hostMemoryWrite 8255 [9, 9]) (linkedWith [] [])
    (fun e => e.smc.notices == [.cue 0, .cue 1]) = true := by decide +kernel
theorem test_write_status_masks : shows (.hostMemoryWrite 16384 [3]) (linkedWith [] [])
    (fun e => e.smc.mem == [] && e.smc.masks.get 0 == 3) = true := by decide +kernel
theorem test_ie : shows (.ieWrite true) Dev.reset (fun e => e.hp.ie && e.hp.messages == 0) = true := by decide
theorem test_ie_message : shows (.ieWrite true) { Dev.reset with smc := { Dev.reset.smc with news := Tab.const 85 true } }
    (fun e => e.hp.messages == 1) = true := by decide +kernel
theorem test_start_early : shows (.start true) Dev.reset (fun e => e.smc.cause == .startEarly && e.hp.ie) = true := by decide
theorem test_start_signature : shows (.start false) { Dev.reset with smc := { Dev.reset.smc with state := .linked } }
    (fun e => e.smc.cause == .badSignature && e.smc.state == .autonomous) = true := by decide
theorem test_anchor_overlap : anchorCheck (words (anchorWords ++ [(24, 20480)])) = some .areaOverlap := by decide +kernel
theorem test_anchor_misaligned : anchorCheck (words (anchorWords ++ [(52, 53249)])) = some .areaMisaligned := by decide +kernel
theorem test_anchor_outside : anchorCheck (words (anchorWords ++ [(20, 67104768)])) = some .areaOutside := by decide +kernel
theorem test_soft_reset_scope : shows (.softReset false .full) Dev.reset (fun e => e.smc.cause == .scopeInvalid) = true := by decide

/-! ### Notices and maintenance commands -/

theorem test_clear_ones : shows .clearOnes { linkedWith [] [.status 3] with smc := { (linkedWith [] [.status 3]).smc with
    latches := (Tab.const 85 0).set 3 6, masks := (Tab.const 85 0).set 3 2, news := (Tab.const 85 false).set 3 true } }
    (fun e => e.smc.latches.get 3 == 4 && e.smc.news.get 3) = true := by decide +kernel
theorem test_bad_command : shows .badCommand (posted 12 0 []) (fun e => e.smc.mem.readN 12288 16 ==
    [4, 0, 0, 0, 1, 0, 0, 0, 0, 0, 0, 0, 77, 0, 0, 0]) = true := by decide +kernel
theorem test_bad_port : shows .snapshot (posted 1 4 []) (fun e => e.smc.mem.read 12292 == 2) = true := by decide +kernel
theorem test_error_insert_no_test : shows .errorInsert (posted 5 0 []) (fun e => e.smc.mem.read 12292 == 6) = true := by
  decide +kernel
theorem test_flash_absent : shows .flashErase (posted 9 0 []) (fun e => e.smc.mem.read 12292 == 7) = true := by decide +kernel

/-! ### Links -/

theorem test_eighth_good_word : shows (.alignmentWord 0 true)
    (Dev.reset.setPort 0 (fun p => { p with state := .aligning, good := 7 })) (fun e => (e.port 0).state == .running) = true := by
  decide
theorem test_third_bad_word : shows (.alignmentWord 0 false)
    (Dev.reset.setPort 0 (fun p => { p with state := .running, bad := 2 })) (fun e => (e.port 0).state == .running && (e.port 0).bad == 3)
    = true := by decide
theorem test_code_violation_saturates : shows (.codeViolation 1)
    (Dev.reset.setPort 1 (fun p => { p with state := .aligning, codeViol := 65535 })) (fun e => (e.port 1).codeViol == 65535) = true := by
  decide
/-- A measurement of (1000 − 200) / 2 = 400 ticks against d = 401 (R31, R32). -/
theorem test_echo_in_service : shows (.echo 0 7 200)
    { oneRemote (fun m => { m with state := .inService, d := 401, moveRun := 2, record := some ⟨7, 0⟩ }) with now := 1000 }
    (fun e => (e.remote 0).moveRun == 0 && (e.remote 0).d == 401) = true := by decide
theorem test_lock_run_restarts : shows (.echo 0 7 200)
    { oneRemote (fun m => { m with state := .joining, lockRun := [397, 397], record := some ⟨7, 0⟩ }) with now := 1000 }
    (fun e => (e.remote 0).lockRun == [400]) = true := by decide
theorem test_quality : shows (.quality 0 2 90) (oneRemote (fun m => { m with state := .inService }))
    (fun e => (e.voter 2).cur.get 0 == some 90) = true := by decide
theorem test_pcount_restart : pcountErrors 100 7 = 7 ∧ pcountErrors 7 100 = 93 := by decide
theorem test_next_mark : shows (.nextMarkOffer 0) (oneRemote (fun m => { m with state := .joining, markDue := some 0 }))
    (fun e => (e.remote 0).queue.length == 1) = true := by decide
theorem test_not_due : exec .supervisionWindowClose State.reset = .next State.reset := by rfl

/-! ### Levels, voting and audio -/

/-- The steps of R73: step 6 halves, step 47 is gfine(5) / 2^7. -/
theorem test_gain : gain 0 = 32768 ∧ gain 6 = 16384 ∧ gain 47 = 143 := by decide
theorem test_attack_release : stepToward 20 12 = 20 ∧ stepToward 12 20 = 19 := by decide
theorem test_envelope : envelope ⟨0x8000, 0x8000⟩ = 255 ∧ envelope ⟨0xFF00, 256⟩ = 2 := by decide
theorem test_splice_smallest_j : bestJ [1, 2, 3, 4] [0, 1, 2, 3, 4, 0, 1, 2, 3, 4, 0] = 1 := by decide
/-- A quarter turn is 16384 of 65536 (R91). -/
theorem test_demodulate : demodulate ⟨100, 50⟩ ⟨-50, 100⟩ = 16384 := by decide +kernel
/-- Entry 0 of the sine table is (29205, 0), entry 1024 is (0, 29205) (R93). -/
theorem test_sine : sineEntry 0 = sampleOf 29205 0 ∧ sineEntry 1024 = sampleOf 0 29205 := by decide +kernel
theorem test_underrun : shows (.playInstant 0) (oneSource 0 (fun c => { c with inService := true, audioPhase := .playing }))
    (fun e => (e.source 0).underruns == 1 && (e.source 0).playDue == 768) = true := by decide
theorem test_aud_joins : shows (.audSampleArrival 1 5) (oneSource 2 (fun c => { c with inService := true, origin := some .line }))
    (fun e => (e.source 2).fifo == [5]) = true := by decide
theorem test_line_booting : shows (.lineRisingEdge 0) Dev.reset (fun e => e.bic.lines.get 0 && !(e.source 0).lineReq) = true := by
  decide
/-- A source table that enables S0 and the master with line use off unmasks ALARM, whose request is then withdrawn; one that enables
the master alone leaves it waiting (R111, R136). -/
theorem test_alarm_unmasked :
    let held := (oneSource 0 (fun c => { c with lineReq := true })).setSource 1 id
    let failed := { held with smc := { held.smc with bootResult := { held.smc.bootResult with outcome := .blank } } }
    let take := fun master enabled : Bool =>
      sourceSwitch failed master (Dev.reset.bic.table.set 0 { SrcEntry.empty with enabled := enabled })
    ((take true true).source 0).lineReq = false ∧ ((take true false).source 0).lineReq = true ∧
      ((take true true).source 0).inService = false := by decide +kernel
/-- The message of the example in 10 section 10.10: HOLD 1,866 with sequence 22. -/
theorem test_hold_message : (DownMsg.hold (.ticks 1866)).bytes 22 0 =
    [5, 0, 0x16, 0x4A, 7, 0, 0] ++ [crc8 [5, 0, 0x16, 0x4A, 7, 0, 0]] := by decide +kernel
/-- A MARK due at the tick of a frame launch is offered before the launch, so it leaves with that frame (R30, R35). -/
theorem test_mark_before_launch :
    (match step ⟨{ oneRemote (fun m => { m with state := .joining, markDue := some 3072 }) with now := 3071 }, []⟩ with
      | .next t => t.pending
      | .fault _ | .refused _ => []) = [.fifoRead, .nextMarkOffer 0, .frameLaunch] := by decide +kernel
/-- After a failed boot with empty tables a rise of ALARM leaves S0 with a request and out of service (R136). -/
theorem test_alarm_masked : shows (.lineRisingEdge 0) { Dev.reset with smc := { Dev.reset.smc with
    state := .autonomous, bootResult := { Dev.reset.smc.bootResult with outcome := .blank } } }
    (fun e => (e.source 0).lineReq && !(e.source 0).inService) = true := by decide +kernel

/-! ### Flash -/

theorem test_no_flash : headerOutcome 65536 (List.replicate 16 0xFF) = .blank := by decide
theorem test_bad_length : headerOutcome 65536 [0xA3, 0x5C, 1, 0, 0xF1, 0xFF, 0, 0, 0, 0, 0, 0, 0, 0, 0, 0] = .badLength := by decide
theorem test_status_present : shows (.flashStatusReadDone 0) Dev.reset
    (fun e => e.fb.present && e.fb.holder == some ⟨.bootIdent, false⟩) = true := by decide
theorem test_ident_24 : sizeOfCode 30 = some 24 ∧ sizeOfCode 15 = none := by decide
theorem test_program_ands : chipProgram [(5, 0x0F)] 5 [0x3C, 0x55] = [(5, 0x0C), (6, 0x55)] := by decide
theorem test_page_ends : pageBytes 250 100 = 6 ∧ pageBytes 256 100 = 100 := by decide

/-! ### States that meet the hypotheses of the statements

`witness_X` is for `Obligations.X`; a statement with several cases has a state for each, at the boundary of its range where
the case has one. -/

theorem plan_sound (m : Memory) (q : List WatchCell) : LayoutInv (linkedWith m q) := by
  intro l h
  cases h
  decide

theorem witness_EveryCommandAnswersOrFaults : (∃ i : Instr, ∀ a b, i = .hostMemoryWrite a b → a + b.length ≤ 67108864) ∧
    (∃ (a : Nat) (b : List Byte), a + b.length = 67108865) :=
  ⟨⟨.hostMemoryWrite 67108863 [1], fun a b h => by cases h; decide⟩, 67108864, [1], rfl⟩

theorem witness_StepKeepsMemoryControllerRecords : ∃ s t, step s = .next t ∧ NewsInv s.dev ∧ NoticeInv s.dev ∧
    LayoutInv s.dev ∧ MemoryInv s.dev :=
  ⟨alone (linkedWith [] [.maint]), _, rfl, by unfold NewsInv; decide +kernel, by unfold NoticeInv; decide, plan_sound _ _,
    by unfold MemoryInv; decide⟩

/-- Services of S0 and S1 over all programmes, M0 to M7 with S0, M8 to M11 with S1, and (S1, P7) waiting; and one grant alone. -/
theorem witness_StepKeepsBimAssignments : (∃ s t, BimInv s.dev ∧ step s = .next t ∧ BimsAllotted s.dev ∧
      (s.dev.source 1).inService = true ∧ (s.dev.source 1).progs.getLsbD 7 = true ∧ ∀ m, (s.dev.bim m).pair ≠ some (1, 7)) ∧
    ∃ s t, BimInv s.dev ∧ step s = .next t ∧ BimsAllotted s.dev ∧ (s.dev.bim 0).pair = some (0, 0) ∧ (s.dev.bim 1).pair = none :=
  ⟨⟨alone { Dev.reset with
        pm := { Dev.reset.pm with bims := Tab.ofFn (fun m => { Bim.reset with
          pair := some (⟨m.val / 8, by omega⟩, ⟨m.val % 8, by omega⟩) }) }
        bic := { Dev.reset.bic with sources := Tab.ofFn (fun n => { Source.reset with
          inService := decide (n.val < 2), progs := 255 }) } }, _, ⟨by decide +kernel, by decide +kernel⟩, rfl,
      by unfold BimsAllotted; decide +kernel, by decide +kernel, by decide +kernel, by decide +kernel⟩,
    alone ((oneSource 0 (fun c => { c with inService := true, progs := 1 })).setBim 0 (fun b => { b with pair := some (0, 0) })),
    _, ⟨by decide +kernel, by decide +kernel⟩, rfl, by unfold BimsAllotted; decide +kernel, by decide +kernel, by decide +kernel⟩

theorem witness_StepKeepsRangesAndSlotKinds : ∃ s t, step s = .next t ∧ CounterInv s.dev ∧ FifoInv s.dev ∧ StepInv s.dev ∧
    ChannelInv s.dev :=
  ⟨State.reset, _, rfl, by unfold CounterInv; decide +kernel, by unfold FifoInv; decide +kernel,
    by unfold StepInv; decide +kernel,
    by unfold LegalKinds; decide +kernel, fun b c hb hc => by cases hb; cases hc⟩

theorem witness_RadioCommandsKeepHostBytes : (∃ i s t, radioCommand i = true ∧ exec i s = .next t) ∧
    ∃ i s t, exec i s = .next t ∧ i ≠ .pageProgramDone ∧ i ≠ .sectorEraseDone ∧ i ≠ .flashTimeout ∧
      ∀ b, i ≠ .flashStatusReadDone b :=
  ⟨⟨.codeViolation 0, State.reset, _, rfl, rfl⟩, .start true, State.reset, _, rfl, nofun, nofun, nofun, nofun⟩

/-- A write to the last byte of the window, of a LINKED part and of one that is not. -/
theorem witness_HostWrites : (∃ (s : State) (addr : Nat) (data : List Byte), s.dev.hp.linkUp = true ∧ data ≠ [] ∧ addr + data.length ≤ 67108864 ∧
      s.dev.smc.state = .linked ∧ s.dev.smc.layout = some plan ∧ s.dev.smc.job ≠ none) ∧
    ∃ (s : State) (addr : Nat) (data : List Byte), s.dev.hp.linkUp = true ∧ data ≠ [] ∧ addr + data.length = 67108864 ∧ s.dev.smc.state ≠ .linked :=
  ⟨⟨alone { linkedWith [] [] with smc := { (linkedWith [] []).smc with job := some ⟨12288, 0, .errorInsert⟩ } }, 16384, [1],
      rfl, nofun, by decide, rfl, rfl, nofun⟩,
    State.reset, 67108863, [1], rfl, nofun, rfl, nofun⟩

/-- IE rising with NEWS nonzero, and a part whose link is down. -/
theorem witness_RegistersAndLink : (∃ s : State, s.dev.hp.linkUp = true ∧ s.dev.hp.ie = false ∧ newsCount s.dev ≠ 0) ∧
    ∃ s : State, s.dev.hp.linkUp = false :=
  ⟨⟨alone { Dev.reset with smc := { Dev.reset.smc with news := (Tab.const 85 false).set 84 true } }, rfl, rfl, by decide +kernel⟩,
    alone { Dev.reset with hp := ⟨false, false, 0⟩ }, rfl⟩

theorem witness_SettingALatchRaisesNews : (∃ d : Dev, d.smc.state ≠ .linked) ∧
    ∃ d : Dev, d.smc.state = .linked ∧ NewsInv d ∧ d.smc.layout = some plan ∧ LayoutInv d :=
  ⟨⟨Dev.reset, nofun⟩, linkedWith [] [], rfl, by unfold NewsInv; decide +kernel, rfl, plan_sound _ _⟩

theorem witness_StartIsRefused : (∃ s : State, s.dev.hp.linkUp = true ∧ s.dev.smc.state = .booting) ∧
    ∃ (s : State) (c : Cause), s.dev.hp.linkUp = true ∧ s.dev.smc.state ≠ .booting ∧ anchorCheck s.dev.smc.mem = some c :=
  ⟨⟨State.reset, rfl, rfl⟩, alone (linkedWith [] []), .badSignature, rfl, nofun, by decide +kernel⟩

theorem witness_StartLinksThePart : ∃ s : State, s.dev.hp.linkUp = true ∧ s.dev.smc.state ≠ .booting ∧
    anchorCheck s.dev.smc.mem = none ∧ s.dev.smc.job = none :=
  ⟨alone (linkedWith (words anchorWords) []), rfl, nofun, by decide +kernel, rfl⟩

theorem witness_SoftResetEndsServicesAndBoots : (∃ (s : State) (sc : Scope), s.dev.hp.linkUp = true ∧ sc ≠ .none ∧ s.dev.fb.present = false) ∧
    (∃ s : State, s.dev.hp.linkUp = true ∧ s.dev.fb.present = true ∧ BimInv s.dev) :=
  ⟨⟨State.reset, .full, rfl, nofun, rfl⟩, alone { Dev.reset with fb := { Dev.reset.fb with present := true } }, rfl, rfl,
    by decide +kernel, by decide +kernel⟩

/-- Cue cell states 0 and 2 on either side of POSTED, 3 and 5 around CANCEL; a BUSY unit and a cell that is not POSTED. -/
theorem witness_NoticesLeaveTheQueueAtTheirTake :
    (∀ p ∈ [((0 : BitVec 32), (1 : BitVec 32)), (1, 1), (3, 1)], ∃ d : Dev, d.smc.state = .linked ∧ d.smc.notices = [.status 84] ∧
      d.smc.layout = some plan ∧ NewsInv d ∧ LayoutInv d ∧ d.smc.latches.get 84 = p.1 ∧ d.smc.masks.get 84 = p.2) ∧
    (∀ k ∈ [0, 2, 3, 5], ∃ s : State, s.dev.smc.state = .linked ∧ s.dev.smc.layout = some plan ∧ s.dev.smc.notices = [.cue 7] ∧
      cellState s.dev.smc.mem (cueAddr plan 7) = k) ∧
    (∃ s : State, s.dev.smc.notices = [.maint] ∧ s.dev.smc.job ≠ none) ∧
    ∃ s : State, s.dev.smc.state = .linked ∧ s.dev.smc.notices = [.maint] ∧ cellState s.dev.smc.mem plan.maint ≠ 1 :=
  ⟨fun p hp => ⟨{ (linkedWith [] [.status 84]) with smc := { (linkedWith [] [.status 84]).smc with
        latches := Dev.reset.smc.latches.set 84 p.1, masks := Dev.reset.smc.masks.set 84 p.2
        news := Dev.reset.smc.news.set 84 (p.1 != 0) } }, rfl, rfl, rfl, by
      simp only [List.mem_cons, List.not_mem_nil, or_false] at hp
      unfold NewsInv
      rcases hp with rfl | rfl | rfl <;> decide +kernel, plan_sound [] [.status 84], Tab.get_set_eq _ _ _, Tab.get_set_eq _ _ _⟩,
    fun k hk => ⟨alone (linkedWith (words [(8640, k)]) [.cue 7]), rfl, rfl, rfl, by
      simp only [List.mem_cons, List.not_mem_nil, or_false] at hk
      rcases hk with rfl | rfl | rfl | rfl <;> decide +kernel⟩,
    ⟨alone { linkedWith [] [.maint] with smc := { (linkedWith [] [.maint]).smc with job := some ⟨12288, 0, .errorInsert⟩ } }, rfl, nofun⟩,
    alone (linkedWith [] [.maint]), rfl, rfl, by decide +kernel⟩

/-- A memory whose ROUTE word is `w` and whose ROUTE table routes every remote to the first `k` carrier slots. -/
def hostWith (w k : Nat) : Memory := words ((4104, w) :: (List.range k).map (fun i => (40960 + 32 * (16 + i), 128)))

theorem host_passes : routeCheck (hostRoutes (hostWith 9 0) plan) = none := by decide +kernel
theorem host_fails : routeCheck (hostRoutes (hostWith 9 20) plan) ≠ none := by decide +kernel

/-- Tables whose check passes (empty ones) and one that fails (slot 3 of kind RESCUE), asked for by word 9 and not asked for. -/
theorem witness_TablesTaken : (∃ s : State, s.dev.smc.state = .linked ∧ s.dev.smc.layout = some plan ∧ LayoutInv s.dev ∧
      s.dev.smc.notices = [.revision] ∧ s.dev.smc.job = none ∧ s.dev.rp.phase = .idle ∧ s.dev.rp.bootRows = none ∧
      (∀ t, revisionWord s.dev.smc.mem plan t ≠ 0 ∧ revisionWord s.dev.smc.mem plan t ≠ s.dev.smc.lastReq.get t.index) ∧
      chanCheck (hostChan s.dev.smc.mem plan) ≠ none ∧ remoteCheck (hostRemote s.dev.smc.mem plan) ≠ none ∧
      routeCheck (hostRoutes s.dev.smc.mem plan) ≠ none) ∧
    (∃ s : State, s.dev.smc.state = .linked ∧ s.dev.smc.layout = some plan ∧ LayoutInv s.dev ∧ s.dev.smc.notices = [.revision] ∧
      (∀ t, t ≠ .route → revisionWord s.dev.smc.mem plan t = 0) ∧
      revisionWord s.dev.smc.mem plan .route ≠ 0 ∧ routeCheck (hostRoutes s.dev.smc.mem plan) = none) ∧
    ∀ w ∈ [[], [(32816, 2)], [(36864, 4097)]], ∃ s : State, s.dev.smc.state = .linked ∧ s.dev.smc.layout = some plan ∧
      LayoutInv s.dev ∧ s.dev.smc.notices = [.revision] ∧ s.dev.smc.job = none ∧ s.dev.smc.deferred.get 2 = false ∧
      revisionWord s.dev.smc.mem plan .route = 0 ∧ revisionWord s.dev.smc.mem plan .channel = 9 ∧
      revisionWord s.dev.smc.mem plan .remote = 9 ∧
      (chanCheck (hostChan s.dev.smc.mem plan) = none ↔ w ≠ [(32816, 2)]) ∧
      (remoteCheck (hostRemote s.dev.smc.mem plan) = none ↔ w ≠ [(36864, 4097)]) :=
  ⟨⟨alone (linkedWith (words ([(4096, 9), (4100, 9), (4104, 9), (4108, 9), (4112, 9), (4116, 9), (32816, 2), (36864, 4097)] ++
        (List.range 20).map (fun k => (40960 + 32 * (16 + k), 128)))) [.revision]),
      rfl, rfl, plan_sound _ _, rfl, rfl, rfl, rfl, fun t => by cases t <;> decide +kernel, by decide +kernel, by decide +kernel,
      by decide +kernel⟩,
    ⟨alone (linkedWith (hostWith 9 0) [.revision]), rfl, rfl, plan_sound _ _, rfl,
      fun t ht => by cases t <;> first | exact absurd rfl ht | decide +kernel, by decide +kernel, host_passes⟩,
    fun w hw => ⟨alone (linkedWith (words ([(4096, 9), (4100, 9)] ++ w)) [.revision]), rfl, rfl, plan_sound _ _, rfl, rfl, rfl, by
      simp only [List.mem_cons, List.not_mem_nil, or_false] at hw
      rcases hw with rfl | rfl | rfl <;> decide +kernel⟩⟩

/-- A revision at which a new channel table retunes P0, turns P1 on and P2 off and E0, KEYED, off, and a new remote table disables
R5 and keeps R6. -/
theorem witness_SwitchedSlotsAndRemotes : ∃ s : State, s.dev.smc.state = .linked ∧ s.dev.smc.layout = some plan ∧ LayoutInv s.dev ∧
    s.dev.smc.notices = [.revision] ∧ s.dev.smc.job = none ∧ revisionWord s.dev.smc.mem plan .channel = 9 ∧
    revisionWord s.dev.smc.mem plan .remote = 9 ∧ chanCheck (hostChan s.dev.smc.mem plan) = none ∧
    remoteCheck (hostRemote s.dev.smc.mem plan) = none ∧
    (let old := fun x => s.dev.chan x
     let new := fun x => chanForm x ((hostChan s.dev.smc.mem plan).get x)
     (old 0).kind = .programme ∧ (new 0).kind = .programme ∧ (old 0).offset ≠ (new 0).offset ∧
     (old 1).kind = .off ∧ (new 1).kind = .programme ∧ (old 2).kind = .programme ∧ (new 2).kind = .off ∧
     (old 8).kind = .rescue ∧ (new 8).kind = .off ∧ (s.dev.slot 8).on = true ∧ old 39 = new 39) ∧
    (s.dev.entry 5).enabled = true ∧ (remoteForm ((hostRemote s.dev.smc.mem plan).get 5)).enabled = false ∧
    (s.dev.remote 5).state = .inService ∧ (s.dev.entry 6).enabled = true ∧
    (remoteForm ((hostRemote s.dev.smc.mem plan).get 6)).enabled = true :=
  let d := linkedWith (words [(4096, 9), (4100, 9), (32768, 1), (32776, 30000), (32784, 1), (36960, 1)]) [.revision]
  ⟨alone { d with
      lm := { d.lm with
        chan := ((d.lm.chan.set 0 { ChanEntry.empty with kind := .programme }).set 2
          { ChanEntry.empty with kind := .programme }).set 8 { ChanEntry.empty with kind := .rescue }
        slots := d.lm.slots.set 8 { Slot.reset with on := true } }
      rp := { d.rp with
        remoteTab := (d.rp.remoteTab.set 5 { RemoteEntry.empty with enabled := true }).set 6 { RemoteEntry.empty with enabled := true } }
      rs := { d.rs with remotes := d.rs.remotes.set 5 { Remote.reset with state := .inService } } },
    rfl, rfl, plan_sound _ _, rfl, rfl, by decide +kernel, by decide +kernel, by decide +kernel, by decide +kernel,
    ⟨rfl, by decide +kernel, by decide +kernel, rfl, by decide +kernel, rfl, by decide +kernel, rfl, by decide +kernel, rfl,
      by decide +kernel⟩, rfl, by decide +kernel, rfl, rfl, by decide +kernel⟩

/-- A route table over the first slots of the ranges given on port P3, with uplink for carriers and rescue slots as given. -/
def lanesTable (low carriers : Nat) (up : Fin 40 → Fin 32 → Bool) : Routes :=
  Tab.ofFn (fun c => Tab.ofFn (fun r => if 24 ≤ r.val ∧ (c.val < low ∨ 16 ≤ c.val ∧ c.val < 16 + carriers)
    then ⟨true, up c r, 0⟩ else ⟨false, false, 0⟩))

/-- Route tables at 308 and 309 downstream lanes and at 320 and 321 upstream lanes of P3. -/
theorem witness_Capacity : downstreamLanes (lanesTable 4 19 (fun _ _ => false)) 3 = 308 ∧
    downstreamLanes (lanesTable 5 19 (fun _ _ => false)) 3 = 309 ∧
    upstreamLanes (lanesTable 16 16 (fun c _ => 8 ≤ c.val)) 3 = 320 ∧ downstreamLanes (lanesTable 16 16 (fun c _ => 8 ≤ c.val)) 3 = 272 ∧
    upstreamLanes (lanesTable 16 17 (fun c r => 16 ≤ c.val ∨ 8 ≤ c.val ∧ (r.val < 30 ∨ r = 30 ∧ c = 8))) 3 = 321 ∧
    downstreamLanes (lanesTable 16 17 (fun c r => 16 ≤ c.val ∨ 8 ≤ c.val ∧ (r.val < 30 ∨ r = 30 ∧ c = 8))) 3 = 288 := by
  decide +kernel

/-- Directories in the last 256 bytes of a 64 KiB flash: entry 15 valid at the flash's end, one sample past it, of length 0, of
another id and without its valid flag; and a directory one byte further. -/
theorem witness_Directories :
    let chip := fun (id fl len : Byte) => chipWrite [] 65520 [id, fl, 0, 0, 0xFE, 0xFF, 0, 0, len, 0, 0, 0]
    [(chip 15 1 1, 65280), (chip 15 1 2, 65280), (chip 15 1 0, 65280), (chip 14 1 1, 65280), (chip 15 0 1, 65280),
      (chip 15 1 1, 65281)].map (fun p => (readDirectory p.1 65536 p.2).get 15) = [some ⟨65534, 1⟩, none, none, none, none, none] := by
  decide +kernel

/-- A cue refused (origin code 5), one that passes while its source is in service, and one that starts an enabled source. -/
theorem witness_PostedCues : (∃ d : Dev, d.smc.state = .linked ∧ d.smc.layout = some plan ∧ d.smc.notices = [.cue 0] ∧
      cellState d.smc.mem (cueAddr plan 0) = 1 ∧ cueCheck d plan 0 (readCue d.smc.mem (cueAddr plan 0)) = .inl .badOrigin) ∧
    (∃ d x, d.smc.state = .linked ∧ d.smc.layout = some plan ∧ d.smc.notices = [.cue 0] ∧
      cellState d.smc.mem (cueAddr plan 0) = 1 ∧ cueCheck d plan 0 (readCue d.smc.mem (cueAddr plan 0)) = .inr x ∧
      d.bic.master = false) ∧
    ∃ d x, d.smc.state = .linked ∧ d.smc.layout = some plan ∧ LayoutInv d ∧ d.smc.notices = [.cue 0] ∧
      cellState d.smc.mem (cueAddr plan 0) = 1 ∧ cueCheck d plan 0 (readCue d.smc.mem (cueAddr plan 0)) = .inr x ∧
      (d.source 0).inService = false ∧ (d.bic.table.get 0).enabled = true ∧ d.bic.master = true ∧ d.smc.job = none :=
  let cue := fun (o : Nat) => words [(8192, 1), (8200, 1 + 65536 * (1 + 256 * o))]
  let on := fun (d : Dev) => { d with bic := { d.bic with
    master := true, table := d.bic.table.modify 0 (fun e => { e with enabled := true }) } }
  ⟨⟨linkedWith (cue 5) [.cue 0], rfl, rfl, rfl, by decide +kernel, by decide +kernel⟩,
    ⟨linkedWith (cue 1) [.cue 0], ⟨1, 1, .none, 0, 0⟩, rfl, rfl, rfl, by decide +kernel, by decide +kernel, rfl⟩,
    on (linkedWith (cue 1) [.cue 0]), ⟨1, 1, .none, 0, 0⟩, rfl, rfl, plan_sound _ _, rfl, by decide +kernel, by decide +kernel,
    rfl, rfl, rfl, rfl⟩

/-- A cue in each case of R115's checks: a busy source, origin code 5, LINE at source 0, a SHARED clip off 64 bytes and one over
the anchor page, clip 16 and an invalid clip, no programme, and a cue that passes. -/
theorem witness_CueChecks : (∃ d c, (d : Dev).source 0 = { Source.reset with inService := true } ∧
      cueCheck d plan 0 c = .inl .busy) ∧
    ∃ d : Dev, (d.source 0).inService = false ∧
      [⟨1, 1, 5, 0, 0, 0, 0, 0⟩, ⟨1, 1, 4, 0, 0, 0, 0, 0⟩, ⟨1, 1, 2, 0, 0, 0, 65568, 1⟩, ⟨1, 1, 2, 0, 0, 0, 0, 1⟩,
        ⟨1, 1, 3, 16, 0, 0, 0, 0⟩, ⟨1, 1, 3, 15, 0, 0, 0, 0⟩, ⟨1, 0, 1, 0, 0, 0, 0, 0⟩, ⟨1, 1, 2, 0, 3, 4, 65536, 9⟩].map
          (cueCheck d plan 0) =
        [.inl .badOrigin, .inl .badOrigin, .inl .badClip, .inl .badClip, .inl .badClip, .inl .badClip, .inl .nothingToDo,
          .inr ⟨1, 1, .shared 65536 9, 3, 4⟩] :=
  ⟨⟨oneSource 0 (fun c => { c with inService := true }), ⟨1, 1, 1, 0, 0, 0, 0, 0⟩, rfl, by decide +kernel⟩,
    Dev.reset, rfl, by decide +kernel⟩

theorem witness_CancelEndsTheServiceAndClearsTheRequest : ∃ d : Dev, d.smc.state = .linked ∧ d.smc.layout = some plan ∧
    d.smc.notices = [.cue 7] ∧ cellState d.smc.mem (cueAddr plan 7) = 4 ∧ (d.source 7).inService = true ∧ BimInv d :=
  ⟨(linkedWith (words [(8640, 4)]) [.cue 7]).setSource 7 (fun c => { c with inService := true }), rfl, rfl, rfl,
    by decide +kernel, rfl, by decide +kernel, by decide +kernel⟩

/-- What `posted` posts is a command that waits. -/
theorem posted_waits (code args : Nat) (rest : List (Nat × Nat))
    (h : cellState (posted code args rest).smc.mem plan.maint = 1) :
    CommandWaits (posted code args rest) plan [] (readMaint (posted code args rest).smc.mem plan.maint) :=
  ⟨rfl, rfl, rfl, rfl, h, rfl⟩

/-- Refused commands: codes 0 and 10, port 4 and position 8, a test that runs, a remote out of service, a pool without a free
lane, no test, no flash, and with a flash a length of 0 and a FLASH service that runs. -/
theorem witness_RefusedCommandsOnlyAnswer :
    (∀ k ∈ [0, 10], ∃ d c, CommandWaits d plan [] c ∧ c.code = k) ∧
    (∀ k ∈ [1, 2, 3], ∃ d c, CommandWaits d plan [] c ∧ c.code = k ∧ c.port = 4 ∧ c.pos = 0) ∧
    (∃ d c, CommandWaits d plan [] c ∧ c.code = 3 ∧ c.pos = 8) ∧
    (∃ d c, CommandWaits d plan [] c ∧ c.code = 3 ∧ c.port = 3 ∧ c.pos = 7 ∧ d.rs.test ≠ none) ∧
    (∃ d c, CommandWaits d plan [] c ∧ c.code = 3 ∧ c.port = 3 ∧ c.pos = 7 ∧ d.rs.test = none ∧
      (d.remote (remoteAt 3 7)).serving = false) ∧
    (∃ d c, CommandWaits d plan [] c ∧ c.code = 3 ∧ c.port = 3 ∧ c.pos = 7 ∧ d.rs.test = none ∧
      (d.remote (remoteAt 3 7)).serving = true ∧ ∀ i, (d.pool 3).lanes.get i ≠ .free) ∧
    (∀ k ∈ [4, 5, 7, 8, 9], ∃ d c, CommandWaits d plan [] c ∧ c.code = k ∧ d.rs.test = none ∧ d.fb.present = false) ∧
    (∀ k ∈ [7, 8, 9], ∃ d c, CommandWaits d plan [] c ∧ c.code = k ∧ d.fb.present = true ∧ badTransfer d c = true ∧
      badErase d c = true) :=
  let wait := fun (code args : Nat) (h : cellState (posted code args []).smc.mem plan.maint = 1) => posted_waits code args [] h
  let with' := fun (f : Dev → Dev) (h : ∀ d, (f d).smc = d.smc) (w : CommandWaits (posted 3 1795 []) plan []
      (readMaint (posted 3 1795 []).smc.mem plan.maint)) =>
    (⟨by unfold Dev.linked; rw [h]; exact w.linked, by rw [h]; exact w.layout, by rw [h]; exact w.head, by rw [h]; exact w.idle,
      by rw [h]; exact w.posted, by rw [h]⟩ : CommandWaits (f (posted 3 1795 [])) plan [] _)
  let p := (wait 3 1795 (by decide +kernel))
  ⟨by
      intro k hk
      simp only [List.mem_cons, List.not_mem_nil, or_false] at hk
      rcases hk with rfl | rfl
      · exact ⟨_, _, wait 0 0 (by decide +kernel), by decide +kernel⟩
      · exact ⟨_, _, wait 10 0 (by decide +kernel), by decide +kernel⟩,
    by
      intro k hk
      simp only [List.mem_cons, List.not_mem_nil, or_false] at hk
      rcases hk with rfl | rfl | rfl
      · exact ⟨_, _, wait 1 4 (by decide +kernel), by decide +kernel, by decide +kernel, by decide +kernel⟩
      · exact ⟨_, _, wait 2 4 (by decide +kernel), by decide +kernel, by decide +kernel, by decide +kernel⟩
      · exact ⟨_, _, wait 3 4 (by decide +kernel), by decide +kernel, by decide +kernel, by decide +kernel⟩,
    ⟨_, _, wait 3 2048 (by decide +kernel), by decide +kernel, by decide +kernel⟩,
    ⟨_, _, with' (fun d => { d with rs := { d.rs with test := some ⟨0, 0, 0, 0, false, 1⟩ } }) (fun _ => rfl) p, by decide +kernel,
      by decide +kernel, by decide +kernel, nofun⟩,
    ⟨_, _, p, by decide +kernel, by decide +kernel, by decide +kernel, rfl, by decide +kernel⟩,
    ⟨_, _, with' (fun d => (d.setRemote 31 (fun m => { m with state := .inService })).setPool 3
      (fun q => { q with lanes := Tab.const 12 .pattern })) (fun _ => rfl) p, by decide +kernel, by decide +kernel, by decide +kernel,
      rfl, by decide +kernel, by decide +kernel⟩,
    by
      intro k hk
      simp only [List.mem_cons, List.not_mem_nil, or_false] at hk
      rcases hk with rfl | rfl | rfl | rfl | rfl
      · exact ⟨_, _, wait 4 0 (by decide +kernel), by decide +kernel, rfl, rfl⟩
      · exact ⟨_, _, wait 5 0 (by decide +kernel), by decide +kernel, rfl, rfl⟩
      · exact ⟨_, _, wait 7 0 (by decide +kernel), by decide +kernel, rfl, rfl⟩
      · exact ⟨_, _, wait 8 0 (by decide +kernel), by decide +kernel, rfl, rfl⟩
      · exact ⟨_, _, wait 9 0 (by decide +kernel), by decide +kernel, rfl, rfl⟩,
    by
      intro k hk
      have w : ∀ c, cellState (posted c 0 []).smc.mem plan.maint = 1 → CommandWaits
          ({ posted c 0 [] with fb := { (posted c 0 []).fb with present := true } }) plan []
          (readMaint (posted c 0 []).smc.mem plan.maint) := fun c h => ⟨rfl, rfl, rfl, rfl, h, rfl⟩
      simp only [List.mem_cons, List.not_mem_nil, or_false] at hk
      rcases hk with rfl | rfl | rfl
      · exact ⟨_, _, w 7 (by decide +kernel), by decide +kernel, rfl, by decide +kernel, by decide +kernel⟩
      · exact ⟨_, _, w 8 (by decide +kernel), by decide +kernel, rfl, by decide +kernel, by decide +kernel⟩
      · exact ⟨_, _, w 9 (by decide +kernel), by decide +kernel, rfl, by decide +kernel, by decide +kernel⟩⟩

/-- Commands whose checks pass, each with a LINKED part and the layout `plan`: SNAPSHOT of one port and of all, with and without
the clear option, PORT_RESET of a RUNNING port with a test, the pattern commands, REREFERENCE, and the three flash
commands with the port free and held. -/
theorem witness_AcceptedCommands :
    (∃ d c, CommandWaits d plan [] c ∧ LayoutInv d ∧ c.code = 1 ∧ c.pos = 0 ∧ c.port = 3 ∧ c.clear = 0) ∧
    (∃ d c, CommandWaits d plan [] c ∧ LayoutInv d ∧ c.code = 1 ∧ c.pos = 1 ∧ c.clear = 1) ∧
    (∃ d c, CommandWaits d plan [] c ∧ LayoutInv d ∧ c.code = 2 ∧ c.port = 3 ∧ (d.port 3).state = .running ∧
      (∃ t, d.rs.test = some t ∧ t.port = 3) ∧ (d.remote 31).present = true) ∧
    (∃ d c, CommandWaits d plan [] c ∧ LayoutInv d ∧ c.code = 3 ∧ c.port = 3 ∧ c.pos = 7 ∧ d.rs.test = none ∧
      (d.remote (remoteAt 3 7)).serving = true ∧ (d.pool 3).lanes.get 0 = .free ∧
      ∀ j : Fin 12, j < 0 → (d.pool 3).lanes.get j ≠ .free) ∧
    (∀ k ∈ [4, 5], ∃ d c, CommandWaits d plan [] c ∧ LayoutInv d ∧ c.code = k ∧ d.rs.test ≠ none) ∧
    (∃ d c, CommandWaits d plan [] c ∧ LayoutInv d ∧ c.code = 6 ∧ (d.hold 31).holding = true ∧ (d.hold 0).holding = false) ∧
    (∀ h ∈ [none, some (Holder.mk .reload false)], ∃ d c, CommandWaits d plan [] c ∧ d.fb.present = true ∧ c.code = 7 ∧
      badTransfer d c = false ∧ overlapsAreas plan c.addr c.len = false ∧ d.fb.holder = h ∧ ∀ n, d.fb.waiting.get n = none) ∧
    (∃ d c, CommandWaits d plan [] c ∧ d.fb.present = true ∧ c.code = 8 ∧ badTransfer d c = false ∧ flashInUse d = false) ∧
    ∃ d c, CommandWaits d plan [] c ∧ d.fb.present = true ∧ c.code = 9 ∧ badErase d c = false ∧ flashInUse d = false := by
  have w : ∀ (code args : Nat) (r : List (Nat × Nat)) (f : Dev → Dev), (∀ d, (f d).smc = d.smc) →
      cellState (posted code args r).smc.mem plan.maint = 1 → CommandWaits (f (posted code args r)) plan []
        (readMaint (posted code args r).smc.mem plan.maint) := by
    intro code args r f h hc
    exact ⟨by unfold Dev.linked; rw [h]; rfl, by rw [h]; rfl, by rw [h]; rfl, by rw [h]; rfl, by rw [h]; exact hc, by rw [h]⟩
  have l : ∀ (code args : Nat) (r : List (Nat × Nat)) (f : Dev → Dev), (∀ d, (f d).smc = d.smc) →
      LayoutInv (f (posted code args r)) := by
    intro code args r f h k hk
    rw [h] at hk
    exact plan_sound _ _ k hk
  refine ⟨⟨_, _, w 1 3 [] id (fun _ => rfl) (by decide +kernel), l _ _ _ _ (fun _ => rfl), by decide +kernel⟩,
    ⟨_, _, w 1 65792 [] id (fun _ => rfl) (by decide +kernel), l _ _ _ _ (fun _ => rfl), by decide +kernel⟩,
    ⟨_, _, w 2 3 [] (fun d => { (d.setPort 3 (fun p => { p with state := .running })) with
        rs := { d.rs with test := some ⟨3, 0, 0, 0, false, 1⟩, remotes := d.rs.remotes.modify 31 (fun m => { m with state := .impaired }) } })
      (fun _ => rfl) (by decide +kernel), l _ _ _ _ (fun _ => rfl), by decide +kernel, by decide +kernel, rfl, ⟨_, rfl, rfl⟩, rfl⟩,
    ⟨_, _, w 3 1795 [] (fun d => d.setRemote 31 (fun m => { m with state := .inService })) (fun _ => rfl) (by decide +kernel),
      l _ _ _ _ (fun _ => rfl), by decide +kernel, by decide +kernel, by decide +kernel, rfl, by decide +kernel, by decide +kernel,
      by decide +kernel⟩, ?_,
    ⟨_, _, w 6 0 [] (fun d => d.setHold 31 (fun m => { m with holding := true })) (fun _ => rfl) (by decide +kernel),
      l _ _ _ _ (fun _ => rfl), by decide +kernel, rfl, rfl⟩, ?_,
    ⟨_, _, w 8 0 [(12316, 65536), (12320, 4096)] (fun d => { d with fb := { d.fb with present := true, sizeCode := 16 } })
      (fun _ => rfl) (by decide +kernel), rfl, by decide +kernel, by decide +kernel, by decide +kernel⟩,
    ⟨_, _, w 9 0 [(12320, 16)] (fun d => { d with fb := { d.fb with present := true, sizeCode := 16 } })
      (fun _ => rfl) (by decide +kernel), rfl, by decide +kernel, by decide +kernel, by decide +kernel⟩⟩
  · intro k hk
    simp only [List.mem_cons, List.not_mem_nil, or_false] at hk
    rcases hk with rfl | rfl
    · exact ⟨_, _, w 4 0 [] (fun d => { d with rs := { d.rs with test := some ⟨3, 0, 0, 0, false, 1⟩ } }) (fun _ => rfl)
        (by decide +kernel), l _ _ _ _ (fun _ => rfl), by decide +kernel, nofun⟩
    · exact ⟨_, _, w 5 0 [] (fun d => { d with rs := { d.rs with test := some ⟨3, 0, 0, 0, false, 1⟩ } }) (fun _ => rfl)
        (by decide +kernel), l _ _ _ _ (fun _ => rfl), by decide +kernel, nofun⟩
  · intro h hh
    simp only [List.mem_cons, List.not_mem_nil, or_false] at hh
    rcases hh with rfl | rfl
    · exact ⟨_, _, w 7 0 [(12316, 65536), (12320, 1)]
        (fun d => { d with fb := { d.fb with present := true, sizeCode := 16, holder := none } }) (fun _ => rfl)
        (by decide +kernel), rfl, by decide +kernel, by decide +kernel, by decide +kernel, rfl, by decide +kernel⟩
    · exact ⟨_, _, w 7 0 [(12316, 65536), (12320, 1)]
        (fun d => { d with fb := { d.fb with present := true, sizeCode := 16, holder := some ⟨.reload, false⟩ } })
        (fun _ => rfl) (by decide +kernel), rfl, by decide +kernel, by decide +kernel, by decide +kernel, rfl, by decide +kernel⟩

/-- The periodic timers of the device are due at once when the clock stands at the due tick. -/
theorem witness_PeriodicTimers :
    (∃ d : Dev, d.lp.frameDue ≤ d.now ∧ (d.port 0).state = .running ∧
      (∃ x, sendSelection (d.remote 0).queue = some x ∧ x.msg.kind = .mark) ∧
      (∃ x, sendSelection (d.remote 1).queue = some x ∧ x.msg.kind ≠ .mark) ∧ sendSelection (d.remote 2).queue = none ∧
      (d.port (portOf 8)).state ≠ .running) ∧
    (∃ d : Dev, d.lm.windowDue = d.now ∧ (d.slot 0).partialWin = true ∧ (d.chan 8).kind = .rescue ∧
      (d.slot 8).partialWin = false ∧ (d.remote 0).serving = true ∧ (d.remote 0).paFault = false ∧
      (d.remote 1).serving = false) ∧
    (∃ d : Dev, d.rs.superDue = d.now) ∧
    (∃ d : Dev, d.rp.phase = .staging ∧ d.rp.stagingDue = d.now ∧ d.rp.bootRows = none ∧ d.smc.deferred.get 2 = false) ∧
    ∃ d : Dev, d.lp.readDue = d.now ∧ (d.chan 16).kind = .carrier ∧
      ((d.port 0).state = .running ∧ (d.port 0).mode = .delivering ∧ (d.port 0).fifo = []) ∧
      ((d.port 1).state = .running ∧ (d.port 1).mode = .delivering ∧ (d.port 1).fifo = [[Sample.zero]]) ∧
      ((d.port 2).state = .running ∧ (d.port 2).mode = .starting) ∧ (d.port 3).state ≠ .running :=
  ⟨⟨{ (((oneRemote (fun m => { m with queue := [freshEntry 0 .mark] })).setRemote 1
        (fun m => { m with queue := [freshEntry 0 (.gate 5)] }))) with now := 3072 }, by decide, rfl, ⟨_, rfl, rfl⟩,
        ⟨_, rfl, nofun⟩, rfl, nofun⟩,
    ⟨{ oneRemote (fun m => { m with state := .inService }) with
        now := 245760
        lm := { Dev.reset.lm with
          chan := Dev.reset.lm.chan.set 8 { ChanEntry.empty with kind := .rescue }
          slots := Dev.reset.lm.slots.set 0 { Slot.reset with partialWin := true } } }, rfl, rfl, rfl, rfl, rfl, rfl, rfl⟩,
    ⟨{ Dev.reset with now := 24576000 }, rfl⟩,
    ⟨{ Dev.reset with rp := { Dev.reset.rp with phase := .staging } }, rfl, rfl, rfl, rfl⟩,
    { Dev.reset with
      now := 64
      lm := { Dev.reset.lm with chan := Dev.reset.lm.chan.set 16 { ChanEntry.empty with kind := .carrier } }
      lp := { Dev.reset.lp with
        ports := ((Dev.reset.lp.ports.set 0 { Port.reset with state := .running, mode := .delivering }).set 1
            { Port.reset with state := .running, mode := .delivering, fifo := [[Sample.zero]] }).set 2
          { Port.reset with state := .running } } }, rfl, rfl, ⟨rfl, rfl, rfl⟩, ⟨rfl, rfl, rfl⟩, ⟨rfl, rfl⟩, nofun⟩

/-- A launch with a test that runs on P3 and an ERROR_INSERT that waits; a rescue slot and a programme slot at each count of a full
window; a remote with a budget, evaluated at the close. -/
theorem witness_LaunchAndClose :
    (∃ d t j, (d : Dev).lp.frameDue ≤ d.now ∧ d.rs.test = some t ∧ (d.pool 3).lanes.get 0 = .pattern ∧
      d.smc.job = some j ∧ j.work = .errorInsert ∧ d.linked = true ∧ LayoutInv d ∧ j.addr = plan.maint) ∧
    (∀ x ∈ [(8 : Fin 40), 15, 0, 7], ∀ b ∈ [true, false], ∀ k ∈ [0, 1, 9, 24, 49], ∃ d : Dev, d.lm.windowDue ≤ d.now ∧
      (d.chan x).kind = slotRange x ∧ (d.slot x).partialWin = false ∧ (d.slot x).on = b ∧ (d.slot x).rise = k ∧
      (d.slot x).fall = k) ∧
    ∃ d : Dev, d.lm.windowDue ≤ d.now ∧ (d.remote 0).serving = true ∧ (d.remote 0).paFault = false ∧ d.linked = true ∧
      (d.entry 0).budget = 4 ∧ (d.slot 8).pOut = 9 ∧ (d.route 8 0).routed = true ∧ (d.budget 0).rescueOver = false :=
  ⟨⟨{ linkedWith [] [] with
        now := 3072
        rs := { Dev.reset.rs with test := some ⟨3, 7, 0, 0, true, BitVec.allOnes 15⟩ }
        rp := { Dev.reset.rp with pools := Dev.reset.rp.pools.modify 3 (fun p => { p with lanes := p.lanes.set 0 .pattern }) }
        smc := { (linkedWith [] []).smc with job := some ⟨12288, 7, .errorInsert⟩ } }, _, _, by decide, rfl, rfl, rfl, rfl, rfl,
      plan_sound [] [], rfl⟩,
    fun x _ b _ k _ => ⟨{ Dev.reset with
      now := 245760
      lm := { Dev.reset.lm with
        chan := Dev.reset.lm.chan.set x { ChanEntry.empty with kind := slotRange x }
        slots := Dev.reset.lm.slots.set x { Slot.reset with on := b, rise := k, fall := k } } }, Nat.le_refl _,
      congrArg ChanEntry.kind (Tab.get_set_eq _ _ _), congrArg Slot.partialWin (Tab.get_set_eq _ _ _),
      congrArg Slot.on (Tab.get_set_eq _ _ _), congrArg Slot.rise (Tab.get_set_eq _ _ _),
      congrArg Slot.fall (Tab.get_set_eq _ _ _)⟩,
    { oneRemote (fun m => { m with state := .inService }) with
      now := 245760
      smc := (linkedWith [] []).smc
      lm := { Dev.reset.lm with
        chan := Dev.reset.lm.chan.set 8 { ChanEntry.empty with kind := .rescue }
        slots := Dev.reset.lm.slots.set 8 { Slot.reset with pOut := 9, partialWin := true } }
      rp := { Dev.reset.rp with
        remoteTab := Dev.reset.rp.remoteTab.modify 0 (fun e => { e with enabled := true, budget := 4 })
        routes := Dev.reset.rp.routes.modify 8 (fun t => t.set 0 ⟨true, true, 0⟩) } }, by decide, rfl, rfl, rfl, rfl, rfl, rfl,
    rfl⟩

/-- Ports in each state with their counts at the boundary; a FIFO of 60, of 63 and of 64 words, a voter selecting from its port;
a remote to lose. -/
theorem witness_Ports :
    (∃ d : Dev, (d.port 3).state = .dark) ∧ (∀ k ∈ [6, 7], ∃ d : Dev, (d.port 3).state = .aligning ∧ (d.port 3).good = k) ∧
    (∀ k ∈ [2, 3], ∃ d : Dev, (d.port 0).state = .running ∧ (d.port 0).bad = k ∧ (d.remote 0).present = true ∧ d.linked = true) ∧
    ∀ k ∈ [60, 63, 64], ∃ d : Dev, (d.port 3).state = .running ∧ (d.port 3).mode = .delivering ∧ (d.port 3).near = false ∧
      (d.port 3).fifo.length = k ∧ (d.voter 7).sel = some 31 :=
  ⟨⟨Dev.reset, rfl⟩,
    fun k _ => ⟨Dev.reset.setPort 3 (fun p => { p with state := .aligning, good := k }), rfl, rfl⟩,
    fun k _ => ⟨{ (oneRemote (fun m => { m with state := .joining })).setPort 0 (fun p => { p with bad := k }) with
      smc := (linkedWith [] []).smc }, rfl, rfl, rfl, rfl⟩,
    fun k _ => ⟨(Dev.reset.setPort 3 (fun p => { p with
      state := .running, mode := .delivering, fifo := List.replicate k [] })).setVoter 7 (fun v => { v with sel := some 31 }),
      rfl, rfl, rfl, List.length_replicate, rfl⟩⟩

/-- R0 heard, with an open record of sequence 7 from tick 0 at tick 1000, in every case an ECHO of turnaround 200 (a measurement
of 400) or 1001 (none) finds it: in service near d and off it with 1 and 2 measurements behind, joining before and after
its lock, and with three measurements in its lock run. -/
theorem witness_Echoes :
    (∃ d : Dev, (d.port 0).state = .running ∧ (d.entry 0).enabled = true ∧ (d.remote 0).present = true ∧
      (d.remote 0).record = none) ∧
    (∀ x ∈ [402, 403], ∀ k ∈ [1, 2], ∃ d : Dev, (d.port 0).state = .running ∧ (d.entry 0).enabled = true ∧
      (d.remote 0).serving = true ∧ (d.remote 0).record = some ⟨7, 0⟩ ∧ d.now = 1000 ∧ (d.remote 0).d = x ∧
      (d.remote 0).moveRun = k ∧ (d.remote 0).moveUp = false) ∧
    (∀ b ∈ [true, false], ∃ d : Dev, (d.port 0).state = .running ∧ (d.entry 0).enabled = true ∧
      (d.remote 0).state = .joining ∧ (d.remote 0).locked = b ∧ (d.remote 0).record = some ⟨7, 0⟩ ∧ d.now = 1000 ∧
      (d.remote 0).lockRun = [400, 401, 402]) ∧
    (200 ≤ 1000 - 0 ∧ 1000 - 0 < 1001 ∧ min 65535 ((1000 - 0 - 200) / 2) = 400) :=
  ⟨⟨oneRemote (fun m => { m with state := .impaired }), rfl, rfl, rfl, rfl⟩,
    fun x _ k _ => ⟨{ oneRemote (fun m => { m with state := .inService, d := x, moveRun := k, record := some ⟨7, 0⟩ }) with now := 1000 },
      rfl, rfl, rfl, rfl, rfl, rfl, rfl, rfl⟩,
    fun b _ => ⟨{ oneRemote (fun m => { m with state := .joining, locked := b, lockRun := [400, 401, 402], record := some ⟨7, 0⟩ }) with
      now := 1000 }, rfl, rfl, rfl, rfl, rfl, rfl, rfl⟩,
    by decide⟩

/-- First messages from a LOST remote that is heard, and from one that is not; ACKs that match nothing, a message of each kind in
service, and the SWITCH that completes a join with a MARK left. -/
theorem witness_Messages :
    (∃ d : Dev, (d.port 0).state = .running ∧ (d.entry 0).enabled = true ∧ (d.remote 0).present = false) ∧
    (∃ d : Dev, (d.port (portOf 31)).state ≠ .running) ∧
    (∀ m ∈ [DownMsg.gate 65535, .level true 47, .level false 0, .hold .off, .subst 7 (some 319), .map 39 none, .switch,
        .pattern none], ∃ d : Dev,
      (d.port 0).state = .running ∧ (d.entry 0).enabled = true ∧ (d.remote 0).serving = true ∧ d.rp.phase = .idle ∧
      ∃ x, (d.remote 0).queue = [x] ∧ x.msg = m ∧ x.seq = some 63) ∧
    (∃ d : Dev, (d.port 0).state = .running ∧ (d.entry 0).enabled = true ∧ (d.remote 0).state = .joining ∧
      (d.remote 0).locked = true ∧ (d.remote 0).joinSwitch = true ∧ d.rp.phase = .idle ∧
      ∃ x y, (d.remote 0).queue = [x, y] ∧ x.msg = .switch ∧ x.seq = some 63 ∧ y.msg.kind = .mark) ∧
    (∃ (d : Dev) (t : Test), (d.port 0).state = .running ∧ (d.entry 0).enabled = true ∧ (d.remote 0).present = true ∧ d.rs.test = some t ∧
      t.remote = 0 ∧ t.acked = true ∧ t.last = 7) ∧
    ∀ k ∈ [4, 5], ∃ d : Dev, (d.port 0).state = .running ∧ (d.entry 0).enabled = true ∧ (d.remote 0).state = .inService ∧
      (d.entry 0).impairment = 5 ∧ (d.remote 0).winFail + 1 = k :=
  ⟨⟨oneRemote (fun m => { m with state := .lost }), rfl, rfl, rfl⟩, ⟨Dev.reset, nofun⟩,
    fun m _ => ⟨oneRemote (fun k => { k with state := .inService, queue := [⟨m, 0, true, 1, some 63, none⟩] }), rfl, rfl, rfl, rfl,
      _, rfl, rfl, rfl⟩,
    ⟨oneRemote (fun k => { k with
        state := .joining, locked := true, joinSwitch := true
        queue := [⟨.switch, 0, true, 1, some 63, none⟩, freshEntry 0 .mark] }), rfl, rfl, rfl, rfl, rfl, rfl, _, _, rfl, rfl, rfl, rfl⟩,
    ⟨{ oneRemote (fun k => { k with state := .inService }) with
        rs := { (oneRemote (fun k => { k with state := .inService })).rs with
          test := some ⟨0, 0, 0, 7, true, 1⟩ } }, _, rfl, rfl, rfl, rfl, rfl, rfl, rfl⟩,
    fun k hk => ⟨{ oneRemote (fun m => { m with state := .inService, winFail := k - 1 }) with
        rp := { Dev.reset.rp with
          remoteTab := Dev.reset.rp.remoteTab.set 0
            { RemoteEntry.empty with enabled := true, impairment := 5 } } }, rfl, rfl, rfl, rfl, by
      simp only [List.mem_cons, List.not_mem_nil, or_false] at hk
      rcases hk with rfl | rfl <;> rfl⟩⟩

/-- ACKs that move a join, a test and an exchange, each of an entry of sequence 63 of R0: a locked join's MAP 39 with another MAP
left and with a GATE left; the PATTERN of the test on L319 and of L308; a staged MAP with one left here, at R1 and nowhere;
and a MAP and a SWITCH in SWITCHING, the remote in the switching set or not and its SWITCH sent or not. -/
theorem witness_AcksThatMoveOn :
    let heard := fun (d : Dev) (m : DownMsg) (l : List DownMsg) => (d.port 0).state = .running ∧ (d.entry 0).enabled = true ∧
      (d.remote 0).queue = ⟨m, 0, true, 1, some 63, none⟩ :: l.map (freshEntry 0)
    (∀ l ∈ [[DownMsg.map 0 none], [.gate 5]], ∃ d : Dev, heard d (.map 39 none) l ∧ (d.remote 0).state = .joining ∧
      (d.remote 0).locked = true ∧ (d.remote 0).joinSwitch = false ∧ d.rp.phase = .idle) ∧
    (∀ i ∈ [(11 : Fin 12), 0], ∃ d t, heard d (.pattern (some 319)) [] ∧ (d.remote 0).serving = true ∧ d.rp.phase = .idle ∧
      d.rs.test = some t ∧ t.remote = 0 ∧ t.lane = i) ∧
    (∀ l ∈ [[DownMsg.map 0 none], []], ∀ q ∈ [[freshEntry 0 (.map 7 none)], []], ∃ d, heard d (.map 39 none) l ∧
      (d.remote 0).serving = true ∧ d.rp.phase = .staging ∧ d.rp.staged = [0, 1] ∧ (d.remote 1).queue = q ∧
      d.rp.bootRows = none ∧ d.smc.deferred.get 2 = false) ∧
    (∀ m ∈ [DownMsg.map 39 none, .switch], ∀ l ∈ [[], [(0 : Fin 32)]], ∀ k ∈ [[], [(0 : Fin 32)]], ∃ d, heard d m [.gate 5] ∧
      (d.remote 0).serving = true ∧ d.rp.phase = .switching ∧ d.rp.switching = l ∧ d.rp.switchSent = k ∧
      d.rp.bootRows = none ∧ d.smc.deferred.get 2 = false) :=
  let dev := fun (m : DownMsg) (l : List DownMsg) (f : Remote → Remote) => oneRemote (fun k =>
    f { k with state := .inService, queue := ⟨m, 0, true, 1, some 63, none⟩ :: l.map (freshEntry 0) })
  ⟨fun l _ => ⟨dev (.map 39 none) l (fun k => { k with state := .joining, locked := true }), ⟨rfl, rfl, rfl⟩, rfl, rfl, rfl, rfl⟩,
    fun i _ => ⟨{ dev (.pattern (some 319)) [] id with
      rs := { (dev (.pattern (some 319)) [] id).rs with test := some ⟨0, 0, i, 0, false, 1⟩ } }, _, ⟨rfl, rfl, rfl⟩, rfl, rfl, rfl,
      rfl, rfl⟩,
    fun l _ q _ => ⟨((dev (.map 39 none) l id).setRemote 1 (fun k => { k with queue := q })).setRp (fun p =>
      { p with phase := .staging, staged := [0, 1] }), ⟨rfl, rfl, rfl⟩, rfl, rfl, rfl, rfl, rfl, rfl⟩,
    fun m _ l _ k _ => ⟨(dev m [.gate 5] id).setRp (fun p =>
      { p with phase := .switching, switching := l, switchSent := k }), ⟨rfl, rfl, rfl⟩, rfl, rfl, rfl, rfl, rfl, rfl⟩⟩

/-- Timers of a remote and of a source at their due tick: ACK timers after the second and the third send, marker timers due and
one tick short, silence, join and reach settle timers with and without an unreached remote. -/
theorem witness_RunningTimers :
    (∀ k ∈ [2, 3], ∃ (d : Dev) (x : QEntry), entryOf (d.remote 31).queue ⟨.gate, 0⟩ = some x ∧ x.ackDue = some 9 ∧ d.now = 9 ∧
      x.count = k) ∧
    (∀ t ∈ [8, 9], ∃ d : Dev, (d.remote 31).markDue = some 9 ∧ d.now = t) ∧
    (∀ t ∈ [245759, 245760], ∃ d : Dev, (d.remote 31).record = some ⟨7, 0⟩ ∧ d.now = t) ∧
    (∃ d : Dev, (d.remote 31).silenceDue = some d.now ∧ (d.remote 31).present = true) ∧
    (∃ d : Dev, (d.remote 31).joinDue = some d.now ∧ (d.remote 31).state = .joining) ∧
    ∀ u ∈ [(0 : BitVec 32), 1], ∃ d : Dev, (d.source 7).settleDue = some d.now ∧ (d.source 7).unreached = u :=
  ⟨fun k _ => ⟨{ Dev.reset.setRemote 31 (fun m => { m with queue := [⟨.gate 1, 0, true, k, some 1, some 9⟩] }) with now := 9 }, _,
      rfl, rfl, rfl, rfl⟩,
    fun t _ => ⟨{ Dev.reset.setRemote 31 (fun m => { m with markDue := some 9 }) with now := t }, rfl, rfl⟩,
    fun t _ => ⟨{ Dev.reset.setRemote 31 (fun m => { m with record := some ⟨7, 0⟩ }) with now := t }, rfl, rfl⟩,
    ⟨Dev.reset.setRemote 31 (fun m => { m with state := .inService, silenceDue := some 0 }), rfl, rfl⟩,
    ⟨Dev.reset.setRemote 31 (fun m => { m with state := .joining, joinDue := some 0 }), rfl, rfl⟩,
    fun u _ => ⟨oneSource 7 (fun c => { c with settleDue := some 0, unreached := u }), rfl, rfl⟩⟩

/-- R0 and R1 in service with route and uplink for E7 and equal figures of 9, this frame and last; a selection of E7's voter. -/
def voting (sel : Option (Fin 32)) (f : Voter → Voter) : Dev :=
  let d := oneRemote (fun m => { m with state := .inService })
  { (d.setRemote 1 (fun m => { m with state := .inService })).setVoter 7 (fun k => f { k with
      sel := sel, cur := (k.cur.set 0 (some 9)).set 1 (some 9), last := (k.last.set 0 (some 9)).set 1 (some 9) }) with
    now := 491520
    rp := { d.rp with routes := d.rp.routes.modify 15 (fun t => (t.set 0 ⟨true, true, 0⟩).set 1 ⟨true, true, 0⟩) } }

/-- Voters at a frame end: no candidate; and R0 the best of two equals with no selection, with itself, with the other and with
one that is no candidate selected, the sums 0 and 16 against a splice limit of 0. -/
theorem witness_VotingFrameEndJudgesTheSelection :
    (∃ d : Dev, (d.voter 7).due ≤ d.now ∧ ∀ r, (d.voter 7).cur.get r = none) ∧
    (∀ v ∈ [none, some 0, some 1, some 31], ∀ l ∈ [[], List.replicate 4 ⟨0x0400, 0⟩], ∃ d : Dev, (d.voter 7).due ≤ d.now ∧
      highest (fun r => selectable d 7 r ∧ (d.voter 7).cur.get r ≠ none) (fun r => ((d.voter 7).cur.get r).getD 0) 0 ∧
      (d.voter 7).sel = v ∧ (d.voter 7).outs = l ∧ (d.sru.table.get 7).spliceLimit = 0) :=
  ⟨⟨{ Dev.reset with now := 491520 }, by decide +kernel, by decide +kernel⟩, fun v hv l hl => ⟨voting v (fun k => { k with outs := l }), by
    simp only [List.mem_cons, List.not_mem_nil, or_false] at hv hl
    unfold highest selectable
    rcases hv with rfl | rfl | rfl | rfl <;> rcases hl with rfl | rfl <;> decide +kernel⟩⟩

/-- R0 in service with a hold of 4 and selected in E7's voter, R1 LATE at 9 above a T_ref of 4 while E0 is KEYED, two entries in
R0's queue, and a request that waits on P3 behind twelve versions. -/
def heldDev : Dev :=
  let d := ((voting (some 0) id).setRemote 0 (fun m => { m with queue := [freshEntry 0 (.map 0 none), freshEntry 0 (.map 1 none)] })).setRemote 1
    (fun m => { m with d := 9 })
  let d := (d.setHold 0 (fun h => { h with holding := true, hold := some (.ticks 4) })).setHold 1
    (fun h => { h with holding := true, hold := some .off, late := true })
  { (d.setSlot (rescueSlot 0) (fun c => { c with on := true })).setPool 3 (fun _ =>
      ⟨Tab.const 12 (.version ⟨0, 1, 1⟩), [⟨11, 7, 7⟩]⟩) with
    sru := { d.sru with tRef := 4, keyed := d.sru.keyed.set 0 true } }

theorem witness_StepKeepsLinkInvariants : (∃ s t, step s = .next t ∧ QueueInv s.dev ∧ PoolInv s.dev ∧ VoterInv s.dev ∧ HoldInv s.dev ∧
      BootingInv s.dev ∧ (s.dev.pool 3).waiting ≠ [] ∧ (s.dev.remote 0).queue.length = 2 ∧ (s.dev.voter 7).sel = some 0 ∧
      (s.dev.hold 0).late = false ∧ (s.dev.hold 1).late = true) ∧
    ∃ s : State, BootingInv s.dev ∧ s.dev.smc.state = .booting :=
  ⟨⟨alone heldDev, _, rfl, by unfold QueueInv; decide +kernel, by unfold PoolInv; decide +kernel,
      by unfold VoterInv selectable; decide +kernel, by unfold HoldInv; decide +kernel,
      by unfold BootingInv; decide +kernel, by decide +kernel, by decide +kernel, by decide +kernel, by decide +kernel,
      by decide +kernel⟩,
    State.reset, by unfold BootingInv; decide +kernel, rfl⟩

/-- The keyed record and T_ref as every step finds them: E0 KEYED with R1's candidate of 9 above T_ref, and no slot KEYED with
T_ref 9. Evaluations: a slot KEYED, T_ref the candidate, and neither. -/
theorem witness_Evaluations : (∃ s t, step s = .next t ∧ ReferenceInv s.dev ∧ s.dev.sru.keyed.get 0 = true ∧
      ¬ IsCandidate s.dev s.dev.sru.tRef ∧ IsCandidate s.dev 9) ∧
    (∃ s t, step s = .next t ∧ ReferenceInv s.dev ∧ (∀ k, s.dev.sru.keyed.get k = false) ∧ formsCandidate s.dev 1) ∧
    ∃ d : Dev, (∀ k, d.sru.keyed.get k = false) ∧ ¬ IsCandidate d d.sru.tRef ∧ (d.hold 1).late = true := by
  let free : Dev := { heldDev.setSlot (rescueSlot 0) (fun c => { c with on := false }) with
    sru := { heldDev.sru with keyed := Tab.const 8 false } }
  refine ⟨⟨alone heldDev, _, rfl, ?_, by decide +kernel, ?_, ?_⟩,
    ⟨alone { free with sru := { free.sru with tRef := 9 } }, _, rfl, ?_, by decide +kernel, ?_⟩, free, by decide +kernel, ?_,
    by decide +kernel⟩
  all_goals first
    | (unfold ReferenceInv IsCandidate formsCandidate; decide +kernel)
    | (unfold IsCandidate formsCandidate; decide +kernel)
    | (unfold formsCandidate; decide +kernel)

/-- Voters rechecked: no selection, a selection that meets the state conditions, and one that does not with R0 the highest of
two equals and with no remote that has a last figure. -/
theorem witness_Rechecks :
    (∃ d : Dev, (d.voter 7).sel = none) ∧ (∃ d : Dev, (d.voter 7).sel = some 1 ∧ selectable d 7 1) ∧
    (∃ d : Dev, (d.voter 7).sel = some 31 ∧ ¬ selectable d 7 31 ∧
      highest (fun r => selectable d 7 r ∧ (d.voter 7).last.get r ≠ none) (fun r => ((d.voter 7).last.get r).getD 0) 0) ∧
    ∃ d : Dev, (d.voter 7).sel = some 31 ∧ ¬ selectable d 7 31 ∧ ∀ r, (d.voter 7).last.get r = none :=
  ⟨⟨voting none id, rfl⟩, ⟨voting (some 1) id, by unfold selectable; decide +kernel⟩,
    ⟨voting (some 31) id, by unfold highest selectable; decide +kernel⟩,
    voting (some 31) (fun k => { k with last := Tab.const 32 none }), by unfold selectable; decide +kernel⟩

/-- BIM tables with M11 alone free, and full with the last grant at (S7, P7). -/
theorem witness_BimAndLaneRequestsTakeAFreeOrLowerOne :
    (∃ d : Dev, (d.bim 11).pair = none ∧ ∀ k : Fin 12, k < 11 → (d.bim k).pair ≠ none) ∧
    ∃ d : Dev, (∀ m, (d.bim m).pair ≠ none) ∧ BimInv d ∧ (d.bim 11).pair = some (7, 7) ∧
      ∀ k g r, (d.bim k).pair = some (g, r) → g < 7 ∨ (g = 7 ∧ r ≤ 7) := by
  refine ⟨⟨{ Dev.reset with pm := { Dev.reset.pm with bims := (Tab.const 12 { Bim.reset with pair := some (0, 0) }).set 11 Bim.reset } },
      rfl, by decide +kernel⟩,
    { Dev.reset with
      pm := { Dev.reset.pm with bims := Tab.ofFn (fun m => { Bim.reset with
        pair := some (if m.val < 4 then (0, ⟨m.val % 8, by omega⟩) else (7, ⟨(m.val - 4) % 8, by omega⟩)) }) },
      bic := { Dev.reset.bic with sources := Dev.reset.bic.sources.map (fun c => { c with inService := true, progs := 255 }) } },
    by decide +kernel, ⟨by decide +kernel, by decide +kernel⟩, by decide +kernel, by decide +kernel⟩

/-- Pools with L319 alone free, with a pattern on it, and full with (S7, P7) there, with and without a request that waits. -/
theorem witness_Lanes : ∀ l ∈ [LaneState.free, .pattern, .version ⟨11, 7, 7⟩], ∀ w ∈ [[], [(⟨0, 3, 3⟩ : VersionReq)]],
    ∃ d : Dev, (d.pool 3).lanes.get 11 = l ∧ (d.pool 3).waiting = w ∧
      ∀ j k, j ≠ 11 → (d.pool 3).lanes.get j = .version k → k.src < 7 :=
  fun l _ w _ => ⟨{ Dev.reset with
      rp := { Dev.reset.rp with
        pools := Dev.reset.rp.pools.set 3 ⟨(Tab.const 12 (.version ⟨0, 1, 1⟩)).set 11 l, w⟩ } },
    congrArg (fun p : Pool => p.lanes.get 11) (Tab.get_set_eq _ _ _) |>.trans (Tab.get_set_eq _ _ _),
    congrArg Pool.waiting (Tab.get_set_eq _ _ _), by
      intro j k hj hk
      have h : ((Tab.const 12 (LaneState.version ⟨0, 1, 1⟩)).set 11 l).get j = .version k :=
        (congrArg (fun p : Pool => p.lanes.get j) (Tab.get_set_eq _ _ _)).symm.trans hk
      rw [Tab.get_set_ne _ _ (Ne.symm hj), Tab.get_const] at h
      cases h
      decide⟩

/-- A service of S7 with a BIM, over a zone and a programme routed to a remote in service, its SUBST not yet told and told. -/
theorem witness_BreakInUpdateDeliversTheVersions : ∀ v ∈ [none, some (DelivVal.lane 308 7)], ∃ d : Dev, BimInv d ∧
    (d.source 7).inService = true ∧ (d.bim 11).pair = some (7, 7) ∧ (d.source 7).zones.getLsbD (d.entry 0).zone.val = true ∧
    (d.route (progSlot 7) 0).routed = true ∧ (d.remote 0).serving = true ∧ (d.remote 0).paFault = false ∧
    (d.delivery 0 7).acked = v ∧ (d.source 7).settled = true ∧ (d.source 7).unreached = 0 ∧ d.linked = true := by
  intro v hv
  refine ⟨(({ (oneRemote (fun m => { m with state := .inService })) with
      smc := (linkedWith [] []).smc
      rp := { Dev.reset.rp with routes := Dev.reset.rp.routes.modify 7 (fun t => t.set 0 ⟨true, true, 0⟩) } } : Dev).setBim 11
      (fun b => { b with pair := some (7, 7) })).setSource 7 (fun c => { c with
        inService := true, zones := 1, progs := 128, settled := true }) |>.setDelivery 0 7 (fun x => { x with acked := v }), ?_⟩
  simp only [List.mem_cons, List.not_mem_nil, or_false] at hv
  rcases hv with rfl | rfl <;> exact ⟨⟨by decide +kernel, by decide +kernel⟩, by decide +kernel⟩

/-- Services at a play instant in each phase: at the last instant of a gap, at an underrun, one sample before the end of a pass,
at the end of a pass with one and with two passes left and with the ending mark. -/
theorem witness_PlayInstantDeliversOneSample :
    (∀ p ∈ [AudioPhase.priming, .silent, .gap, .playing], ∃ d : Dev, (d.source 7).inService = true ∧ (d.source 7).playDue = d.now ∧
      (d.source 7).audioPhase = p ∧ (d.source 7).fifo = [] ∧ (d.source 7).gapLeft = 1) ∧
    (∀ k ∈ [8, 9], ∀ r ∈ [1, 2], ∀ b ∈ [true, false], ∃ d : Dev, (d.source 7).inService = true ∧ (d.source 7).playDue = d.now ∧
      (d.source 7).audioPhase = .playing ∧ (d.source 7).fifo = [5] ∧ (d.source 7).origin = some (.shared 0 10) ∧
      (d.source 7).played = k ∧ (d.source 7).repeatsLeft = r ∧ (d.source 7).ending = b ∧ (d.source 7).isPending = false ∧
      levelLine d 7 = false) :=
  ⟨fun p _ => ⟨oneSource 7 (fun c => { c with inService := true, audioPhase := p, gapLeft := 1 }), rfl, rfl, rfl, rfl, rfl⟩,
    fun k _ r _ b _ => ⟨oneSource 7 (fun c => { c with
      inService := true, audioPhase := .playing, fifo := [5]
      origin := some (.shared 0 10), played := k, repeatsLeft := r, ending := b }), rfl, rfl, rfl, rfl, rfl, rfl, rfl, rfl, rfl, rfl⟩⟩

/-- Services at the last sample of their last pass, enabled under the master, whose next service follows: from a held cue, from the
line request that a LATCHED source holds, and from the level of a LEVEL line. -/
theorem witness_ServicesFollow : ∀ p ∈ [(0, true), (1, true), (2, false)], ∃ d : Dev, (d.source 0).inService = true ∧
    (d.source 0).playDue = d.now ∧ (d.source 0).audioPhase = .playing ∧ (d.source 0).fifo = [5] ∧
    (d.source 0).origin = some (.shared 0 10) ∧ (d.source 0).played = 9 ∧ (d.source 0).repeatsLeft = 1 ∧
    (d.bic.table.get 0).enabled = true ∧ d.bic.master = true ∧ ((d.source 0).cueReq = none ↔ p.1 ≠ 0) ∧
    ((d.source 0).lineReq = true ↔ p.1 = 1) ∧ ((levelLine d 0 = true ∧ (d.source 0).cancelHold = false) ↔ p.2 = false) ∧
    lineLevel d 0 = true := by
  intro p hp
  refine ⟨{ Dev.reset with bic := { Dev.reset.bic with
    master := true, lines := Tab.const 3 true
    table := Dev.reset.bic.table.set 0 { SrcEntry.empty with enabled := true, lineUse := true, latched := p.2, again := true }
    sources := Dev.reset.bic.sources.set 0 { Source.reset with
      inService := true, audioPhase := .playing, fifo := [5], origin := some (.shared 0 10), played := 9, repeatsLeft := 1
      cueReq := if p.1 = 0 then some ⟨1, 1, .none, 1, 0⟩ else none, lineReq := decide (p.1 = 1) } } }, ?_⟩
  simp only [List.mem_cons, List.not_mem_nil, or_false] at hp
  rcases hp with rfl | rfl | rfl <;> decide +kernel

/-- A LINE service with a FIFO one short of full and full, a block of 8 samples that does and does not end a pass, and a clip read
that is wanted and discarded with another waiting. -/
theorem witness_FetchedSamplesJoinTheAudioFifo :
    (∀ k ∈ [2047, 2048], ∃ d : Dev, (d.source 2).inService = true ∧ (d.source 2).origin = some .line ∧ (d.source 2).fifo.length = k) ∧
    (∀ k ∈ [8, 9], ∃ d : Dev, (d.source 7).inService = true ∧ (d.source 7).origin = some (.shared 64 k) ∧ (d.source 7).onWay = 8 ∧
      (d.source 7).fetchPos = 0) ∧
    ∀ x ∈ [true, false], ∃ d : Dev, d.fb.holder = some ⟨.clip 7 ⟨0, 64⟩, x⟩ ∧ d.smc.state ≠ .booting ∧
      d.fb.waiting.get 0 = some ⟨64, 64⟩ ∧ ∀ k, k ≠ 0 → d.fb.waiting.get k = none :=
  ⟨fun k _ => ⟨oneSource 2 (fun c => { c with inService := true, origin := some .line, fifo := List.replicate k 0 }), rfl, rfl,
      List.length_replicate⟩,
    fun k _ => ⟨oneSource 7 (fun c => { c with inService := true, origin := some (.shared 64 k), onWay := 8 }), rfl, rfl, rfl, rfl⟩,
    fun x _ => ⟨{ linkedWith [] [] with
      fb := { Dev.reset.fb with
        holder := some ⟨.clip 7 ⟨0, 64⟩, x⟩, waiting := (Tab.const 8 none).set 0 (some ⟨64, 64⟩) } }, rfl, nofun, rfl, by
        intro k hk
        show ((Tab.const 8 (none : Option ClipRead)).set 0 (some ⟨64, 64⟩)).get k = none
        rw [Tab.get_set_ne _ _ (Ne.symm hk)]
        exact Tab.get_const _ _⟩⟩

/-- Lines up and down of a part that BOOTS and of one that does not, for every setting of line use, trigger, retrigger, enable and
master, with the source in service and idle, held off or not, playing or not, with a LINE service and a cue request held or not. -/
theorem witness_Lines : ∀ up booting use latched again enabled master inService hold playing line held : Bool, ∃ d : Dev,
    d.bic.lines.get 2 = up ∧ (d.smc.state = .booting ↔ booting = true) ∧ (d.bic.table.get 2).lineUse = use ∧
      (d.bic.table.get 2).latched = latched ∧ (d.bic.table.get 2).again = again ∧ (d.bic.table.get 2).enabled = enabled ∧
      d.bic.master = master ∧ (d.source 2).inService = inService ∧ (d.source 2).cancelHold = hold ∧
      (d.source 2).lineReq = false ∧ ((d.source 2).audioPhase = .playing ↔ playing = true) ∧
      ((d.source 2).origin = some .line ↔ line = true) ∧ ((d.source 2).cueReq ≠ none ↔ held = true) :=
  fun up booting use latched again enabled master inService hold playing line held =>
    ⟨{ Dev.reset with
        smc := { Dev.reset.smc with state := if booting then .booting else .autonomous },
        bic := { Dev.reset.bic with
          master := master, lines := Dev.reset.bic.lines.set 2 up,
          table := Dev.reset.bic.table.set 2 { SrcEntry.empty with lineUse := use, latched := latched, again := again, enabled := enabled },
          sources := Dev.reset.bic.sources.set 2 { Source.reset with
            inService := inService, cancelHold := hold, audioPhase := if playing then .playing else .silent
            origin := if line then some .line else some .none
            cueReq := if held then some ⟨1, 1, .none, 0, 0⟩ else none } } },
      rfl, by cases booting <;> simp, rfl, rfl, rfl, rfl, rfl, rfl, rfl, rfl, by
        show (if playing then AudioPhase.playing else .silent) = .playing ↔ _
        cases playing <;> simp, by
        show (if line then some Origin.line else some Origin.none) = some .line ↔ _
        cases line <;> simp, by
        show (if held then some (⟨1, 1, .none, 0, 0⟩ : CueReq) else none) ≠ none ↔ _
        cases held <;> simp⟩

/-- ALARM and TALK0 with line use off after each boot outcome, up and down, unmasked by a source table and not, S0 disabled by its
entry, by the master and not at all, in service and idle; and a boot that is about to fail, with the line up and the source under ONCE and AGAIN. -/
theorem witness_AlarmAfterAFailedBoot :
    (∀ o ∈ [BootOutcome.none, .loaded, .noFlash, .blank, .badFormat, .badLength], ∀ up alarm enabled master inService request : Bool,
      ∀ k ∈ [(0 : Fin 3), 1], ∃ d : Dev, d.smc.state = .linked ∧ d.smc.bootResult.outcome = o ∧ d.bic.lines.get k = up ∧
        (d.bic.table.get ⟨k.val, by omega⟩).lineUse = false ∧ (d.bic.table.get ⟨k.val, by omega⟩).enabled = enabled ∧
        d.bic.master = master ∧ d.bic.alarmMasked = alarm ∧
        (d.source ⟨k.val, by omega⟩).inService = inService ∧ (d.source ⟨k.val, by omega⟩).lineReq = request) ∧
    ∀ use alarm again enabled master inService : Bool, ∃ (d : Dev) (b : BootRec), d.fb.boot = some b ∧ d.smc.state = .booting ∧ d.smc.job = none ∧
      d.fb.holder = some ⟨.bootStatus, false⟩ ∧ d.bic.lines.get 0 = true ∧ (d.bic.table.get 0).lineUse = use ∧
      d.bic.alarmMasked = alarm ∧ (d.bic.table.get 0).again = again ∧ (d.bic.table.get 0).enabled = enabled ∧ d.bic.master = master ∧
      (d.source 0).inService = inService :=
  ⟨fun o _ up alarm enabled master inService request k _ => ⟨{ Dev.reset with
      smc := { Dev.reset.smc with state := .linked, bootResult := { Dev.reset.smc.bootResult with outcome := o } }
      bic := { Dev.reset.bic with
        master := master, alarmMasked := alarm, lines := Dev.reset.bic.lines.set k up
        table := Dev.reset.bic.table.set ⟨k.val, by omega⟩ { SrcEntry.empty with enabled := enabled }
        sources := Dev.reset.bic.sources.set ⟨k.val, by omega⟩ { Source.reset with inService := inService, lineReq := request } } },
      rfl, rfl, Tab.get_set_eq _ _ _, congrArg SrcEntry.lineUse (Tab.get_set_eq _ _ _), congrArg SrcEntry.enabled (Tab.get_set_eq _ _ _), rfl, rfl,
      congrArg Source.inService (Tab.get_set_eq _ _ _), congrArg Source.lineReq (Tab.get_set_eq _ _ _)⟩,
    fun use alarm again enabled master inService => ⟨{ Dev.reset with
      bic := { Dev.reset.bic with
        master := master, alarmMasked := alarm, lines := Dev.reset.bic.lines.set 0 true
        table := Dev.reset.bic.table.set 0 { SrcEntry.empty with lineUse := use, again := again, enabled := enabled }
        sources := Dev.reset.bic.sources.set 0 { Source.reset with inService := inService } }
      fb := { Dev.reset.fb with holder := some ⟨.bootStatus, false⟩, boot := some (BootRec.begin .full) } }, _,
      rfl, rfl, rfl, rfl, rfl, rfl, rfl, rfl, rfl, rfl, rfl⟩⟩

/-- Slots that are OFF and that are not, between output samples and at an output sample, at the ends of the three ranges. -/
theorem witness_DonorSampleFeedsTheSlots : ∀ x ∈ [(0 : Fin 40), 7, 8, 15, 16, 39], ∀ t ∈ [SlotKind.off, slotRange x],
    ∀ k ∈ [0, 1], ∃ d : Dev, (d.chan x).kind = t ∧ (d.slot x).decim = k :=
  fun x _ t _ k _ => ⟨{ Dev.reset with
      lm := { Dev.reset.lm with
        chan := Dev.reset.lm.chan.set x { ChanEntry.empty with kind := t }
        slots := Dev.reset.lm.slots.set x { Slot.reset with decim := k } } },
    congrArg ChanEntry.kind (Tab.get_set_eq _ _ _), congrArg Slot.decim (Tab.get_set_eq _ _ _)⟩

/-- A programme slot at its filtered sample, for the first and the second of a pair, with the carrier present and lost, the loss
action drop and hold, and a BIM in overlay and replacement. -/
theorem witness_ProgrammeSampleDrivesTheModulators : ∀ half ∈ [none, some Sample.zero], ∀ on drop overlay : Bool, ∃ d : Dev,
    (d.chan (progSlot 7)).kind ≠ .off ∧ (d.slot (progSlot 7)).decim = 0 ∧ (d.mod 7).half = half ∧
      (d.slot (progSlot 7)).on = on ∧ (d.pm.table.get 7).drop = drop ∧ (d.bic.table.get 7).overlay = overlay ∧
      (d.bim 11).pair = some (7, 7) :=
  fun half _ on drop overlay => ⟨{ Dev.reset with
      lm := { Dev.reset.lm with
        chan := Dev.reset.lm.chan.set 7 { ChanEntry.empty with kind := .programme }
        slots := Dev.reset.lm.slots.set 7 { Slot.reset with on := on, decim := 0 } }
      pm := { Dev.reset.pm with
        table := Dev.reset.pm.table.modify 7 (fun e => { e with drop := drop })
        mods := Dev.reset.pm.mods.modify 7 (fun m => { m with half := half })
        bims := Dev.reset.pm.bims.set 11 { Bim.reset with pair := some (7, 7) } }
      bic := { Dev.reset.bic with table := Dev.reset.bic.table.set 7 { SrcEntry.empty with overlay := overlay } } },
    nofun, rfl, rfl, rfl, rfl, rfl, rfl⟩

/-- A boot at each of its reads, wanted and discarded, with an erased flash. -/
theorem witness_BootReads : ∀ t ∈ [Txn.bootStatus, .bootIdent, .bootHeader, .bootDirectory, .bootRecord 0], ∀ x ∈ [true, false],
    ∃ (d : Dev) (b : BootRec) (c : Checked), d.fb.boot = some b ∧ d.smc.state = .booting ∧ d.smc.job = none ∧ d.fb.holder = some ⟨t, x⟩ ∧
      b.checked = some c ∧ 0 + 1 < b.count :=
  fun t _ x _ => ⟨{ Dev.reset with
      fb := { Dev.reset.fb with
        holder := some ⟨t, x⟩, boot := some { BootRec.begin .safety with
          count := 2, checked := some (formTables Dev.reset (BootRec.begin .safety)) } } }, _, _, rfl, rfl, rfl, rfl, rfl, by decide⟩

/-- The last record of a body in a 64 KiB flash, its directory in the flash's last 256 bytes and one byte further, in each scope;
and a header whose body of 15 bytes holds no complete record. -/
theorem witness_BootRecordIsStagedOrIgnored :
    (∀ sc ∈ [Scope.full, .safety, .carriers, .none], ∀ o ∈ [65280, 65281], ∃ d b, (d : Dev).fb.boot = some b ∧
      d.smc.state = .booting ∧ d.smc.job = none ∧ d.fb.holder = some ⟨.bootRecord 0, false⟩ ∧ b.scope = sc ∧ b.count = 1 ∧
      b.dirOffset = o ∧ d.fb.size = 65536) ∧
    ∃ d b, (d : Dev).fb.boot = some b ∧ d.smc.state = .booting ∧ d.smc.job = none ∧ d.fb.size = 65536 ∧
      d.fb.holder = some ⟨.bootHeader, false⟩ ∧
      let h := chipReadN d.fb.chip 0 16
      h.take 2 = [0xA3, 0x5C] ∧ field h 2 1 = 1 ∧ field h 4 3 = 15 :=
  ⟨fun sc _ o _ => ⟨{ Dev.reset with
      fb := { Dev.reset.fb with
        sizeCode := 16, holder := some ⟨.bootRecord 0, false⟩
        boot := some { BootRec.begin sc with count := 1, dirOffset := o } } }, _, rfl, rfl, rfl, rfl, rfl, rfl, rfl, rfl⟩,
    { Dev.reset with
      fb := { Dev.reset.fb with
        sizeCode := 16, holder := some ⟨.bootHeader, false⟩, boot := some (BootRec.begin .full)
        chip := chipWrite [] 0 [0xA3, 0x5C, 1, 0, 15, 0, 0, 0, 0, 0, 0, 0, 0, 0, 0, 0] } }, _, rfl, rfl, rfl, by decide, rfl,
    by decide +kernel⟩

/-- A boot at its directory read, in each scope, with an exchange in flight and with none. -/
theorem witness_BootDirectoryReadSwitchesTheTables : ∀ sc ∈ [Scope.full, .safety, .carriers, .none],
    ∀ p ∈ [ExPhase.idle, .staging, .switching], ∃ d b c, (d : Dev).fb.boot = some b ∧ b.checked = some c ∧ b.scope = sc ∧
      d.smc.state = .booting ∧ d.smc.job = none ∧ d.fb.holder = some ⟨.bootDirectory, false⟩ ∧ d.rp.phase = p ∧
      d.rp.bootRows = none ∧ d.smc.deferred.get 2 = false :=
  fun sc _ p _ => ⟨{ Dev.reset with
      rp := { Dev.reset.rp with phase := p }
      fb := { Dev.reset.fb with
        holder := some ⟨.bootDirectory, false⟩, boot := some { BootRec.begin sc with
          checked := some (formTables Dev.reset (BootRec.begin sc)) } } }, _, _, rfl, rfl, rfl, rfl, rfl, rfl, rfl, rfl, rfl⟩

/-- The same boot with nothing in service through BOOTING, any level of the ALARM line, and any two entries of S0 before and after
the switch of the source table. -/
theorem witness_BootStarts : ∀ sc ∈ [Scope.full, .carriers], ∀ (up master : Bool) (o t : SrcEntry), ∃ d b c,
    (d : Dev).fb.boot = some b ∧ b.checked = some c ∧ b.scope = sc ∧ d.smc.state = .booting ∧ d.smc.job = none ∧
    d.fb.holder = some ⟨.bootDirectory, false⟩ ∧ BootingInv d ∧ lineLevel d 0 = up ∧ d.bic.table.get 0 = o ∧ c.source.get 0 = t ∧
    c.master = master :=
  fun sc _ up master o t => ⟨{ Dev.reset with
      bic := { Dev.reset.bic with lines := Dev.reset.bic.lines.set 0 up, table := Dev.reset.bic.table.set 0 o }
      fb := { Dev.reset.fb with
        holder := some ⟨.bootDirectory, false⟩, boot := some { BootRec.begin sc with
          checked := some { formTables Dev.reset (BootRec.begin sc) with master := master, source := (Tab.const 8 t) } } } },
    _, _, rfl, rfl, rfl, rfl, rfl, rfl,
    fun _ => (by decide +kernel : ∀ n, (Dev.reset.source n).inService = false ∧ (Dev.reset.source n).isPending = false ∧
      (Dev.reset.source n).cancelHold = false), rfl, Tab.get_set_eq _ _ _, Tab.get_const _ _, rfl⟩

/-- Headers of each outcome in a 64 KiB flash, the length at 65520 and one past it; capacity codes 15 and 16. -/
theorem witness_BootHeaders : headerOutcome 65536 [] = .blank ∧ headerOutcome 65536 [0xA3, 0x5C, 2] = .badFormat ∧
    headerOutcome 65536 [0xA3, 0x5C, 1, 0, 0xF0, 0xFF, 0] = .loaded ∧
    headerOutcome 65536 [0xA3, 0x5C, 1, 0, 0xF1, 0xFF, 0] = .badLength ∧ (15 : Byte).toNat < 16 ∧ 16 ≤ (16 : Byte).toNat := by
  decide

/-- Flash work on the port: a read, a program and an erase, each at its due tick and each the last and the
last but one of its command, and a reload, with the directory touched and not. -/
theorem witness_FlashWork : ∀ t ∈ [(Txn.maintRead 0 64 256, FlashKind.read, 256), (.program 0 [1] 0, .write, 1),
      (.erase 0 0, .erase, 1), (.reload, .write, 0)], ∀ k ∈ [0, 1], ∀ b ∈ [true, false],
    ∃ (d : Dev) (j : FlashJob), d.smc.job = some ⟨12288, 7, .flash j⟩ ∧ j.left = t.2.2 + k ∧ j.kind = t.2.1 ∧
      j.reload = false ∧ j.touched = b ∧
      (∀ n, d.fb.waiting.get n = none) ∧ d.fb.holder = some ⟨t.1, false⟩ ∧ d.fb.dirOffset = some 0 ∧ d.now = 0 ∧
      d.smc.layout = some plan ∧ LayoutInv d ∧ d.linked = true :=
  fun t _ k _ b _ => ⟨{ linkedWith [] [] with
      smc := { (linkedWith [] []).smc with job := some ⟨12288, 7, .flash ⟨t.2.1, 0, 64, t.2.2 + k, b, false, false⟩⟩ },
      fb := { Dev.reset.fb with holder := some ⟨t.1, false⟩, dirOffset := some 0 } }, _, rfl, rfl, rfl, rfl, rfl,
    fun n => Tab.get_const _ n, rfl, rfl, rfl, rfl, plan_sound [] [], rfl⟩

/-- STARTs that link: a part with and without the boot mark and with nothing to take; a cue cell left, a POSTED cue that is refused,
one that waits with its source in service, disabled or with the master off, and one that starts; and each POSTED command that
START's take answers, SNAPSHOT at port 3 and of all ports. -/
theorem witness_StartTakesCuesAndCommands :
    let starts := fun (d : Dev) (m : List (Nat × Nat)) => d.hp.linkUp = true ∧ d.smc.state ≠ .booting ∧ d.smc.mem = words (anchorWords ++ m) ∧
      anchorCheck d.smc.mem = none ∧ d.smc.job = none
    (∀ mark : Bool, ∃ d : Dev, starts d [] ∧ d.smc.bootMark = mark ∧ (∀ t, revisionWord d.smc.mem plan t = 0) ∧ d.rp.phase = .idle ∧
      (∀ n, cellState d.smc.mem (cueAddr plan n) ≠ 1) ∧ cellState d.smc.mem plan.maint ≠ 1) ∧
    (∃ d : Dev, starts d [(8640, 1), (8648, 1 + 65536 * (1 + 256 * 5))] ∧ revisionWord d.smc.mem plan .source = 0 ∧
      cellState d.smc.mem (cueAddr plan 7) = 1 ∧ cellState d.smc.mem (cueAddr plan 6) ≠ 1 ∧
      cueCheck d plan 7 (readCue d.smc.mem (cueAddr plan 7)) = .inl .badOrigin) ∧
    (∀ master enabled inService : Bool, ∃ d : Dev, starts d [(8640, 1), (8648, 1 + 65536 * (1 + 256 * 1))] ∧
      revisionWord d.smc.mem plan .source = 0 ∧ cellState d.smc.mem (cueAddr plan 7) = 1 ∧
      cueCheck d plan 7 (readCue d.smc.mem (cueAddr plan 7)) = .inr ⟨1, 1, .none, 0, 0⟩ ∧ d.bic.master = master ∧
      (d.bic.table.get 7).enabled = enabled ∧ (d.source 7).inService = inService) ∧
    ∀ c ∈ [(0, 0), (1, 3), (1, 260), (2, 3), (4, 0), (5, 0), (6, 0), (7, 0), (8, 0), (9, 0), (10, 0)], ∃ d : Dev,
      starts d [(12288, 1), (12304, c.1), (12308, c.2)] ∧ cellState d.smc.mem plan.maint = 1 ∧
      (readMaint d.smc.mem plan.maint).code = c.1 ∧ (readMaint d.smc.mem plan.maint).port = c.2 % 256 ∧
      (readMaint d.smc.mem plan.maint).pos = c.2 / 256 ∧ d.rs.test = none ∧ d.fb.present = false := by
  let dev := fun (m : List (Nat × Nat)) => { Dev.reset with smc := { Dev.reset.smc with state := .autonomous, mem := words (anchorWords ++ m) } }
  let quiet : (∀ t, revisionWord (words (anchorWords ++ [])) plan t = 0) ∧
      (∀ n, cellState (words (anchorWords ++ [])) (cueAddr plan n) ≠ 1) ∧ cellState (words (anchorWords ++ [])) plan.maint ≠ 1 :=
    ⟨fun t => by cases t <;> decide +kernel, by decide +kernel, by decide +kernel⟩
  let cue := fun o : Nat => [(8640, 1), (8648, 1 + 65536 * (1 + 256 * o))]
  have posted : anchorCheck (words (anchorWords ++ cue 1)) = none ∧ revisionWord (words (anchorWords ++ cue 1)) plan .source = 0 ∧
    cellState (words (anchorWords ++ cue 1)) (cueAddr plan 7) = 1 := by decide +kernel
  refine ⟨fun mark => ⟨{ dev [] with smc := { (dev []).smc with bootMark := mark } },
      ⟨rfl, nofun, rfl, (by decide +kernel : anchorCheck (words (anchorWords ++ [])) = none), rfl⟩, rfl,
      quiet.1, rfl, quiet.2.1, quiet.2.2⟩,
    ⟨dev (cue 5), ⟨rfl, nofun, rfl, by decide +kernel, rfl⟩, by decide +kernel⟩,
    fun master enabled inService => ⟨{ dev (cue 1) with bic := { Dev.reset.bic with
        master := master, table := Dev.reset.bic.table.set 7 { SrcEntry.empty with enabled := enabled, again := true },
        sources := Dev.reset.bic.sources.set 7 { Source.reset with inService := inService } } },
      ⟨rfl, nofun, rfl, posted.1, rfl⟩, posted.2.1, posted.2.2, ?_, rfl, rfl, rfl⟩, fun c hc => ⟨dev [(12288, 1), (12304, c.1), (12308, c.2)], ?_⟩⟩
  · cases master <;> cases enabled <;> cases inService <;> decide +kernel
  · simp only [List.mem_cons, List.not_mem_nil, or_false] at hc
    rcases hc with rfl | rfl | rfl | rfl | rfl | rfl | rfl | rfl | rfl | rfl | rfl <;>
      exact ⟨⟨rfl, nofun, rfl, by decide +kernel, rfl⟩, by decide +kernel⟩

/-- A rescue pair with uplink, of the first and the last remote of P3, and one without; and the revision notice with
ROUTE word 9, new and last requested, while an exchange is in flight in each phase, a boot load behind it or not. -/
theorem witness_RouteDeferral :
    (let rt := lanesTable 9 0 (fun c _ => 8 ≤ c.val)
     upstreamLanes rt 3 = 8 ∧ rescueLane rt 3 (0, 0) = some 0 ∧ rescueLane rt 3 (7, 0) = some 7 ∧ rescueLane rt 2 (7, 0) = none) ∧
    ∀ p ∈ [(ExPhase.staging, DownMsg.map 39 none), (.switching, .map 39 none), (.switching, .switch)], ∀ w ∈ [(8 : BitVec 32), 9],
      ∀ rows ∈ [none, some (Tab.const 160 (none : Option (List Byte)))], ∃ d : Dev, d.smc.state = .linked ∧ d.smc.layout = some plan ∧
        LayoutInv d ∧ d.smc.notices = [.revision] ∧ d.smc.job = none ∧ d.rp.phase = p.1 ∧ d.rp.staged = [0] ∧ d.rp.switching = [0] ∧
        (d.remote 0).queue = [freshEntry 0 p.2] ∧ revisionWord d.smc.mem plan .remote = 0 ∧ revisionWord d.smc.mem plan .route = 9 ∧
        d.smc.lastReq.get 2 = w ∧ d.rp.bootRows = rows :=
  ⟨by decide +kernel, fun p _ w _ rows _ => ⟨{ (linkedWith (words [(4104, 9)]) [.revision]) with
      smc := { (linkedWith (words [(4104, 9)]) [.revision]).smc with lastReq := Dev.reset.smc.lastReq.set 2 w }
      rs := { Dev.reset.rs with remotes := Dev.reset.rs.remotes.set 0 { Remote.reset with state := .inService, queue := [freshEntry 0 p.2] } }
      rp := { Dev.reset.rp with phase := p.1, staged := [0], switching := [0], bootRows := rows } },
    rfl, rfl, plan_sound (words [(4104, 9)]) [.revision], rfl, rfl, rfl, rfl, rfl, rfl,
    (by decide +kernel : revisionWord (words [(4104, 9)]) plan .remote = 0),
    (by decide +kernel : revisionWord (words [(4104, 9)]) plan .route = 9), rfl, rfl⟩⟩

/-- ERROR_INSERT waiting when the test's remote falls silent, with and without OVERRUN; and a holding remote at each place of its hold
value: given last, acknowledged, another, and LATE. -/
theorem witness_TestEndsAndHoldsMove :
    (∀ b : Bool, ∃ (d : Dev) (t : Test), d.rs.test = some t ∧ d.smc.job = some ⟨plan.maint, 7, .errorInsert⟩ ∧
      (d.remote t.remote).silenceDue = some d.now ∧ (d.remote t.remote).present = true ∧ d.smc.overrun = b ∧ LayoutInv d ∧
      d.smc.layout = some plan ∧ d.linked = true) ∧
    ∀ o ∈ [none, some (HoldVal.ticks 5), some .off], ∀ a ∈ [none, some (HoldVal.ticks 5)], ∀ k ∈ [0, 5, 6], ∃ d c,
      CommandWaits d plan [] c ∧ LayoutInv d ∧ c.code = 6 ∧ (d.hold 31).holding = true ∧ (d.hold 31).offered = o ∧
      (d.hold 31).acked = a ∧ (d.remote 31).serving = true ∧ d.sru.tRef = 5 ∧ (d.remote 31).d = k ∧
      ∀ (x : Fin 40) r, (d.route x r).routed = false := by
  refine ⟨fun b => ⟨{ linkedWith [] [] with
      rs := { Dev.reset.rs with
        test := some ⟨3, 7, 0, 0, true, 1⟩, remotes := Dev.reset.rs.remotes.set 31 { Remote.reset with state := .inService, silenceDue := some 0 } }
      smc := { (linkedWith [] []).smc with overrun := b, job := some ⟨12288, 7, .errorInsert⟩ } }, _, rfl, rfl, rfl, rfl, rfl,
      plan_sound [] [], rfl, rfl⟩,
    fun o _ a _ k _ => ⟨({ (posted 6 0 []).setRemote 31 (fun m => { m with state := .impaired, d := k }) with
        sru := { Dev.reset.sru with tRef := 5 } } : Dev).setHold 31 (fun h => { h with holding := true, offered := o, acked := a }), readMaint (posted 6 0 []).smc.mem plan.maint,
      ⟨rfl, rfl, rfl, rfl, (by decide +kernel : cellState (posted 6 0 []).smc.mem plan.maint = 1), rfl⟩, plan_sound _ _,
      by decide +kernel, rfl, rfl, rfl, rfl, rfl, rfl,
      (by decide +kernel : ∀ (x : Fin 40) r, (Dev.reset.route x r).routed = false)⟩⟩

/-- Queues at the send selection and at an admission: the oldest urgent entry behind an older one of another kind, no urgent entry,
none UNSENT; an entry of the message's kind and key in the middle, and one of the same event that follows it. A SWITCH selected for
a switching remote. -/
theorem witness_QueueDiscipline :
    (sendSelection [freshEntry 0 (.gate 1), freshEntry 1 (.hold .off), freshEntry 2 (.level true 3)] = some (freshEntry 1 (.hold .off)) ∧
      sendSelection [⟨.level true 3, 0, true, 1, some 1, none⟩, freshEntry 1 (.gate 1), freshEntry 2 .switch] =
        some (freshEntry 1 (.gate 1)) ∧
      sendSelection [⟨.level true 3, 0, true, 1, some 1, none⟩] = none ∧
      enqueue 9 [freshEntry 0 .mark, ⟨.gate 1, 3, true, 2, some 1, some 5⟩, freshEntry 4 .switch] (.gate 2) =
        [freshEntry 0 .mark, freshEntry 3 (.gate 2), freshEntry 4 .switch] ∧
      enqueue 9 [freshEntry 4 .switch, freshEntry 9 (.map 7 none), freshEntry 9 .switch] (.map 8 none) =
        [freshEntry 4 .switch, freshEntry 9 (.map 7 none), freshEntry 9 (.map 8 none), freshEntry 9 .switch]) ∧
    ∃ d x, (d : Dev).lp.frameDue ≤ d.now ∧ d.rp.phase = .switching ∧ 0 ∈ d.rp.switching ∧ (d.port 0).state = .running ∧
      sendSelection (d.remote 0).queue = some x ∧ x.msg.kind = .switch :=
  ⟨by decide +kernel, { (oneRemote (fun m => { m with state := .inService, queue := [freshEntry 0 .switch] })) with
      now := 3072
      rp := { Dev.reset.rp with phase := .switching, switching := [0] } }, _, by decide +kernel, rfl, List.mem_singleton.mpr rfl, rfl, rfl, rfl⟩

/-- Reads with and without a rescue sample, a port that comes to NEAR_LIMIT or stays in its state, a voter that selects a remote of it,
and a rescue slot on each donor output. -/
theorem witness_ReadsFeedVoters : ∀ n ∈ [0, 1], ∀ k ∈ [4, 5, 62], ∀ b : Bool, ∃ d : Dev, d.lp.readDue ≤ d.now ∧ d.lp.readNo = n ∧
    (d.port 3).state = .running ∧ (d.port 3).mode = .delivering ∧ (d.port 3).fifo.length = k ∧ (d.port 3).near = false ∧
    (d.voter 7).sel = some 31 ∧ (d.chan 15).kind = .rescue ∧ (d.chan 15).donor = b ∧
    rescueLane d.rp.routes (portOf 31) (posOf 31, 7) = some 0 ∧ d.linked = true :=
  fun n _ k _ b => ⟨{ linkedWith [] [] with
      now := 64
      lp := { Dev.reset.lp with
        readNo := n, ports := Dev.reset.lp.ports.set 3 { Port.reset with
          state := .running, mode := .delivering, fifo := List.replicate k [] } }
      lm := { Dev.reset.lm with chan := Dev.reset.lm.chan.set 15 { ChanEntry.empty with kind := .rescue, donor := b } }
      rp := { Dev.reset.rp with routes := Dev.reset.rp.routes.modify 15 (fun t => t.set 31 ⟨true, true, 0⟩) }
      uv := Dev.reset.uv.set 7 { Voter.reset with sel := some 31 } }, Nat.le_refl _, rfl, rfl, rfl, List.length_replicate, rfl, rfl, rfl,
    rfl, (by decide +kernel : rescueLane (Dev.reset.rp.routes.modify 15 (fun t => t.set 31 ⟨true, true, 0⟩)) 3 (7, 7) = some 0), rfl⟩

/-- A delay lock with a programme's acknowledged value the desired one, another and UNKNOWN. -/
theorem witness_JoinSet : ∀ a ∈ [none, some DelivVal.through, some (.lane 308 7)], ∃ (d : Dev) (k : MarkRecord) (y : Nat),
    (d.port (portOf 0)).state = .running ∧ (d.entry 0).enabled = true ∧ (d.remote 0).state = .joining ∧ (d.remote 0).locked = false ∧
    (d.remote 0).record = some k ∧ 200 ≤ d.now - k.launch ∧ (d.remote 0).lockRun.getLast? = some y ∧
    (d.remote 0).lockRun.length = 3 ∧ y = 402 ∧ min 65535 ((d.now - k.launch - 200) / 2) = 400 ∧
    (d.delivery 0 7).desired = .lane 308 7 ∧ (d.delivery 0 7).acked = a :=
  fun a _ => ⟨{ (oneRemote (fun m => { m with state := .joining, lockRun := [400, 401, 402], record := some ⟨7, 0⟩ })).setDelivery 0 7
      (fun v => { v with desired := .lane 308 7, acked := a }) with now := 1000 }, _, _, rfl, rfl, rfl, rfl, rfl, (by decide : 200 ≤ 1000 - 0), rfl,
    rfl, rfl, (by decide : min 65535 ((1000 - 0 - 200) / 2) = 400), rfl, rfl⟩

/-- A window's close with clip counts of 0 and 1 at slots 16 and 39 and clamp counts of 0 and 1. -/
theorem witness_WindowCounts : ∀ x ∈ [(16 : Fin 40), 39], ∀ k ∈ [0, 1], ∃ d : Dev, d.lm.windowDue ≤ d.now ∧ d.linked = true ∧
    d.smc.layout = some plan ∧ LayoutInv d ∧ (d.slot x).clip = k ∧ (d.mod 7).clamp = k ∧ (d.chan x).kind = .carrier :=
  fun x _ k _ => ⟨{ linkedWith [] [] with
      now := 245760
      lm := { Dev.reset.lm with
        chan := Dev.reset.lm.chan.set x { ChanEntry.empty with kind := .carrier }
        slots := Dev.reset.lm.slots.set x { Slot.reset with clip := k } }
      pm := { Dev.reset.pm with mods := Dev.reset.pm.mods.modify 7 (fun m => { m with clamp := k }) } }, Nat.le_refl _, rfl, rfl,
    plan_sound [] [], congrArg Slot.clip (Tab.get_set_eq _ _ _), rfl, congrArg ChanEntry.kind (Tab.get_set_eq _ _ _)⟩

/-- The end of an exchange with no remote to switch, and a waiting boot load whose rows over the new table pass and fail the capacity
check. -/
theorem witness_ExchangeEndsWithABootLoad : ∀ n ∈ [19, 20], ∃ (d : Dev) (rows : Tab 160 (Option (List Byte))) (full : Routes),
    d.rp.phase = .staging ∧ d.rp.stagingDue = d.now ∧ d.smc.job = none ∧
    (∀ r, (d.remote r).state = .absent ∧ (d.remote r).queue = []) ∧ d.rp.bootRows = some rows ∧ d.smc.deferred.get 2 = false ∧
    (∀ (c : Fin 40) (r : Fin 32),
      (∀ b, rows.get (rowOf c (portOf r)) = some b → (full.get c).get r = routeForm c (b.getD (posOf r).val 0)) ∧
      (rows.get (rowOf c (portOf r)) = none → (full.get c).get r = (d.rp.newRoutes.get c).get r)) ∧
    (routeCheck full = none ↔ n = 19) := by
  intro n hn
  let rows : Tab 160 (Option (List Byte)) :=
    Tab.ofFn (fun x => if 64 ≤ x.val ∧ x.val < 64 + 4 * n then some (List.replicate 8 0x80) else none)
  let full : Routes :=
    Tab.ofFn (fun c => Tab.ofFn (fun _ => if 16 ≤ c.val ∧ c.val < 16 + n then ⟨true, false, 0⟩ else ⟨false, false, 0⟩))
  refine ⟨{ Dev.reset with rp := { Dev.reset.rp with phase := .staging, bootRows := some rows } }, rows, full, rfl, rfl, rfl,
    (by decide +kernel : ∀ r, (Dev.reset.remote r).state = .absent ∧ (Dev.reset.remote r).queue = []), rfl, rfl, ?_⟩
  have row : ∀ (c : Fin 40) (r : Fin 32), rows.get (rowOf c (portOf r)) =
      if 16 ≤ c.val ∧ c.val < 16 + n then some (List.replicate 8 0x80) else none := by
    intro c r
    have h := (portOf r).isLt
    simp only [rows, Tab.get_ofFn, rowOf]
    congr 1
    exact propext (by omega)
  refine ⟨fun c r => ⟨fun b hb => ?_, fun hb => ?_⟩, ?_⟩
  · rw [row] at hb
    split at hb
    · rename_i h
      cases hb
      rw [(by decide : ∀ p : Fin 8, (List.replicate 8 (0x80 : Byte)).getD p.val 0 = 0x80) (posOf r)]
      simp [full, h, routeForm, clampTo]
    · cases hb
  · rw [row] at hb
    split at hb
    · cases hb
    · rename_i h
      simp only [full, Tab.get_ofFn, h, if_false]
      exact (by decide +kernel : ∀ (c : Fin 40) (r : Fin 32), (⟨false, false, 0⟩ : RouteEntry) = (Dev.reset.rp.newRoutes.get c).get r) c r
  · simp only [List.mem_cons, List.not_mem_nil, or_false] at hn
    rcases hn with rfl | rfl <;> decide +kernel

/-- The end of an exchange with a deferred mark, at ROUTE words 0, the last requested and a new one, the host's table passing and failing. -/
theorem witness_ExchangeEndsWithADeferredRevision : ∀ p ∈ [(0, 0), (8, 0), (9, 0), (9, 20)], ∃ d : Dev,
    d.rp.phase = .staging ∧ d.rp.stagingDue = d.now ∧ d.smc.job = none ∧
    (∀ r, (d.remote r).state = .absent ∧ (d.remote r).queue = []) ∧ d.rp.bootRows = none ∧ d.smc.deferred.get 2 = true ∧
    d.smc.layout = some plan ∧ LayoutInv d ∧ d.smc.lastReq.get 2 = 8 ∧ d.smc.mem = hostWith p.1 p.2 ∧
    revisionWord (hostWith p.1 p.2) plan .route = BitVec.ofNat 32 p.1 ∧
    (p.1 = 9 → (routeCheck (hostRoutes (hostWith p.1 p.2) plan) = none ↔ p.2 = 0)) := by
  intro p hp
  refine ⟨{ Dev.reset with
      smc := { Dev.reset.smc with
        state := .linked, layout := some plan, mem := hostWith p.1 p.2, lastReq := Dev.reset.smc.lastReq.set 2 8
        deferred := Dev.reset.smc.deferred.set 2 true }
      rp := { Dev.reset.rp with phase := .staging } }, rfl, rfl, rfl,
    (by decide +kernel : ∀ r, (Dev.reset.remote r).state = .absent ∧ (Dev.reset.remote r).queue = []), rfl, rfl, rfl,
    plan_sound (hostWith p.1 p.2) [], rfl, rfl, ?_⟩
  simp only [List.mem_cons, List.not_mem_nil, or_false] at hp
  rcases hp with rfl | rfl | rfl | rfl
  · exact ⟨by decide +kernel, nofun⟩
  · exact ⟨by decide +kernel, nofun⟩
  · exact ⟨by decide +kernel, fun _ => ⟨fun _ => rfl, fun _ => host_passes⟩⟩
  · exact ⟨by decide +kernel, fun _ => ⟨fun h => absurd h host_fails, nofun⟩⟩

/-- A source out of service with M10 and M11 released, and a service with a pair that waits and without one. -/
theorem witness_ReleasedBims : ∀ p ∈ [(0 : BitVec 8), 128], ∃ d : Dev, (d.source 7).inService = false ∧
    (d.bim 10).pair = some (7, 6) ∧ (d.bim 11).pair = some (7, 7) ∧ (d.source 6).inService = true ∧ (d.source 6).progs = p ∧
    ∀ m, (d.bim m).pair ≠ some (6, 7) :=
  fun p _ => ⟨{ Dev.reset with
      pm := { Dev.reset.pm with
        bims := (Dev.reset.pm.bims.set 10 { Bim.reset with pair := some (7, 6) }).set 11 { Bim.reset with pair := some (7, 7) } }
      bic := { Dev.reset.bic with sources := Dev.reset.bic.sources.set 6 { Source.reset with inService := true, progs := p } } },
    rfl, rfl, rfl, rfl, rfl, fun m => by
      exact (by decide +kernel : ∀ m, (((Dev.reset.pm.bims.set 10 { Bim.reset with pair := some (7, 6) }).set 11
        { Bim.reset with pair := some (7, 7) }).get m).pair ≠ some (6, 7)) m⟩

/-- A FLASH clip's read in PRIMING and PLAYING, with the FIFO at the last fill that leaves room and one sample more, within and at the
end of its pass, with and without other reads that wait; and flash work with a transaction left while a clip read waits. -/
theorem witness_FlashPortTurns :
    (∀ a ∈ [AudioPhase.priming, .playing], ∀ n ∈ [1888, 1889], ∀ k ∈ [32, 33], ∀ w ∈ [none, some (⟨64, 64⟩ : ClipRead)], ∃ d : Dev,
      d.fb.holder = some ⟨.clip 7 ⟨0, 64⟩, false⟩ ∧ d.smc.state ≠ .booting ∧ (d.source 7).inService = true ∧
      (d.source 7).origin = some (.flash 0 k) ∧ (d.source 7).fetchPos = 0 ∧ (d.source 7).audioPhase = a ∧
      (d.source 7).fifo.length = n ∧ d.fb.waiting.get 7 = none ∧ d.fb.waiting.get 0 = w ∧ d.fb.mark = 7) ∧
    ∀ t ∈ [(Txn.maintRead 0 64 256, FlashKind.read, 257), (.program 0 [1] 0, .write, 2), (.erase 0 0, .erase, 2)], ∃ (d : Dev) (j : FlashJob),
      d.smc.job = some ⟨12288, 7, .flash j⟩ ∧ d.smc.state ≠ .booting ∧ d.fb.waiting.get 3 = some ⟨64, 64⟩ ∧
      d.fb.holder = some ⟨t.1, false⟩ ∧ j.kind = t.2.1 ∧ j.left = t.2.2 :=
  ⟨fun a _ n _ k _ w _ => ⟨{ (linkedWith [] []) with
      bic := { Dev.reset.bic with sources := Dev.reset.bic.sources.set 7 { Source.reset with
        inService := true, origin := some (.flash 0 k), audioPhase := a, fifo := List.replicate n 0 } }
      fb := { Dev.reset.fb with
        holder := some ⟨.clip 7 ⟨0, 64⟩, false⟩, mark := 7, waiting := (Tab.const 8 none).set 0 w } },
      rfl, nofun, rfl, rfl, rfl, rfl, List.length_replicate, rfl, rfl, rfl⟩,
    fun t _ => ⟨{ linkedWith [] [] with
      smc := { (linkedWith [] []).smc with job := some ⟨12288, 7, .flash ⟨t.2.1, 0, 64, t.2.2, false, false, false⟩⟩ }
      fb := { Dev.reset.fb with holder := some ⟨t.1, false⟩, waiting := (Tab.const 8 none).set 3 (some ⟨64, 64⟩) } }, _, rfl, nofun, rfl,
      rfl, rfl, rfl⟩⟩

/-! ### The anchor, route staging and source requests -/

/-- A 32-bit word of the anchor page, and the twelve areas in the order of the anchor. -/
def anchorWord (m : Memory) (a : Nat) : Nat :=
  (m.read a).toNat + 256 * (m.read (a + 1)).toNat + 65536 * (m.read (a + 2)).toNat + 16777216 * (m.read (a + 3)).toNat
def anchorAreas (m : Memory) : List (Nat × Nat) :=
  (List.range 12).map (fun k => (anchorWord m (8 + 4 * k), if k = 3 then 8192 else 4096))

/-- An anchor without its signature, one of version 2, the first and the last area misaligned, the status area and the last area one
page past the 64 MiB, an area on the anchor's page and two on one page, and one that is sound. -/
theorem witness_AnchorPassesExactlyWhenSound :
    (∀ p ∈ [((0, 0), Cause.badSignature), ((4, 2), .badVersion), ((8, 4097), .areaMisaligned), ((52, 53249), .areaMisaligned),
        ((20, 67104768), .areaOutside), ((52, 67108864), .areaOutside), ((52, 0), .areaOverlap), ((52, 49152), .areaOverlap)],
      ∃ s : State, s.dev.hp.linkUp = true ∧ s.dev.smc.state ≠ .booting ∧
        s.dev.smc.mem = words (anchorWords.filter (fun w => w.1 != p.1.1) ++ [p.1]) ∧ anchorCheck s.dev.smc.mem = some p.2) ∧
    (∀ p ∈ [((8, 4097), 0), ((20, 67104768), 3), ((52, 53249), 11), ((52, 67108864), 11)],
      let m := words (anchorWords.filter (fun w => w.1 != p.1.1) ++ [p.1])
      anchorWord m 0 = 0x5A2780A5 ∧ anchorWord m 4 = 1 ∧ ∃ before a after, anchorAreas m = before ++ a :: after ∧
        before.length = p.2 ∧ (∀ x ∈ before, x.1 % 4096 = 0 ∧ x.1 + x.2 ≤ 67108864) ∧
        (a.1 % 4096 ≠ 0 ∨ a.1 % 4096 = 0 ∧ 67108864 < a.1 + a.2)) ∧
    (∀ a ∈ anchorAreas (words anchorWords), a.1 % 4096 = 0 ∧ a.1 + a.2 ≤ 67108864) ∧ LayoutInv (linkedWith [] []) := by
  refine ⟨fun p hp => ⟨alone (linkedWith (words (anchorWords.filter (fun w => w.1 != p.1.1) ++ [p.1])) []), rfl, nofun, rfl, ?_⟩,
    fun p hp => ?_, by decide +kernel, plan_sound _ _⟩
  · simp only [List.mem_cons, List.not_mem_nil, or_false] at hp
    rcases hp with rfl | rfl | rfl | rfl | rfl | rfl | rfl | rfl <;> decide +kernel
  · refine ⟨?_, ?_, (anchorAreas (words (anchorWords.filter (fun w => w.1 != p.1.1) ++ [p.1]))).take p.2,
      (anchorAreas (words (anchorWords.filter (fun w => w.1 != p.1.1) ++ [p.1]))).getD p.2 (0, 0),
      (anchorAreas (words (anchorWords.filter (fun w => w.1 != p.1.1) ++ [p.1]))).drop (p.2 + 1), ?_⟩ <;>
    simp only [List.mem_cons, List.not_mem_nil, or_false] at hp <;>
    rcases hp with rfl | rfl | rfl | rfl <;> decide +kernel

/-- The staging timer at a table that moves the map of each of R0 to R3 at slot 16: R0 still staged, R1 in service, R2 joining behind
its delay lock with its SWITCH offered and not, R3 absent, and R4 in service with its map kept. -/
theorem witness_SwitchingSet : ∀ b ∈ [true, false], ∃ d : Dev, d.rp.phase = .staging ∧ d.rp.stagingDue ≤ d.now ∧ d.rp.bootRows = none ∧
    d.smc.deferred.get 2 = false ∧ d.rp.staged = [0] ∧
    (∀ r : Fin 32, r < 4 → mapOf d.rp.routes r 16 ≠ mapOf d.rp.newRoutes r 16) ∧
    (∀ c, mapOf d.rp.routes 4 c = mapOf d.rp.newRoutes 4 c) ∧ (d.remote 0).serving = true ∧ (d.remote 1).serving = true ∧
    (d.remote 2).state = .joining ∧ (d.remote 2).locked = true ∧ (d.remote 2).joinSwitch = b ∧ (d.remote 3).state = .absent ∧
    (d.remote 4).serving = true := by
  intro b hb
  refine ⟨{ Dev.reset with
    rp := { Dev.reset.rp with
      phase := .staging, staged := [0]
      newRoutes := Dev.reset.rp.routes.set 16 (Tab.ofFn (fun r => ⟨decide (r.val < 4), false, 0⟩)) }
    rs := { Dev.reset.rs with remotes := Tab.ofFn (fun r => { Remote.reset with
      state := if r.val = 2 then .joining else if r.val = 3 then .absent else .inService, locked := decide (r.val = 2), joinSwitch := b }) } }, ?_⟩
  simp only [List.mem_cons, List.not_mem_nil, or_false] at hb
  rcases hb with rfl | rfl <;> decide +kernel

/-- A route table that passes and moves R0's map at slot 16, with R0 in service, in JOINING, or absent: staged, and not. -/
theorem witness_RouteStaging : ∀ st ∈ [RemoteState.inService, .impaired, .joining, .absent], ∃ d : Dev, d.smc.state = .linked ∧
    d.smc.layout = some plan ∧ LayoutInv d ∧ d.smc.notices = [.revision] ∧ d.smc.job = none ∧ d.rp.phase = .idle ∧
    d.rp.bootRows = none ∧ revisionWord d.smc.mem plan .route = 9 ∧ d.smc.lastReq.get 2 = 0 ∧
    revisionWord d.smc.mem plan .remote = 0 ∧ (d.remote 0).state = st ∧ (∀ r, r ≠ 0 → (d.remote r).serving = false) ∧
    routeCheck (hostRoutes d.smc.mem plan) = none ∧ mapOf d.rp.routes 0 16 ≠ mapOf (hostRoutes d.smc.mem plan) 0 16 ∧
    mapOf d.rp.routes 0 17 = mapOf (hostRoutes d.smc.mem plan) 0 17 :=
  fun st _ => ⟨{ (linkedWith (hostWith 9 1) [.revision]) with
      rs := { Dev.reset.rs with remotes := Dev.reset.rs.remotes.set 0 { Remote.reset with state := st } } },
    rfl, rfl, plan_sound (hostWith 9 1) [.revision], rfl, rfl, rfl, rfl,
    (by decide +kernel : revisionWord (hostWith 9 1) plan .route = 9), rfl,
    (by decide +kernel : revisionWord (hostWith 9 1) plan .remote = 0), rfl,
    fun r hr => by
      change Remote.serving ((Dev.reset.rs.remotes.set 0 { Remote.reset with state := st }).get r) = false
      rw [Tab.get_set, if_neg (fun h => hr h.symm)]
      revert r; decide,
    (by decide +kernel : routeCheck (hostRoutes (hostWith 9 1) plan) = none),
    (by decide +kernel : mapOf Routes.empty 0 16 ≠ mapOf (hostRoutes (hostWith 9 1) plan) 0 16),
    (by decide +kernel : mapOf Routes.empty 0 17 = mapOf (hostRoutes (hostWith 9 1) plan) 0 17)⟩

/-- A memory whose SOURCE word is 9, with a master byte and the first word of S0's entry, its zones and programmes not empty. -/
def sourceWords (w : Nat × Nat) : Memory := words [(4108, 9), (45056, w.2), (45072, w.1), (45076, 65537)]

/-- First words of S0 that disable it, enable it with line use off and on, LATCHED and AGAIN, each with the master. -/
def sourceCases : List (Nat × Nat) := [(0, 0), (1, 0), (0x4001, 0), (0x4000, 1), (0x4001, 1), (0x4101, 1), (0x4401, 1)]

theorem sourceWords_read : ∀ w ∈ sourceCases, revisionWord (sourceWords w) plan .source = 9 ∧
    hostMaster (sourceWords w) plan = decide (w.2 = 1) ∧
    ((hostSources (sourceWords w) plan).get 0).enabled = decide (w.1 % 2 = 1) ∧
    ((hostSources (sourceWords w) plan).get 0).lineUse = decide (w.1 / 0x4000 % 2 = 1) := by decide +kernel

/-- S0 before a new source table: line use on and off, by each trigger and retrigger, in service and idle, with a request, a cancel
hold, and neither; and new tables that leave it disabled, enabled with line use off, on, LATCHED and AGAIN. -/
theorem witness_RequestsSwitched : ∀ again latched use inService request hold : Bool, ∀ w ∈ sourceCases, ∃ d : Dev,
    d.smc.state = .linked ∧ d.smc.layout = some plan ∧ LayoutInv d ∧ d.smc.notices = [.revision] ∧ d.smc.job = none ∧
      d.smc.mem = sourceWords w ∧ d.smc.lastReq.get 3 = 0 ∧ d.bic.master = true ∧
      d.bic.table.get 0 = { SrcEntry.empty with lineUse := use, latched := latched, again := again, enabled := true } ∧
      d.source 0 = { Source.reset with inService := inService, lineReq := request, cancelHold := hold } :=
  fun again latched use inService request hold w _ => ⟨{ (linkedWith (sourceWords w) [.revision]) with
      bic := { Dev.reset.bic with
        master := true
        table := Dev.reset.bic.table.set 0 { SrcEntry.empty with lineUse := use, latched := latched, again := again, enabled := true }
        sources := Dev.reset.bic.sources.set 0 { Source.reset with inService := inService, lineReq := request, cancelHold := hold } } },
    rfl, rfl, plan_sound (sourceWords w) [.revision], rfl, rfl, rfl, rfl, rfl, Tab.get_set_eq _ _ _, Tab.get_set_eq _ _ _⟩

/-- Upstream positions that pass their check, of each kind, with the highest key of a QUALITY, and of a kind and a key past the end. -/
theorem witness_UpstreamPositions : ∀ k ∈ [[(1 : Byte), 0, 0, 9, 4, 1, 0], [2, 0, 22, 5, 0, 0, 0], [3, 7, 0, 200, 0, 0, 0],
    [4, 0, 0, 3, 0, 0, 0], [5, 0, 0, 1, 2, 0, 0], [6, 0, 0, 0, 0, 0, 0], [3, 8, 0, 0, 0, 0, 0]],
    ∃ b : List Byte, b.take 7 = k ∧ crc8 (b.take 7) = b.getD 7 0 ∧ b.getD 0 0 ≠ 0 := by
  intro k hk
  refine ⟨k ++ [crc8 k], ?_⟩
  simp only [List.mem_cons, List.not_mem_nil, or_false] at hk
  rcases hk with rfl | rfl | rfl | rfl | rfl | rfl | rfl <;> decide +kernel

end Sys2Proof.Tests
end

section
/-! SUPPORT. What the work that START does leaves clear. `Smc.Clear q` says that no clear mask holds a bit
and, with `q`, that no take-up mark is deferred (R174, R181, R186). One lemma per operation that START can reach. -/

namespace Sys2Proof.Machine

open Sys2Proof

/-- No clear mask holds a bit and, with `q`, no take-up mark is deferred. -/
def Smc.Clear (q : Bool) (s : Smc) : Prop :=
  (∀ i, s.masks.get i = 0) ∧ (q = true → ∀ t, s.deferred.get t = false)

/-- Work of blocks other than the SMC leaves the SMC as it is. -/
theorem Work.smc_eq {n b w q : Bool} {bs : List Block} {d e : Dev} (h : Work n b w q bs d e) (hs : Block.smc ∉ bs) :
    e.smc = d.smc := (h.only .smc hs).symm

namespace Smc.Clear

variable {q : Bool} {d : Dev}

theorem ofWork {n b w k : Bool} {bs : List Block} {e : Dev} (hw : Work n b w k bs d e) (hs : Block.smc ∉ bs)
    (h : d.smc.Clear q) : e.smc.Clear q := by
  rw [hw.smc_eq hs]; exact h

theorem ite {p : Prop} [Decidable p] {d e : Dev} (h : d.smc.Clear q) (k : e.smc.Clear q) :
    (if p then d else e).smc.Clear q := by
  split
  · exact h
  · exact k

theorem foldl {α : Type} {f : Dev → α → Dev} (hf : ∀ {d a}, d.smc.Clear q → (f d a).smc.Clear q) :
    ∀ {l : List α} {d : Dev}, d.smc.Clear q → (l.foldl f d).smc.Clear q
  | [], _, h => h
  | a :: l, d, h => foldl (l := l) (d := f d a) hf (hf h)

theorem overAll {n : Nat} {f : Dev → Fin n → Dev} (hf : ∀ {d a}, d.smc.Clear q → (f d a).smc.Clear q)
    (h : d.smc.Clear q) : (overAll d f).smc.Clear q := foldl hf h

/-! ### Latches and cells -/

theorem publish {i : Fin 85} {rs : List (Nat × Nat)} (h : d.smc.Clear q) : (publish d i rs).smc.Clear q := by
  unfold Machine.publish
  split
  · split
    · refine foldl (fun h => ?_) h
      exact h
    · exact h
  · exact h

theorem writeNewsWord {i : Fin 85} (h : d.smc.Clear q) : (writeNewsWord d i).smc.Clear q := by
  unfold Machine.writeNewsWord; split <;> exact h

theorem writeLatchWord {i : Fin 85} (h : d.smc.Clear q) : (writeLatchWord d i).smc.Clear q := by
  unfold Machine.writeLatchWord; split <;> exact h

theorem raiseNews {i : Fin 85} (h : d.smc.Clear q) : (raiseNews d i).smc.Clear q :=
  .ite (.writeNewsWord h) (.writeNewsWord h)

/-- A bit set leaves its clear mask without that bit, so an empty mask stays empty (R181). -/
theorem setLatch {i : Fin 85} {b : Fin 32} (h : d.smc.Clear q) : (setLatch d i b).smc.Clear q := by
  have hm : ({ d.smc with latches := d.smc.latches.set i (d.smc.latches.get i ||| latchBit b)
                          masks := d.smc.masks.modify i (fun m => m &&& ~~~(latchBit b)) } : Smc).Clear q :=
    ⟨fun j => by simp only [Tab.get_modify]; split <;> simp [h.1], h.2⟩
  exact .ite (.ite (.raiseNews (.writeLatchWord hm)) (.writeLatchWord hm)) h

theorem completeMaint {a : Nat} {t : BitVec 32} {r : MaintResult} (h : d.smc.Clear q) :
    (completeMaint d a t r).smc.Clear q := .setLatch h

theorem completeJob {r : MaintResult} (h : d.smc.Clear q) : (completeJob d r).smc.Clear q := by
  unfold Machine.completeJob
  split
  · exact .completeMaint h
  · exact h

theorem offer {r : Fin 32} {m : DownMsg} (h : d.smc.Clear q) : (offer d r m).smc.Clear q :=
  .ofWork (internal_offer d r m) (by decide) h

/-! ### The flash port -/

theorem grantPort (h : d.smc.Clear q) : (grantPort d).smc.Clear q := by
  unfold Machine.grantPort
  split
  · exact h
  · split <;> split <;> exact h

theorem afPump {n : Fin 8} (h : d.smc.Clear q) : (afPump d n).smc.Clear q := by
  unfold Machine.afPump
  dsimp only
  split
  · exact .ite h h
  · exact .ite (.grantPort h) h
  all_goals exact h

/-! ### Reserve lanes and the test -/

theorem setLane {x : Fin 4} {i : Fin 12} {l : LaneState} (h : d.smc.Clear q) : (setLane d x i l).smc.Clear q := .publish h

theorem releaseLane {x : Fin 4} {i : Fin 12} (h : d.smc.Clear q) : (releaseLane d x i).smc.Clear q := by
  unfold Machine.releaseLane; split <;> exact .setLane h

theorem testStop (h : d.smc.Clear q) : (testStop d).smc.Clear q := by
  unfold Machine.testStop
  split
  · exact h
  · exact .ite (.completeJob (.publish (.offer h))) (.publish (.offer h))

theorem testEnd (h : d.smc.Clear q) : (testEnd d).smc.Clear q := by
  unfold Machine.testEnd
  split
  · exact h
  · exact .releaseLane (.testStop h)

theorem testPreempt (h : d.smc.Clear q) : (testPreempt d).smc.Clear q := by
  unfold Machine.testPreempt
  split
  · exact h
  · exact .setLatch (.testStop h)

theorem poolRequest {x : Fin 4} {r : VersionReq} (h : d.smc.Clear q) : (poolRequest d x r).smc.Clear q := by
  unfold Machine.poolRequest
  dsimp only
  split
  · exact .setLane h
  · split
    · exact .setLane (.testPreempt h)
    · split
      · exact .ite (.setLane h) (.publish h)
      · exact .publish h

theorem poolWithdraw {x : Fin 4} {r : VersionReq} (h : d.smc.Clear q) : (poolWithdraw d x r).smc.Clear q := .publish h

/-! ### The Break-In Controller -/

theorem publishPair {p : Option (Fin 8 × Fin 8)} (h : d.smc.Clear q) : (publishPair d p).smc.Clear q := by
  unfold Machine.publishPair
  split
  · exact .publish (.publish h)
  · exact h

theorem bimGive {m : Fin 12} {p : Fin 8 × Fin 8} (h : d.smc.Clear q) : (bimGive d m p).smc.Clear q :=
  .publishPair (.publishPair h)

theorem requestBim {p : Fin 8 × Fin 8} (h : d.smc.Clear q) : (requestBim d p).smc.Clear q := by
  unfold Machine.requestBim
  split
  · exact .bimGive h
  · split
    · exact .ite (.bimGive h) h
    · exact h

theorem releaseBim {g : Bool} {m : Fin 12} (h : d.smc.Clear q) : (releaseBim d g m).smc.Clear q := by
  unfold Machine.releaseBim
  split
  · exact .ite (.bimGive h) (.publishPair h)
  · exact .publishPair h

theorem withdrawWhere {x : Fin 4} {f : VersionReq → Bool} (h : d.smc.Clear q) : (withdrawWhere d x f).smc.Clear q :=
  .foldl .poolWithdraw h

theorem releaseWhere {x : Fin 4} {f : VersionReq → Bool} (h : d.smc.Clear q) : (releaseWhere d x f).smc.Clear q :=
  .foldl .releaseLane h

theorem bicLanes (h : d.smc.Clear q) : (bicLanes d).smc.Clear q :=
  .overAll .releaseWhere <| .overAll .withdrawWhere <|
    .foldl (.overAll (fun h => .ite (.poolRequest h) h)) <| .overAll .releaseWhere <| .overAll .withdrawWhere h

theorem reachOne {s : Fin 8} (h : d.smc.Clear q) : (reachOne d s).smc.Clear q :=
  .ite (.ite (.setLatch (.publish h)) (.publish h)) h

theorem bicUpdate (h : d.smc.Clear q) : (bicUpdate d).smc.Clear q :=
  .overAll .reachOne <| .ofWork (internal_deliverUpdate _) (by decide) <| .bicLanes h

theorem setSource {n : Fin 8} {f : Source → Source} (h : d.smc.Clear q) : (d.setSource n f).smc.Clear q := h

theorem poke {a : Nat} {bs : List Byte} (h : d.smc.Clear q) : (d.poke a bs).smc.Clear q := h

theorem setRp {f : Rp → Rp} (h : d.smc.Clear q) : (d.setRp f).smc.Clear q := h

theorem afStart {n : Fin 8} {b : Bool} (h : d.smc.Clear q) : (afStart d n b).smc.Clear q := by
  unfold Machine.afStart
  exact .afPump (.ite (.setLatch (.ite (.setLatch h) h)) (.ite (.setLatch h) h))

theorem serviceStart {n : Fin 8} (h : d.smc.Clear q) : (serviceStart d n).smc.Clear q := by
  exact .setLatch <| .publish <| .afStart <| .setSource <| .bicUpdate <| .foldl .requestBim h

theorem tryStart {n : Fin 8} (h : d.smc.Clear q) : (tryStart d n).smc.Clear q := .ite (.serviceStart h) h

theorem takeLevel {n : Fin 8} (h : d.smc.Clear q) : (takeLevel d n).smc.Clear q := .ite (.publish h) h

theorem endSteps {n : Fin 8} {w : EndReason} {g : Bool} (h : d.smc.Clear q) : (endSteps d n w g).smc.Clear q :=
  .setLatch <| .publish <| .bicUpdate (.foldl .releaseBim h)

theorem serviceEnd {n : Fin 8} {w : EndReason} (h : d.smc.Clear q) : (serviceEnd d n w).smc.Clear q :=
  .ite (.tryStart (.takeLevel (.endSteps h))) (.endSteps h)

theorem withdrawLine {n : Fin 8} (h : d.smc.Clear q) : (withdrawLine d n).smc.Clear q :=
  .ite (.setLatch (.publish h)) (.publish h)

/-! ### Voting and the simulcast reference -/

theorem hardSwitch {e : Fin 8} {r : Fin 32} (h : d.smc.Clear q) : (hardSwitch d e r).smc.Clear q :=
  .ite (.setLatch (.setLatch (.publish h))) (.setLatch (.publish h))

theorem uvRecheck (h : d.smc.Clear q) : (uvRecheck d).smc.Clear q := by
  refine .overAll (fun h => ?_) h
  split
  · exact .ite h (.hardSwitch h)
  · exact h

theorem setHoldFor {r : Fin 32} (h : d.smc.Clear q) : (setHoldFor d r).smc.Clear q := .ite (.publish h) h

theorem reReference (h : d.smc.Clear q) : (reReference d).smc.Clear q :=
  .setLatch <| .publish <| .ofWork (Work.overAll internal_offerHold _) (by decide) <| .uvRecheck <|
    .overAll (fun h => .ite (.setLatch h) h) <| .overAll .setHoldFor h

theorem sruEvaluate (h : d.smc.Clear q) : (sruEvaluate d).smc.Clear q := .ite h (.reReference h)

theorem stopHolding {r : Fin 32} (h : d.smc.Clear q) : (stopHolding d r).smc.Clear q :=
  .ite (.setLatch (.publish h)) (.publish h)

theorem keyingChange {e : Fin 8} {k o : Bool} (h : d.smc.Clear q) : (keyingChange d e k o).smc.Clear q :=
  .ite h (.sruEvaluate h)

/-! ### Take-up outcomes and the route exchange -/

theorem takenUp {t : TableId} {w : BitVec 32} (h : d.smc.Clear q) : (takenUp d t w).smc.Clear q := .setLatch (.publish h)

theorem takeUpRefused {t : TableId} {w : BitVec 32} {i : Nat} {c : TakeUpCause} (h : d.smc.Clear q) :
    (takeUpRefused d t w i c).smc.Clear q := .setLatch (.publish h)

theorem startExchange {new : Routes} {w : BitVec 32} {b : Bool} (h : d.smc.Clear q) :
    (startExchange d new w b).smc.Clear q :=
  .publish <| .ofWork (Work.foldl (fun d r => internal_offerMaps d r _ _) _ _) (by decide) h

theorem switchEvent (h : d.smc.Clear q) : (switchEvent d).smc.Clear q :=
  .bicUpdate <| .sruEvaluate <| .uvRecheck <| .publish <| .overAll .publish <| .setRp <|
    .ofWork (Work.foldl (fun d r => internal_switchOffers d _ _ r) _ _) (by decide) <| .ite (.publish h) (.takenUp h)

theorem takeUpRoute {l : Layout} {w : BitVec 32} (h : d.smc.Clear q) : (takeUpRoute d l w).smc.Clear q := by
  unfold Machine.takeUpRoute
  dsimp only
  split
  · exact .takeUpRefused h
  · exact .startExchange h

/-- A ROUTE word that finds an exchange under way marks its take-up deferred (R186), and changes no clear mask. -/
theorem judgeRoute {l : Layout} {w : BitVec 32} (h : d.smc.Clear false) : (judgeRoute d l w).smc.Clear false :=
  .ite h (.ite ⟨h.1, nofun⟩ (.takeUpRoute h))

/-- Without a deferred mark there is nothing to judge (R186). -/
theorem judgeDeferred (h : d.smc.Clear q) : (judgeDeferred d).smc.Clear q := by
  unfold Machine.judgeDeferred
  split
  · rename_i hd
    cases q with
    | true => exact absurd (h.2 rfl 2) (by simp [hd])
    | false =>
      dsimp only
      split
      · exact .judgeRoute ⟨h.1, nofun⟩
      · exact ⟨h.1, nofun⟩
  · exact h

theorem endExchange (h : d.smc.Clear q) : (endExchange d).smc.Clear q := by
  unfold Machine.endExchange
  dsimp only
  split
  · exact .startExchange (.publish h)
  · exact .judgeDeferred (.publish h)

theorem exchangeMoves : ∀ {k : Nat} {d : Dev}, d.smc.Clear q → (exchangeMoves k d).smc.Clear q
  | 0, _, h => h
  | k + 1, d, h => by
    unfold Machine.exchangeMoves
    split
    · exact h
    · exact .ite h (exchangeMoves (.switchEvent h))
    · exact .ite (exchangeMoves (.endExchange h)) h

theorem exchangeSettle (h : d.smc.Clear q) : (exchangeSettle d).smc.Clear q := .exchangeMoves h

/-! ### Remotes and ports -/

theorem stateShown {r : Fin 32} {o : RemoteState} (h : d.smc.Clear q) : (stateShown d r o).smc.Clear q :=
  .ite h (.setLatch (.publish h))

theorem departed {r : Fin 32} (h : d.smc.Clear q) : (departed d r).smc.Clear q := by
  have hs : (leaveExchange (deliveryDoubt (Machine.stopHolding d r) r) r).smc.Clear q :=
    .ofWork (e := deliveryDoubt _ r) (internal_deliveryDoubt _ r) (by decide) (.stopHolding h)
  unfold Machine.departed
  dsimp only
  split
  · exact .ite (.testEnd hs) hs
  · exact hs

theorem afterDepartures {b : Bool} (h : d.smc.Clear q) : (afterDepartures d b).smc.Clear q :=
  .bicUpdate <| .exchangeSettle <| .ite (.sruEvaluate (.uvRecheck h)) (.uvRecheck h)

theorem loseOne {st : RemoteState} {r : Fin 32} (h : d.smc.Clear q) : (loseOne st d r).smc.Clear q :=
  .departed (.stateShown h)

theorem loseRemotes {st : RemoteState} {rs : List (Fin 32)} (h : d.smc.Clear q) : (loseRemotes d st rs).smc.Clear q :=
  .afterDepartures (.foldl .loseOne h)

theorem updateNear {x : Fin 4} (h : d.smc.Clear q) : (updateNear d x).smc.Clear q :=
  .ite h (.uvRecheck (.setLatch (.publish h)))

theorem portMoves {x : Fin 4} {st : PortState} (h : d.smc.Clear q) : (portMoves d x st).smc.Clear q :=
  have hn := .updateNear (.ite (.setLatch (.publish h)) (.publish h))
  .ite (.loseRemotes hn) hn

/-! ### Table switches and take-ups -/

theorem handKeying {b : Fin 8 → Bool} (h : d.smc.Clear q) : (handKeying d b).smc.Clear q :=
  .overAll (fun h => .ite h (.keyingChange (.setLatch h))) h

theorem handPresence {b : Fin 8 → Bool} (h : d.smc.Clear q) : (handPresence d b).smc.Clear q :=
  .overAll (fun h => .ite h (.setLatch (.publish h))) h

theorem channelSwitch {new : Tab 40 ChanEntry} (h : d.smc.Clear q) : (channelSwitch d new).smc.Clear q :=
  .handPresence <| .handKeying <| .overAll (fun h => .ite h (.publish h)) <| .overAll .publish h

theorem clearAlarms {r : Fin 32} (h : d.smc.Clear q) : (clearAlarms d r).smc.Clear q := .publish h

theorem remoteSwitch {new : Tab 32 RemoteEntry} (h : d.smc.Clear q) : (remoteSwitch d new).smc.Clear q :=
  have ha := .foldl .clearAlarms h
  .bicUpdate <| .sruEvaluate <| .overAll (fun h => .ite h (.offer h)) <| .ite ha (.loseRemotes ha)

theorem programmeSwitch {new : Tab 8 ProgEntry} (h : d.smc.Clear q) : (programmeSwitch d new).smc.Clear q :=
  .overAll (fun h => .ite h (.publish h)) h

theorem rescueSwitch {g : Nat} {new : Tab 8 RescueEntry} (h : d.smc.Clear q) : (rescueSwitch d g new).smc.Clear q :=
  .sruEvaluate h

theorem switchPending {o : SrcEntry} {b : Bool} {n : Fin 8} (h : d.smc.Clear q) : (switchPending o b d n).smc.Clear q := by
  unfold Machine.switchPending
  extract_lets new d1 d2 on d3 c d4
  have h1 : d1.smc.Clear q := .ite (.withdrawLine h) h
  have h2 : d2.smc.Clear q := .ite h1 (.publish h1)
  have h3 : d3.smc.Clear q := .ite (.takeLevel h2) h2
  exact .ite (.ite (.setLatch (.publish h3)) (.publish h3)) h3

theorem sourceSwitch {m : Bool} {new : Tab 8 SrcEntry} (h : d.smc.Clear q) : (sourceSwitch d m new).smc.Clear q :=
  .overAll .tryStart <| .overAll .switchPending <| .overAll (fun h => .ite (.serviceEnd h) h) h

theorem takeUpTable {l : Layout} {t : TableId} {w : BitVec 32} (h : d.smc.Clear q) : (takeUpTable d l t w).smc.Clear q := by
  unfold Machine.takeUpTable
  cases t with
  | channel =>
    dsimp only [takeUpChannel]
    split
    · exact .takeUpRefused h
    · exact .takenUp (.channelSwitch h)
  | remote =>
    dsimp only [takeUpRemote]
    split
    · exact .takeUpRefused h
    · exact .takenUp (.remoteSwitch h)
  | route => exact .takeUpRoute h
  | source => exact .takenUp (.sourceSwitch h)
  | programme => exact .takenUp (.programmeSwitch h)
  | rescue => exact .takenUp (.rescueSwitch h)

theorem judgeTable {l : Layout} {t : TableId} {w : BitVec 32} (h : d.smc.Clear q) : (judgeTable d l t w).smc.Clear q :=
  .ite h (.takeUpTable h)

/-- The judgement of the revision words changes no clear mask (R184). -/
theorem judgeAll {l : Layout} (h : d.smc.Clear false) : (judgeAll d l).smc.Clear false :=
  .judgeTable <| .judgeTable <| .judgeTable <| .exchangeSettle <| .judgeRoute <| .judgeTable <| .judgeTable h

/-! ### Cues and maintenance commands -/

theorem takeCue {l : Layout} {n : Fin 8} (h : d.smc.Clear q) : (takeCue d l n).smc.Clear q := by
  unfold Machine.takeCue
  dsimp only
  split
  · exact h
  · exact .tryStart (.publish h)

theorem snapshotPort {a : Nat} {b : Bool} {x : Fin 4} (h : d.smc.Clear q) : (snapshotPort a b d x).smc.Clear q :=
  .ite (.ofWork (internal_clearPortCounters _ _) (by decide) (.foldl .poke h)) (.foldl .poke h)

theorem portReset {x : Fin 4} (h : d.smc.Clear q) : (portReset d x).smc.Clear q := by
  have hm : (Machine.portMoves d x .dark).smc.Clear q := .portMoves h
  unfold Machine.portReset
  refine .ofWork (internal_clearPortCounters _ _) (by decide) ?_
  split
  · exact .ite (.testEnd hm) hm
  · exact hm

/-- A maintenance command handed to its owner leaves what is clear (R188). -/
theorem takeCommand {l : Layout} (h : d.smc.Clear q) : (takeCommand d l).smc.Clear q := by
  have flash {d : Dev} {k : FlashKind} {c : MaintCell} (h : d.smc.Clear q) : (takeFlash d l k c).smc.Clear q := by
    unfold takeFlash
    split
    · exact .completeMaint h
    · exact .grantPort h
  unfold Machine.takeCommand
  dsimp only
  split
  · exact .ite (.completeMaint h) (.completeMaint (.foldl .snapshotPort h))
  · unfold takePortReset
    split
    · exact .completeMaint (.portReset h)
    · exact .completeMaint h
  · unfold takePatternStart
    split
    · exact .completeMaint h
    · exact .completeMaint (.publish (.offer (.setLane h)))
  · unfold takePatternStop
    split
    · exact .completeMaint h
    · exact .completeMaint (.testEnd h)
  · unfold takeErrorInsert
    split
    · exact .completeMaint h
    · exact h
  · exact .completeMaint (.reReference h)
  · exact flash h
  · exact flash h
  · exact flash h
  · exact .completeMaint h

theorem takePosted {l : Layout} (h : d.smc.Clear q) : (takePosted d l).smc.Clear q := by
  have hc : (Machine.overAll d (fun d (n : Fin 8) =>
      if cellState d.smc.mem (cueAddr l n) = 1 then Machine.takeCue d l n else d)).smc.Clear q :=
    .overAll (fun h => .ite (.takeCue h) h) h
  unfold Machine.takePosted
  exact .ite (.takeCommand hc) hc

end Smc.Clear

end Sys2Proof.Machine
end

section
/-! SUPPORT. A START request (08 section 8.4): what a command under its guard does, what IE leaves alone, and
the take of a request refused (R174) and of one whose anchor passes (R175). -/

namespace Sys2Proof.Machine

open Sys2Proof

/-! ### Commands of the host -/

/-- A command whose guard holds completes with what its action leaves of the device at its event. -/
theorem completes_of_fire {i : Instr} {s : State} {g : Dev → Bool} {f : Dev → Dev} {P : Dev → Prop}
    (hi : exec i s = s.fire g f) (hg : g s.dev = true) (h : P (f s.dev.event)) : Completes i s P :=
  ⟨{ s with dev := f s.dev.event }, by rw [hi, State.fire, if_pos hg]; rfl, rfl, h⟩

@[simp] theorem takeIe_smc (d : Dev) (ie : Bool) : (takeIe d ie).smc = d.smc := by
  unfold takeIe; dsimp only; split <;> rfl

theorem completes_start {s : State} {ie : Bool} {P : Dev → Prop} (hl : s.dev.hp.linkUp = true)
    (h : P (startRequest (takeIe s.dev.event ie))) : Completes (.start ie) s P :=
  completes_of_fire (g := fun d => d.hp.linkUp) (f := fun d => startRequest (takeIe d ie)) rfl hl h

/-! ### The answer to a request (R174, R175) -/

variable {d : Dev}

theorem startRequest_booting (h : d.smc.state = .booting) : startRequest d = setCause d .startEarly := by
  rw [startRequest, if_pos h]

theorem startRequest_refused {c : Cause} (h : d.smc.state ≠ .booting) (hc : anchorCheck d.smc.mem = some c) :
    startRequest d = setPart (setCause (clearWork d) c) .autonomous := by
  rw [startRequest, if_neg h]
  simp only [show (clearWork d).smc.mem = d.smc.mem from rfl, hc]

theorem startRequest_passed (h : d.smc.state ≠ .booting) (hc : anchorCheck d.smc.mem = none) :
    startRequest d = startGood (clearWork d) (anchorLayout d.smc.mem) := by
  rw [startRequest, if_neg h]
  simp only [show (clearWork d).smc.mem = d.smc.mem from rfl, hc]

theorem clearWork_clear : (clearWork d).smc.Clear true :=
  ⟨fun i => Tab.get_const 0 i, fun _ t => Tab.get_const false t⟩

/-! ### Status cells shown anew (R175 step 2) -/

theorem length_flatMap_le (k : Nat) (l : List (BitVec 32)) : (l.flatMap (fun w => le k w.toNat)).length = k * l.length := by
  induction l with
  | nil => rfl
  | cons w l ih => rw [List.flatMap_cons, List.length_append, le_length, ih, List.length_cons]; ring

theorem partFields_length (d : Dev) : (partFields d).length = 60 := by
  unfold partFields
  simp only [List.length_append, le_length, List.length_replicate, length_flatMap_le, d.smc.taken.size_eq]

theorem portFields_length (d : Dev) (x : Fin 4) : (portFields d x).length = 60 := by
  unfold portFields
  simp only [List.length_append, le_length, List.length_replicate]

theorem remoteFields_length (d : Dev) (r : Fin 32) : (remoteFields d r).length = 60 := by
  unfold remoteFields
  simp only [List.length_append, le_length, List.length_replicate]

theorem slotFields_length (d : Dev) (x : Fin 40) : (slotFields d x).length = 60 := by
  unfold slotFields
  simp only [List.length_append, le_length, List.length_replicate, apply_ite List.length, List.length_singleton, ite_self]

theorem sourceFields_length (d : Dev) (n : Fin 8) : (sourceFields d n).length = 60 := by
  unfold sourceFields
  simp only [List.length_append, le_length, List.length_replicate, List.length_map, List.length_finRange]

theorem cellFields_length (d : Dev) (i : Fin 85) : (cellFields d i).length = 60 := by
  unfold cellFields
  split_ifs
  · exact partFields_length d
  · exact portFields_length d _
  · exact remoteFields_length d _
  · exact slotFields_length d _
  · exact sourceFields_length d _

/-- The memory after the part's write of its status cells and news bitmap. -/
theorem writeCells_eq (l : Layout) : ∃ m : Memory, writeCells d l = { d with smc := { d.smc with
      mem := m, latches := Tab.const 85 0, news := Tab.const 85 false } } ∧
    ∀ x, (x < l.status ∨ l.status + 8192 ≤ x) → (x < l.news ∨ l.news + 4096 ≤ x) → m.read x = d.smc.mem.read x := by
  have cells : ∀ (is : List (Fin 85)) (d : Dev), ∃ m : Memory,
      is.foldl (fun d i => d.poke (statusAddr l i) (le 4 0 ++ cellFields d i)) d = { d with smc := { d.smc with mem := m } } ∧
      ∀ x, (x < l.status ∨ l.status + 8192 ≤ x) → m.read x = d.smc.mem.read x := by
    intro is
    induction is with
    | nil => exact fun d => ⟨d.smc.mem, rfl, fun _ _ => rfl⟩
    | cons i is ih =>
      intro d
      obtain ⟨m, hm, hr⟩ := ih (d.poke (statusAddr l i) (le 4 0 ++ cellFields d i))
      refine ⟨m, hm, fun x hx => (hr x hx).trans (Memory.read_write_out _ _ _ _ ?_)⟩
      simp only [List.length_append, le_length, cellFields_length, statusAddr]
      omega
  obtain ⟨m, hm, hr⟩ := cells (allFin 85) d
  refine ⟨m.write l.news (List.replicate 12 0), ?_, fun x hs hn => ?_⟩
  · rw [writeCells, overAll, hm]; rfl
  · rw [Memory.read_write_out _ _ _ _ (by simp only [List.length_replicate]; omega), hr x hs]

/-! ### A START whose anchor passes (R175) -/

/-- The device once the layout is in use, the cells are shown, the part is LINKED and BOOT_DONE is latched and the last requested
revisions are 0 (R175 steps 1 to 5): the revision words are judged next. -/
def startShown (d : Dev) (l : Layout) : Dev :=
  let d := bootDone (setPart (writeCells { d with smc := { d.smc with layout := some l } } l) .linked)
  { d with smc := { d.smc with lastReq := Tab.const 6 0 } }

theorem startGood_eq (d : Dev) (l : Layout) : startGood d l = takePosted (judgeAll (startShown d l) l) l := rfl

/-- The judgement of the words and the take of posted cells keep the part state, the layout and the notices. -/
theorem startGood_fixed (d : Dev) (l : Layout) : (startGood d l).smc.fixed = (startShown d l).smc.fixed := by
  rw [startGood_eq, (takes_takePosted _ l).fixed, (switches_judgeAll _ l).fixed]

/-- BOOT_DONE is latched or nothing is done (R192). -/
theorem bootDone_eq (d : Dev) : bootDone d = d ∨ bootDone d =
    { setLatch d partCell latchBootDone with smc := { (setLatch d partCell latchBootDone).smc with bootMark := false } } := by
  unfold bootDone
  split
  · exact .inr rfl
  · exact .inl rfl

theorem bootDone_smc (d : Dev) : (bootDone d).smc.state = d.smc.state ∧ (bootDone d).smc.layout = d.smc.layout ∧
    (bootDone d).smc.notices = d.smc.notices := by
  have h := internal_setLatch d partCell latchBootDone
  rcases bootDone_eq d with e | e
  · rw [e]; exact ⟨rfl, rfl, rfl⟩
  · rw [e]; exact ⟨h.state_eq, h.layout_eq, h.notices_eq⟩

theorem bootDone_clear {q : Bool} (h : d.smc.Clear q) : (bootDone d).smc.Clear q := by
  rcases bootDone_eq d with e | e
  · rw [e]; exact h
  · rw [e]; exact Smc.Clear.setLatch h

/-- The latch shows in the status cells and the news bitmap alone (R182, R214). -/
theorem bootDone_read {l : Layout} (hl : d.smc.layout = some l) (x : Nat) (hs : x < l.status ∨ l.status + 8192 ≤ x)
    (hn : x < l.news ∨ l.news + 4096 ≤ x) : (bootDone d).smc.mem.read x = d.smc.mem.read x := by
  rcases bootDone_eq d with e | e
  · rw [e]
  · rw [e]
    refine (shown_setLatch d partCell latchBootDone).bytes x (fun k hk i hi => ?_)
    obtain rfl : l = k := by rw [hl] at hk; exact Option.some.inj hk
    have := i.isLt
    simp only [cellBytes, statusAddr]
    omega

theorem startShown_smc (d : Dev) (l : Layout) : (startShown d l).smc.state = .linked ∧ (startShown d l).smc.layout = some l ∧
    (startShown d l).smc.notices = d.smc.notices := by
  obtain ⟨m, hm, -⟩ := writeCells_eq (d := { d with smc := { d.smc with layout := some l } }) l
  obtain ⟨hs, hl, hn⟩ := bootDone_smc (setPart (writeCells { d with smc := { d.smc with layout := some l } } l) .linked)
  refine ⟨hs, hl.trans ?_, hn.trans ?_⟩ <;> rw [hm] <;> rfl

theorem startShown_clear {q : Bool} {l : Layout} (h : d.smc.Clear q) : (startShown d l).smc.Clear q := by
  obtain ⟨m, hm, -⟩ := writeCells_eq (d := { d with smc := { d.smc with layout := some l } }) l
  have hw : (setPart (writeCells { d with smc := { d.smc with layout := some l } } l) .linked).smc.Clear q := by
    rw [hm]; exact h
  exact bootDone_clear hw

/-- The part writes no byte outside its status area and its news bitmap before it judges the words. -/
theorem startShown_read {l : Layout} (x : Nat) (hs : x < l.status ∨ l.status + 8192 ≤ x)
    (hn : x < l.news ∨ l.news + 4096 ≤ x) : (startShown d l).smc.mem.read x = d.smc.mem.read x := by
  obtain ⟨m, hm, hr⟩ := writeCells_eq (d := { d with smc := { d.smc with layout := some l } }) l
  have hl : (setPart (writeCells { d with smc := { d.smc with layout := some l } } l) .linked).smc.layout = some l := by
    rw [hm]; rfl
  refine (bootDone_read hl x hs hn).trans ?_
  rw [hm]; exact hr x hs hn

theorem startGood_smc (d : Dev) (l : Layout) : (startGood d l).smc.state = .linked ∧ (startGood d l).smc.layout = some l ∧
    (startGood d l).smc.notices = d.smc.notices := by
  have h := startGood_fixed d l
  simp only [Smc.fixed, Prod.mk.injEq] at h
  obtain ⟨hs, -, -, hl, hn, -⟩ := h
  rw [hs, hl, hn]
  exact startShown_smc d l

/-- The whole START changes no clear mask. -/
theorem startGood_masks {l : Layout} (h : d.smc.Clear false) : (startGood d l).smc.Clear false := by
  rw [startGood_eq]
  exact .takePosted (.judgeAll (startShown_clear h))

/-! ### Revision words of 0 -/

theorem revisionWord_congr {m k : Memory} {l : Layout}
    (h : ∀ x, l.revision ≤ x → x < l.revision + 4096 → m.read x = k.read x) (t : TableId) :
    revisionWord m l t = revisionWord k l t := by
  have hi := t.index.isLt
  have : m.readN (l.revision + 4 * t.index.val) 4 = k.readN (l.revision + 4 * t.index.val) 4 := by
    refine List.map_congr_left (fun j hj => h _ (by omega) ?_)
    have := List.mem_range.mp hj
    omega
  rw [revisionWord, this, revisionWord]

/-- With every revision word 0 no table is taken up: the exchange alone may move (R184). -/
theorem judgeAll_zero {l : Layout} (h : ∀ t, revisionWord d.smc.mem l t = 0) : judgeAll d l = exchangeSettle d := by
  simp only [judgeAll, judgeTable, judgeRoute, h, true_or, if_true]

/-- A START that finds every revision word 0 makes no deferred mark. -/
theorem startGood_clear {q : Bool} {l : Layout} (h : d.smc.Clear q)
    (hw : ∀ t, revisionWord (startShown d l).smc.mem l t = 0) : (startGood d l).smc.Clear q := by
  rw [startGood_eq, judgeAll_zero hw]
  exact .takePosted (.exchangeSettle (startShown_clear h))

end Sys2Proof.Machine
end

section
/-! SUPPORT. The anchor check (R173): the words of the anchor page, the areas one by one, and extents that
share a byte. -/

namespace Sys2Proof.Machine

open Sys2Proof

/-! ### Extents that share a byte -/

theorem anyMeet_eq_false_iff {l : List (Nat × Nat)} :
    anyMeet l = false ↔ l.Pairwise (fun a b => extentsMeet a b = false) := by
  induction l with
  | nil => simp [anyMeet]
  | cons a l ih => simp [anyMeet, ih]

/-- Two extents that are not empty meet exactly when a byte lies in both. -/
theorem extentsMeet_eq_false_iff {a b : Nat × Nat} (ha : 0 < a.2) (hb : 0 < b.2) :
    extentsMeet a b = false ↔ ∀ x, ¬(a.1 ≤ x ∧ x < a.1 + a.2 ∧ b.1 ≤ x ∧ x < b.1 + b.2) := by
  rw [extentsMeet, decide_eq_false_iff_not]
  constructor
  · rintro h x ⟨h1, h2, h3, h4⟩
    exact h ⟨by omega, by omega⟩
  · rintro h ⟨h1, h2⟩
    exact h (max a.1 b.1) ⟨by omega, by omega, by omega, by omega⟩

theorem Layout.areas_pos {l : Layout} {a : Nat × Nat} (h : a ∈ (0, 4096) :: l.areas) : 0 < a.2 := by
  simp only [Layout.areas, List.mem_cons, List.not_mem_nil, or_false] at h
  rcases h with rfl | rfl | rfl | rfl | rfl | rfl | rfl | rfl | rfl | rfl | rfl | rfl | rfl <;> norm_num

/-- The extents of a layout do not meet exactly when no byte lies in two of them. -/
theorem areas_apart_iff {l : Layout} : anyMeet ((0, 4096) :: l.areas) = false ↔
    ((0, 4096) :: l.areas).Pairwise (fun a b => ∀ x, ¬(a.1 ≤ x ∧ x < a.1 + a.2 ∧ b.1 ≤ x ∧ x < b.1 + b.2)) := by
  rw [anyMeet_eq_false_iff]
  exact List.Pairwise.iff_of_mem (fun ha hb => extentsMeet_eq_false_iff (Layout.areas_pos ha) (Layout.areas_pos hb))

/-- In a layout without overlap the revision area, the status area and the news bitmap lie apart, the last two past the anchor page. -/
theorem areas_apart {l : Layout} (h : anyMeet ((0, 4096) :: l.areas) = false) :
    4096 ≤ l.status ∧ 4096 ≤ l.news ∧ (l.revision + 4096 ≤ l.status ∨ l.status + 8192 ≤ l.revision) ∧
      (l.revision + 4096 ≤ l.news ∨ l.news + 4096 ≤ l.revision) := by
  have meet := List.pairwise_iff_getElem.mp (anyMeet_eq_false_iff.mp h)
  have page_status : extentsMeet (0, 4096) (l.status, 8192) = false := meet 0 4 (by simp) (by simp [Layout.areas]) (by simp)
  have page_news : extentsMeet (0, 4096) (l.news, 4096) = false := meet 0 5 (by simp) (by simp [Layout.areas]) (by simp)
  have revision_status : extentsMeet (l.revision, 4096) (l.status, 8192) = false :=
    meet 1 4 (by simp [Layout.areas]) (by simp [Layout.areas]) (by simp)
  have revision_news : extentsMeet (l.revision, 4096) (l.news, 4096) = false :=
    meet 1 5 (by simp [Layout.areas]) (by simp [Layout.areas]) (by simp)
  simp only [extentsMeet, decide_eq_false_iff_not] at page_status page_news revision_status revision_news
  omega

/-! ### The areas one by one -/

/-- An area on a page boundary and inside the memory (R173). -/
def AreaSound (a : Nat × Nat) : Prop := a.1 % 4096 = 0 ∧ a.1 + a.2 ≤ 67108864

/-- Sound areas do not decide the check. -/
theorem areaCheck_append {before : List (Nat × Nat)} (h : ∀ x ∈ before, AreaSound x) (l : List (Nat × Nat)) :
    areaCheck (before ++ l) = areaCheck l := by
  rw [areaCheck, List.findSome?_append, Option.or_eq_right_of_none, areaCheck]
  refine List.findSome?_eq_none_iff.mpr (fun x hx => ?_)
  obtain ⟨ha, hr⟩ := h x hx
  rw [if_neg (not_not_intro ha), if_neg (by rw [Config.memSize]; omega)]

theorem areaCheck_sound {l : List (Nat × Nat)} (h : ∀ x ∈ l, AreaSound x) : areaCheck l = none := by
  rw [← List.append_nil l, areaCheck_append h]; rfl

theorem areaCheck_misaligned {a : Nat × Nat} (l : List (Nat × Nat)) (h : a.1 % 4096 ≠ 0) :
    areaCheck (a :: l) = some .areaMisaligned := by
  rw [areaCheck, List.findSome?_cons, if_pos h]

theorem areaCheck_outside {a : Nat × Nat} (l : List (Nat × Nat)) (h : a.1 % 4096 = 0) (hr : 67108864 < a.1 + a.2) :
    areaCheck (a :: l) = some .areaOutside := by
  rw [areaCheck, List.findSome?_cons, if_neg (not_not_intro h), if_pos hr]

/-! ### The anchor page (10 section 10.3) -/

theorem word32_eq (m : Memory) (a : Nat) : word32 m a = (m.read a).toNat + 256 * (m.read (a + 1)).toNat +
    65536 * (m.read (a + 2)).toNat + 16777216 * (m.read (a + 3)).toNat := by
  simp only [word32, Memory.readN, List.range_succ, List.range_zero, List.nil_append, List.cons_append, List.map_cons,
    List.map_nil, ofLe, Nat.add_zero]
  omega

theorem anchorLayout_areas (m : Memory) :
    (anchorLayout m).areas = (List.range 12).map (fun k => (word32 m (8 + 4 * k), if k = 3 then 8192 else 4096)) := rfl

section
variable {m : Memory}

theorem anchorCheck_signature (h : word32 m 0 ≠ 0x5A2780A5) : anchorCheck m = some .badSignature := by
  rw [anchorCheck, if_pos h]

theorem anchorCheck_version (h : word32 m 0 = 0x5A2780A5) (hv : word32 m 4 ≠ 1) : anchorCheck m = some .badVersion := by
  rw [anchorCheck, if_neg (not_not_intro h), if_pos hv]

/-- With signature and version in order a failing area gives the code. -/
theorem anchorCheck_area {c : Cause} (h : word32 m 0 = 0x5A2780A5) (hv : word32 m 4 = 1)
    (ha : areaCheck (anchorLayout m).areas = some c) : anchorCheck m = some c := by
  rw [anchorCheck, if_neg (not_not_intro h), if_neg (not_not_intro hv), ha]

/-- With every area sound the overlap decides. -/
theorem anchorCheck_overlap (h : word32 m 0 = 0x5A2780A5) (hv : word32 m 4 = 1) (ha : areaCheck (anchorLayout m).areas = none) :
    anchorCheck m = if anyMeet ((0, 4096) :: (anchorLayout m).areas) then some .areaOverlap else none := by
  rw [anchorCheck, if_neg (not_not_intro h), if_neg (not_not_intro hv), ha]

end

/-! ### A START that is refused, and what each START clears (R174) -/

/-- A START leaves no notice and no clear mask (R174). -/
theorem startRequest_clearsWork {d : Dev} (h : d.smc.state ≠ .booting) :
    (startRequest d).smc.notices = [] ∧ (startRequest d).smc.Clear false := by
  have hc : (clearWork d).smc.Clear false := ⟨clearWork_clear.1, nofun⟩
  cases ha : anchorCheck d.smc.mem with
  | some c => rw [startRequest_refused h ha]; exact ⟨rfl, hc⟩
  | none =>
    rw [startRequest_passed h ha]
    exact ⟨(startGood_smc _ _).2.2, startGood_masks hc⟩

/-- With every revision word 0 a START leaves no deferred mark either: its own writes before the judgement of the words miss the
revision area of an anchor that passes (R173, R174). -/
theorem startRequest_clear {d : Dev} (h : d.smc.state ≠ .booting)
    (hw : ∀ t, revisionWord d.smc.mem (anchorLayout d.smc.mem) t = 0) : (startRequest d).smc.Clear true := by
  cases ha : anchorCheck d.smc.mem with
  | some c => rw [startRequest_refused h ha]; exact clearWork_clear (d := d)
  | none =>
    rw [startRequest_passed h ha]
    refine startGood_clear clearWork_clear (fun t => (revisionWord_congr (fun x h1 h2 => ?_) t).trans (hw t))
    obtain ⟨-, -, hs, hn⟩ := areas_apart (anchorCheck_areas ha).2
    exact startShown_read x (by omega) (by omega)

/-- A request refused with a failing anchor: its code, AUTONOMOUS, and the pending work cleared (R174). -/
theorem completes_start_failing {s : State} {c : Cause} (ie : Bool) (hl : s.dev.hp.linkUp = true) (hb : s.dev.smc.state ≠ .booting)
    (hc : anchorCheck s.dev.smc.mem = some c) : Completes (.start ie) s (fun e =>
      e = { takeIe s.dev.event ie with smc := { s.dev.smc with
        cause := c, state := .autonomous, notices := [], deferred := Tab.const 6 false, masks := Tab.const 85 0 } }) := by
  have hsmc : (takeIe s.dev.event ie).smc = s.dev.smc := takeIe_smc _ _
  refine completes_start hl ?_
  rw [startRequest_refused (by rw [hsmc]; exact hb) (by rw [hsmc]; exact hc), clearWork, hsmc, setCause, setPart]

/-- A request whose anchor passes: LINKED, with the layout of the anchor (R175). -/
theorem completes_start_passing {s : State} (ie : Bool) (hl : s.dev.hp.linkUp = true) (hb : s.dev.smc.state ≠ .booting)
    (hc : anchorCheck s.dev.smc.mem = none) : Completes (.start ie) s (fun e =>
      e.smc.state = .linked ∧ e.smc.layout = some (anchorLayout s.dev.smc.mem)) := by
  have hsmc : (takeIe s.dev.event ie).smc = s.dev.smc := takeIe_smc _ _
  refine completes_start hl ?_
  rw [startRequest_passed (by rw [hsmc]; exact hb) (by rw [hsmc]; exact hc), hsmc]
  obtain ⟨hs, hlay, -⟩ := startGood_smc (clearWork (takeIe s.dev.event ie)) (anchorLayout s.dev.smc.mem)
  exact ⟨hs, hlay⟩

/-- Settles O14: IE alone changes before the request is judged, and a refused request changes the SMC's records alone. -/
theorem startIsRefused : Obligations.StartIsRefused := by
  intro s ie hl
  have hsmc : (takeIe s.dev.event ie).smc = s.dev.smc := takeIe_smc _ _
  refine ⟨fun hb => completes_start hl ?_, fun c hb hc => completes_start_failing ie hl hb hc,
    fun hb => completes_start hl ?_⟩
  · rw [startRequest_booting (by rw [hsmc]; exact hb), setCause, hsmc]
  · rw [← hsmc] at hb ⊢
    obtain ⟨hn, hm⟩ := startRequest_clearsWork hb
    exact ⟨hn, hm.1, fun hw => (startRequest_clear hb hw).2 rfl⟩

end Sys2Proof.Machine
end

section
/-! SUPPORT. The layout in use changes at power-on reset and START alone (R173): one lemma for each operation that is no work of a
block, in the terms of `Work.layout_eq` for those that are. -/

namespace Sys2Proof.Machine

open Sys2Proof

variable (d : Dev)

/-! ### The layout through a boot -/

theorem channelSwitch_layout (new : Tab 40 ChanEntry) : (channelSwitch d new).smc.layout = d.smc.layout := by
  unfold channelSwitch
  dsimp only
  rw [(internal_handPresence _ _).layout_eq, (internal_handKeying _ _).layout_eq]
  exact (Work.overAll (bs := [.smc]) (n := true) (b := true) (w := true) (q := true) (fun d p => Work.ite
    (fun _ => Work.refl _ _) (fun _ => internal_publish _ _ _ (by decide))) _).layout_eq.trans
      (Work.overAll (fun d s => internal_publish d (slotCell s) [(4, 1)] (by decide)) _).layout_eq

theorem handRoutes_layout (b : BootRec) (r : Routes) : (handRoutes d b r).smc.layout = d.smc.layout := by
  unfold handRoutes
  dsimp only
  split
  · rfl
  · rw [(internal_exchangeSettle _).layout_eq, (internal_startExchange _ _ _ _).layout_eq]

theorem layout_ite {p : Prop} [Decidable p] {d e : Dev} (h : e.smc.layout = d.smc.layout) :
    (if p then e else d).smc.layout = d.smc.layout := by
  split
  · exact h
  · rfl

theorem bootTables_layout (b : BootRec) (c : Checked) : (bootTables d b c).smc.layout = d.smc.layout := by
  unfold bootTables
  extract_lets whole some' d1 d2 d3 d4 d5
  calc (if some' = true then handRoutes d5 b c.routes else d5).smc.layout
      = d5.smc.layout := layout_ite (handRoutes_layout d5 _ _)
    _ = d4.smc.layout := layout_ite (switches_rescueSwitch d4 _ _).layout_eq
    _ = d3.smc.layout := layout_ite (switches_programmeSwitch d3 _).layout_eq
    _ = d2.smc.layout := layout_ite (switches_sourceSwitch d2 _ _).layout_eq
    _ = d1.smc.layout := layout_ite (switches_remoteSwitch d1 _).layout_eq
    _ = d.smc.layout := layout_ite (channelSwitch_layout d _)

theorem zeroRevisions_layout (ts : List TableId) : (ts.foldl zeroRevision d).smc.layout = d.smc.layout := by
  induction ts generalizing d with
  | nil => rfl
  | cons t ts ih => exact ih (zeroRevision d t)

theorem readLines_layout : (readLines d).smc.layout = d.smc.layout := by
  unfold readLines
  dsimp only
  rw [(Work.overAll internal_tryStart _).layout_eq]
  exact (Work.overAll (bs := [.bic]) (n := true) (b := true) (w := true) (q := true) (fun d n => Work.ite
    (fun _ => Internal.setSource d n _) (fun _ => Work.refl _ _)) d).layout_eq

theorem bootSwitch_layout (b : BootRec) (o : BootOutcome) (dir : Tab 16 (Option Clip)) :
    (bootSwitch d b o dir).smc.layout = d.smc.layout := by
  unfold bootSwitch
  dsimp only
  rw [(internal_grantPort _).layout_eq, readLines_layout]
  dsimp only [Dev.setFb]
  split
  · rw [zeroRevisions_layout, bootTables_layout]
  · rfl

theorem bootGoes_layout (b : BootRec) : (bootGoes d b).smc.layout = d.smc.layout := by
  rw [bootGoes, (internal_freePort _).layout_eq]; rfl

theorem bootBodyDone_layout (b : BootRec) : (bootBodyDone d b).smc.layout = d.smc.layout := by
  unfold bootBodyDone
  dsimp only
  split
  · exact bootSwitch_layout _ _ _ _
  · exact bootGoes_layout _ _

theorem bootStatusDone_layout (b : BootRec) (x : Byte) : (bootStatusDone d b x).smc.layout = d.smc.layout := by
  unfold bootStatusDone
  split
  · exact bootSwitch_layout _ _ _ _
  · exact bootGoes_layout _ _

theorem bootIdentDone_layout (b : BootRec) (x : Byte) : (bootIdentDone d b x).smc.layout = d.smc.layout := by
  unfold bootIdentDone
  split
  · exact bootSwitch_layout _ _ _ _
  · exact bootGoes_layout _ _

theorem bootHeaderDone_layout (b : BootRec) : (bootHeaderDone d b).smc.layout = d.smc.layout := by
  unfold bootHeaderDone
  dsimp only
  split
  · split
    · exact bootBodyDone_layout _ _
    · exact bootGoes_layout _ _
  · exact bootSwitch_layout _ _ _ _

theorem bootRecordDone_layout (b : BootRec) (n : Nat) : (bootRecordDone d b n).smc.layout = d.smc.layout := by
  unfold bootRecordDone
  dsimp only
  split
  · exact bootGoes_layout _ _
  · exact bootBodyDone_layout _ _

theorem bootDirectoryDone_layout (b : BootRec) : (bootDirectoryDone d b).smc.layout = d.smc.layout := by
  rw [bootDirectoryDone, bootSwitch_layout]

theorem bootEnds_layout (h : Holder) {f : BootRec → Dev} (hf : ∀ b, (f b).smc.layout = d.smc.layout) :
    (bootEnds d h f).smc.layout = d.smc.layout := by
  unfold bootEnds
  split
  · exact (internal_freePort d).layout_eq
  · split
    · exact hf _
    · exact (internal_freePort d).layout_eq

theorem bootStart_layout (sc : Scope) : (bootStart d sc).smc.layout = d.smc.layout := by
  rw [bootStart, (internal_grantPort _).layout_eq]; rfl

/-! ### The layout through flash work -/

theorem flashWorkOver_layout (j : FlashJob) : (flashWorkOver d j).smc.layout = d.smc.layout := by
  unfold flashWorkOver
  split
  · rw [(internal_freePort _).layout_eq, (internal_setFlashJob _ _).layout_eq]
  · rw [(internal_freePort _).layout_eq, (internal_completeJob _ _).layout_eq]; rfl

theorem flashWorkGoes_layout (j : FlashJob) : (flashWorkGoes d j).smc.layout = d.smc.layout := by
  unfold flashWorkGoes
  split
  · exact flashWorkOver_layout _ _
  · rw [(internal_freePort _).layout_eq, (internal_setFlashJob _ _).layout_eq]

theorem maintReadDone_layout (j : FlashJob) (o a n : Nat) : (maintReadDone d j o a n).smc.layout = d.smc.layout := by
  rw [maintReadDone, flashWorkGoes_layout]; rfl

theorem programDone_layout (j : FlashJob) (o : Nat) (b : List Byte) : (programDone d j o b).smc.layout = d.smc.layout := by
  rw [programDone, flashWorkGoes_layout]; rfl

theorem eraseDone_layout (j : FlashJob) (o : Nat) : (eraseDone d j o).smc.layout = d.smc.layout := by
  rw [eraseDone, flashWorkGoes_layout]; rfl

theorem flashTimedOut_layout (j : FlashJob) (t : Txn) : (flashTimedOut d j t).smc.layout = d.smc.layout := by
  rw [flashTimedOut, flashWorkOver_layout]; rfl

theorem statusDone_layout (x : Byte) : (statusDone d x).smc.layout = d.smc.layout := by
  have busy (t : Txn) : (busyClear d t).smc.layout = d.smc.layout := by
    unfold busyClear
    split
    · exact programDone_layout _ _ _ _
    · exact eraseDone_layout _ _ _
    · rfl
  unfold statusDone
  split
  · rfl
  · split
    · exact bootEnds_layout d _ (fun b => bootStatusDone_layout d b x)
    · split
      · rfl
      · exact busy _
    · split
      · rfl
      · exact busy _
    all_goals rfl

theorem reloadDone_layout (j : FlashJob) : (reloadDone d j).smc.layout = d.smc.layout := by
  unfold reloadDone
  dsimp only
  rw [(internal_freePort _).layout_eq, (internal_completeJob _ _).layout_eq, (internal_setLatch _ _ _).layout_eq]; rfl

theorem clipDone_layout (n : Fin 8) (r : ClipRead) (x : Bool) : (clipDone d n r x).smc.layout = d.smc.layout := by
  unfold clipDone
  dsimp only
  rw [(internal_grantPort _).layout_eq]
  split
  · rfl
  · rw [(internal_clipArrived _ _ _).layout_eq]; rfl

/-! ### The layout through audio and lines -/

theorem sharedBlock_layout (n : Fin 8) : (sharedBlock d n).smc.layout = d.smc.layout := by
  unfold sharedBlock
  dsimp only
  split
  · exact (internal_clipArrived _ _ _).layout_eq
  all_goals rfl

theorem setLine_layout (i : Fin 3) (v : Bool) : (setLine d i v).smc.layout = d.smc.layout :=
  (internal_publishPending _ _).layout_eq

/-! ### The layout through host commands -/

/-- A host write marks at most the overrun of a command in flight beside what it stores (R190). -/
theorem markOverrun_eq (a n : Nat) : ∃ o, markOverrun d a n = { d with smc := { d.smc with overrun := o } } := by
  unfold markOverrun
  split
  · split
    · exact ⟨true, rfl⟩
    · exact ⟨d.smc.overrun, rfl⟩
  · exact ⟨d.smc.overrun, rfl⟩

theorem hostWrite_layout (a : Nat) (bs : List Byte) : (hostWrite d a bs).smc.layout = d.smc.layout := by
  obtain ⟨o, ho⟩ := markOverrun_eq d a bs.length
  unfold hostWrite
  rw [ho]
  dsimp only
  split <;> rfl

theorem linkLost_layout : (linkLost d).smc.layout = d.smc.layout := by
  unfold linkLost
  dsimp only
  split <;> rfl

theorem softResetRequest_layout (sc : Scope) : (softResetRequest d sc).smc.layout = d.smc.layout := by
  unfold softResetRequest
  split
  · rfl
  · dsimp only
    rw [bootStart_layout, (internal_clearVoters _).layout_eq, (internal_resetSources _).layout_eq]; rfl

theorem cueTake_layout {f : Dev → Layout → Fin 8 → Dev} (h : ∀ d l n, (f d l n).smc.layout = d.smc.layout) :
    (cueTake d f).smc.layout = d.smc.layout := by
  unfold cueTake
  split
  · exact h _ _ _
  · rfl

theorem commandTake_layout {bs : List Block} {f : Dev → Layout → MaintCell → Dev} (h : ∀ d l c, Takes bs d (f d l c)) :
    (commandTake f d).smc.layout = d.smc.layout := by
  unfold commandTake
  split
  · exact (h _ _ _).layout_eq
  · rfl

/-! ### The layout through one command -/

/-- The layout stands from `d` to `e`. -/
structure KeepsLayout (d e : Dev) : Prop where
  eq : e.smc.layout = d.smc.layout

/-- What the action of a command keeps, the command keeps. -/
theorem fire_layout {s t : State} {g : Dev → Bool} {f : Dev → Dev} (h : s.fire g f = .next t)
    (hf : ∀ d, KeepsLayout d (f d)) : t.dev.smc.layout = s.dev.smc.layout := by
  cases h
  split
  · exact (hf _).eq
  · rfl

/-- A command other than power-on reset and START keeps the layout (R173). -/
theorem exec_layout {i : Instr} {s t : State} (h : exec i s = .next t) :
    t.dev.smc.layout = s.dev.smc.layout ∨ i = .powerOnReset ∨ ∃ ie, i = .start ie := by
  unfold exec at h
  cases i <;> dsimp only at h
  case powerOnReset => exact .inr (.inl rfl)
  case start ie => exact .inr (.inr ⟨ie, rfl⟩)
  case pcieLinkLoss => exact .inl (fire_layout h fun d => ⟨linkLost_layout d⟩)
  case pcieLinkReturn => exact .inl (fire_layout h fun _ => ⟨rfl⟩)
  case hostMemoryWrite addr data =>
    unfold execHostMemoryWrite at h
    split at h
    · cases h
    · exact .inl (fire_layout h fun d => ⟨hostWrite_layout d _ _⟩)
  case ieWrite ie => exact .inl (fire_layout h fun d => ⟨by rw [takeIe_smc]⟩)
  case softReset ie scope => exact .inl (fire_layout h fun d => ⟨by rw [softResetRequest_layout, takeIe_smc]⟩)
  case registerWriteIgnored o v => cases h; exact .inl rfl
  case revisionNoticeTake =>
    refine .inl (fire_layout h fun d => ⟨?_⟩)
    split
    · exact (switches_judgeAll _ _).layout_eq
    · rfl
  case cue => exact .inl (fire_layout h fun d => ⟨cueTake_layout d fun d l n => (takes_takeCue d l n).layout_eq⟩)
  case cancel => exact .inl (fire_layout h fun d => ⟨cueTake_layout d fun d l n => (takes_takeCancel d l n).layout_eq⟩)
  case cueCellNoAction => exact .inl (fire_layout h fun d => ⟨cueTake_layout d fun _ _ _ => rfl⟩)
  case clearOnes =>
    refine .inl (fire_layout h fun d => ⟨?_⟩)
    split
    · exact (work_applyMask _ _).layout_eq
    all_goals rfl
  case snapshot => exact .inl (fire_layout h fun d => ⟨commandTake_layout d takes_takeSnapshot⟩)
  case portReset => exact .inl (fire_layout h fun d => ⟨commandTake_layout d takes_takePortReset⟩)
  case patternStart => exact .inl (fire_layout h fun d => ⟨commandTake_layout d takes_takePatternStart⟩)
  case patternStop => exact .inl (fire_layout h fun d => ⟨commandTake_layout d takes_takePatternStop⟩)
  case errorInsert => exact .inl (fire_layout h fun d => ⟨commandTake_layout d takes_takeErrorInsert⟩)
  case rereference => exact .inl (fire_layout h fun d => ⟨commandTake_layout d takes_takeRereference⟩)
  case flashRead => exact .inl (fire_layout h fun d => ⟨commandTake_layout d fun d l => takes_takeFlash d l .read⟩)
  case flashWrite => exact .inl (fire_layout h fun d => ⟨commandTake_layout d fun d l => takes_takeFlash d l .write⟩)
  case flashErase => exact .inl (fire_layout h fun d => ⟨commandTake_layout d fun d l => takes_takeFlash d l .erase⟩)
  case badCommand => exact .inl (fire_layout h fun d => ⟨commandTake_layout d fun d _ _ => takes_completeMaint d _ _ _⟩)
  case maintNoticeNoAction => exact .inl (fire_layout h fun _ => ⟨rfl⟩)
  case frameLaunch => exact .inl (fire_layout h fun d => ⟨(internal_launchFrames d).layout_eq⟩)
  case alignmentWord port good => exact .inl (fire_layout h fun d => ⟨(internal_alignmentWord d _ _).layout_eq⟩)
  case lightAndLock port => exact .inl (fire_layout h fun d => ⟨(internal_portMoves d _ _).layout_eq⟩)
  case lossOfLightOrLock port => exact .inl (fire_layout h fun d => ⟨(internal_lightLost d _).layout_eq⟩)
  case codeViolation port => exact .inl (fire_layout h fun d => ⟨(internal_countCodeViolation d _).layout_eq⟩)
  case uplinkWordArrival port word => exact .inl (fire_layout h fun d => ⟨(internal_wordArrives d _ _).layout_eq⟩)
  case fifoRead => exact .inl (fire_layout h fun d => ⟨(internal_readInstant d).layout_eq⟩)
  case echo remote seq turnaround => exact .inl (fire_layout h fun d =>
      ⟨(internal_echoTaken _ _ _ _).layout_eq.trans (internal_validMessage d _).layout_eq⟩)
  case ack remote kind key seq => exact .inl (fire_layout h fun d =>
      ⟨(internal_ackTaken _ _ _ _ _).layout_eq.trans (internal_validMessage d _).layout_eq⟩)
  case quality remote slot q => exact .inl (fire_layout h fun d =>
      ⟨(Internal.setVoter _ _ _).layout_eq.trans (internal_validMessage d _).layout_eq⟩)
  case alarm remote paFault overTemp => exact .inl (fire_layout h fun d =>
      ⟨(internal_alarmTaken _ _ _ _).layout_eq.trans (internal_validMessage d _).layout_eq⟩)
  case pcount remote value => exact .inl (fire_layout h fun d =>
      ⟨(internal_pcountTaken _ _ _).layout_eq.trans (internal_validMessage d _).layout_eq⟩)
  case controlCheckFailure remote => exact .inl (fire_layout h fun d => ⟨(internal_checkFailure d _).layout_eq⟩)
  case ackTimerExpiry remote id => exact .inl (fire_layout h fun d => ⟨(internal_ackExpiry d _ _).layout_eq⟩)
  case nextMarkOffer remote => exact .inl (fire_layout h fun d => ⟨(internal_offer _ _ _).layout_eq⟩)
  case markerRecordExpiry remote => exact .inl (fire_layout h fun d => ⟨(internal_markerMiss _ _).layout_eq⟩)
  case silenceTimerExpiry remote => exact .inl (fire_layout h fun d => ⟨(internal_loseRemotes d _ _).layout_eq⟩)
  case joinTimerExpiry remote => exact .inl (fire_layout h fun d =>
      ⟨(internal_setLatch _ _ _).layout_eq.trans (internal_joinStart d _).layout_eq⟩)
  case supervisionWindowClose => exact .inl (fire_layout h fun d => ⟨(internal_superviseAll d).layout_eq⟩)
  case levelWindowClose => exact .inl (fire_layout h fun d => ⟨(internal_windowClose d).layout_eq⟩)
  case stagingTimerExpiry => exact .inl (fire_layout h fun d =>
      ⟨(internal_exchangeSettle _).layout_eq.trans (internal_switchEvent d).layout_eq⟩)
  case votingFrameEnd slot => exact .inl (fire_layout h fun d => ⟨(internal_frameEnd d _).layout_eq⟩)
  case reachSettleExpiry source =>
    refine .inl (fire_layout h fun d => ⟨?_⟩)
    dsimp only
    split
    · rfl
    · exact (internal_setLatch _ _ _).layout_eq
  case playInstant source => exact .inl (fire_layout h fun d => ⟨(internal_playInstant d _).layout_eq⟩)
  case audSampleArrival input value => exact .inl (fire_layout h fun d => ⟨(internal_lineSample d _ _).layout_eq⟩)
  case sharedClipBlockDone source => exact .inl (fire_layout h fun d => ⟨sharedBlock_layout d _⟩)
  case lineRisingEdge line =>
    refine .inl (fire_layout h fun d => ⟨?_⟩)
    dsimp only
    split
    · exact setLine_layout d _ _
    · exact (internal_lineRise _ _).layout_eq.trans (setLine_layout d _ _)
  case lineFallingEdge line =>
    refine .inl (fire_layout h fun d => ⟨?_⟩)
    dsimp only
    split
    · exact setLine_layout d _ _
    · exact (internal_lineFall _ _).layout_eq.trans (setLine_layout d _ _)
  case flashStatusReadDone status => exact .inl (fire_layout h fun d => ⟨statusDone_layout d _⟩)
  case flashIdentReadDone b0 b1 b2 =>
    refine .inl (fire_layout h fun d => ⟨?_⟩)
    split
    · exact bootEnds_layout d _ fun b => bootIdentDone_layout d b _
    · rfl
  case bootHeaderReadDone =>
    refine .inl (fire_layout h fun d => ⟨?_⟩)
    split
    · exact bootEnds_layout d _ fun b => bootHeaderDone_layout d b
    · rfl
  case bootRecord =>
    refine .inl (fire_layout h fun d => ⟨?_⟩)
    split
    · exact bootEnds_layout d _ fun b => bootRecordDone_layout d b _
    · rfl
  case bootDirectoryReadDone =>
    refine .inl (fire_layout h fun d => ⟨?_⟩)
    split
    · exact bootEnds_layout d _ fun b => bootDirectoryDone_layout d b
    · rfl
  case clipReadDone =>
    refine .inl (fire_layout h fun d => ⟨?_⟩)
    split
    · exact clipDone_layout d _ _ _
    · rfl
  case flashReadDataDone =>
    refine .inl (fire_layout h fun d => ⟨?_⟩)
    split
    · exact maintReadDone_layout d _ _ _ _
    · rfl
  case pageProgramDone =>
    refine .inl (fire_layout h fun d => ⟨?_⟩)
    split
    · exact programDone_layout d _ _ _
    · rfl
  case sectorEraseDone =>
    refine .inl (fire_layout h fun d => ⟨?_⟩)
    split
    · exact eraseDone_layout d _ _
    · rfl
  case flashTimeout =>
    refine .inl (fire_layout h fun d => ⟨?_⟩)
    split
    · exact flashTimedOut_layout d _ _
    · rfl
  case directoryReloadDone =>
    refine .inl (fire_layout h fun d => ⟨?_⟩)
    split
    · exact reloadDone_layout d _
    · rfl
  case donorSample di0 di1 => exact .inl (fire_layout h fun d => ⟨(internal_donorSample d _ _).layout_eq⟩)

end Sys2Proof.Machine
end

section
/-! SUPPORT. Host writes to the anchor page, and the anchor check against R173's own words. -/

namespace Sys2Proof.Machine

open Sys2Proof

/-! ### A host write to the anchor page (R178) -/

/-- Bytes written read back as written. -/
theorem Memory.readN_write (m : Memory) (a : Nat) (bs : List Byte) : (m.write a bs).readN a bs.length = bs := by
  refine List.ext_getElem (by simp [Memory.readN]) (fun k hk hb => ?_)
  simp only [Memory.readN, List.getElem_map, List.getElem_range, Memory.read_write_in m a bs k hb]
  exact List.getD_eq_getElem _ _ hb

/-- Outside the status area and the news bitmap the bytes reach memory as written (R178, R180). -/
theorem storedBytes_unguarded {m : Memory} {l : Layout} {a : Nat} {bs : List Byte}
    (h : ∀ k, k < bs.length → guarded l (a + k) = false) : storedBytes m l a bs = bs := by
  refine List.ext_getElem (by simp [storedBytes]) (fun k hk hb => ?_)
  simp [storedBytes, h k hb]

/-- The areas of a layout in use lie past the anchor page, so the part guards no byte of it (R173, R178). -/
theorem guarded_anchorPage {l : Layout} (h : anyMeet ((0, 4096) :: l.areas) = false) {x : Nat} (hx : x < 4096) :
    guarded l x = false := by
  obtain ⟨hs, hn, -⟩ := areas_apart h
  simp only [guarded, Bool.or_eq_false_iff, decide_eq_false_iff_not]
  omega

theorem hostWrite_anchorPage {d : Dev} (hd : LayoutInv d) {a : Nat} {bs : List Byte} (ha : a + bs.length ≤ 4096) :
    (hostWrite d a bs).smc.mem = d.smc.mem.write a bs := by
  obtain ⟨o, ho⟩ := markOverrun_eq d a bs.length
  unfold hostWrite
  rw [ho]
  dsimp only
  split
  · rename_i l _ hl
    have hg : ∀ k, k < bs.length → guarded l (a + k) = false := fun k hk => guarded_anchorPage (hd l hl).2 (by omega)
    simp only [storedBytes_unguarded hg]
  · rfl

theorem completes_hostMemoryWrite {s : State} {a : Nat} {bs : List Byte} {P : Dev → Prop} (hl : s.dev.hp.linkUp = true)
    (ha : a + bs.length ≤ 67108864) (h : P (hostWrite s.dev.event a bs)) : Completes (.hostMemoryWrite a bs) s P := by
  have hi : exec (.hostMemoryWrite a bs) s = s.fire (fun d => d.hp.linkUp) (fun d => hostWrite d a bs) :=
    if_neg (by rw [Config.memSize]; omega)
  exact completes_of_fire hi hl h

/-! ### The anchor check in the words of R173 -/

/-- Settles O15: each step of the check is decided by its own clause of R173, a START follows the check, and every command but
power-on reset and START is work that keeps the layout. -/
theorem anchorPassesExactlyWhenSound : Obligations.AnchorPassesExactlyWhenSound := by
  refine ⟨fun i s t h hne => (exec_layout h).resolve_left hne, fun s a bs hl hi _ ha => ?_, fun m => ?_⟩
  · refine completes_hostMemoryWrite hl (by omega) ?_
    have hw := hostWrite_anchorPage (d := s.dev.event) hi ha
    rw [hw]
    exact Memory.readN_write _ a bs
  · intro word areas sound apart headed
    have hword : ∀ a, word a = word32 m a := fun a => (word32_eq m a).symm
    have hareas : areas = (anchorLayout m).areas := by
      rw [anchorLayout_areas]
      simp only [areas, hword]
    have hmeet : apart ↔ anyMeet ((0, 4096) :: (anchorLayout m).areas) = false := by
      rw [areas_apart_iff, ← hareas]
    clear_value areas
    simp only [hword, headed]
    refine ⟨anchorCheck_signature, anchorCheck_version, fun ⟨hsig, hver⟩ before a after hb hs => ?_,
      fun ⟨hsig, hver⟩ hs => ?_, fun s ie hm hl hb => ?_⟩
    · have hcheck : areaCheck (anchorLayout m).areas = areaCheck (a :: after) := by
        rw [← hareas, hb, areaCheck_append hs]
      exact ⟨fun h => anchorCheck_area hsig hver (hcheck.trans (areaCheck_misaligned after h)),
        fun h hr => anchorCheck_area hsig hver (hcheck.trans (areaCheck_outside after h hr))⟩
    · rw [anchorCheck_overlap hsig hver (areaCheck_sound (hareas ▸ hs)), hmeet]
      cases anyMeet ((0, 4096) :: (anchorLayout m).areas) <;> simp
    · subst hm
      refine ⟨fun c hc => ?_, fun hc => ?_⟩
      · obtain ⟨t, ht, hp, he⟩ := completes_start_failing ie hl hb hc
        exact ⟨t, ht, hp, by rw [he]; exact ⟨rfl, rfl, rfl⟩⟩
      · obtain ⟨t, ht, hp, hs, hlay⟩ := completes_start_passing ie hl hb hc
        exact ⟨t, ht, hp, hs, _, hlay, by rw [hareas]; rfl⟩

end Sys2Proof.Machine
end
